-- ==== Sys2Proof/Word.lean ====
section
/-! DEFINITION. The word types of the command interface and of the byte streams (spec/00 R11, R16; spec/20 R84). -/

namespace Sys2Proof

/-- An 8-bit byte of a stream (spec/20 R84). -/
abbrev Byte := BitVec 8

/-- A 16-bit field of a ZIP record (spec/30 R150 to R152). -/
abbrev Half := BitVec 16

/-- A 32-bit command-interface register or ZIP field (spec/00 R11). -/
abbrev Word := BitVec 32

/-- A byte sequence: a stream, an image or a name (spec/10 R33, spec/20 R80). -/
abbrev Bytes := List Byte

end Sys2Proof
end

