-- ==== Sys2Proof/Config.lean ====
section
/-! DEFINITION. The OPEN parameters of spec/00 R10 as plain data, and the free values: constants with no body, of which
no proof can know more than their type.

The parameters stand in a field of State (log 2), so that every claim about all states is a claim about all their
values, while a run from State.reset, which holds the reference values, can still be evaluated. -/

namespace Sys2Proof

/-- `MATCH_CANDIDATES` (spec/00 R10, spec/43 R322, D18): which of the window's candidates an engine looks at. -/
inductive MatchCandidates where
  /-- The reference value `EXHAUSTIVE`: every candidate of R322. -/
  | exhaustive
  /-- The `n` most recent candidates: a hash chain of depth `n` (`n = 1` is the source's "fast" engine, spec/90 C4). -/
  | mostRecent (n : Nat)
  /-- Any other engine, known only by a number: the candidates that `Config.engineAdmits` lets through (log 3). -/
  | engine (id : Nat)
  deriving DecidableEq, Repr

/-- `CODE_LENGTH_BUILDER` (spec/00 R10, spec/42 R299, D13): who chooses the code lengths of a dynamic block. -/
inductive CodeLengthBuilder where
  /-- The reference value: package-merge (spec/42 R300 to R305). -/
  | packageMerge
  /-- Any other builder, known only by a number: `Config.builderLengths`, held to R299 (log 3). -/
  | builder (id : Nat)
  deriving DecidableEq, Repr

/-- What one compression level asks of the encoder. -/
structure LevelChoice where
  candidates : MatchCandidates
  builder    : CodeLengthBuilder
  deriving DecidableEq, Repr

/-- `LEVEL_POLICY` (spec/00 R10, spec/44 R351, D19): what levels 1 to 9 change (log 4). -/
inductive LevelPolicy where
  /-- The reference value: levels 1 to 9 are identical. -/
  | identical
  /-- A choice for each level, level 1 first; a level the list does not reach is as in `identical`. -/
  | perLevel (choices : List LevelChoice)
  deriving DecidableEq, Repr

/-- The OPEN parameters of spec/00 R10. -/
structure Params where
  /-- `MAX_STREAM_BYTES`, the capacity of every byte stream (D41, spec/60 R531). -/
  maxStreamBytes    : Nat
  /-- `MATCH_CANDIDATES`. -/
  matchCandidates   : MatchCandidates
  /-- `CODE_LENGTH_BUILDER`. -/
  codeLengthBuilder : CodeLengthBuilder
  /-- `LEVEL_POLICY`. -/
  levelPolicy       : LevelPolicy
  deriving DecidableEq, Repr

/-- DESIGN CHOICE, log 2, unsafe: the parameters a run from reset has. MAX_STREAM_BYTES is OPEN (any positive value is
legal); the value here is the largest size spec/20 R84 gives the archive image. The others are the reference values. -/
def Params.reference : Params where
  maxStreamBytes    := 4294967295
  matchCandidates   := .exhaustive
  codeLengthBuilder := .packageMerge
  levelPolicy       := .identical

/-- FREE VALUE, log 3: whether engine `id` looks at candidate position `c` when it matches position `p` of a byte
sequence (spec/43 R322 leaves the engine open). -/
opaque Config.engineAdmits (id : Nat) (data : Bytes) (p c : Nat) : Bool

/-- FREE VALUE, log 3: the lengths builder `id` proposes for a frequency list and a maximum length (spec/42 R299). -/
opaque Config.builderLengths (id : Nat) (freqs : List Nat) (maxLen : Nat) : List Nat

end Sys2Proof
end

