-- ==== Sys2Proof/Syntax.lean ====
section
/-! DEFINITION. The instructions: one constructor per row of spec/opcode_table.json. The 46 commands of spec/30 R112 come
first, with the command-word fields each one uses (R110), then the ten wire-format rows with their formats' operands. -/

namespace Sys2Proof

/-- A ZIP local file header with its variable part (spec/30 R150). The two length fields are the lengths of `name` and
`extra`. -/
structure LocalRecord where
  version : Half
  flags   : Half
  method  : Half
  time    : Half
  date    : Half
  crc     : Word
  csize   : Word
  usize   : Word
  name    : Bytes
  extra   : Bytes
  deriving DecidableEq, Repr

/-- A ZIP central-directory record with its variable part (spec/30 R151). The three length fields are the lengths of
`name`, `extra` and `comment`. -/
structure CentralRecord where
  madeBy    : Half
  version   : Half
  flags     : Half
  method    : Half
  time      : Half
  date      : Half
  crc       : Word
  csize     : Word
  usize     : Word
  diskStart : Half
  intAttr   : Half
  extAttr   : Word
  offset    : Word
  name      : Bytes
  extra     : Bytes
  comment   : Bytes
  deriving DecidableEq, Repr

/-- A ZIP end-of-central-directory record with its comment (spec/30 R152). The comment length field is the length of
`comment`. -/
structure EocdRecord where
  disk     : Half
  cdDisk   : Half
  nThis    : Half
  nTotal   : Half
  cdSize   : Word
  cdOffset : Word
  comment  : Bytes
  deriving DecidableEq, Repr

/-- The instructions of the opcode table. -/
inductive Instr where
  -- system (spec/60, spec/70)
  | nop
  | coreReset
  | statusClear
  | outClear
  -- bit_packer (spec/40)
  | bpReset
  | bpWriteBits (n : BitVec 6)
  | bpWriteByte
  | bpWriteBytes
  | bpAlign
  -- bit_unpacker (spec/40)
  | buLoad
  | buReset
  | buReadBits (n : BitVec 6)
  | buPeekBits (n : BitVec 6)
  | buSkipBits
  | buAlign
  | buPosition
  | buRemaining
  -- checksums (spec/41)
  | adlerSeed
  | adlerUpdate
  | adlerRead
  | crcSeed
  | crcUpdate
  | crcRead
  -- huffman_coder and huffman_decoder (spec/42)
  | hufBuild (slot : BitVec 2)
  | hufLoadFixed
  | hufEncode (slot : BitVec 2)
  | hufDecode (slot : BitVec 2)
  | hufQuery (slot : BitVec 2)
  -- lz77_matcher (spec/43)
  | lzTokenize
  | lzPop
  | lzCount
  -- deflate_encoder (spec/44)
  | deflate (level : BitVec 4) (wrap : Bool)
  -- inflate_decoder (spec/45)
  | inflateStart (wrap : Bool)
  | inflateFeed
  | inflateRun
  -- zip_container_codec (spec/46)
  | zipOpenRead
  | zipLocateEocd
  | zipEntryInfo (n : BitVec 6)
  | zipEntryName
  | zipExtract
  | zipCreate
  | zipOpenAppend
  | zipAddFile (level : BitVec 4) (store : Bool)
  | zipAddDir
  | zipFinalize
  | zipClose
  -- wire formats (spec/30): the byte that holds a 3-bit block header at its start (BFINAL, then the five bits after the
  -- header, which are the first bits of the block's body), the zlib header, the ZIP records, the token words
  | blockStored (final : Bool) (body : BitVec 5)
  | blockFixed (final : Bool) (body : BitVec 5)
  | blockDynamic (final : Bool) (body : BitVec 5)
  | blockReserved (final : Bool) (body : BitVec 5)
  | zlibHeader
  | zipLocalHeader (r : LocalRecord)
  | zipCentralHeader (r : CentralRecord)
  | zipEocd (r : EocdRecord)
  | lzTokenLiteral (byte : BitVec 8)
  | lzTokenMatch (length : BitVec 9) (distance : BitVec 16)
  deriving DecidableEq, Repr

/-- What reaches the block: a word written to `CMD` (spec/30 R110), or a wire item, the bytes of one of the formats of
spec/30 sections 2 to 4 (log 7). -/
inductive Packet where
  | cmd (w : Word)
  | wire (bytes : Bytes)
  deriving DecidableEq, Repr

end Sys2Proof
end

