-- ==== Sys2Proof/WellFormed.lean ====
section
/-! DEFINITION. What an instruction must meet to have an encoding. A command's fields are bounded by their types (spec/30
R110), so every command is well formed; the ZIP records' variable parts must fit their 16-bit length fields (R150 to
R152), and a token must be in range (R118). -/

namespace Sys2Proof

/-- A 16-bit length field can hold the length of `b` (spec/30 R150 to R152). -/
def fits16 (b : Bytes) : Bool := b.length < 65536

/-- Well-formedness of an instruction. -/
def Instr.wf : Instr → Bool
  | .zipLocalHeader r => fits16 r.name && fits16 r.extra
  | .zipCentralHeader r => fits16 r.name && fits16 r.extra && fits16 r.comment
  | .zipEocd r => fits16 r.comment
  | .lzTokenMatch k d => 3 ≤ k.toNat && k.toNat ≤ 258 && 1 ≤ d.toNat && d.toNat ≤ 32768
  | .nop | .coreReset | .statusClear | .outClear => true
  | .bpReset | .bpWriteBits _ | .bpWriteByte | .bpWriteBytes | .bpAlign => true
  | .buLoad | .buReset | .buReadBits _ | .buPeekBits _ | .buSkipBits | .buAlign | .buPosition | .buRemaining => true
  | .adlerSeed | .adlerUpdate | .adlerRead | .crcSeed | .crcUpdate | .crcRead => true
  | .hufBuild _ | .hufLoadFixed | .hufEncode _ | .hufDecode _ | .hufQuery _ => true
  | .lzTokenize | .lzPop | .lzCount => true
  | .deflate _ _ => true
  | .inflateStart _ | .inflateFeed | .inflateRun => true
  | .zipOpenRead | .zipLocateEocd | .zipEntryInfo _ | .zipEntryName | .zipExtract => true
  | .zipCreate | .zipOpenAppend | .zipAddFile _ _ | .zipAddDir | .zipFinalize | .zipClose => true
  | .blockStored _ _ | .blockFixed _ _ | .blockDynamic _ _ | .blockReserved _ _ => true
  | .zlibHeader | .lzTokenLiteral _ => true

end Sys2Proof
end

