-- ==== Sys2Proof/Decode.lean ====
section
/-! DEFINITION. Byte order, field reads, the decoder of command words (spec/30 R110 to R113) and of wire items (spec/30
sections 2 to 4), the encoder, and the reading of a word of spec/opcode_table.json. -/

namespace Sys2Proof

/-! ## Byte order and field reads (spec/20 R83, R86) -/

/-- The bytes of a 16-bit field, little-endian (R83). -/
def u16le (x : Half) : Bytes := [x.extractLsb' 0 8, x.extractLsb' 8 8]

/-- The bytes of a 32-bit field, little-endian (R83). -/
def u32le (x : Word) : Bytes :=
  [x.extractLsb' 0 8, x.extractLsb' 8 8, x.extractLsb' 16 8, x.extractLsb' 24 8]

/-- The bytes of a 32-bit value, most significant first: the zlib trailer (R86). -/
def u32be (x : Word) : Bytes :=
  [x.extractLsb' 24 8, x.extractLsb' 16 8, x.extractLsb' 8 8, x.extractLsb' 0 8]

/-- Byte `o` of a sequence; every use is at an offset inside it. -/
def byteAt (bs : Bytes) (o : Nat) : Byte := bs.getD o 0

/-- The little-endian 16-bit field at offset `o` (R83). -/
def u16At (bs : Bytes) (o : Nat) : Half := byteAt bs (o + 1) ++ byteAt bs o

/-- The little-endian 32-bit field at offset `o` (R83). -/
def u32At (bs : Bytes) (o : Nat) : Word :=
  byteAt bs (o + 3) ++ byteAt bs (o + 2) ++ byteAt bs (o + 1) ++ byteAt bs o

/-- The `n` bytes from offset `o` on: the spec's `s[o..o+n)` (spec/00 R13). -/
def slice (bs : Bytes) (o n : Nat) : Bytes := (bs.drop o).take n

/-- A byte-sequence length as a 16-bit field (spec/30 R150 to R152). -/
def len16 (bs : Bytes) : Half := BitVec.ofNat 16 bs.length

/-! ## Signatures (spec/30 R153) -/

def localSig : Word := 0x04034B50
def centralSig : Word := 0x02014B50
def eocdSig : Word := 0x06054B50

/-! ## Record bytes (spec/30 R150 to R152) -/

/-- The bytes of a local file header and its variable part (R150). -/
def localBytes (r : LocalRecord) : Bytes :=
  u32le localSig ++ u16le r.version ++ u16le r.flags ++ u16le r.method ++ u16le r.time ++ u16le r.date ++
  u32le r.crc ++ u32le r.csize ++ u32le r.usize ++ u16le (len16 r.name) ++ u16le (len16 r.extra) ++
  r.name ++ r.extra

/-- The bytes of a central-directory record and its variable part (R151). -/
def centralBytes (r : CentralRecord) : Bytes :=
  u32le centralSig ++ u16le r.madeBy ++ u16le r.version ++ u16le r.flags ++ u16le r.method ++ u16le r.time ++
  u16le r.date ++ u32le r.crc ++ u32le r.csize ++ u32le r.usize ++ u16le (len16 r.name) ++ u16le (len16 r.extra) ++
  u16le (len16 r.comment) ++ u16le r.diskStart ++ u16le r.intAttr ++ u32le r.extAttr ++ u32le r.offset ++
  r.name ++ r.extra ++ r.comment

/-- The bytes of an end-of-central-directory record and its comment (R152). -/
def eocdBytes (r : EocdRecord) : Bytes :=
  u32le eocdSig ++ u16le r.disk ++ u16le r.cdDisk ++ u16le r.nThis ++ u16le r.nTotal ++ u32le r.cdSize ++
  u32le r.cdOffset ++ u16le (len16 r.comment) ++ r.comment

/-- The local file header at offset `o` (R150); its variable part is the `name length` and `extra length` bytes that
follow the 30. -/
def localAt (bs : Bytes) (o : Nat) : LocalRecord :=
  let nl := (u16At bs (o + 26)).toNat
  let el := (u16At bs (o + 28)).toNat
  { version := u16At bs (o + 4), flags := u16At bs (o + 6), method := u16At bs (o + 8), time := u16At bs (o + 10),
    date := u16At bs (o + 12), crc := u32At bs (o + 14), csize := u32At bs (o + 18), usize := u32At bs (o + 22),
    name := slice bs (o + 30) nl, extra := slice bs (o + 30 + nl) el }

/-- The central-directory record at offset `o` (R151). -/
def centralAt (bs : Bytes) (o : Nat) : CentralRecord :=
  let nl := (u16At bs (o + 28)).toNat
  let el := (u16At bs (o + 30)).toNat
  let cl := (u16At bs (o + 32)).toNat
  { madeBy := u16At bs (o + 4), version := u16At bs (o + 6), flags := u16At bs (o + 8), method := u16At bs (o + 10),
    time := u16At bs (o + 12), date := u16At bs (o + 14), crc := u32At bs (o + 16), csize := u32At bs (o + 20),
    usize := u32At bs (o + 24), diskStart := u16At bs (o + 34), intAttr := u16At bs (o + 36),
    extAttr := u32At bs (o + 38), offset := u32At bs (o + 42),
    name := slice bs (o + 46) nl, extra := slice bs (o + 46 + nl) el, comment := slice bs (o + 46 + nl + el) cl }

/-- The end-of-central-directory record at offset `o` (R152). -/
def eocdAt (bs : Bytes) (o : Nat) : EocdRecord :=
  { disk := u16At bs (o + 4), cdDisk := u16At bs (o + 6), nThis := u16At bs (o + 8), nTotal := u16At bs (o + 10),
    cdSize := u32At bs (o + 12), cdOffset := u32At bs (o + 16),
    comment := slice bs (o + 22) (u16At bs (o + 20)).toNat }

/-! ## Command words (spec/30 R110 to R113) -/

/-- Why a packet is no instruction. The first three are the three conditions of R111. -/
inductive Reject where
  /-- `OPC` is not assigned in R112 (R113). -/
  | unassignedOpcode
  /-- A reserved bit of `CMD[31:22]` is set. -/
  | reservedBits
  /-- A field the opcode does not use is set. -/
  | unusedField
  /-- The bytes are no item of a wire format of the opcode table. -/
  | notAWireItem
  deriving DecidableEq, Repr

/-- `OPC`, CMD[7:0]. -/
def opcField (w : Word) : BitVec 8 := w.extractLsb' 0 8
/-- `N`, CMD[13:8]. -/
def nField (w : Word) : BitVec 6 := w.extractLsb' 8 6
/-- `LEVEL`, CMD[17:14]. -/
def levelField (w : Word) : BitVec 4 := w.extractLsb' 14 4
/-- `WRAP`, CMD[18]. -/
def wrapField (w : Word) : Bool := w.getLsbD 18
/-- `SLOT`, CMD[20:19]. -/
def slotField (w : Word) : BitVec 2 := w.extractLsb' 19 2
/-- `STORE`, CMD[21]. -/
def storeField (w : Word) : Bool := w.getLsbD 21
/-- The reserved bits, CMD[31:22]. -/
def reservedField (w : Word) : BitVec 10 := w.extractLsb' 22 10

/-- The bits of the fields an opcode may use, beside `OPC` (R110). -/
def nMask : Word := 0x00003F00
def levelMask : Word := 0x0003C000
def wrapMask : Word := 0x00040000
def slotMask : Word := 0x00180000
def storeMask : Word := 0x00200000

/-- The instruction `i` if no bit is set outside `OPC` and the fields of `mask` (R111). -/
def onlyFields (mask w : Word) (i : Instr) : Except Reject Instr :=
  if w &&& ~~~(mask ||| 0xFF) = 0 then .ok i else .error .unusedField

/-- The decoder of a command word: R111 to R113. -/
def decodeCommand (w : Word) : Except Reject Instr :=
  if reservedField w ≠ 0 then .error .reservedBits else
  match (opcField w).toNat with
  | 0x00 => onlyFields 0 w .nop
  | 0x01 => onlyFields 0 w .coreReset
  | 0x02 => onlyFields 0 w .statusClear
  | 0x03 => onlyFields 0 w .outClear
  | 0x10 => onlyFields 0 w .bpReset
  | 0x11 => onlyFields nMask w (.bpWriteBits (nField w))
  | 0x12 => onlyFields 0 w .bpWriteByte
  | 0x13 => onlyFields 0 w .bpWriteBytes
  | 0x14 => onlyFields 0 w .bpAlign
  | 0x18 => onlyFields 0 w .buLoad
  | 0x19 => onlyFields 0 w .buReset
  | 0x1A => onlyFields nMask w (.buReadBits (nField w))
  | 0x1B => onlyFields nMask w (.buPeekBits (nField w))
  | 0x1C => onlyFields 0 w .buSkipBits
  | 0x1D => onlyFields 0 w .buAlign
  | 0x1E => onlyFields 0 w .buPosition
  | 0x1F => onlyFields 0 w .buRemaining
  | 0x20 => onlyFields 0 w .adlerSeed
  | 0x21 => onlyFields 0 w .adlerUpdate
  | 0x22 => onlyFields 0 w .adlerRead
  | 0x24 => onlyFields 0 w .crcSeed
  | 0x25 => onlyFields 0 w .crcUpdate
  | 0x26 => onlyFields 0 w .crcRead
  | 0x30 => onlyFields slotMask w (.hufBuild (slotField w))
  | 0x31 => onlyFields 0 w .hufLoadFixed
  | 0x32 => onlyFields slotMask w (.hufEncode (slotField w))
  | 0x33 => onlyFields slotMask w (.hufDecode (slotField w))
  | 0x34 => onlyFields slotMask w (.hufQuery (slotField w))
  | 0x38 => onlyFields 0 w .lzTokenize
  | 0x39 => onlyFields 0 w .lzPop
  | 0x3A => onlyFields 0 w .lzCount
  | 0x40 => onlyFields (levelMask ||| wrapMask) w (.deflate (levelField w) (wrapField w))
  | 0x48 => onlyFields wrapMask w (.inflateStart (wrapField w))
  | 0x49 => onlyFields 0 w .inflateFeed
  | 0x4A => onlyFields 0 w .inflateRun
  | 0x50 => onlyFields 0 w .zipOpenRead
  | 0x51 => onlyFields 0 w .zipLocateEocd
  | 0x52 => onlyFields nMask w (.zipEntryInfo (nField w))
  | 0x53 => onlyFields 0 w .zipEntryName
  | 0x54 => onlyFields 0 w .zipExtract
  | 0x58 => onlyFields 0 w .zipCreate
  | 0x59 => onlyFields 0 w .zipOpenAppend
  | 0x5A => onlyFields (levelMask ||| storeMask) w (.zipAddFile (levelField w) (storeField w))
  | 0x5B => onlyFields 0 w .zipAddDir
  | 0x5C => onlyFields 0 w .zipFinalize
  | 0x5D => onlyFields 0 w .zipClose
  | _ => .error .unassignedOpcode

/-! ## Wire items (spec/30 sections 2 to 4) -/

/-- The byte that begins with a block header: BFINAL in bit 0, BTYPE in bits 2:1 (R120, R121), then five body bits. -/
def decodeBlock (b : Byte) : Instr :=
  let final := b.getLsbD 0
  let body := b.extractLsb' 3 5
  match (b.extractLsb' 1 2).toNat with
  | 0 => .blockStored final body
  | 1 => .blockFixed final body
  | 2 => .blockDynamic final body
  | _ => .blockReserved final body

/-- The token word of R118, whose ranges R118 gives. -/
def decodeToken (w : Word) : Except Reject Instr :=
  if w.extractLsb' 8 24 = 0 then .ok (.lzTokenLiteral (w.extractLsb' 0 8))
  else if w.extractLsb' 25 7 = 64 then
    let i := Instr.lzTokenMatch (w.extractLsb' 16 9) (w.extractLsb' 0 16)
    if i.wf then .ok i else .error .notAWireItem
  else .error .notAWireItem

/-- A ZIP record that fills `bs` exactly, told by its signature (R153). -/
def decodeRecord (bs : Bytes) : Except Reject Instr :=
  let sig := u32At bs 0
  if sig = localSig ∧ 30 ≤ bs.length ∧ bs.length = 30 + (u16At bs 26).toNat + (u16At bs 28).toNat then
    .ok (.zipLocalHeader (localAt bs 0))
  else if sig = centralSig ∧ 46 ≤ bs.length ∧
      bs.length = 46 + (u16At bs 28).toNat + (u16At bs 30).toNat + (u16At bs 32).toNat then
    .ok (.zipCentralHeader (centralAt bs 0))
  else if sig = eocdSig ∧ 22 ≤ bs.length ∧ bs.length = 22 + (u16At bs 20).toNat then
    .ok (.zipEocd (eocdAt bs 0))
  else .error .notAWireItem

/-- The decoder of a wire item: one byte is a block header, two the zlib header, four a token word, more a record. -/
def decodeWire : Bytes → Except Reject Instr
  | [b] => .ok (decodeBlock b)
  | [cmf, flg] => if cmf = 0x78 ∧ flg = 0x9C then .ok .zlibHeader else .error .notAWireItem
  | [b0, b1, b2, b3] => decodeToken (u32At [b0, b1, b2, b3] 0)
  | bs => decodeRecord bs

/-- The decoder, total on every packet. -/
def decode : Packet → Except Reject Instr
  | .cmd w => decodeCommand w
  | .wire bs => decodeWire bs

/-! ## The encoder -/

/-- A command word from its fields (R110). -/
def commandWord (opc : BitVec 8) (n : BitVec 6) (level : BitVec 4) (wrap : Bool) (slot : BitVec 2) (store : Bool) :
    Word :=
  0#10 ++ BitVec.ofBool store ++ slot ++ BitVec.ofBool wrap ++ level ++ n ++ opc

/-- The word of a command that uses no field. -/
def plainWord (opc : BitVec 8) : Word := commandWord opc 0 0 false 0 false
/-- The word of a command that uses `N`. -/
def nWord (opc : BitVec 8) (n : BitVec 6) : Word := commandWord opc n 0 false 0 false
/-- The word of a command that uses `SLOT`. -/
def slotWord (opc : BitVec 8) (slot : BitVec 2) : Word := commandWord opc 0 0 false slot false

/-- The byte of a block header of type `btype` (R120). -/
def blockByte (btype : BitVec 2) (final : Bool) (body : BitVec 5) : Byte := body ++ btype ++ BitVec.ofBool final

/-- The token word of a literal (R118). -/
def literalWord (b : BitVec 8) : Word := 0#24 ++ b
/-- The token word of a match (R118). -/
def matchWord (length : BitVec 9) (distance : BitVec 16) : Word := 1#1 ++ 0#6 ++ length ++ distance

/-- The encoder: the packet of an instruction. -/
def encode : Instr → Packet
  | .nop => .cmd (plainWord 0x00)
  | .coreReset => .cmd (plainWord 0x01)
  | .statusClear => .cmd (plainWord 0x02)
  | .outClear => .cmd (plainWord 0x03)
  | .bpReset => .cmd (plainWord 0x10)
  | .bpWriteBits n => .cmd (nWord 0x11 n)
  | .bpWriteByte => .cmd (plainWord 0x12)
  | .bpWriteBytes => .cmd (plainWord 0x13)
  | .bpAlign => .cmd (plainWord 0x14)
  | .buLoad => .cmd (plainWord 0x18)
  | .buReset => .cmd (plainWord 0x19)
  | .buReadBits n => .cmd (nWord 0x1A n)
  | .buPeekBits n => .cmd (nWord 0x1B n)
  | .buSkipBits => .cmd (plainWord 0x1C)
  | .buAlign => .cmd (plainWord 0x1D)
  | .buPosition => .cmd (plainWord 0x1E)
  | .buRemaining => .cmd (plainWord 0x1F)
  | .adlerSeed => .cmd (plainWord 0x20)
  | .adlerUpdate => .cmd (plainWord 0x21)
  | .adlerRead => .cmd (plainWord 0x22)
  | .crcSeed => .cmd (plainWord 0x24)
  | .crcUpdate => .cmd (plainWord 0x25)
  | .crcRead => .cmd (plainWord 0x26)
  | .hufBuild slot => .cmd (slotWord 0x30 slot)
  | .hufLoadFixed => .cmd (plainWord 0x31)
  | .hufEncode slot => .cmd (slotWord 0x32 slot)
  | .hufDecode slot => .cmd (slotWord 0x33 slot)
  | .hufQuery slot => .cmd (slotWord 0x34 slot)
  | .lzTokenize => .cmd (plainWord 0x38)
  | .lzPop => .cmd (plainWord 0x39)
  | .lzCount => .cmd (plainWord 0x3A)
  | .deflate level wrap => .cmd (commandWord 0x40 0 level wrap 0 false)
  | .inflateStart wrap => .cmd (commandWord 0x48 0 0 wrap 0 false)
  | .inflateFeed => .cmd (plainWord 0x49)
  | .inflateRun => .cmd (plainWord 0x4A)
  | .zipOpenRead => .cmd (plainWord 0x50)
  | .zipLocateEocd => .cmd (plainWord 0x51)
  | .zipEntryInfo n => .cmd (nWord 0x52 n)
  | .zipEntryName => .cmd (plainWord 0x53)
  | .zipExtract => .cmd (plainWord 0x54)
  | .zipCreate => .cmd (plainWord 0x58)
  | .zipOpenAppend => .cmd (plainWord 0x59)
  | .zipAddFile level store => .cmd (commandWord 0x5A 0 level false 0 store)
  | .zipAddDir => .cmd (plainWord 0x5B)
  | .zipFinalize => .cmd (plainWord 0x5C)
  | .zipClose => .cmd (plainWord 0x5D)
  | .blockStored final body => .wire [blockByte 0 final body]
  | .blockFixed final body => .wire [blockByte 1 final body]
  | .blockDynamic final body => .wire [blockByte 2 final body]
  | .blockReserved final body => .wire [blockByte 3 final body]
  | .zlibHeader => .wire [0x78, 0x9C]
  | .zipLocalHeader r => .wire (localBytes r)
  | .zipCentralHeader r => .wire (centralBytes r)
  | .zipEocd r => .wire (eocdBytes r)
  | .lzTokenLiteral b => .wire (u32le (literalWord b))
  | .lzTokenMatch k d => .wire (u32le (matchWord k d))

/-! ## Words of spec/opcode_table.json -/

/-- The wire bytes of a 32-bit table word: its four bytes in the ZIP records' and the token word's order, and, after a
record's signature, zeros up to the record's fixed size. -/
def wireOfWord (w : Word) : Bytes :=
  u32le w ++ List.replicate (if w = localSig then 26 else if w = centralSig then 42 else if w = eocdSig then 18 else 0) 0

/-- The packet of a table row's bits (log 17). A row of at most 8 bits is the byte of a block header; one of 16 bits is
`CMF << 8 | FLG`; one of 32 bits is a command word where it is a legal one, else a wire item where it is one, else the
illegal command word it is. -/
def tablePacket (nbits w : Nat) : Packet :=
  if nbits ≤ 8 then .wire [BitVec.ofNat 8 w]
  else if nbits ≤ 16 then .wire [BitVec.ofNat 8 (w / 256), BitVec.ofNat 8 w]
  else
    let word := BitVec.ofNat 32 w
    match decodeCommand word, decodeWire (wireOfWord word) with
    | .error _, .ok _ => .wire (wireOfWord word)
    | _, _ => .cmd word

/-- The instruction the decoder reads from a table row's bits. -/
def decodeTableWord (nbits w : Nat) : Option Instr := (decode (tablePacket nbits w)).toOption

end Sys2Proof
end

