-- ==== Sys2Proof/Machine/State.lean ====
section
/-! DEFINITION. The architectural state of spec/10, as plain data, and its value after reset (spec/10 R55, spec/70
R570). Two fields are the model's own: `host`, the host actions still to come (log 1), and `params`, the OPEN parameters
(log 2). -/

namespace Sys2Proof.Machine

/-- The error codes' names (spec/60 R530). `ioError` is reserved for the host and never raised (T4). -/
inductive Error where
  | insufficientBits | invalidCodeLength | overflow | invalidBlockType | needsMoreInput | adler32Mismatch
  | storedLengthMismatch | invalidSymbol | invalidDistance | badZlibHeader | invalidLevel | invalidArgument | noTable
  | tokenQueueEmpty | badSignature | corrupt | crc32Mismatch | sizeMismatch | eocdNotFound | multiDiskUnsupported
  | unsupportedMethod | invalidArchiveName | tooManyFiles | nameTooLong | sizeTooLarge | ioError | capacityExceeded
  | wrongMode | entryIndexOutOfRange | illegalCommand
  deriving DecidableEq, Repr

/-- The decoder's phases (spec/10 R46). -/
inductive Phase where
  | idle | zlibHeader | readBlockHeader | stored | fixedTable | dynamicTable | decodeSymbols | trailer | done | error
  deriving DecidableEq, Repr

/-- The zip codec's modes (spec/10 R51). -/
inductive ZipMode where
  | idle | reader | writer | closed
  deriving DecidableEq, Repr

/-- A Huffman table slot (spec/10 R39): `EMPTY` or `TABLE(lengths)`. -/
inductive HufSlot where
  | empty
  | table (lengths : List Nat)
  deriving DecidableEq, Repr

/-- An LZSymbol (spec/43 R320). -/
inductive LZSymbol where
  | literal (b : Byte)
  | copy (length distance : Nat)
  deriving DecidableEq, Repr

/-- The pending bits of a bit writer (spec/10 R36): bit `i` of `acc`, for `i < nbits`, is the `i`-th oldest. -/
structure Pending where
  acc   : BitVec 64
  nbits : Nat
  deriving DecidableEq, Repr

/-- The bit_unpacker (spec/10 R37). -/
structure Unpacker where
  data : Bytes
  pos  : Nat
  deriving DecidableEq, Repr

/-- The inflate_decoder (spec/10 R42 to R46). -/
structure Inflater where
  wrap    : Bool
  input   : Bytes
  emitted : Nat
  err     : Option Error
  phase   : Phase
  deriving DecidableEq, Repr

/-- An entry of the archive index, ZipEntryMetadata (spec/10 R52). -/
structure Entry where
  name      : Bytes
  csize     : Word
  usize     : Word
  crc       : Word
  method    : Half
  dostime   : Half
  dosdate   : Half
  extAttr   : Word
  offset    : Word
  isDir     : Bool
  isSymlink : Bool
  deriving DecidableEq, Repr

/-- The zip_container_codec (spec/10 R48 to R51). -/
structure Zip where
  img      : Bytes
  index    : List Entry
  cdOffset : Word
  mode     : ZipMode
  deriving DecidableEq, Repr

/-- What the host does (spec/70 R590, R591): it replaces an operand, or puts a packet in front of the block, which for a
command word is the write of `CMD`. -/
inductive HostAction where
  | setIn (bytes : Bytes)
  | setName (bytes : Bytes)
  | setArg (w : Word)
  | setArg2 (w : Word)
  | issue (p : Packet)
  deriving DecidableEq, Repr

/-- The state of one block instance. -/
structure State where
  /-- The host actions still to come, the next one first (log 1). -/
  host    : List HostAction
  /-- The OPEN parameters (log 2). -/
  params  : Params
  /-- `CMD`, the last word written (spec/10 R32). -/
  cmd     : Word
  /-- `ARG`. -/
  arg     : Word
  /-- `ARG2`. -/
  arg2    : Word
  /-- `RESULT`. -/
  result  : Word
  /-- `RESULT2`. -/
  result2 : Word
  /-- `STATUS` (spec/30 R117). -/
  status  : Word
  /-- `IN` (spec/10 R33). -/
  inp     : Bytes
  /-- `NAME`. -/
  name    : Bytes
  /-- `OUT`. -/
  out     : Bytes
  /-- `BP`. -/
  bp      : Pending
  /-- `BU`. -/
  bu      : Unpacker
  /-- `ADLER` (spec/10 R38). -/
  adler   : Word
  /-- `CRC`. -/
  crc     : Word
  /-- `HT[0]`, the lit/len table (spec/10 R39). -/
  ht0     : HufSlot
  /-- `HT[1]`, the distance table. -/
  ht1     : HufSlot
  /-- `HT[2]`, the code-length table. -/
  ht2     : HufSlot
  /-- `TOKQ`, the head first (spec/10 R40). -/
  tokq    : List LZSymbol
  /-- `INF`. -/
  inf     : Inflater
  /-- `ZIP`. -/
  zip     : Zip
  deriving DecidableEq, Repr

/-- The machine never stops with a fault: every failing command ends in a next state with its code in `STATUS.ERR`
(spec/60 R534, R540; log 23). -/
inductive Fault : Type
  deriving DecidableEq, Repr

/-- Why a step gives no next state. Every one is safe: it only stops what the spec says nothing of. -/
inductive Refusal where
  /-- An instruction the model gives no meaning yet; no arm of `exec` says this. Raised by nobody. Safe. -/
  | notModelled (mnemonic : String)
  /-- Raised by a step: the host replaces `IN` or `NAME` by more than MAX_STREAM_BYTES bytes, which is none of its
  liberties (spec/70 R591; log 14). Safe. -/
  | overlongOperand
  /-- Raised by a step: the bytes handed to the block are no item of a wire format of the opcode table (log 15). Safe. -/
  | notAWireItem
  deriving DecidableEq, Repr

/-- The bit writer with nothing pending (spec/10 R36). -/
def Pending.empty : Pending := ⟨0, 0⟩

/-- The decoder after reset (spec/10 R42 to R46). -/
def Inflater.reset : Inflater := ⟨true, [], 0, none, .idle⟩

/-- The codec after reset (spec/10 R48 to R51). -/
def Zip.reset : Zip := ⟨[], [], 0, .idle⟩

/-- The state of spec/10 R55, with no host action pending and the reference parameters. -/
def State.reset : State where
  host    := []
  params  := Params.reference
  cmd     := 0
  arg     := 0
  arg2    := 0
  result  := 0
  result2 := 0
  status  := 0
  inp     := []
  name    := []
  out     := []
  bp      := Pending.empty
  bu      := ⟨[], 0⟩
  adler   := 1
  crc     := 0
  ht0     := .empty
  ht1     := .empty
  ht2     := .empty
  tokq    := []
  inf     := Inflater.reset
  zip     := Zip.reset

end Sys2Proof.Machine
end

