-- ==== Sys2Proof/Machine/Flags.lean ====
section
/-! DEFINITION. The status word: its fields, the error codes, and how the end of a command writes it (spec/10 R35,
spec/30 R117, spec/60 R530, R532). -/

namespace Sys2Proof.Machine

/-- The code of an error (R530). -/
def errorCode : Error → BitVec 8
  | .insufficientBits => 0x01
  | .invalidCodeLength => 0x02
  | .overflow => 0x03
  | .invalidBlockType => 0x04
  | .needsMoreInput => 0x05
  | .adler32Mismatch => 0x06
  | .storedLengthMismatch => 0x07
  | .invalidSymbol => 0x08
  | .invalidDistance => 0x09
  | .badZlibHeader => 0x0A
  | .invalidLevel => 0x0B
  | .invalidArgument => 0x0C
  | .noTable => 0x0D
  | .tokenQueueEmpty => 0x0E
  | .badSignature => 0x10
  | .corrupt => 0x11
  | .crc32Mismatch => 0x12
  | .sizeMismatch => 0x13
  | .eocdNotFound => 0x14
  | .multiDiskUnsupported => 0x15
  | .unsupportedMethod => 0x16
  | .invalidArchiveName => 0x17
  | .tooManyFiles => 0x18
  | .nameTooLong => 0x19
  | .sizeTooLarge => 0x1A
  | .ioError => 0x1B
  | .capacityExceeded => 0x1C
  | .wrongMode => 0x1D
  | .entryIndexOutOfRange => 0x1E
  | .illegalCommand => 0x1F

/-- The phase's value in `STATUS.INF_PHASE` (spec/10 R46). -/
def phaseCode : Phase → BitVec 4
  | .idle => 0
  | .zlibHeader => 1
  | .readBlockHeader => 2
  | .stored => 3
  | .fixedTable => 4
  | .dynamicTable => 5
  | .decodeSymbols => 6
  | .trailer => 7
  | .done => 8
  | .error => 9

/-- The mode's value in `STATUS.ZIP_MODE` (spec/10 R51). -/
def modeCode : ZipMode → BitVec 2
  | .idle => 0
  | .reader => 1
  | .writer => 2
  | .closed => 3

/-- The status word from its fields (R117): the reserved bits 15 and 31:19 read as 0. -/
def statusWord (err : BitVec 8) (phase : BitVec 4) (mode : BitVec 2) (sticky : Bool) (nbits : BitVec 3) : Word :=
  0#13 ++ nbits ++ 0#1 ++ BitVec.ofBool sticky ++ mode ++ phase ++ err

/-- `STATUS.ERR` (R117). -/
def errField (w : Word) : BitVec 8 := w.extractLsb' 0 8
/-- `STATUS.INF_PHASE`. -/
def phaseField (w : Word) : BitVec 4 := w.extractLsb' 8 4
/-- `STATUS.ZIP_MODE`. -/
def modeField (w : Word) : BitVec 2 := w.extractLsb' 12 2
/-- `STATUS.ERR_STICKY`. -/
def stickyField (w : Word) : Bool := w.getLsbD 14
/-- `STATUS.BP_NBITS`. -/
def nbitsField (w : Word) : BitVec 3 := w.extractLsb' 16 3

/-- Whether an outcome sets `ERR_STICKY`: every error but NeedsMoreInput (R532). -/
def setsSticky : Option Error → Bool
  | none => false
  | some .needsMoreInput => false
  | some _ => true

/-- The code an outcome writes to `STATUS.ERR` (R532). -/
def outcomeCode : Option Error → BitVec 8
  | none => 0
  | some e => errorCode e

/-- The end of every command (R532): `ERR` is written, `ERR_STICKY` is kept or set, the copy fields are refreshed from
the state the command left. -/
def report (e : Option Error) (s : State) : State :=
  { s with status := statusWord (outcomeCode e) (phaseCode s.inf.phase) (modeCode s.zip.mode)
             (stickyField s.status || setsSticky e) (BitVec.ofNat 3 s.bp.nbits) }

end Sys2Proof.Machine
end

