-- ==== Sys2Proof/Machine/Ops.lean ====
section
/-! DEFINITION. The shared operations: how a command ends, with success or by raising an error (the one exception
mechanism of the block, spec/60 R530 to R534), the growth of a byte stream (R531), the result registers, and taking the
host's next action (spec/70 R590). -/

namespace Sys2Proof.Machine

/-- One step's or one command's outcome. -/
abbrev StepOutcome := Host.Outcome State Fault Refusal

/-- RAISING AN ERROR (R13, R532, R533): everything keeps the value it has in `s`, the state before the command, and
`STATUS` takes the code. No control is transferred and nothing is saved (R534), so there is no return to model. -/
def raise (e : Error) (s : State) : StepOutcome := .next (report (some e) s)

/-- The end of a command that left `s` and succeeded. -/
def succeed (s : State) : StepOutcome := .next (report none s)

/-- The end of a command issued in `s`: its effects on success, the rollback of R533 on failure. -/
def complete (s : State) : Except Error State → StepOutcome
  | .ok t => succeed t
  | .error e => raise e s

/-- An illegal command word (spec/30 R111, R113). -/
def illegalCommand (s : State) : StepOutcome := raise .illegalCommand s

/-- A check of a rule's pseudocode: `if not c then raise e` (spec/00 R13). -/
def require (c : Prop) [Decidable c] (e : Error) : Except Error Unit := if c then .ok () else .error e

/-- The check of R531: a stream may hold `n` bytes. -/
def checkCapacity (s : State) (n : Nat) : Except Error Unit := require (n ≤ s.params.maxStreamBytes) .capacityExceeded

/-- The most bytes an archive image can hold, whatever MAX_STREAM_BYTES is: its offsets are 32 bits (spec/20 R84). -/
def imageLimit : Nat := 4294967295

/-- `ZIP.img` may hold `n` bytes: the check of R531 on it, and the size of its space (spec/20 R84; log 25). -/
def checkImage (s : State) (n : Nat) : Except Error Unit :=
  require (n ≤ s.params.maxStreamBytes ∧ n ≤ imageLimit) .capacityExceeded

/-- An append to `OUT`, checked with the full length of what is appended (R531). -/
def appendOut (s : State) (bytes : Bytes) : Except Error State := do
  checkCapacity s (s.out.length + bytes.length)
  .ok { s with out := s.out ++ bytes }

/-- A count assigned to a 32-bit result register (spec/00 R11). DEDUCED, log 5: no rule has an arm for a count that does not
fit, so it raises InvalidArgument (R15, spec/60 R542). -/
def countWord (n : Nat) : Except Error Word := do
  require (n < 4294967296) .invalidArgument
  .ok (BitVec.ofNat 32 n)

/-- `v[31:0]` of a natural number (spec/40 R219). -/
def lowWord (n : Nat) : Word := BitVec.ofNat 32 n
/-- `v[63:32]` of a natural number (spec/40 R219). -/
def highWord (n : Nat) : Word := BitVec.ofNat 32 (n / 4294967296)

/-- A second command right after a first one. -/
def andThen (o : StepOutcome) (f : State → StepOutcome) : StepOutcome :=
  match o with
  | .next s => f s
  | .fault r => .fault r
  | .refused r => .refused r

/-! ## The host's actions (spec/70 R590, R591) -/

/-- What a step does: it runs an instruction on a state, or its outcome is already settled. -/
inductive Fetched where
  | run (i : Instr) (s : State)
  | settled (o : StepOutcome)

/-- A replaced stream operand holds at most MAX_STREAM_BYTES bytes (R591; log 14). -/
def replaceOperand (s : State) (bytes : Bytes) (t : State) : Fetched :=
  if bytes.length ≤ s.params.maxStreamBytes then .settled (.next t) else .settled (.refused .overlongOperand)

/-- A packet in front of the block. A command word is written to `CMD` and decoded; an illegal one raises IllegalCommand
(spec/30 R111). A wire item is decoded (log 7, 15). -/
def fetchPacket (s : State) : Packet → Fetched
  | .cmd w =>
    let t := { s with cmd := w }
    match decode (.cmd w) with
    | .ok i => .run i t
    | .error _ => .settled (illegalCommand t)
  | .wire bytes =>
    match decode (.wire bytes) with
    | .ok i => .run i s
    | .error _ => .settled (.refused .notAWireItem)

/-- The host's next action, taken off the list of those to come. With none to come the block waits (spec/60 R553). -/
def fetch (s : State) : Fetched :=
  match s.host with
  | [] => .settled (.next s)
  | a :: rest =>
    let t := { s with host := rest }
    match a with
    | .setIn bytes => replaceOperand t bytes { t with inp := bytes }
    | .setName bytes => replaceOperand t bytes { t with name := bytes }
    | .setArg w => .settled (.next { t with arg := w })
    | .setArg2 w => .settled (.next { t with arg2 := w })
    | .issue p => fetchPacket t p

end Sys2Proof.Machine
end

