-- ==== Sys2Proof/Machine/System.lean ====
section
/-! DEFINITION. The system commands (spec/60 R536 to R538, spec/70 R570). -/

namespace Sys2Proof.Machine

/-- `NOP` (R536). -/
def execNop (s : State) : StepOutcome := succeed s

/-- `CORE_RESET` (R570): every item of spec/10 R55; the host's own program and the parameters are none of them (log 16). -/
def execCoreReset (s : State) : StepOutcome := succeed { State.reset with host := s.host, params := s.params }

/-- `STATUS_CLEAR` (R538). -/
def execStatusClear (s : State) : StepOutcome := succeed { s with status := 0 }

/-- `OUT_CLEAR` (R537). -/
def execOutClear (s : State) : StepOutcome := succeed { s with out := [] }

end Sys2Proof.Machine
end

