-- ==== Sys2Proof/Machine/Operands.lean ====
section
/-! DEFINITION. The operand forms of the commands: bit counts, table slots, levels, the ZIP commands' ARG and ARG2, the
entry index, and the modes a unit must be in (spec/30 R110, R111, R114; spec/46 R450, R481). -/

namespace Sys2Proof.Machine

/-- A bit count in `N` (R111): at most 32. -/
def countOperand (n : BitVec 6) : Except Error Nat := do
  require (n.toNat ≤ 32) .invalidArgument
  .ok n.toNat

/-- The most lengths a slot's table may have (spec/10 R39, spec/42 R280). -/
def slotCapacity (slot : BitVec 2) : Nat :=
  match slot.toNat with
  | 0 => 288
  | 1 => 32
  | _ => 19

/-- A slot number (R111): 3 is none. -/
def slotOperand (slot : BitVec 2) : Except Error Unit := require (slot ≠ 3) .invalidArgument

/-- The contents of a slot 0 to 2. -/
def slotContents (s : State) (slot : BitVec 2) : HufSlot :=
  match slot.toNat with
  | 0 => s.ht0
  | 1 => s.ht1
  | _ => s.ht2

/-- A slot 0 to 2 replaced. -/
def setSlot (s : State) (slot : BitVec 2) (t : HufSlot) : State :=
  match slot.toNat with
  | 0 => { s with ht0 := t }
  | 1 => { s with ht1 := t }
  | _ => { s with ht2 := t }

/-- The table of a slot (spec/42 R282 to R284): slot 3 is an invalid argument, an empty slot has no table. -/
def tableOperand (s : State) (slot : BitVec 2) : Except Error (List Nat) := do
  slotOperand slot
  match slotContents s slot with
  | .empty => .error .noTable
  | .table lengths => .ok lengths

/-- A compression level (spec/44 R351): 0 to 9. -/
def levelOperand (level : BitVec 4) : Except Error Nat := do
  require (level.toNat ≤ 9) .invalidLevel
  .ok level.toNat

/-- The 16-bit Unix mode in `ARG` (R114): `ARG[31:16]` must be 0. -/
def unixModeOperand (s : State) : Except Error Half := do
  require (s.arg.extractLsb' 16 16 = 0) .invalidArgument
  .ok (s.arg.extractLsb' 0 16)

/-- The DOS time in `ARG2[15:0]` (R114). -/
def dosTimeOperand (s : State) : Half := s.arg2.extractLsb' 0 16
/-- The DOS date in `ARG2[31:16]` (R114). -/
def dosDateOperand (s : State) : Half := s.arg2.extractLsb' 16 16

/-- The entry `ARG` names (spec/46 R471 to R473). -/
def entryOperand (s : State) : Except Error Entry :=
  match s.zip.index[s.arg.toNat]? with
  | some e => .ok e
  | none => .error .entryIndexOutOfRange

/-- The archive name of an entry (spec/46 R481): neither empty nor led by `/`, without `\`, at most 65535 bytes. -/
def nameOperand (nm : Bytes) : Except Error Unit := do
  require (nm ≠ [] ∧ nm.head? ≠ some 0x2F ∧ 0x5C ∉ nm) .invalidArchiveName
  require (nm.length ≤ 65535) .nameTooLong

/-- The modes in which an archive may be opened or created (R450): all but Writer. -/
def requireNotWriter (s : State) : Except Error Unit := require (s.zip.mode ≠ .writer) .wrongMode
/-- The mode of the reading commands (R450). -/
def requireReader (s : State) : Except Error Unit := require (s.zip.mode = .reader) .wrongMode
/-- The mode of the writing commands (R450). -/
def requireWriter (s : State) : Except Error Unit := require (s.zip.mode = .writer) .wrongMode
/-- The phases in which the decoder accepts input (spec/45 R424, R425): all but Idle. -/
def requireStarted (s : State) : Except Error Unit := require (s.inf.phase ≠ .idle) .wrongMode

end Sys2Proof.Machine
end

