-- ==== Sys2Proof/Machine/Checksum.lean ====
section
/-! DEFINITION. The Checksum Engine: Adler32 and CRC32 as functions and as commands (spec/41). -/

namespace Sys2Proof.Machine

/-! ## Adler32 (R240) -/

/-- `ADLER_MOD` (spec/00 R10). -/
def adlerMod : Nat := 65521

/-- The two sums after one more byte (R240). -/
def adlerStep (sums : Nat × Nat) (b : Byte) : Nat × Nat :=
  let s1 := (sums.1 + b.toNat) % adlerMod
  (s1, (sums.2 + s1) % adlerMod)

/-- `Adler32(seed, data)` (R240): the empty data leaves any seed as it is. -/
def adler32 (seed : Word) (data : Bytes) : Word :=
  if data = [] then seed
  else
    let sums := data.foldl adlerStep ((seed.extractLsb' 0 16).toNat, (seed.extractLsb' 16 16).toNat)
    BitVec.ofNat 16 sums.2 ++ BitVec.ofNat 16 sums.1

/-! ## CRC32 (R247, R248) -/

/-- `CRC32_POLY` (spec/00 R10). -/
def crcPoly : Word := 0xEDB88320

/-- One of the eight rounds of a table entry (R247). -/
def crcRound (c : Word) : Word := if c.getLsbD 0 then crcPoly ^^^ (c >>> 1) else c >>> 1

/-- `k` rounds. -/
def crcRounds : Nat → Word → Word
  | 0, c => c
  | k + 1, c => crcRounds k (crcRound c)

/-- The table entry `T[n]` (R247). -/
def crcEntry (n : Byte) : Word := crcRounds 8 (n.setWidth 32)

/-- The running value after one more byte (R248). -/
def crcStep (c : Word) (b : Byte) : Word := crcEntry (c.setWidth 8 ^^^ b) ^^^ (c >>> 8)

/-- `CRC32(seed, data)` (R248). -/
def crc32 (seed : Word) (data : Bytes) : Word := data.foldl crcStep (seed ^^^ 0xFFFFFFFF) ^^^ 0xFFFFFFFF

/-! ## Commands -/

/-- `ADLER_SEED` (R243). -/
def execAdlerSeed (s : State) : StepOutcome := succeed { s with adler := s.arg }

/-- `ADLER_UPDATE` (R244). -/
def execAdlerUpdate (s : State) : StepOutcome := succeed { s with adler := adler32 s.adler s.inp }

/-- `ADLER_READ` (R245). -/
def execAdlerRead (s : State) : StepOutcome := succeed { s with result := s.adler }

/-- `CRC_SEED` (R250). -/
def execCrcSeed (s : State) : StepOutcome := succeed { s with crc := s.arg }

/-- `CRC_UPDATE` (R251). -/
def execCrcUpdate (s : State) : StepOutcome := succeed { s with crc := crc32 s.crc s.inp }

/-- `CRC_READ` (R252). -/
def execCrcRead (s : State) : StepOutcome := succeed { s with result := s.crc }

end Sys2Proof.Machine
end

