-- ==== Sys2Proof/Machine/BitIO.lean ====
section
/-! DEFINITION. Bit I/O: the packing and the reading of LSB-first bit streams (spec/20 R81, R82; spec/40), and the
commands of the bit_packer and the bit_unpacker. The private writer and reader of the encoder and the decoder are the
same operations on their own data (spec/10 R41, R47). -/

namespace Sys2Proof.Machine

/-! ## Writing (spec/40 R201 to R205) -/

/-- The `k` lowest bytes of an accumulator, lowest first, and what is left of it: `k` rounds of Flush (R202). -/
def drain : Nat → BitVec 64 → Bytes × BitVec 64
  | 0, acc => ([], acc)
  | k + 1, acc =>
    let r := drain k (acc >>> 8)
    (acc.setWidth 8 :: r.1, r.2)

/-- Flush (R202): the complete bytes come out, fewer than 8 bits stay pending. -/
def flush (p : Pending) : Bytes × Pending :=
  let r := drain (p.nbits / 8) p.acc
  (r.1, ⟨r.2, p.nbits % 8⟩)

/-- `write_bits(v, n)` (R201): the bytes that come out and the bits left pending. -/
def pushBits (p : Pending) (v n : Nat) : Bytes × Pending :=
  flush ⟨p.acc ||| (BitVec.ofNat 64 v <<< p.nbits), p.nbits + n⟩

/-- `align_to_byte` (R205). -/
def alignBits (p : Pending) : Bytes × Pending :=
  if p.nbits > 0 then flush { p with nbits := 8 } else ([], p)

/-- What a writer is asked to write: a field of `n` bits, or padding to the next byte boundary. -/
inductive Field where
  | put (v n : Nat)
  | align
  deriving DecidableEq, Repr

/-- One field written (R201, R205). -/
def packField (p : Pending) : Field → Bytes × Pending
  | .put v n => pushBits p v n
  | .align => alignBits p

/-- Fields written in order: the bytes that come out and the bits left pending. -/
def packFields (p : Pending) : List Field → Bytes × Pending
  | [] => ([], p)
  | f :: fs =>
    let r := packField p f
    let q := packFields r.2 fs
    (r.1 ++ q.1, q.2)

/-- Each byte as a field of 8 bits (R203, R204). -/
def byteFields (bytes : Bytes) : List Field := bytes.map (fun b => .put b.toNat 8)

/-! ## Reading (spec/40 R215) -/

/-- The bits of a byte, bit 0 first (spec/20 R81). -/
def byteBits (b : Byte) : List Bool :=
  [b.getLsbD 0, b.getLsbD 1, b.getLsbD 2, b.getLsbD 3, b.getLsbD 4, b.getLsbD 5, b.getLsbD 6, b.getLsbD 7]

/-- The bits of a byte sequence in stream order (spec/20 R81). -/
def streamBits (bytes : Bytes) : List Bool := bytes.flatMap byteBits

/-- `read_bits(n)`: the value of the next `n` bits, the first one its bit 0, and the bits after them; nothing if fewer
remain. -/
def takeBits : Nat → List Bool → Option (Nat × List Bool)
  | 0, bits => some (0, bits)
  | _ + 1, [] => none
  | n + 1, b :: bits =>
    match takeBits n bits with
    | none => none
    | some (v, rest) => some (b.toNat + 2 * v, rest)

/-- The bits the bit_unpacker has not consumed. -/
def unreadBits (u : Unpacker) : List Bool := (streamBits u.data).drop u.pos

/-- How many bits the bit_unpacker has left (R215, R220). -/
def remainingBits (u : Unpacker) : Nat := 8 * u.data.length - u.pos

/-! ## Shared operations of the commands -/

/-- The bit_packer takes over what a write left: the bytes go to `OUT`, checked first (R201, spec/60 R531). DESIGN CHOICE,
log 26: the check counts the complete bytes; bits that stay pending past a full `OUT` are no bit position of spec/00 R11 and
R531's fourth item, and the write that leaves them succeeds. -/
def commitWrite (s : State) (r : Bytes × Pending) : Except Error State := do
  let t ← appendOut s r.1
  .ok { t with bp := r.2 }

/-- The checks and the effect of `write_bits` on `BP` (R201). -/
def writeBits (s : State) (v n : Nat) : Except Error State := do
  require (n ≤ 32) .invalidArgument
  require (¬ (n < 32 ∧ v ≥ 2 ^ n)) .invalidArgument
  commitWrite s (pushBits s.bp v n)

/-- The value of the next `n` bits of `BU` (R215, R216). -/
def peekValue (s : State) (n : BitVec 6) : Except Error Nat := do
  let k ← countOperand n
  match takeBits k (unreadBits s.bu) with
  | none => .error .insufficientBits
  | some (v, _) => .ok v

/-! ## bit_packer commands -/

/-- `BP_RESET` (R200). -/
def execBpReset (s : State) : StepOutcome := succeed { s with bp := Pending.empty }

/-- `BP_WRITE_BITS` (R201). -/
def execBpWriteBits (n : BitVec 6) (s : State) : StepOutcome := complete s (writeBits s s.arg.toNat n.toNat)

/-- `BP_WRITE_BYTE` (R203). -/
def execBpWriteByte (s : State) : StepOutcome :=
  complete s (do
    require (s.arg.toNat ≤ 0xFF) .invalidArgument
    writeBits s s.arg.toNat 8)

/-- `BP_WRITE_BYTES` (R204). -/
def execBpWriteBytes (s : State) : StepOutcome := complete s (commitWrite s (packFields s.bp (byteFields s.inp)))

/-- `BP_ALIGN` (R205). -/
def execBpAlign (s : State) : StepOutcome := complete s (commitWrite s (alignBits s.bp))

/-! ## bit_unpacker commands -/

/-- `BU_LOAD` (R213). -/
def execBuLoad (s : State) : StepOutcome :=
  complete s (do
    checkCapacity s (s.bu.data.length + s.inp.length)
    .ok { s with bu := { s.bu with data := s.bu.data ++ s.inp } })

/-- `BU_RESET` (R214). -/
def execBuReset (s : State) : StepOutcome := succeed { s with bu := ⟨[], 0⟩ }

/-- `BU_READ_BITS` (R215). -/
def execBuReadBits (n : BitVec 6) (s : State) : StepOutcome :=
  complete s (do
    let v ← peekValue s n
    .ok { s with result := BitVec.ofNat 32 v, bu := { s.bu with pos := s.bu.pos + n.toNat } })

/-- `BU_PEEK_BITS` (R216). -/
def execBuPeekBits (n : BitVec 6) (s : State) : StepOutcome :=
  complete s (do
    let v ← peekValue s n
    .ok { s with result := BitVec.ofNat 32 v })

/-- `BU_SKIP_BITS` (R217). -/
def execBuSkipBits (s : State) : StepOutcome :=
  complete s (do
    require (s.arg.toNat ≤ remainingBits s.bu) .insufficientBits
    .ok { s with bu := { s.bu with pos := s.bu.pos + s.arg.toNat } })

/-- `BU_ALIGN` (R218). -/
def execBuAlign (s : State) : StepOutcome := succeed { s with bu := { s.bu with pos := 8 * ((s.bu.pos + 7) / 8) } }

/-- `BU_POSITION` (R219). -/
def execBuPosition (s : State) : StepOutcome :=
  succeed { s with result := lowWord s.bu.pos, result2 := highWord s.bu.pos }

/-- `BU_REMAINING` (R220). -/
def execBuRemaining (s : State) : StepOutcome :=
  succeed { s with result := lowWord (remainingBits s.bu), result2 := highWord (remainingBits s.bu) }

end Sys2Proof.Machine
end

