-- ==== Sys2Proof/Machine/Huffman.lean ====
section
/-! DEFINITION. The huffman_coder and the huffman_decoder (spec/42): tables, canonical codes, bit-serial decoding, the
choice of code lengths and its coding, and the commands on `HT`. -/

namespace Sys2Proof.Machine

/-! ## Tables (R270 to R273) -/

/-- `bl_count[l]` of R271 and R272, for `l ≥ 1`. -/
def lengthCount (lengths : List Nat) (l : Nat) : Nat := lengths.count l

/-- `MAX_CODE_LEN` (spec/00 R10). -/
def maxCodeLen : Nat := 15

/-- The Kraft check of R271 over code lengths `l, l+1, …`, `k` of them, with `left` codes left before `l`. -/
def kraftFits (lengths : List Nat) : Nat → Nat → Nat → Bool
  | 0, _, _ => true
  | k + 1, l, left =>
    if 2 * left < lengthCount lengths l then false
    else kraftFits lengths k (l + 1) (2 * left - lengthCount lengths l)

/-- The validation of a lengths array (R271): the length check first, then the Kraft check. -/
def validateLengths (lengths : List Nat) : Except Error Unit := do
  require (∀ l ∈ lengths, l ≤ maxCodeLen) .invalidCodeLength
  require (kraftFits lengths maxCodeLen 1 1 = true) .overflow

/-- The first code of length `l` (R272); `bl_count[0]` counts as 0. -/
def firstCode (lengths : List Nat) : Nat → Nat
  | 0 => 0
  | l + 1 => 2 * (firstCode lengths l + if l = 0 then 0 else lengthCount lengths l)

/-- `next_code` before the first symbol is assigned (R272), indexed by length. -/
def firstCodes (lengths : List Nat) : List Nat := (List.range (maxCodeLen + 1)).map (firstCode lengths)

/-- The assignment loop of R272: the code of each symbol in symbol order, 0 for an unused one. -/
def assignCodes : List Nat → List Nat → List Nat
  | [], _ => []
  | l :: ls, next =>
    if l = 0 then 0 :: assignCodes ls next
    else next.getD l 0 :: assignCodes ls (next.set l (next.getD l 0 + 1))

/-- The canonical codes of a lengths array (R272). -/
def canonicalCodes (lengths : List Nat) : List Nat := assignCodes lengths (firstCodes lengths)

/-- The reversal of the `n` low bits of `c` (spec/00 R13 `rev_n`). -/
def reverseBits : Nat → Nat → Nat
  | 0, _ => 0
  | n + 1, c => (c % 2) * 2 ^ n + reverseBits n (c / 2)

/-- `rcode[s]`, the code of a symbol as it is written (R273). -/
def wireCode (lengths : List Nat) (sym : Nat) : Nat :=
  reverseBits (lengths.getD sym 0) ((canonicalCodes lengths).getD sym 0)

/-- One used symbol of a table with its code (R272). -/
structure Code where
  sym  : Nat
  len  : Nat
  code : Nat
  deriving DecidableEq, Repr

/-- The used symbols of a table with their codes, in symbol order. -/
def tableCodes (lengths : List Nat) : List Code :=
  (((List.range lengths.length).zip (lengths.zip (canonicalCodes lengths))).map
    (fun e => Code.mk e.1 e.2.1 e.2.2)).filter (fun e => e.len ≠ 0)

/-! ## Decoding (R274) -/

/-- `c`, `l` bits long, is a prefix of this code (R274). -/
def isProperStart (c l : Nat) (e : Code) : Bool := l < e.len && e.code >>> (e.len - l) == c

/-- `Decode` (R274) after `l` bits with the value `c`: the symbol, the number of bits read, and the bits after them. -/
def decodeFrom (codes : List Code) (c l : Nat) (bits : List Bool) : Except Error (Nat × Nat × List Bool) :=
  match codes.find? (fun e => e.len == l && e.code == c) with
  | some e => .ok (e.sym, l, bits)
  | none =>
    if codes.any (isProperStart c l) then
      match bits with
      | [] => .error .insufficientBits
      | b :: rest => decodeFrom codes (2 * c + b.toNat) (l + 1) rest
    else .error .invalidSymbol

/-- `Decode` of one symbol (R274). -/
def decodeSymbol (codes : List Code) (bits : List Bool) : Except Error (Nat × Nat × List Bool) :=
  decodeFrom codes 0 0 bits

/-! ## The fixed tables (R275; spec/30 R135, R136) -/

/-- The fixed lit/len lengths (R135). -/
def fixedLitLengths : List Nat :=
  List.replicate 144 8 ++ List.replicate 112 9 ++ List.replicate 24 7 ++ List.replicate 8 8

/-- The fixed distance lengths (R136). -/
def fixedDistLengths : List Nat := List.replicate 30 5

/-! ## Choosing code lengths (R299 to R302) -/

/-- A package of package-merge (R301): a weight and a multiset of symbols. -/
structure Package where
  weight  : Nat
  symbols : List Nat
  deriving DecidableEq, Repr

/-- A package put after every package of its weight or less. -/
def insertPackage (p : Package) : List Package → List Package
  | [] => [p]
  | q :: qs => if q.weight ≤ p.weight then q :: insertPackage p qs else p :: q :: qs

/-- The stable merge of R301: on equal weight a leaf comes first, and packages keep their order. -/
def mergePackages (leaves packages : List Package) : List Package :=
  packages.foldl (fun acc p => insertPackage p acc) leaves

/-- Neighbours paired, an odd last one dropped (R301). -/
def pairPackages : List Package → List Package
  | a :: b :: rest => ⟨a.weight + b.weight, a.symbols ++ b.symbols⟩ :: pairPackages rest
  | _ => []

/-- `k` rounds of pairing and merging (R301). -/
def packageRounds (leaves : List Package) : Nat → List Package
  | 0 => leaves
  | k + 1 => mergePackages leaves (pairPackages (packageRounds leaves k))

/-- The used symbols of a frequency list, in order. -/
def usedSymbols (freqs : List Nat) : List Nat := (List.range freqs.length).filter (fun s => 0 < freqs.getD s 0)

/-- The leaves of R301, ascending by frequency and then by symbol. -/
def sortedLeaves (freqs : List Nat) : List Package :=
  mergePackages [] ((usedSymbols freqs).map (fun s => ⟨freqs.getD s 0, [s]⟩))

/-- Fewer than two used symbols (R302): the used one and the lowest-numbered unused ones get length 1, two in all. -/
def twoSymbolLengths (freqs : List Nat) : List Nat :=
  let used := usedSymbols freqs
  let unused := (List.range freqs.length).filter (fun s => freqs.getD s 0 = 0)
  let chosen := used ++ unused.take (2 - used.length)
  (List.range freqs.length).map (fun s => if s ∈ chosen then 1 else 0)

/-- `Lengths(f, maxlen)` of the reference builder (R301, R302). -/
def packageMerge (freqs : List Nat) (maxLen : Nat) : List Nat :=
  let used := usedSymbols freqs
  if used.length < 2 then twoSymbolLengths freqs
  else
    let items := (packageRounds (sortedLeaves freqs) (maxLen - 1)).take (2 * (used.length - 1))
    let picked := items.flatMap (fun p => p.symbols)
    (List.range freqs.length).map (fun s => picked.count s)

/-- R299: what the lengths of any builder must satisfy for a frequency list. -/
def legalLengths (freqs : List Nat) (maxLen : Nat) (lengths : List Nat) : Bool :=
  decide (lengths.length = freqs.length) && lengths.all (fun l => l ≤ maxLen) &&
  kraftFits lengths maxCodeLen 1 1 &&
  (List.range freqs.length).all (fun s => freqs.getD s 0 = 0 || 0 < lengths.getD s 0)

/-- The lengths the implementation's builder gives (log 3): the reference builder's, or another builder's held to
R299. -/
def chooseLengths (builder : CodeLengthBuilder) (freqs : List Nat) (maxLen : Nat) : List Nat :=
  match builder with
  | .packageMerge => packageMerge freqs maxLen
  | .builder id =>
    let proposed := Config.builderLengths id freqs maxLen
    if legalLengths freqs maxLen proposed then proposed else packageMerge freqs maxLen

/-! ## Coding the code lengths (R303 to R305) -/

/-- The order of the code-length code lengths (spec/30 R139). -/
def clenOrder : List Nat := [16, 17, 18, 0, 8, 7, 9, 6, 10, 5, 11, 4, 12, 3, 13, 2, 14, 1, 15]

/-- One past the last index whose value is not 0, or 0: `1 + max{s : L[s] > 0}` of R303 and R305. -/
def usedCount : List Nat → Nat
  | [] => 0
  | l :: ls =>
    let k := usedCount ls
    if k = 0 then (if l = 0 then 0 else 1) else k + 1

/-- The maximal runs of equal values, left to right: value and count (R304). -/
def runsOf : List Nat → List (Nat × Nat)
  | [] => []
  | v :: rest =>
    match runsOf rest with
    | (w, c) :: more => if v = w then (v, c + 1) :: more else (v, 1) :: (w, c) :: more
    | [] => [(v, 1)]

/-- A code-length symbol with its extra bits (R304, spec/30 R137). -/
structure ClenSymbol where
  sym       : Nat
  extra     : Nat
  extraBits : Nat
  deriving DecidableEq, Repr

/-- The code-length symbol of a plain length. -/
def plainClen (v : Nat) : ClenSymbol := ⟨v, 0, 0⟩

/-- A run of `c` zeros (R304), with `fuel` rounds at most; `c` rounds always suffice. -/
def codeZeroRun : Nat → Nat → List ClenSymbol
  | 0, _ => []
  | fuel + 1, c =>
    if c ≥ 11 then ⟨18, min c 138 - 11, 7⟩ :: codeZeroRun fuel (c - min c 138)
    else if c ≥ 3 then [⟨17, c - 3, 3⟩]
    else List.replicate c (plainClen 0)

/-- The repeats of a run of a value `v ≠ 0` after its first (R304). -/
def codeRepeats (v : Nat) : Nat → Nat → List ClenSymbol
  | 0, _ => []
  | fuel + 1, c =>
    if c ≥ 3 then ⟨16, min c 6 - 3, 2⟩ :: codeRepeats v fuel (c - min c 6)
    else List.replicate c (plainClen v)

/-- The symbols of one maximal run (R304). -/
def codeRun (run : Nat × Nat) : List ClenSymbol :=
  if run.1 = 0 then codeZeroRun run.2 run.2
  else plainClen run.1 :: codeRepeats run.1 run.2 (run.2 - 1)

/-- The run-length coding of a sequence of code lengths (R304). -/
def codeLengthSymbols (seq : List Nat) : List ClenSymbol := (runsOf seq).flatMap codeRun

/-- How often each of `n` symbols occurs. -/
def tally (n : Nat) (syms : List Nat) : List Nat := (List.range n).map (fun s => syms.count s)

/-! ## Shared operations of the commands -/

/-- A symbol inside a table's alphabet (R284). -/
def symbolOperand (lengths : List Nat) (s : State) : Except Error Nat := do
  require (s.arg.toNat < lengths.length) .invalidSymbol
  .ok s.arg.toNat

/-- The lengths in `IN`, one byte each (R280). -/
def lengthsOperand (s : State) : List Nat := s.inp.map (fun b => b.toNat)

/-! ## Commands -/

/-- `HUF_BUILD` (R280). -/
def execHufBuild (slot : BitVec 2) (s : State) : StepOutcome :=
  complete s (do
    slotOperand slot
    require (s.inp.length ≤ slotCapacity slot) .invalidArgument
    validateLengths (lengthsOperand s)
    .ok (setSlot s slot (.table (lengthsOperand s))))

/-- `HUF_LOAD_FIXED` (R281). -/
def execHufLoadFixed (s : State) : StepOutcome :=
  succeed { s with ht0 := .table fixedLitLengths, ht1 := .table fixedDistLengths }

/-- `HUF_ENCODE` (R282). -/
def execHufEncode (slot : BitVec 2) (s : State) : StepOutcome :=
  complete s (do
    let lengths ← tableOperand s slot
    let sym ← symbolOperand lengths s
    require (lengths.getD sym 0 ≠ 0) .invalidSymbol
    writeBits s (wireCode lengths sym) (lengths.getD sym 0))

/-- `HUF_DECODE` (R283). -/
def execHufDecode (slot : BitVec 2) (s : State) : StepOutcome :=
  complete s (do
    let lengths ← tableOperand s slot
    let (sym, used, _) ← decodeSymbol (tableCodes lengths) (unreadBits s.bu)
    .ok { s with result := BitVec.ofNat 32 sym, bu := { s.bu with pos := s.bu.pos + used } })

/-- `HUF_QUERY` (R284). -/
def execHufQuery (slot : BitVec 2) (s : State) : StepOutcome :=
  complete s (do
    let lengths ← tableOperand s slot
    let sym ← symbolOperand lengths s
    if lengths.getD sym 0 = 0 then .ok { s with result := 0, result2 := 0 }
    else .ok { s with result := BitVec.ofNat 32 (wireCode lengths sym),
                      result2 := BitVec.ofNat 32 (lengths.getD sym 0) })

end Sys2Proof.Machine
end

