-- ==== Sys2Proof/Machine/Lz77.lean ====
section
/-! DEFINITION. The lz77_matcher (spec/43): candidates, match length, choice, rejection, the greedy parse, and the
commands on `TOKQ`. -/

namespace Sys2Proof.Machine

/-- `WINDOW_SIZE`, `MIN_MATCH`, `MAX_MATCH`, `FAR_DISTANCE` (spec/00 R10). -/
def windowSize : Nat := 32768
def minMatch : Nat := 3
def maxMatch : Nat := 258
def farDistance : Nat := 8192

/-- The length of the common start of two sequences, at most `cap` (R323). -/
def commonLength : Nat → Bytes → Bytes → Nat
  | cap + 1, a :: as, b :: bs => if a = b then commonLength cap as bs + 1 else 0
  | _, _, _ => 0

/-- Each of the `n` positions from `c` on with the bytes that begin there. -/
def positionsFrom (c : Nat) : Nat → Bytes → List (Nat × Bytes)
  | 0, _ => []
  | n + 1, bytes => (c, bytes) :: positionsFrom (c + 1) n bytes.tail

/-- The candidates of R322 for position `p` with lookahead bound `e`, in ascending order, each with the bytes that begin
there: the window's positions with the same trigram. -/
def windowCandidates (data : Bytes) (p e : Nat) : List (Nat × Bytes) :=
  let lo := p - windowSize
  let ahead := data.drop p
  if p + minMatch ≤ e then
    (positionsFrom lo (p - lo) (data.drop lo)).filter (fun c => commonLength minMatch c.2 ahead == minMatch)
  else []

/-- The last `n` of a list. -/
def lastOnes {α : Type} (n : Nat) (l : List α) : List α := l.drop (l.length - n)

/-- The candidates the implementation's engine looks at (`MATCH_CANDIDATES`, R322; log 3). -/
def admitted (m : MatchCandidates) (data : Bytes) (p : Nat) (cs : List (Nat × Bytes)) : List (Nat × Bytes) :=
  match m with
  | .exhaustive => cs
  | .mostRecent n => lastOnes n cs
  | .engine id => cs.filter (fun c => Config.engineAdmits id data p c.1)

/-- `Best` (R324) over candidates in ascending order: the longest match, among equals the largest position. The result
is the length and the position; `none` if there is no candidate. -/
def bestOf (cap : Nat) (ahead : Bytes) (best : Option (Nat × Nat)) : List (Nat × Bytes) → Option (Nat × Nat)
  | [] => best
  | (c, bytes) :: rest =>
    let k := commonLength cap bytes ahead
    match best with
    | none => bestOf cap ahead (some (k, c)) rest
    | some (k', c') => if k' ≤ k then bestOf cap ahead (some (k, c)) rest else bestOf cap ahead (some (k', c')) rest

/-- `Match(D, p, e)` (R323 to R325): length and distance, or `none`. -/
def matchAt (m : MatchCandidates) (data : Bytes) (p e : Nat) : Option (Nat × Nat) :=
  match bestOf (min maxMatch (e - p)) (data.drop p) none (admitted m data p (windowCandidates data p e)) with
  | none => none
  | some (k, c) => if k = minMatch ∧ farDistance ≤ p - c then none else some (k, p - c)

/-- The greedy parse of R326 from position `p`, with at most `fuel` tokens; `e - p` always suffice, since a token
advances by at least one byte (log 12). -/
def tokenizeFrom (m : MatchCandidates) (data : Bytes) (e : Nat) : Nat → Nat → List LZSymbol
  | 0, _ => []
  | fuel + 1, p =>
    if p < e then
      match matchAt m data p e with
      | none => .literal (byteAt data p) :: tokenizeFrom m data e fuel (p + 1)
      | some (k, d) => .copy k d :: tokenizeFrom m data e fuel (p + k)
    else []

/-- `Tokenize(D, s, e)` (R326). -/
def tokenize (m : MatchCandidates) (data : Bytes) (s e : Nat) : List LZSymbol := tokenizeFrom m data e (e - s) s

/-- The token word of `LZ_POP` (spec/30 R118). -/
def tokenWord : LZSymbol → Word
  | .literal b => literalWord b
  | .copy k d => matchWord (BitVec.ofNat 9 k) (BitVec.ofNat 16 d)

/-! ## Commands -/

/-- `LZ_TOKENIZE` (R329). -/
def execLzTokenize (s : State) : StepOutcome :=
  let tokens := tokenize s.params.matchCandidates s.inp 0 s.inp.length
  complete s (do
    let n ← countWord tokens.length
    .ok { s with tokq := tokens, result := n })

/-- `LZ_POP` (R330). -/
def execLzPop (s : State) : StepOutcome :=
  complete s (match s.tokq with
    | [] => .error .tokenQueueEmpty
    | t :: rest => .ok { s with result := tokenWord t, tokq := rest })

/-- `LZ_COUNT` (R331). -/
def execLzCount (s : State) : StepOutcome :=
  complete s (do
    let n ← countWord s.tokq.length
    .ok { s with result := n })

end Sys2Proof.Machine
end

