-- ==== Sys2Proof/Machine/Deflate.lean ====
section
/-! DEFINITION. The DEFLATE encoder and the zlib wrapper (spec/44), and the command `DEFLATE`. What the encoder writes
is a list of fields, packed at the end by the bit writer of BitIO.lean. -/

namespace Sys2Proof.Machine

/-! ## Length and distance codes (R359; spec/30 R131, R133) -/

/-- The bases of the 29 length codes, 257 on (spec/30 R131). -/
def lengthBases : List Nat :=
  [3, 4, 5, 6, 7, 8, 9, 10, 11, 13, 15, 17, 19, 23, 27, 31, 35, 43, 51, 59, 67, 83, 99, 115, 131, 163, 195, 227, 258]

/-- Their extra bits (spec/30 R131). -/
def lengthExtras : List Nat :=
  [0, 0, 0, 0, 0, 0, 0, 0, 1, 1, 1, 1, 2, 2, 2, 2, 3, 3, 3, 3, 4, 4, 4, 4, 5, 5, 5, 5, 0]

/-- The bases of the 30 distance codes (spec/30 R133). -/
def distBases : List Nat :=
  [1, 2, 3, 4, 5, 7, 9, 13, 17, 25, 33, 49, 65, 97, 129, 193, 257, 385, 513, 769, 1025, 1537, 2049, 3073, 4097, 6145,
   8193, 12289, 16385, 24577]

/-- Their extra bits (spec/30 R133): 0 for codes 0 to 3, then `c div 2 - 1`. -/
def distExtras : List Nat := (List.range 30).map (fun c => c / 2 - 1)

/-- The last row whose base is at most `v`, counted from 0. -/
def rowOf (bases : List Nat) (v : Nat) : Nat := (bases.filter (fun b => b ≤ v)).length - 1

/-- A code with its extra bits: code, width, value (R359). -/
structure ExtraCode where
  code  : Nat
  width : Nat
  value : Nat
  deriving DecidableEq, Repr

/-- `LenCode(k)` (R359): 258 is code 285. -/
def lenCode (k : Nat) : ExtraCode :=
  let r := rowOf lengthBases k
  ⟨257 + r, lengthExtras.getD r 0, k - lengthBases.getD r 0⟩

/-- `DistCode(d)` (R359). -/
def distCode (d : Nat) : ExtraCode :=
  let r := rowOf distBases d
  ⟨r, distExtras.getD r 0, d - distBases.getD r 0⟩

/-! ## Symbol streams (R357) and their cost (spec/42 R307) -/

/-- One symbol's code written from a table (spec/42 R273). -/
def codeField (lengths codes : List Nat) (sym : Nat) : Field :=
  .put (reverseBits (lengths.getD sym 0) (codes.getD sym 0)) (lengths.getD sym 0)

/-- The fields of one token (R357). -/
def tokenFields (ll lc dl dc : List Nat) : LZSymbol → List Field
  | .literal b => [codeField ll lc b.toNat]
  | .copy k d =>
    let x := lenCode k
    let y := distCode d
    [codeField ll lc x.code, .put x.value x.width, codeField dl dc y.code, .put y.value y.width]

/-- `WriteSymbols` (R357): the tokens and the end-of-block symbol, coded with the tables of `litLengths` and
`distLengths`. -/
def symbolFields (tokens : List LZSymbol) (litLengths distLengths : List Nat) : List Field :=
  let lc := canonicalCodes litLengths
  let dc := canonicalCodes distLengths
  tokens.flatMap (tokenFields litLengths lc distLengths dc) ++ [codeField litLengths lc 256]

/-- The cost of one token in bits (spec/42 R307). -/
def tokenCost (ll dl : List Nat) : LZSymbol → Nat
  | .literal b => ll.getD b.toNat 0
  | .copy k d =>
    ll.getD (lenCode k).code 0 + (lenCode k).width + dl.getD (distCode d).code 0 + (distCode d).width

/-- The cost of a symbol stream with its end-of-block symbol (spec/42 R307). -/
def symbolsCost (tokens : List LZSymbol) (ll dl : List Nat) : Nat :=
  (tokens.map (tokenCost ll dl)).sum + ll.getD 256 0

/-! ## Dynamic blocks (spec/42 R300 to R307) -/

/-- The lit/len symbol of a token (spec/42 R300). -/
def litSymbol : LZSymbol → Nat
  | .literal b => b.toNat
  | .copy k _ => (lenCode k).code

/-- The distance symbols of a token: none or one (spec/42 R300). -/
def distSymbols : LZSymbol → List Nat
  | .literal _ => []
  | .copy _ d => [(distCode d).code]

/-- A dynamic block's tables and their coding (spec/42 R300 to R305). -/
structure DynamicPlan where
  litLengths  : List Nat
  distLengths : List Nat
  nlit        : Nat
  ndist       : Nat
  symbols     : List ClenSymbol
  clenLengths : List Nat
  nclen       : Nat
  deriving DecidableEq, Repr

/-- `DynamicPlan(T)` (R358). -/
def dynamicPlan (builder : CodeLengthBuilder) (tokens : List LZSymbol) : DynamicPlan :=
  let ll := chooseLengths builder (tally 286 (tokens.map litSymbol ++ [256])) 15
  let dl := chooseLengths builder (tally 30 (tokens.flatMap distSymbols)) 15
  let nlit := max 257 (usedCount ll)
  let ndist := max 1 (usedCount dl)
  let syms := codeLengthSymbols (ll.take nlit ++ dl.take ndist)
  let cl := chooseLengths builder (tally 19 (syms.map (fun e => e.sym))) 7
  { litLengths := ll, distLengths := dl, nlit := nlit, ndist := ndist, symbols := syms, clenLengths := cl,
    nclen := max 4 (usedCount (clenOrder.map (fun s => cl.getD s 0))) }

/-- The dynamic header (spec/42 R306). -/
def headerFields (p : DynamicPlan) : List Field :=
  let cc := canonicalCodes p.clenLengths
  [.put (p.nlit - 257) 5, .put (p.ndist - 1) 5, .put (p.nclen - 4) 4] ++
  (clenOrder.take p.nclen).map (fun s => .put (p.clenLengths.getD s 0) 3) ++
  p.symbols.flatMap (fun e => [codeField p.clenLengths cc e.sym, .put e.extra e.extraBits])

/-- The cost of a dynamic block in bits, its 3 header bits included (spec/42 R307). -/
def dynamicCost (p : DynamicPlan) (tokens : List LZSymbol) : Nat :=
  3 + 5 + 5 + 4 + 3 * p.nclen + (p.symbols.map (fun e => p.clenLengths.getD e.sym 0 + e.extraBits)).sum +
  symbolsCost tokens p.litLengths p.distLengths

/-- The cost of a fixed block in bits (R354). -/
def fixedCost (tokens : List LZSymbol) : Nat := 3 + symbolsCost tokens fixedLitLengths fixedDistLengths

/-! ## Blocks (R353 to R362) -/

/-- `BLOCK_CHUNK` (spec/00 R10). -/
def blockChunk : Nat := 65535

/-- `Split(D)` (R353): the bounds of the chunks of `n` bytes. -/
def splitChunks (n : Nat) : List (Nat × Nat) :=
  (List.range ((n + blockChunk - 1) / blockChunk)).map (fun j => (blockChunk * j, min (blockChunk * (j + 1)) n))

/-- The value of the final bit. -/
def finalBit (final : Bool) : Nat := if final then 1 else 0

/-- `WriteStored` (R360). -/
def storedFields (chunk : Bytes) (final : Bool) : List Field :=
  [.put (finalBit final) 1, .put 0 2, .align, .put chunk.length 16, .put (chunk.length ^^^ 0xFFFF) 16] ++
  byteFields chunk

/-- The kinds of block (spec/30 R121). -/
inductive BlockKind where
  | stored | fixed | dynamic
  deriving DecidableEq, Repr

/-- The choice of R361 and R362: dynamic if strictly smaller than fixed, stored if the choice does not shrink the chunk's
`length` bytes. -/
def chooseKind (fixedBits dynamicBits length : Nat) : BlockKind :=
  if 8 * length ≤ (if dynamicBits < fixedBits then dynamicBits else fixedBits) then .stored
  else if dynamicBits < fixedBits then .dynamic else .fixed

/-- `EncodeBlock` (R354). -/
def blockFields (c : LevelChoice) (data : Bytes) (s e : Nat) (final : Bool) : List Field :=
  let tokens := tokenize c.candidates data s e
  let plan := dynamicPlan c.builder tokens
  match chooseKind (fixedCost tokens) (dynamicCost plan tokens) (e - s) with
  | .stored => storedFields (slice data s (e - s)) final
  | .fixed => .put (finalBit final + 2) 3 :: symbolFields tokens fixedLitLengths fixedDistLengths
  | .dynamic =>
    .put (finalBit final + 4) 3 :: headerFields plan ++ symbolFields tokens plan.litLengths plan.distLengths

/-- What a level 1 to 9 asks of the encoder (`LEVEL_POLICY`, R351; log 4). -/
def levelChoice (p : Params) (level : Nat) : LevelChoice :=
  match p.levelPolicy with
  | .identical => ⟨p.matchCandidates, p.codeLengthBuilder⟩
  | .perLevel choices => choices.getD (level - 1) ⟨p.matchCandidates, p.codeLengthBuilder⟩

/-- The fields of one chunk (R352). -/
def chunkFields (p : Params) (data : Bytes) (level s e : Nat) (final : Bool) : List Field :=
  if level = 0 then storedFields (slice data s (e - s)) final
  else blockFields (levelChoice p level) data s e final

/-- `Body(D, level)` (R352): the raw DEFLATE stream. The empty input comes first (R356). -/
def deflateBody (p : Params) (data : Bytes) (level : Nat) : Bytes :=
  if data = [] then [0x03, 0x00]
  else
    let fields := (splitChunks data.length).flatMap
      (fun c => chunkFields p data level c.1 c.2 (c.2 = data.length))
    (packFields Pending.empty (fields ++ [.align])).1

/-- The stream of R350: the body, in the zlib wrapper of R364 to R366 if asked for. -/
def deflateStream (p : Params) (data : Bytes) (level : Nat) (wrap : Bool) : Bytes :=
  if wrap then [0x78, 0x9C] ++ deflateBody p data level ++ u32be (adler32 1 data) else deflateBody p data level

/-! ## Command -/

/-- `DEFLATE` (R350). -/
def execDeflate (level : BitVec 4) (wrap : Bool) (s : State) : StepOutcome :=
  complete s (do
    let l ← levelOperand level
    let stream := deflateStream s.params s.inp l wrap
    let t ← appendOut s stream
    let n ← countWord stream.length
    .ok { t with result := n })

end Sys2Proof.Machine
end

