-- ==== Sys2Proof/Machine/Inflate.lean ====
section
/-! DEFINITION. The inflate_decoder (spec/45): the decoding function of R400 to R421 and the three INFLATE commands. -/

namespace Sys2Proof.Machine

/-! ## The private reader and its outcomes (R400) -/

/-- The decoder inside one run: the bits not yet read, how many were read, and the output so far, latest byte first. -/
structure Decoder where
  bits : List Bool
  pos  : Nat
  rout : Bytes
  deriving DecidableEq, Repr

/-- Why decoding ends early (R400): input ran out in a phase, with the output of every symbol completely decoded, or a
hard error. -/
inductive Stop where
  | more (out : Bytes) (phase : Phase)
  | fail (e : Error)
  deriving DecidableEq, Repr

/-- The outcomes of `Inflate(B, wrap)` (R400). -/
inductive InflateOutcome where
  | done (out : Bytes) (used : Nat)
  | more (out : Bytes) (phase : Phase)
  | fail (e : Error)
  deriving DecidableEq, Repr

/-- Input ran out (R416). -/
def outOfInput {α : Type} (ph : Phase) (d : Decoder) : Except Stop α := .error (.more d.rout.reverse ph)

/-- A hard error. -/
def hardError {α : Type} (e : Error) : Except Stop α := .error (.fail e)

/-- A check of the decoder: `if not c then raise e`. -/
def demand (c : Prop) [Decidable c] (e : Error) : Except Stop Unit := if c then .ok () else hardError e

/-- `need_read(n)` (R400, R416) in a phase. -/
def needRead (ph : Phase) (n : Nat) (d : Decoder) : Except Stop (Nat × Decoder) :=
  match takeBits n d.bits with
  | none => outOfInput ph d
  | some (v, rest) => .ok (v, { d with bits := rest, pos := d.pos + n })

/-- `decode(table)` (spec/42 R274, R416) in a phase: running out of bits asks for more input. -/
def needSymbol (ph : Phase) (codes : List Code) (d : Decoder) : Except Stop (Nat × Decoder) :=
  match decodeSymbol codes d.bits with
  | .ok (sym, used, rest) => .ok (sym, { d with bits := rest, pos := d.pos + used })
  | .error .insufficientBits => outOfInput ph d
  | .error e => hardError e

/-- The reader moved to the next byte boundary, the skipped bits unchecked (R406, R414). -/
def alignDecoder (d : Decoder) : Decoder :=
  let k := (8 - d.pos % 8) % 8
  { d with bits := d.bits.drop k, pos := d.pos + k }

/-- One byte of output (R411). -/
def emit (b : Byte) (d : Decoder) : Decoder := { d with rout := b :: d.rout }

/-! ## Stored blocks (R406) -/

/-- The next `n` whole bytes and the bits after them; nothing if fewer are left. -/
def takeBytes : Nat → List Bool → Option (Bytes × List Bool)
  | 0, bits => some ([], bits)
  | n + 1, bits =>
    match takeBits 8 bits with
    | none => none
    | some (v, rest) =>
      match takeBytes n rest with
      | none => none
      | some (bytes, after) => some (BitVec.ofNat 8 v :: bytes, after)

/-- `Stored` (R406): all-or-nothing. -/
def decodeStored (d : Decoder) : Except Stop Decoder := do
  let (len, d) ← needRead .stored 16 (alignDecoder d)
  let (nlen, d) ← needRead .stored 16 d
  demand (len = nlen ^^^ 0xFFFF) .storedLengthMismatch
  match takeBytes len d.bits with
  | none => outOfInput .stored d
  | some (bytes, rest) => .ok { bits := rest, pos := d.pos + 8 * len, rout := bytes.reverse ++ d.rout }

/-! ## Symbol streams (R410 to R413) -/

/-- The byte-by-byte copy of R413. -/
def copyBack (dist : Nat) : Nat → Bytes → Bytes
  | 0, rout => rout
  | k + 1, rout => copyBack dist k (rout.getD (dist - 1) 0 :: rout)

/-- `Match` (R412): a length symbol and its back-reference. -/
def decodeMatch (sym : Nat) (dt : List Code) (d : Decoder) : Except Stop Decoder := do
  demand (sym ≤ 285) .invalidSymbol
  let (lx, d) ← needRead .decodeSymbols (lengthExtras.getD (sym - 257) 0) d
  let k := lengthBases.getD (sym - 257) 0 + lx
  let (dsym, d) ← needSymbol .decodeSymbols dt d
  demand (dsym ≤ 29) .invalidSymbol
  let (dx, d) ← needRead .decodeSymbols (distExtras.getD dsym 0) d
  let dist := distBases.getD dsym 0 + dx
  demand (dist ≤ d.rout.length) .invalidDistance
  .ok { d with rout := copyBack dist k d.rout }

/-- `Symbols` (R410), with at most `fuel` symbols. Every symbol takes at least one bit, so one more than the number of
bits left always suffices (R541, log 12). -/
def decodeSymbols (lt dt : List Code) : Nat → Decoder → Except Stop Decoder
  | 0, d => outOfInput .decodeSymbols d
  | fuel + 1, d => do
    let (sym, d) ← needSymbol .decodeSymbols lt d
    if sym < 256 then decodeSymbols lt dt fuel (emit (BitVec.ofNat 8 sym) d)
    else if sym = 256 then .ok d
    else
      let d ← decodeMatch sym dt d
      decodeSymbols lt dt fuel d

/-- The fixed distance table of the decoder: 32 codes (R407). -/
def decoderDistLengths : List Nat := List.replicate 32 5

/-! ## Dynamic tables (R408) -/

/-- The code-length code lengths: `k` values of 3 bits, put in the order of spec/30 R139. -/
def readClens : List Nat → List Nat → Decoder → Except Stop (List Nat × Decoder)
  | [], cl, d => .ok (cl, d)
  | sym :: order, cl, d => do
    let (v, d) ← needRead .dynamicTable 3 d
    readClens order (cl.set sym v) d

/-- The values one code-length symbol adds to the sequence read so far (R408). -/
def clenValues (sym : Nat) (seq : List Nat) (d : Decoder) : Except Stop (List Nat × Decoder) :=
  if sym < 16 then .ok ([sym], d)
  else if sym = 16 then
    match seq.getLast? with
    | none => hardError .invalidCodeLength
    | some v => do
      let (x, d) ← needRead .dynamicTable 2 d
      .ok (List.replicate (3 + x) v, d)
  else if sym = 17 then do
    let (x, d) ← needRead .dynamicTable 3 d
    .ok (List.replicate (3 + x) 0, d)
  else do
    let (x, d) ← needRead .dynamicTable 7 d
    .ok (List.replicate (11 + x) 0, d)

/-- The sequence of `total` code lengths (R408), with at most `fuel` symbols; each adds at least one value, so `total`
always suffice (log 12). -/
def readLengths (ct : List Code) (total : Nat) : Nat → List Nat → Decoder → Except Stop (List Nat × Decoder)
  | 0, seq, d => .ok (seq, d)
  | fuel + 1, seq, d =>
    if total ≤ seq.length then .ok (seq, d)
    else do
      let (sym, d) ← needSymbol .dynamicTable ct d
      let (vs, d) ← clenValues sym seq d
      demand ((seq ++ vs).length ≤ total) .invalidCodeLength
      readLengths ct total fuel (seq ++ vs) d

/-- `TABLE(L)` inside the decoder (spec/42 R271). -/
def buildCodes (lengths : List Nat) : Except Stop (List Code) :=
  match validateLengths lengths with
  | .ok _ => .ok (tableCodes lengths)
  | .error e => hardError e

/-- `DynamicTable` (R408): the lit/len and the distance table. -/
def readTables (d : Decoder) : Except Stop ((List Code × List Code) × Decoder) := do
  let (hlit, d) ← needRead .dynamicTable 5 d
  let (hdist, d) ← needRead .dynamicTable 5 d
  let (hclen, d) ← needRead .dynamicTable 4 d
  let nlit := hlit + 257
  let ndist := hdist + 1
  demand (nlit ≤ 286 ∧ ndist ≤ 30) .invalidCodeLength
  let (cl, d) ← readClens (clenOrder.take (hclen + 4)) (List.replicate 19 0) d
  let ct ← buildCodes cl
  let (seq, d) ← readLengths ct (nlit + ndist) (nlit + ndist) [] d
  let ll := seq.take nlit
  let dl := seq.drop nlit
  demand (ll.getD 256 0 ≠ 0) .invalidCodeLength
  let lt ← buildCodes ll
  let dt ← buildCodes dl
  .ok ((lt, dt), d)

/-! ## Blocks and the stream (R400 to R407, R414, R421) -/

/-- The body of one block of type `btype` (R400). -/
def decodeBody (btype : Nat) (d : Decoder) : Except Stop Decoder :=
  if btype = 0 then decodeStored d
  else if btype = 1 then
    decodeSymbols (tableCodes fixedLitLengths) (tableCodes decoderDistLengths) (d.bits.length + 1) d
  else if btype = 2 then do
    let (tables, d) ← readTables d
    decodeSymbols tables.1 tables.2 (d.bits.length + 1) d
  else hardError .invalidBlockType

/-- The block loop (R400), with at most `fuel` blocks. Every block takes at least its 3 header bits, so one more than
the number of bits left always suffices (R541, log 12). -/
def decodeBlocks : Nat → Decoder → Except Stop Decoder
  | 0, d => outOfInput .readBlockHeader d
  | fuel + 1, d => do
    let (final, d) ← needRead .readBlockHeader 1 d
    let (btype, d) ← needRead .readBlockHeader 2 d
    let d ← decodeBody btype d
    if final = 1 then .ok d else decodeBlocks fuel d

/-- The zlib header and its checks (R401, R402). -/
def decodeZlibHeader (d : Decoder) : Except Stop Decoder := do
  let (cmf, d) ← needRead .zlibHeader 8 d
  let (flg, d) ← needRead .zlibHeader 8 d
  demand (cmf % 16 = 8 ∧ cmf / 16 ≤ 7 ∧ (cmf * 256 + flg) % 31 = 0 ∧ flg / 32 % 2 = 0) .badZlibHeader
  .ok d

/-- The zlib trailer (R421): four bytes, most significant first. -/
def decodeTrailer (d : Decoder) : Except Stop Decoder :=
  match takeBytes 4 d.bits with
  | none => outOfInput .trailer d
  | some (bytes, rest) => do
    demand (bytes = u32be (adler32 1 d.rout.reverse)) .adler32Mismatch
    .ok { d with bits := rest, pos := d.pos + 32 }

/-- The whole stream (R400). -/
def decodeStream (wrap : Bool) (d : Decoder) : Except Stop Decoder := do
  let d ← if wrap then decodeZlibHeader d else .ok d
  let d ← decodeBlocks (d.bits.length + 1) d
  let d := alignDecoder d
  if wrap then decodeTrailer d else .ok d

/-- `Inflate(B, wrap)` (R400). -/
def inflate (bytes : Bytes) (wrap : Bool) : InflateOutcome :=
  match decodeStream wrap ⟨streamBits bytes, 0, []⟩ with
  | .ok d => .done d.rout.reverse (d.pos / 8)
  | .error (.more out ph) => .more out ph
  | .error (.fail e) => .fail e

/-! ## Commands -/

/-- `INFLATE_START` (R423). -/
def execInflateStart (wrap : Bool) (s : State) : StepOutcome :=
  succeed { s with inf := ⟨wrap, [], 0, none, if wrap then .zlibHeader else .readBlockHeader⟩ }

/-- `INFLATE_FEED` (R424). -/
def execInflateFeed (s : State) : StepOutcome :=
  complete s (do
    requireStarted s
    checkCapacity s (s.inf.input.length + s.inp.length)
    .ok { s with inf := { s.inf with input := s.inf.input ++ s.inp } })

/-- The output of a run that `OUT` does not have yet, appended to it, with the phase the run stopped in (R425). The
private output stream obeys the capacity as well (spec/60 R531; log 11). -/
def commitRun (s : State) (out : Bytes) (ph : Phase) : Except Error State := do
  checkCapacity s out.length
  let t ← appendOut s (out.drop s.inf.emitted)
  .ok { t with inf := { s.inf with emitted := out.length, phase := ph } }

/-- `INFLATE_RUN` (R425). Its two failures that leave effects are exceptions 1 and 2 of spec/60 R533. -/
def execInflateRun (s : State) : StepOutcome :=
  match requireStarted s with
  | .error e => raise e s
  | .ok _ =>
    match s.inf.err with
    | some e => raise e s
    | none =>
      match inflate s.inf.input s.inf.wrap with
      | .done out used =>
        complete s (do
          let t ← commitRun s out .done
          let appended ← countWord (out.length - s.inf.emitted)
          let position ← countWord used
          .ok { t with result := appended, result2 := position })
      | .more out ph =>
        match commitRun s out ph with
        | .ok t => .next (report (some .needsMoreInput) t)
        | .error e => raise e s
      | .fail e => .next (report (some e) { s with inf := { s.inf with err := some e, phase := .error } })

end Sys2Proof.Machine
end

