-- ==== Sys2Proof/Machine/ZipCodec.lean ====
section
/-! DEFINITION. The zip_container_codec (spec/46): locating the EOCD, parsing the central directory, extraction with its
checks, writing, and the ZIP commands. -/

namespace Sys2Proof.Machine

/-! ## Reading: eocd_locator (R461, R462) -/

/-- The largest distance of an EOCD record from the last place it fits: 65535, the largest comment (R461). -/
def eocdReach : Nat := 65535

/-- The last of the `n` positions from `p` on whose four bytes are the EOCD signature (R461; spec/90 C2: the highest
offset wins). -/
def lastSignature (p : Nat) : Nat → Bytes → Option Nat
  | 0, _ => none
  | n + 1, bytes =>
    match lastSignature (p + 1) n bytes.tail with
    | some q => some q
    | none => if u32At bytes 0 = eocdSig then some p else none

/-- `LocateEOCD(I)` (R461). -/
def locateEocd (img : Bytes) : Except Error Nat :=
  if img.length < 22 then .error .eocdNotFound
  else
    let top := img.length - 22
    let lo := top - eocdReach
    match lastSignature lo (top - lo + 1) (img.drop lo) with
    | some p => .ok p
    | none => .error .eocdNotFound

/-! ## Reading: header_parser (R463 to R470) -/

/-- `is_dir` (R469): the directory attribute, or a name that ends in `/`. -/
def isDirectory (extAttr : Word) (name : Bytes) : Bool := extAttr.getLsbD 4 || name.getLast? == some 0x2F

/-- `is_symlink` (R470): the file type bits of the Unix mode are 0xA000. -/
def isSymbolicLink (extAttr : Word) : Bool := extAttr.extractLsb' 28 4 == 0xA#4

/-- An entry with its two derived flags (R469, R470; log 13). -/
def makeEntry (name : Bytes) (csize usize crc : Word) (method dostime dosdate : Half) (extAttr offset : Word) :
    Entry :=
  ⟨name, csize, usize, crc, method, dostime, dosdate, extAttr, offset, isDirectory extAttr name, isSymbolicLink extAttr⟩

/-- `Entry(I, q)` of a record (R468). -/
def entryOf (r : CentralRecord) : Entry :=
  makeEntry r.name r.csize r.usize r.crc r.method r.time r.date r.extAttr r.offset

/-- The record loop of R463: `k` records from `q` on, none of which may pass `stop`. -/
def parseRecords (img : Bytes) (stop : Nat) : Nat → Nat → Except Error (List Entry)
  | 0, _ => .ok []
  | k + 1, q => do
    require (q + 46 ≤ stop) .corrupt
    require (u32At img q = centralSig) .badSignature
    let next := q + 46 + (u16At img (q + 28)).toNat + (u16At img (q + 30)).toNat + (u16At img (q + 32)).toNat
    require (next ≤ stop) .corrupt
    let rest ← parseRecords img stop k next
    .ok (entryOf (centralAt img q) :: rest)

/-- `ParseArchive(I)` (R463): the index and the central-directory offset. -/
def parseArchive (img : Bytes) : Except Error (List Entry × Word) := do
  let p ← locateEocd img
  let r := eocdAt img p
  require (r.disk = 0 ∧ r.cdDisk = 0 ∧ r.nThis = r.nTotal) .multiDiskUnsupported
  require (p + 22 + (u16At img (p + 20)).toNat ≤ img.length ∧ r.cdOffset.toNat + r.cdSize.toNat ≤ img.length) .corrupt
  let index ← parseRecords img (r.cdOffset.toNat + r.cdSize.toNat) r.nTotal.toNat r.cdOffset.toNat
  .ok (index, r.cdOffset)

/-- `field(e, N)` (R471). -/
def entryField (e : Entry) (n : BitVec 6) : Except Error Word :=
  match n.toNat with
  | 0 => .ok e.csize
  | 1 => .ok e.usize
  | 2 => .ok e.crc
  | 3 => .ok (e.method.setWidth 32)
  | 4 => .ok (e.dosdate ++ e.dostime)
  | 5 => .ok e.extAttr
  | 6 => .ok e.offset
  | 7 => .ok (BitVec.ofNat 32 (e.isDir.toNat + 2 * e.isSymlink.toNat))
  | 8 => countWord e.name.length
  | _ => .error .invalidArgument

/-! ## Extraction and crc32_validator (R473, R474) -/

/-- The data of a payload by its method (R473): 0 passthrough, 8 raw DEFLATE. -/
def decodePayload (method : Half) (raw : Bytes) : Except Error Bytes :=
  if method = 0 then .ok raw
  else if method = 8 then
    match inflate raw false with
    | .done out _ => .ok out
    | .more _ _ => .error .corrupt
    | .fail e => .error e
  else .error .unsupportedMethod

/-- `Validate(e, data)` (R474): the length first, then the CRC32. -/
def validateEntry (e : Entry) (data : Bytes) : Except Error Unit := do
  require (data.length = e.usize.toNat) .sizeMismatch
  require (crc32 0 data = e.crc) .crc32Mismatch

/-- The verified data of an entry of an image (R473). -/
def extractEntry (img : Bytes) (e : Entry) : Except Error Bytes := do
  let o := e.offset.toNat
  require (o + 30 ≤ img.length) .corrupt
  require (u32At img o = localSig) .badSignature
  let start := o + 30 + (u16At img (o + 26)).toNat + (u16At img (o + 28)).toNat
  require (start + e.csize.toNat ≤ img.length) .corrupt
  let data ← decodePayload e.method (slice img start e.csize.toNat)
  validateEntry e data
  .ok data

/-! ## Writing (R481 to R487) -/

/-- `VERSION_MADE_BY` (spec/00 R10). -/
def versionMadeBy : Half := 0x031E

/-- The two methods for which spec/30 R150 gives a header. -/
abbrev HasVersion (e : Entry) : Prop := e.method = 0 ∨ e.method = 8

/-- `VERSION_NEEDED` (spec/00 R10, spec/30 R150) of the methods 8 and 0; no header of another method is written
(`HasVersion`). -/
def versionNeeded (method : Half) : Half := if method = 8 then 20 else 10

/-- The local header of an entry (spec/30 R150). -/
def localRecordOf (e : Entry) : LocalRecord :=
  { version := versionNeeded e.method, flags := 0, method := e.method, time := e.dostime, date := e.dosdate, crc := e.crc,
    csize := e.csize, usize := e.usize, name := e.name, extra := [] }

/-- The central-directory record of an entry (spec/30 R151). -/
def centralRecordOf (e : Entry) : CentralRecord :=
  { madeBy := versionMadeBy, version := versionNeeded e.method, flags := 0, method := e.method, time := e.dostime,
    date := e.dosdate, crc := e.crc, csize := e.csize, usize := e.usize, diskStart := 0, intAttr := 0,
    extAttr := e.extAttr, offset := e.offset, name := e.name, extra := [], comment := [] }

/-- The central directory of an index (R486). -/
def directoryBytes (index : List Entry) : Bytes := index.flatMap (fun e => centralBytes (centralRecordOf e))

/-- The EOCD the writer makes (spec/30 R152). -/
def eocdRecordOf (count size offset : Nat) : EocdRecord :=
  { disk := 0, cdDisk := 0, nThis := BitVec.ofNat 16 count, nTotal := BitVec.ofNat 16 count,
    cdSize := BitVec.ofNat 32 size, cdOffset := BitVec.ofNat 32 offset, comment := [] }

/-- `ZIP_FIELD_MAX` (spec/00 R10, R492): the largest size or offset a ZIP field may hold. -/
def zipFieldMax : Nat := 0xFFFFFFFE

/-- The checks on an added entry's name and the entry count (R481, R482, R484). -/
def addChecks (s : State) (nm : Bytes) : Except Error Unit := do
  nameOperand nm
  require (s.zip.index.length < 65535) .tooManyFiles

/-- One entry appended to the image and the index (R482, R484): local header, name, payload. -/
def addEntry (s : State) (nm : Bytes) (mode : Half) (attr : Word) (method : Half) (data payload : Bytes) :
    Except Error State := do
  let off := s.zip.img.length
  require (data.length ≤ zipFieldMax ∧ payload.length ≤ zipFieldMax ∧ off ≤ zipFieldMax) .sizeTooLarge
  let e := makeEntry nm (BitVec.ofNat 32 payload.length) (BitVec.ofNat 32 data.length) (crc32 0 data) method
    (dosTimeOperand s) (dosDateOperand s) ((mode ++ 0#16) ||| attr) (BitVec.ofNat 32 off)
  let img := s.zip.img ++ localBytes (localRecordOf e) ++ payload
  checkImage s img.length
  .ok { s with zip := { s.zip with img := img, index := s.zip.index ++ [e] },
               result := BitVec.ofNat 32 payload.length }

/-- The effects of `ZIP_FINALIZE` (R486). DEDUCED, log 6: a kept entry of another method than 0 and 8 has no `version
needed` (R488, spec/30 R150), so its record cannot be made: no arm, hence InvalidArgument (spec/00 R15). -/
def finalizeArchive (s : State) : Except Error State := do
  requireWriter s
  require (∀ e ∈ s.zip.index, HasVersion e) .invalidArgument
  let cdoff := s.zip.img.length
  let cd := directoryBytes s.zip.index
  require (cdoff ≤ zipFieldMax ∧ cd.length ≤ zipFieldMax) .sizeTooLarge
  let img := s.zip.img ++ cd ++ eocdBytes (eocdRecordOf s.zip.index.length cd.length cdoff)
  checkImage s img.length
  let t ← appendOut s img
  .ok { t with zip := { s.zip with img := img, cdOffset := BitVec.ofNat 32 cdoff, mode := .closed },
               result := BitVec.ofNat 32 img.length }

/-! ## Commands: reading -/

/-- `ZIP_OPEN_READ` (R460). -/
def execZipOpenRead (s : State) : StepOutcome :=
  complete s (do
    requireNotWriter s
    let (index, cdoff) ← parseArchive s.inp
    checkImage s s.inp.length
    let n ← countWord index.length
    .ok { s with zip := ⟨s.inp, index, cdoff, .reader⟩, result := n })

/-- `ZIP_LOCATE_EOCD` (R461). -/
def execZipLocateEocd (s : State) : StepOutcome :=
  complete s (do
    let p ← locateEocd s.inp
    let n ← countWord p
    .ok { s with result := n })

/-- `ZIP_ENTRY_INFO` (R471): the index is checked before the selector (log 10). -/
def execZipEntryInfo (n : BitVec 6) (s : State) : StepOutcome :=
  complete s (do
    requireReader s
    let e ← entryOperand s
    let v ← entryField e n
    .ok { s with result := v })

/-- `ZIP_ENTRY_NAME` (R472). -/
def execZipEntryName (s : State) : StepOutcome :=
  complete s (do
    requireReader s
    let e ← entryOperand s
    let t ← appendOut s e.name
    let n ← countWord e.name.length
    .ok { t with result := n })

/-- `ZIP_EXTRACT` (R473). -/
def execZipExtract (s : State) : StepOutcome :=
  complete s (do
    requireReader s
    let e ← entryOperand s
    let data ← extractEntry s.zip.img e
    let t ← appendOut s data
    let n ← countWord data.length
    .ok { t with result := n, result2 := e.crc })

/-! ## Commands: writing -/

/-- `ZIP_CREATE` (R480). -/
def execZipCreate (s : State) : StepOutcome :=
  complete s (do
    requireNotWriter s
    .ok { s with zip := ⟨[], [], 0, .writer⟩ })

/-- `ZIP_OPEN_APPEND` (R488): the image is cut at the old central directory. -/
def execZipOpenAppend (s : State) : StepOutcome :=
  complete s (do
    requireNotWriter s
    let (index, cdoff) ← parseArchive s.inp
    checkImage s (s.inp.take cdoff.toNat).length
    let n ← countWord index.length
    .ok { s with zip := ⟨s.inp.take cdoff.toNat, index, cdoff, .writer⟩, result := n })

/-- `ZIP_ADD_FILE` (R482). -/
def execZipAddFile (level : BitVec 4) (store : Bool) (s : State) : StepOutcome :=
  complete s (do
    requireWriter s
    let mode ← unixModeOperand s
    let l ← levelOperand level
    addChecks s s.name
    if store then addEntry s s.name mode 0 0 s.inp s.inp
    else addEntry s s.name mode 0 8 s.inp (deflateBody s.params s.inp l))

/-- The name of a directory entry (R484): `/` is added where it is missing. -/
def directoryName (nm : Bytes) : Bytes := if nm.getLast? = some 0x2F then nm else nm ++ [0x2F]

/-- `ZIP_ADD_DIR` (R484). -/
def execZipAddDir (s : State) : StepOutcome :=
  complete s (do
    requireWriter s
    let mode ← unixModeOperand s
    addChecks s (directoryName s.name)
    addEntry s (directoryName s.name) mode 0x10 0 [] [])

/-- `ZIP_FINALIZE` (R486). -/
def execZipFinalize (s : State) : StepOutcome := complete s (finalizeArchive s)

/-- `ZIP_CLOSE` (R489): a writer is finalized first, and `ZIP` is reset whether or not that succeeds, exception 3 of
spec/60 R533. A finalize that succeeds has all its effects, the one on `RESULT` included (log 9). -/
def execZipClose (s : State) : StepOutcome :=
  if s.zip.mode = .writer then
    match finalizeArchive s with
    | .ok t => succeed { t with zip := Zip.reset }
    | .error e => .next (report (some e) { s with zip := Zip.reset })
  else succeed { s with zip := Zip.reset }

end Sys2Proof.Machine
end

