-- ==== Sys2Proof/Machine/Wire.lean ====
section
/-! DEFINITION. The wire-format rows of the opcode table (spec/30 R118, R121, R145, R150 to R152, spec/45 R405). They are
no commands: they are items of the streams the block reads and the words it returns. An item handed to the block is put
where the unit that handles this format finds it, and that unit's own commands are performed (log 7), so an item has
exactly the effect the rules of that unit give it. -/

namespace Sys2Proof.Machine

/-- The host replaces `IN` by bytes of its own, within the capacity of the stream (spec/10 R33, spec/60 R531). -/
def loadInput (s : State) (bytes : Bytes) : Except Error State := do
  checkCapacity s bytes.length
  .ok { s with inp := bytes }

/-- Bytes put in `IN`, and then a command. -/
def withInput (s : State) (bytes : Bytes) (f : State → StepOutcome) : StepOutcome :=
  match loadInput s bytes with
  | .ok t => f t
  | .error e => raise e s

/-- Bytes that arrive at the decoder: they are fed, and it runs as far as they allow (spec/45 R424, R425). -/
def arriveAtDecoder (bytes : Bytes) (s : State) : StepOutcome :=
  withInput s bytes (fun t => andThen (execInflateFeed t) execInflateRun)

/-- A token at the head of the queue, returned by `LZ_POP` (spec/43 R330). -/
def returnToken (t : LZSymbol) (s : State) : StepOutcome := execLzPop { s with tokq := t :: s.tokq }

/-- An image that ends in an EOCD for one central-directory record of `size` bytes at `offset`. -/
def oneEntryImage (lead record : Bytes) : Bytes :=
  lead ++ record ++ eocdBytes (eocdRecordOf 1 record.length lead.length)

/-- The central-directory record of an empty stored entry of this name at offset 0. -/
def emptyEntryRecord (name : Bytes) : CentralRecord :=
  { madeBy := versionMadeBy, version := versionNeeded 0, flags := 0, method := 0, time := 0, date := 0, crc := 0,
    csize := 0, usize := 0, diskStart := 0, intAttr := 0, extAttr := 0, offset := 0, name := name, extra := [],
    comment := [] }

/-- `BLOCK_STORED` (R121, R122): the header's byte arrives at the decoder. -/
def execBlockStored (final : Bool) (body : BitVec 5) (s : State) : StepOutcome :=
  arriveAtDecoder [blockByte 0 final body] s

/-- `BLOCK_FIXED` (R121, R123). -/
def execBlockFixed (final : Bool) (body : BitVec 5) (s : State) : StepOutcome :=
  arriveAtDecoder [blockByte 1 final body] s

/-- `BLOCK_DYNAMIC` (R121, R123). -/
def execBlockDynamic (final : Bool) (body : BitVec 5) (s : State) : StepOutcome :=
  arriveAtDecoder [blockByte 2 final body] s

/-- `BLOCK_RESERVED` (spec/45 R405). -/
def execBlockReserved (final : Bool) (body : BitVec 5) (s : State) : StepOutcome :=
  arriveAtDecoder [blockByte 3 final body] s

/-- `ZLIB_HEADER` (R145): its two bytes arrive at the decoder. -/
def execZlibHeader (s : State) : StepOutcome := arriveAtDecoder [0x78, 0x9C] s

/-- `ZIP_LOCAL_HEADER` (R150): the record stands at the start of an archive of one empty stored entry; the archive is
opened and the entry extracted, which reads the header (spec/46 R473, R477). -/
def execZipLocalHeader (r : LocalRecord) (s : State) : StepOutcome :=
  withInput s (oneEntryImage (localBytes r) (centralBytes (emptyEntryRecord r.name)))
    (fun t => andThen (execZipOpenRead t) (fun u => execZipExtract { u with arg := 0 }))

/-- `ZIP_CENTRAL_HEADER` (R151): the record is the central directory of an image that holds nothing else, which is
opened (spec/46 R463, R468). -/
def execZipCentralHeader (r : CentralRecord) (s : State) : StepOutcome :=
  withInput s (oneEntryImage [] (centralBytes r)) execZipOpenRead

/-- `ZIP_EOCD` (R152): the record is an image of its own, which is opened (spec/46 R461, R463). -/
def execZipEocd (r : EocdRecord) (s : State) : StepOutcome := withInput s (eocdBytes r) execZipOpenRead

/-- `LZ_TOKEN_LITERAL` (R118): the token is returned in `RESULT`. -/
def execLzTokenLiteral (b : BitVec 8) (s : State) : StepOutcome := returnToken (.literal b) s

/-- `LZ_TOKEN_MATCH` (R118): the token is returned in `RESULT`. -/
def execLzTokenMatch (length : BitVec 9) (distance : BitVec 16) (s : State) : StepOutcome :=
  returnToken (.copy length.toNat distance.toNat) s

end Sys2Proof.Machine
end

