-- ==== Sys2Proof/Machine/Dispatch.lean ====
section
/-! DEFINITION. The dispatch: one arm per constructor of Instr, each one call of its meaning. -/

namespace Sys2Proof.Machine

def exec (i : Instr) (s : State) : Host.Outcome State Fault Refusal :=
  match i with
  | .nop => Sys2Proof.Machine.execNop s
  | .coreReset => Sys2Proof.Machine.execCoreReset s
  | .statusClear => Sys2Proof.Machine.execStatusClear s
  | .outClear => Sys2Proof.Machine.execOutClear s
  | .bpReset => Sys2Proof.Machine.execBpReset s
  | .bpWriteBits n => Sys2Proof.Machine.execBpWriteBits n s
  | .bpWriteByte => Sys2Proof.Machine.execBpWriteByte s
  | .bpWriteBytes => Sys2Proof.Machine.execBpWriteBytes s
  | .bpAlign => Sys2Proof.Machine.execBpAlign s
  | .buLoad => Sys2Proof.Machine.execBuLoad s
  | .buReset => Sys2Proof.Machine.execBuReset s
  | .buReadBits n => Sys2Proof.Machine.execBuReadBits n s
  | .buPeekBits n => Sys2Proof.Machine.execBuPeekBits n s
  | .buSkipBits => Sys2Proof.Machine.execBuSkipBits s
  | .buAlign => Sys2Proof.Machine.execBuAlign s
  | .buPosition => Sys2Proof.Machine.execBuPosition s
  | .buRemaining => Sys2Proof.Machine.execBuRemaining s
  | .adlerSeed => Sys2Proof.Machine.execAdlerSeed s
  | .adlerUpdate => Sys2Proof.Machine.execAdlerUpdate s
  | .adlerRead => Sys2Proof.Machine.execAdlerRead s
  | .crcSeed => Sys2Proof.Machine.execCrcSeed s
  | .crcUpdate => Sys2Proof.Machine.execCrcUpdate s
  | .crcRead => Sys2Proof.Machine.execCrcRead s
  | .hufBuild slot => Sys2Proof.Machine.execHufBuild slot s
  | .hufLoadFixed => Sys2Proof.Machine.execHufLoadFixed s
  | .hufEncode slot => Sys2Proof.Machine.execHufEncode slot s
  | .hufDecode slot => Sys2Proof.Machine.execHufDecode slot s
  | .hufQuery slot => Sys2Proof.Machine.execHufQuery slot s
  | .lzTokenize => Sys2Proof.Machine.execLzTokenize s
  | .lzPop => Sys2Proof.Machine.execLzPop s
  | .lzCount => Sys2Proof.Machine.execLzCount s
  | .deflate level wrap => Sys2Proof.Machine.execDeflate level wrap s
  | .inflateStart wrap => Sys2Proof.Machine.execInflateStart wrap s
  | .inflateFeed => Sys2Proof.Machine.execInflateFeed s
  | .inflateRun => Sys2Proof.Machine.execInflateRun s
  | .zipOpenRead => Sys2Proof.Machine.execZipOpenRead s
  | .zipLocateEocd => Sys2Proof.Machine.execZipLocateEocd s
  | .zipEntryInfo n => Sys2Proof.Machine.execZipEntryInfo n s
  | .zipEntryName => Sys2Proof.Machine.execZipEntryName s
  | .zipExtract => Sys2Proof.Machine.execZipExtract s
  | .zipCreate => Sys2Proof.Machine.execZipCreate s
  | .zipOpenAppend => Sys2Proof.Machine.execZipOpenAppend s
  | .zipAddFile level store => Sys2Proof.Machine.execZipAddFile level store s
  | .zipAddDir => Sys2Proof.Machine.execZipAddDir s
  | .zipFinalize => Sys2Proof.Machine.execZipFinalize s
  | .zipClose => Sys2Proof.Machine.execZipClose s
  | .blockStored final body => Sys2Proof.Machine.execBlockStored final body s
  | .blockFixed final body => Sys2Proof.Machine.execBlockFixed final body s
  | .blockDynamic final body => Sys2Proof.Machine.execBlockDynamic final body s
  | .blockReserved final body => Sys2Proof.Machine.execBlockReserved final body s
  | .zlibHeader => Sys2Proof.Machine.execZlibHeader s
  | .zipLocalHeader r => Sys2Proof.Machine.execZipLocalHeader r s
  | .zipCentralHeader r => Sys2Proof.Machine.execZipCentralHeader r s
  | .zipEocd r => Sys2Proof.Machine.execZipEocd r s
  | .lzTokenLiteral byte => Sys2Proof.Machine.execLzTokenLiteral byte s
  | .lzTokenMatch length distance => Sys2Proof.Machine.execLzTokenMatch length distance s

end Sys2Proof.Machine
end

