-- ==== Sys2Proof/Machine/Step.lean ====
section
/-! DEFINITION. One step: the host's next action (log 1), and how a table word is put in front of the block. -/

namespace Sys2Proof.Machine

/-- One step: the host's next action is performed; a packet that decodes runs its instruction (spec/70 R590). -/
def step (s : State) : Host.Outcome State Fault Refusal :=
  match fetch s with
  | .run i t => exec i t
  | .settled o => o

/-- The state with a table row's bits as the host's next action. -/
def State.withFetchWord (s : State) (nbits w : Nat) : State :=
  { s with host := .issue (tablePacket nbits w) :: s.host }

end Sys2Proof.Machine
end

