-- ==== Sys2Proof/Safety.lean ====
section
/-! DEFINITION. What counts as a run without a fault, the invariants every step keeps, and the terms the statements are
written in: bit streams, Kraft sums, replayed tokens, matches, the modes of the zip codec, the opcode map's columns. None
of them is used by the machine; each is written from the spec's own words, apart from the machine's functions. -/

namespace Sys2Proof.Machine

/-! ## Runs (spec/60 R532, spec/70 R590) -/

/-- No fault is recorded: `ERR_STICKY = 0`. -/
abbrev NoFault (s : State) : Prop := stickyField s.status = false

/-! ## Bit streams (spec/20 R81, R82, spec/40 R206) -/

/-- The `n` low bits of a value, bit 0 first. -/
def bitsOf (n v : Nat) : List Bool := (List.range n).map v.testBit

/-- The bit_packer's invariant (spec/10 R36): fewer than 8 bits pending, and no bit above them. -/
abbrev PendingOk (p : Pending) : Prop := p.nbits < 8 ∧ p.acc.toNat < 2 ^ p.nbits

/-- The bit_unpacker's invariant (spec/10 R37). -/
abbrev UnpackerOk (u : Unpacker) : Prop := u.pos ≤ 8 * u.data.length

/-- The bits of `OUT` and then the pending bits (spec/40 R206). -/
def writtenBits (s : State) : List Bool := streamBits s.out ++ bitsOf s.bp.nbits s.bp.acc.toNat

/-- From `s` to `t` these bits were written, and nothing else happened (spec/40 R201 to R206). -/
def AppendsBits (s t : State) (bits : List Bool) : Prop :=
  t = { s with out := t.out, bp := t.bp } ∧ PendingOk t.bp ∧ writtenBits t = writtenBits s ++ bits

/-- Values read one after the other, each of the given number of bits (spec/40 R221). -/
def readValues : List Nat → List Bool → Option (List Nat)
  | [], _ => some []
  | n :: ns, bits =>
    match takeBits n bits with
    | none => none
    | some (v, rest) => (readValues ns rest).map (fun vs => v :: vs)

/-! ## Checksums (spec/41 R241, R247, R248) -/

/-- One bit shifted into a reflected CRC register (R247's polynomial, without a table). -/
def crcShift (c : Word) (bit : Bool) : Word :=
  if c.getLsbD 0 = bit then c >>> 1 else (c >>> 1) ^^^ 0xEDB88320

/-- The CRC of a byte sequence bit by bit, in stream order, inverted before and after (R248). -/
def crcBitwise (seed : Word) (data : Bytes) : Word :=
  ~~~ ((streamBits data).foldl crcShift (~~~ seed))

/-- The two sums after one more byte, not reduced. -/
def plainStep (sums : Nat × Nat) (b : Byte) : Nat × Nat := (sums.1 + b.toNat, sums.2 + sums.1 + b.toNat)

/-! ## Codes (spec/42 R271 to R274) -/

/-- The Kraft sum of a lengths array, in units of `2^-15`. -/
def kraftSum (lengths : List Nat) : Nat := (lengths.map (fun l => if l = 0 then 0 else 2 ^ (15 - l))).sum

/-- A lengths array that R271 accepts. -/
abbrev LegalTable (lengths : List Nat) : Prop := (∀ l ∈ lengths, l ≤ 15) ∧ kraftSum lengths ≤ 2 ^ 15

/-- The bits of a symbol's canonical code, most significant first (R273). -/
def codeBits (lengths : List Nat) (sym : Nat) : List Bool :=
  (bitsOf (lengths.getD sym 0) ((canonicalCodes lengths).getD sym 0)).reverse

/-! ## Tokens and matches (spec/43) -/

/-- The byte-by-byte copy of `k` bytes from `d` back (spec/43 R327, spec/45 R413). -/
def repeatBack (d : Nat) : Nat → Bytes → Bytes
  | 0, out => out
  | k + 1, out => repeatBack d k (out ++ [byteAt out (out.length - d)])

/-- What tokens stand for after a history (R327); nothing if a match reaches before its start. -/
def replay : Bytes → List LZSymbol → Option Bytes
  | out, [] => some out
  | out, .literal b :: ts => replay (out ++ [b]) ts
  | out, .copy k d :: ts => if 1 ≤ d ∧ d ≤ out.length then replay (repeatBack d k out) ts else none

/-- The ranges of R327. -/
def legalToken : LZSymbol → Bool
  | .literal _ => true
  | .copy k d => decide (3 ≤ k ∧ k ≤ 258 ∧ 1 ≤ d ∧ d ≤ 32768 ∧ ¬ (k = 3 ∧ 8192 ≤ d))

/-- The candidates of R322. -/
def IsCandidate (data : Bytes) (p e c : Nat) : Prop :=
  p - 32768 ≤ c ∧ c < p ∧ p + 3 ≤ e ∧ ∀ i < 3, byteAt data (c + i) = byteAt data (p + i)

/-- The length of a candidate (R323): the largest `k` within its bounds. -/
def IsMatchLength (data : Bytes) (p e c k : Nat) : Prop :=
  k ≤ min 258 (e - p) ∧ (∀ i < k, byteAt data (c + i) = byteAt data (p + i)) ∧
  (k < min 258 (e - p) → byteAt data (c + k) ≠ byteAt data (p + k))

/-! ## Symbols and tables of a compressed block (spec/30 R131, R133, R139) -/

/-- The base and the number of extra bits of a length symbol 257 to 285 (R131): eight lengths without extra bits, then
four symbols for each number of extra bits, each starting where the one before ends; 285 stands for 258 alone. -/
def lengthRow (sym : Nat) : Nat × Nat :=
  let extra := (sym - 261) / 4
  if sym = 285 then (258, 0)
  else if sym ≤ 264 then (sym - 254, 0)
  else (3 + (4 + (sym - 261) % 4) * 2 ^ extra, extra)

/-- The base and the number of extra bits of a distance symbol 0 to 29 (R133): four distances without extra bits, then
two symbols for each number of extra bits. -/
def distRow (c : Nat) : Nat × Nat :=
  let extra := c / 2 - 1
  if c < 4 then (c + 1, 0) else (1 + (2 + c % 2) * 2 ^ extra, extra)

/-- The lengths of the 19 code-length symbols, from the values of a dynamic header in the order of R139. -/
def clenTable (values : List Nat) : List Nat :=
  (List.range 19).map fun sym =>
    values.getD ([16, 17, 18, 0, 8, 7, 9, 6, 10, 5, 11, 4, 12, 3, 13, 2, 14, 1, 15].idxOf sym) 0

/-- A repeat symbol (spec/45 R408) with its number of extra bits and their value, after the lengths read so far: how often
it repeats which length. -/
abbrev IsRepeat (seq : List Nat) (sym width extra count len : Nat) : Prop :=
  (sym = 16 ∧ width = 2 ∧ count = 3 + extra ∧ seq.getLast? = some len) ∨
  (sym = 17 ∧ width = 3 ∧ count = 3 + extra ∧ len = 0) ∨
  (sym = 18 ∧ width = 7 ∧ count = 11 + extra ∧ len = 0)

/-! ## What the encoder writes at levels 1 to 9 (spec/42 R300 to R307, spec/44 R353 to R363) -/

/-- `v` lies in a row of a base and a number of extra bits (R359). -/
abbrev InRow (row : Nat × Nat) (v : Nat) : Prop := row.1 ≤ v ∧ v < row.1 + 2 ^ row.2

/-- The symbol of a length 3 to 258 (R359): 258 is 285, any other length lies in the row of one symbol 257 to 284. -/
def lengthSymbol (k : Nat) : Nat :=
  if k = 258 then 285 else 257 + ((List.range 28).find? (fun i => InRow (lengthRow (257 + i)) k)).getD 0

/-- The symbol of a distance 1 to 32768 (R359). -/
def distSymbol (d : Nat) : Nat := ((List.range 30).find? (fun c => InRow (distRow c) d)).getD 0

/-- The lit/len symbol of a token, and its distance symbol if it has one (R300, R359). -/
def tokenSymbols : LZSymbol → Nat × List Nat
  | .literal b => (b.toNat, [])
  | .copy k d => (lengthSymbol k, [distSymbol d])

/-- The bits of one token (R357): a literal's code, or a length's code, its extra bits, the distance's code, its extra
bits. -/
def tokenBits (ll dl : List Nat) : LZSymbol → List Bool
  | .literal b => codeBits ll b.toNat
  | .copy k d =>
    let lc := lengthSymbol k
    let dc := distSymbol d
    codeBits ll lc ++ bitsOf (lengthRow lc).2 (k - (lengthRow lc).1) ++
    codeBits dl dc ++ bitsOf (distRow dc).2 (d - (distRow dc).1)

/-- The symbol stream of a block (R357): its tokens and the end-of-block symbol. -/
def symbolStream (tokens : List LZSymbol) (ll dl : List Nat) : List Bool :=
  tokens.flatMap (tokenBits ll dl) ++ codeBits ll 256

/-- How often each of `n` symbols occurs (R300). -/
def frequencies (n : Nat) (syms : List Nat) : List Nat := (List.range n).map (fun s => (syms.filter (· == s)).length)

/-- One past the last value that is not 0 (R303, R305). -/
def lengthsUsed (lengths : List Nat) : Nat := (lengths.reverse.dropWhile (· == 0)).length

/-- The maximal runs of equal values, left to right: value and count (R304). -/
def maximalRuns : Nat → List Nat → List (Nat × Nat)
  | fuel + 1, v :: rest => (v, (rest.takeWhile (· == v)).length + 1) :: maximalRuns fuel (rest.dropWhile (· == v))
  | _, _ => []

/-- A run of `c` values `v` as code-length symbols, each with the width and value of its extra bits (R304): zeros go by
138, other values by 6 after the first. -/
def codedRun (v c : Nat) : List (Nat × Nat × Nat) :=
  if v = 0 then
    let left := c % 138
    List.replicate (c / 138) (18, 7, 127) ++
    (if 11 ≤ left then [(18, 7, left - 11)] else if 3 ≤ left then [(17, 3, left - 3)]
     else List.replicate left (0, 0, 0))
  else
    let left := (c - 1) % 6
    (v, 0, 0) :: List.replicate ((c - 1) / 6) (16, 2, 3) ++
    (if 3 ≤ left then [(16, 2, left - 3)] else List.replicate left (v, 0, 0))

/-- A dynamic block after its 3 header bits (R300 to R306), with the code lengths that `choose` gives a list of
frequencies and a maximum length: the three counts, the code-length code lengths in the order of R139, the coded lengths of
both tables, the symbol stream. -/
def dynamicBits (choose : List Nat → Nat → List Nat) (tokens : List LZSymbol) : List Bool :=
  let ll := choose (frequencies 286 (tokens.map (fun x => (tokenSymbols x).1) ++ [256])) 15
  let dl := choose (frequencies 30 (tokens.flatMap (fun x => (tokenSymbols x).2))) 15
  let nlit := max 257 (lengthsUsed ll)
  let ndist := max 1 (lengthsUsed dl)
  let lengths := ll.take nlit ++ dl.take ndist
  let coded := (maximalRuns lengths.length lengths).flatMap (fun run => codedRun run.1 run.2)
  let cl := choose (frequencies 19 (coded.map (fun x => x.1))) 7
  let ordered := [16, 17, 18, 0, 8, 7, 9, 6, 10, 5, 11, 4, 12, 3, 13, 2, 14, 1, 15].map (fun sym => cl.getD sym 0)
  let nclen := max 4 (lengthsUsed ordered)
  bitsOf 5 (nlit - 257) ++ bitsOf 5 (ndist - 1) ++ bitsOf 4 (nclen - 4) ++ (ordered.take nclen).flatMap (bitsOf 3) ++
  coded.flatMap (fun x => codeBits cl x.1 ++ bitsOf x.2.1 x.2.2) ++ symbolStream tokens ll dl

/-- A fixed block after its 3 header bits: the symbol stream over the tables of R135 and R136. -/
def fixedBits (tokens : List LZSymbol) : List Bool :=
  symbolStream tokens
    (List.replicate 144 8 ++ List.replicate 112 9 ++ List.replicate 24 7 ++ List.replicate 8 8) (List.replicate 30 5)

/-- The block of the chunk `data[s..e)`, written `pos` bits into the stream (R354, R360 to R362): stored if the smaller of
the two compressed blocks takes as many bits as the chunk has or more, else dynamic if that is strictly smaller than fixed. -/
def blockBits (c : LevelChoice) (data : Bytes) (s e pos : Nat) : List Bool :=
  let final := decide (e = data.length)
  let tokens := tokenize c.candidates data s e
  let fixed := fixedBits tokens
  let dynamic := dynamicBits (chooseLengths c.builder) tokens
  if 8 * (e - s) ≤ 3 + min fixed.length dynamic.length then
    [final, false, false] ++ List.replicate ((8 - (pos + 3) % 8) % 8) false ++ bitsOf 16 (e - s) ++
    bitsOf 16 (65535 - (e - s)) ++ streamBits (slice data s (e - s))
  else if dynamic.length < fixed.length then [final, false, true] ++ dynamic
  else [final, true, false] ++ fixed

/-- The blocks of a whole input, one for each 65535 bytes (R353). -/
def compressedBits (c : LevelChoice) (data : Bytes) : List Bool :=
  (List.range ((data.length + 65534) / 65535)).foldl
    (fun bits j => bits ++ blockBits c data (65535 * j) (min (65535 * (j + 1)) data.length) bits.length) []

/-- Fields as the bits a writer writes for them when it is `pos` bits into a byte (spec/40 R201, R205). -/
def fieldBits : Nat → List Field → List Bool
  | _, [] => []
  | pos, .put v n :: fs => bitsOf n v ++ fieldBits (pos + n) fs
  | pos, .align :: fs => List.replicate ((8 - pos % 8) % 8) false ++ fieldBits 0 fs

/-! ## The central directory (spec/30 R151) -/

/-- The record the writer makes of an entry of method 0 or 8 (R151). -/
def centralHeader (e : Entry) : Bytes :=
  u32le 0x02014B50 ++ u16le 0x031E ++
  u16le (if e.method = 8 then 20 else 10) ++
  u16le 0 ++ u16le e.method ++ u16le e.dostime ++ u16le e.dosdate ++ u32le e.crc ++ u32le e.csize ++ u32le e.usize ++
  u16le (BitVec.ofNat 16 e.name.length) ++ u16le 0 ++ u16le 0 ++ u16le 0 ++ u16le 0 ++ u32le e.extAttr ++
  u32le e.offset ++ e.name

/-! ## The stored layout (spec/30 R122) -/

/-- A stored block that begins on a byte boundary. -/
def storedBlock (chunk : Bytes) (final : Bool) : Bytes :=
  [if final then 1 else 0] ++ u16le (len16 chunk) ++ u16le (~~~ len16 chunk) ++ chunk

/-! ## Feeding the decoder (spec/45 R426) -/

/-- One feed and one run. -/
def feedAndRun (chunk : Bytes) (s : State) : StepOutcome :=
  andThen (exec .inflateFeed { s with inp := chunk }) (exec .inflateRun)

/-- A feed and a run for each chunk. -/
def feedAll : List Bytes → State → StepOutcome
  | [], s => .next s
  | b :: bs, s => andThen (feedAndRun b s) (feedAll bs)

/-- The hard errors of spec/45 R401 to R421. -/
def hardErrors : List Error :=
  [.invalidCodeLength, .overflow, .invalidBlockType, .adler32Mismatch, .storedLengthMismatch, .invalidSymbol,
   .invalidDistance, .badZlibHeader]

/-! ## The opcode map (spec/30 R111 to R113) -/

/-- The unassigned opcodes of R113. -/
def unassigned (o : BitVec 8) : Bool :=
  let k := o.toNat
  (0x04 ≤ k && k ≤ 0x0F) || (0x15 ≤ k && k ≤ 0x17) || k == 0x23 || (0x27 ≤ k && k ≤ 0x2F) || (0x35 ≤ k && k ≤ 0x37) ||
  (0x3B ≤ k && k ≤ 0x3F) || (0x41 ≤ k && k ≤ 0x47) || (0x4B ≤ k && k ≤ 0x4F) || (0x55 ≤ k && k ≤ 0x57) || 0x5E ≤ k

/-- The bits of the fields an opcode uses: R112's column, with the places of R110. -/
def usedFields (o : BitVec 8) : Word :=
  match o.toNat with
  | 0x11 | 0x1A | 0x1B | 0x52 => 0x00003F00
  | 0x30 | 0x32 | 0x33 | 0x34 => 0x00180000
  | 0x40 => 0x0007C000
  | 0x48 => 0x00040000
  | 0x5A => 0x0023C000
  | _ => 0

/-- The three conditions of R111: the second and the third are that no bit is set outside the opcode and its fields. -/
abbrev LegalWord (w : Word) : Prop :=
  unassigned (w.extractLsb' 0 8) = false ∧ w &&& ~~~ (0xFF ||| usedFields (w.extractLsb' 0 8)) = 0

/-- The 46 commands, as against the wire items. -/
def isCommand (i : Instr) : Bool :=
  match encode i with
  | .cmd _ => true
  | .wire _ => false

/-- The items of state of spec/10, and the model's own two. -/
inductive Item where
  | host | params | cmd | arg | arg2 | result | result2 | inp | name | out | bp | bu | adler | crc | ht0 | ht1 | ht2
  | tokq | inf | zip
  deriving DecidableEq, Repr

/-- An item has the same value in two states. -/
def sameItem (s t : State) : Item → Prop
  | .host => t.host = s.host
  | .params => t.params = s.params
  | .cmd => t.cmd = s.cmd
  | .arg => t.arg = s.arg
  | .arg2 => t.arg2 = s.arg2
  | .result => t.result = s.result
  | .result2 => t.result2 = s.result2
  | .inp => t.inp = s.inp
  | .name => t.name = s.name
  | .out => t.out = s.out
  | .bp => t.bp = s.bp
  | .bu => t.bu = s.bu
  | .adler => t.adler = s.adler
  | .crc => t.crc = s.crc
  | .ht0 => t.ht0 = s.ht0
  | .ht1 => t.ht1 = s.ht1
  | .ht2 => t.ht2 = s.ht2
  | .tokq => t.tokq = s.tokq
  | .inf => t.inf = s.inf
  | .zip => t.zip = s.zip

/-- The table a slot number names. -/
def slotItem (slot : BitVec 2) : List Item :=
  if slot = 0 then [.ht0] else if slot = 1 then [.ht1] else if slot = 2 then [.ht2] else []

/-- What an instruction may write, `STATUS` apart: the results its rule names (R112). `CORE_RESET` writes everything but
the model's own two items. -/
def mayWrite : Instr → List Item
  | .nop | .statusClear => []
  | .coreReset =>
    [.cmd, .arg, .arg2, .result, .result2, .inp, .name, .out, .bp, .bu, .adler, .crc, .ht0, .ht1, .ht2, .tokq, .inf, .zip]
  | .outClear => [.out]
  | .bpReset => [.bp]
  | .bpWriteBits _ | .bpWriteByte | .bpWriteBytes | .bpAlign | .hufEncode _ => [.bp, .out]
  | .buLoad | .buReset | .buSkipBits | .buAlign => [.bu]
  | .buReadBits _ | .hufDecode _ => [.result, .bu]
  | .buPeekBits _ => [.result]
  | .buPosition | .buRemaining | .hufQuery _ => [.result, .result2]
  | .adlerSeed | .adlerUpdate => [.adler]
  | .crcSeed | .crcUpdate => [.crc]
  | .adlerRead | .crcRead => [.result]
  | .hufBuild slot => slotItem slot
  | .hufLoadFixed => [.ht0, .ht1]
  | .lzTokenize | .lzPop => [.tokq, .result]
  | .lzCount => [.result]
  | .deflate _ _ => [.out, .result]
  | .inflateStart _ | .inflateFeed => [.inf]
  | .inflateRun => [.out, .inf, .result, .result2]
  | .zipOpenRead | .zipOpenAppend => [.zip, .result]
  | .zipLocateEocd | .zipEntryInfo _ => [.result]
  | .zipEntryName => [.out, .result]
  | .zipExtract => [.out, .result, .result2]
  | .zipCreate => [.zip]
  | .zipAddFile _ _ | .zipAddDir => [.zip, .result]
  | .zipFinalize | .zipClose => [.zip, .out, .result]
  | .blockStored _ _ | .blockFixed _ _ | .blockDynamic _ _ | .blockReserved _ _ | .zlibHeader =>
    [.inp, .out, .inf, .result, .result2]
  | .zipLocalHeader _ => [.inp, .arg, .zip, .out, .result, .result2]
  | .zipCentralHeader _ | .zipEocd _ => [.inp, .zip, .result]
  | .lzTokenLiteral _ | .lzTokenMatch _ _ => [.result]

/-! ## The modes of the zip codec (spec/46 R450) -/

/-- The table's second column; an instruction that is not in the table is legal in any mode. -/
def legalMode (i : Instr) (m : ZipMode) : Bool :=
  match i with
  | .zipOpenRead | .zipCreate | .zipOpenAppend => m != .writer
  | .zipEntryInfo _ | .zipEntryName | .zipExtract => m == .reader
  | .zipAddFile _ _ | .zipAddDir | .zipFinalize => m == .writer
  | _ => true

/-- The table's third column, after a success; no other command changes the mode but `CORE_RESET` (spec/70 R570). -/
def nextMode (i : Instr) (m : ZipMode) : ZipMode :=
  match i with
  | .zipOpenRead => .reader
  | .zipCreate | .zipOpenAppend => .writer
  | .zipFinalize => .closed
  | .zipClose | .coreReset => .idle
  | _ => m

/-! ## Invariants of the machine -/

/-- The copy fields of `STATUS` agree with the units, its reserved bits are 0 (spec/30 R117), its code is one that is
reported (spec/60 R530), and the decoder's error is a hard one, held exactly in the phase `Error` (spec/10 R45, R46). -/
abbrev StatusOk (s : State) : Prop :=
  s.status = statusWord (errField s.status) (phaseCode s.inf.phase) (modeCode s.zip.mode) (stickyField s.status)
    (BitVec.ofNat 3 s.bp.nbits) ∧
  (errField s.status).toNat ≤ 0x1F ∧ errField s.status ≠ 0x0F ∧ errField s.status ≠ 0x1B ∧
  (s.inf.phase = .error ↔ s.inf.err ≠ none) ∧ (∀ e ∈ s.inf.err, e ∈ hardErrors)

/-- Every byte stream is within its capacity (spec/10 R33, spec/60 R531), and the archive image within the size of its
space (spec/20 R84). -/
abbrev StreamsOk (s : State) : Prop :=
  s.inp.length ≤ s.params.maxStreamBytes ∧ s.name.length ≤ s.params.maxStreamBytes ∧
  s.out.length ≤ s.params.maxStreamBytes ∧ s.bu.data.length ≤ s.params.maxStreamBytes ∧
  s.inf.input.length ≤ s.params.maxStreamBytes ∧ s.zip.img.length ≤ s.params.maxStreamBytes ∧
  s.zip.img.length ≤ 4294967295

/-- A slot holds nothing, or a legal table of at most `cap` lengths (spec/10 R39, spec/42 R271, R280). -/
def slotOk (cap : Nat) : HufSlot → Bool
  | .empty => true
  | .table lengths => decide (lengths.length ≤ cap ∧ LegalTable lengths)

/-- The tables and the tokens the host can reach are legal (spec/10 R39, R40, spec/43 R327). -/
abbrev TablesOk (s : State) : Prop :=
  slotOk 288 s.ht0 = true ∧ slotOk 32 s.ht1 = true ∧ slotOk 19 s.ht2 = true ∧ ∀ x ∈ s.tokq, legalToken x = true

/-- An entry's name fits its length field and its two flags are the derived ones (spec/10 R52, spec/46 R469, R470). -/
abbrev EntryOk (e : Entry) : Prop :=
  e.name.length ≤ 65535 ∧
  e.isDir = (decide (e.extAttr &&& 0x10 ≠ 0) || decide (e.name.getLast? = some 0x2F)) ∧
  e.isSymlink = decide ((e.extAttr >>> 16) &&& 0xF000 = 0xA000)

/-- The archive index is within its limits (spec/46 R492), and there is no archive in the mode `Idle` (spec/10 R51,
spec/46 R450, R489). -/
abbrev ArchiveOk (s : State) : Prop :=
  s.zip.index.length ≤ 65535 ∧ (∀ e ∈ s.zip.index, EntryOk e) ∧ (s.zip.mode = .idle → s.zip = Zip.reset)

/-- The invariant of the machine. -/
abbrev Inv (s : State) : Prop :=
  PendingOk s.bp ∧ UnpackerOk s.bu ∧ StatusOk s ∧ StreamsOk s ∧ TablesOk s ∧ ArchiveOk s

end Sys2Proof.Machine
end

