-- ==== Sys2Proof/Certificates/Slice0/Obligations.lean ====
section
/-! DEFINITION. The statements for the provers, in the order of OBLIGATIONS.json. Each docstring names the rules of spec/
a statement formalises, and the log entry where it rests on a choice of the model. Words of a command are written out
from spec/30 R110 and R112. -/

open Sys2Proof Sys2Proof.Machine

/-! ## Encodings and the step -/

/-- Every well-formed instruction decodes from its encoding, with every operand at every value (spec/30 R110, R112, R118,
R120, R145, R150 to R152; that a wire item is a packet of its own is the model's choice, log 7). -/
def Obligations.DecodeEncode : Prop := ∀ i : Instr, i.wf = true → decode (encode i) = .ok i

/-- Every packet that decodes is the encoding of the instruction it decodes to, which is well formed: no two packets mean
the same (spec/30 R110 to R112, R118, R120, R150 to R152; log 7). -/
def Obligations.EncodeDecode : Prop :=
  ∀ (p : Packet) (i : Instr), decode p = .ok i → encode i = p ∧ i.wf = true

/-- Words written out from spec/30 R112 (a command of each family), R121, R145 and R118 (log 7). -/
def Obligations.DecodeWords : Prop :=
  decode (.cmd 0x00000003) = .ok .outClear ∧
  decode (.cmd 0x00002011) = .ok (.bpWriteBits 32) ∧
  decode (.cmd 0x0000031A) = .ok (.buReadBits 3) ∧
  decode (.cmd 0x00000025) = .ok .crcUpdate ∧
  decode (.cmd 0x00100033) = .ok (.hufDecode 2) ∧
  decode (.cmd 0x00000039) = .ok .lzPop ∧
  decode (.cmd 0x00064040) = .ok (.deflate 9 true) ∧
  decode (.cmd 0x00040048) = .ok (.inflateStart true) ∧
  decode (.cmd 0x0021805A) = .ok (.zipAddFile 6 true) ∧
  decode (.wire [0x05]) = .ok (.blockDynamic true 0) ∧
  decode (.wire [0x78, 0x9C]) = .ok .zlibHeader ∧
  decode (.wire [0x03, 0x00, 0x0F, 0x80]) = .ok (.lzTokenMatch 15 3)

/-- A command word is legal exactly under the three conditions of spec/30 R111; an illegal one, an unassigned opcode of
R113 among them, raises IllegalCommand and changes nothing but `STATUS` (and `CMD`, which the host writes, log 8); legal
field values a command cannot accept raise InvalidArgument or InvalidLevel. -/
def Obligations.CommandLegality : Prop :=
  (∀ w : Word, LegalWord w ↔ ∃ i, decode (.cmd w) = .ok i) ∧
  (∀ (w : Word) (s : State), ¬ LegalWord w →
    step { s with host := .issue (.cmd w) :: s.host } = .next (report (some .illegalCommand) { s with cmd := w })) ∧
  (∀ (n : BitVec 6) (s : State), 32 < n.toNat →
    exec (.bpWriteBits n) s = .next (report (some .invalidArgument) s) ∧
    exec (.buReadBits n) s = .next (report (some .invalidArgument) s) ∧
    exec (.buPeekBits n) s = .next (report (some .invalidArgument) s)) ∧
  (∀ s : State,
    exec (.hufBuild 3) s = .next (report (some .invalidArgument) s) ∧
    exec (.hufEncode 3) s = .next (report (some .invalidArgument) s) ∧
    exec (.hufDecode 3) s = .next (report (some .invalidArgument) s) ∧
    exec (.hufQuery 3) s = .next (report (some .invalidArgument) s)) ∧
  (∀ (l : BitVec 4) (wrap : Bool) (s : State), 9 < l.toNat →
    exec (.deflate l wrap) s = .next (report (some .invalidLevel) s))

/-- A step performs the host's next action (spec/70 R590; that the actions wait in the state is log 1): a command word is
written to `CMD` and its instruction runs, a wire item's instruction runs (log 7), an operand is replaced, and with no
action the block waits (spec/60 R553). -/
def Obligations.StepRunsInstruction : Prop :=
  (∀ (s : State) (w : Word) (i : Instr) (rest : List HostAction),
    s.host = .issue (.cmd w) :: rest → decode (.cmd w) = .ok i →
    step s = exec i { s with host := rest, cmd := w }) ∧
  (∀ (s : State) (bytes : Bytes) (i : Instr) (rest : List HostAction),
    s.host = .issue (.wire bytes) :: rest → decode (.wire bytes) = .ok i →
    step s = exec i { s with host := rest }) ∧
  (∀ (s : State) (bytes : Bytes) (rest : List HostAction), bytes.length ≤ s.params.maxStreamBytes →
    (s.host = .setIn bytes :: rest → step s = .next { s with host := rest, inp := bytes }) ∧
    (s.host = .setName bytes :: rest → step s = .next { s with host := rest, name := bytes })) ∧
  (∀ (s : State) (w : Word) (rest : List HostAction),
    (s.host = .setArg w :: rest → step s = .next { s with host := rest, arg := w }) ∧
    (s.host = .setArg2 w :: rest → step s = .next { s with host := rest, arg2 := w })) ∧
  (∀ s : State, s.host = [] → step s = .next s)

/-! ## Status, rollback, frames, reset -/

/-- `STATUS` after every command (spec/60 R532): an outcome's code and its sticky bit, which only STATUS_CLEAR and
CORE_RESET clear first, and the three copies of the state the command left; the reserved bits are 0 (spec/30 R117). -/
def Obligations.StatusAfterCommand : Prop :=
  ∀ (i : Instr) (s t : State), isCommand i = true → exec i s = .next t →
    ∃ e : Option Error,
      errField t.status = outcomeCode e ∧
      stickyField t.status =
        ((stickyField s.status && i != .statusClear && i != .coreReset) ||
          (decide (e ≠ none) && decide (e ≠ some .needsMoreInput))) ∧
      phaseField t.status = phaseCode t.inf.phase ∧
      modeField t.status = modeCode t.zip.mode ∧
      nbitsField t.status = BitVec.ofNat 3 t.bp.nbits ∧
      t.status.extractLsb' 15 1 = 0 ∧ t.status.extractLsb' 19 13 = 0

/-- A command that fails changes nothing but `STATUS`, with exactly the three exceptions of spec/60 R533. -/
def Obligations.Rollback : Prop :=
  ∀ (i : Instr) (s t : State), isCommand i = true → exec i s = .next t → errField t.status ≠ 0 →
    t = { s with status := t.status } ∨
    (i = .inflateRun ∧ errField t.status = errorCode .needsMoreInput ∧ s.out <+: t.out ∧
      t = { s with out := t.out, inf := { s.inf with emitted := t.inf.emitted, phase := t.inf.phase },
                   status := t.status }) ∨
    (i = .inflateRun ∧ ∃ e ∈ hardErrors, errField t.status = errorCode e ∧
      t = { s with inf := { s.inf with err := some e, phase := .error }, status := t.status }) ∨
    (i = .zipClose ∧ s.zip.mode = .writer ∧ t = { s with zip := Zip.reset, status := t.status })

/-- Every command, and every wire item handed to the block, ends in a next state: nothing hangs, stops or is refused
(spec/60 R540, R541; log 7, log 23). -/
def Obligations.EveryInstructionEnds : Prop := ∀ (i : Instr) (s : State), ∃ t, exec i s = .next t

/-- The frame of every instruction: whatever it ends with, an item of state that is none of its results is unchanged
(spec/30 R112, R115, spec/10 R33, R41, spec/60 R561; for the wire items log 7, for the result of ZIP_CLOSE log 9). And
whatever writes `OUT` appends to it: only OUT_CLEAR and CORE_RESET remove bytes (R33). -/
def Obligations.FrameOfEveryInstruction : Prop :=
  (∀ (i : Instr) (s t : State) (item : Item), exec i s = .next t → item ∉ mayWrite i → sameItem s t item) ∧
  (∀ (i : Instr) (s t : State), i ≠ .outClear → i ≠ .coreReset → exec i s = .next t → s.out <+: t.out)

/-- `NOP`, `OUT_CLEAR` and `STATUS_CLEAR` (spec/60 R536 to R538): no word but 0 with opcode 0 is a NOP; the pending bits
and the decoder's count survive OUT_CLEAR; STATUS_CLEAR refreshes the copies. -/
def Obligations.Housekeeping : Prop :=
  decode (.cmd 0x00000000) = .ok .nop ∧ decode (.cmd 0x00000003) = .ok .outClear ∧
  decode (.cmd 0x00000002) = .ok .statusClear ∧
  (∀ w : Word, w.extractLsb' 0 8 = 0 → w ≠ 0 → ∀ i, decode (.cmd w) ≠ .ok i) ∧
  ∀ s : State,
    exec .nop s = .next { s with
      status := statusWord 0 (phaseCode s.inf.phase) (modeCode s.zip.mode) (stickyField s.status)
        (BitVec.ofNat 3 s.bp.nbits) } ∧
    exec .outClear s = .next { s with
      out := []
      status := statusWord 0 (phaseCode s.inf.phase) (modeCode s.zip.mode) (stickyField s.status)
        (BitVec.ofNat 3 s.bp.nbits) } ∧
    exec .statusClear s = .next { s with
      status := statusWord 0 (phaseCode s.inf.phase) (modeCode s.zip.mode) false (BitVec.ofNat 3 s.bp.nbits) }

/-- `CORE_RESET` and power-on put every item of state to its value of spec/10 R55. -/
def Obligations.ResetValues : Prop :=
  (∀ s : State, ∃ t, exec .coreReset s = .next t ∧
    t.cmd = 0 ∧ t.arg = 0 ∧ t.arg2 = 0 ∧ t.result = 0 ∧ t.result2 = 0 ∧ t.status = 0 ∧
    t.inp = [] ∧ t.name = [] ∧ t.out = [] ∧ t.bp.acc = 0 ∧ t.bp.nbits = 0 ∧ t.bu.data = [] ∧ t.bu.pos = 0 ∧
    t.adler = 0x00000001 ∧ t.crc = 0x00000000 ∧ t.ht0 = .empty ∧ t.ht1 = .empty ∧ t.ht2 = .empty ∧ t.tokq = [] ∧
    t.inf.wrap = true ∧ t.inf.input = [] ∧ t.inf.emitted = 0 ∧ t.inf.err = none ∧ t.inf.phase = .idle ∧
    t.zip.img = [] ∧ t.zip.index = [] ∧ t.zip.cdOffset = 0 ∧ t.zip.mode = .idle) ∧
  exec .coreReset State.reset = .next State.reset

/-! ## Invariants every step keeps -/

/-- The bit_packer never holds 8 bits or a bit above its count, and the bit_unpacker never passes the end of its bytes
(spec/10 R36, R37). -/
def Obligations.StepKeepsBitIo : Prop :=
  ∀ s t : State, PendingOk s.bp → UnpackerOk s.bu → step s = .next t → PendingOk t.bp ∧ UnpackerOk t.bu

/-- `STATUS` agrees with the units, only assigned codes are reported, and the decoder's error is a hard one, held exactly
in the phase `Error` (spec/10 R35, R45, R46, spec/30 R117, spec/60 R530). -/
def Obligations.StepKeepsStatus : Prop := ∀ s t : State, StatusOk s → step s = .next t → StatusOk t

/-- No byte stream passes its capacity (spec/10 R33, spec/60 R531), no archive image its space of 2^32 - 1 bytes (spec/20
R84), and the parameters never change (log 2). -/
def Obligations.StepKeepsStreams : Prop :=
  ∀ s t : State, StreamsOk s → step s = .next t → StreamsOk t ∧ t.params = s.params

/-- The Huffman slots hold legal tables only and the queue legal tokens only (spec/10 R39, R40, spec/42 R271, R280,
spec/43 R327). -/
def Obligations.StepKeepsTables : Prop := ∀ s t : State, TablesOk s → step s = .next t → TablesOk t

/-- The archive index keeps its limits, its derived flags and the empty archive of the mode `Idle` (spec/10 R51, R52,
spec/46 R469, R470, R492). -/
def Obligations.StepKeepsArchive : Prop := ∀ s t : State, ArchiveOk s → step s = .next t → ArchiveOk t

/-- The reset state meets every invariant of the five statements before (spec/10 R55, spec/70 R571), and records no
fault. -/
def Obligations.ResetMeetsInvariants : Prop := Inv State.reset ∧ NoFault State.reset

/-! ## bit_packer -/

/-- `BP_WRITE_BITS` (spec/40 R201, R202): the `n` bits of `ARG`, bit 0 first, follow the bits written before, and
complete bytes are in `OUT`; an `n` above 32, a value with a bit at `n` or above and a full `OUT` are refused. That the
capacity counts complete bytes, and not the bits left pending past a full `OUT`, is the model's choice (log 26). -/
def Obligations.BpWriteBits : Prop :=
  (∀ n : BitVec 6, decode (.cmd (n.setWidth 32 <<< 8 ||| 0x11)) = .ok (.bpWriteBits n)) ∧
  (∀ (n : BitVec 6) (s : State), 32 < n.toNat →
    exec (.bpWriteBits n) s = .next (report (some .invalidArgument) s)) ∧
  ∀ (n : BitVec 6) (s : State), n.toNat ≤ 32 →
    (2 ^ n.toNat ≤ s.arg.toNat → exec (.bpWriteBits n) s = .next (report (some .invalidArgument) s)) ∧
    (s.arg.toNat < 2 ^ n.toNat → PendingOk s.bp →
      s.params.maxStreamBytes < s.out.length + (s.bp.nbits + n.toNat) / 8 →
      exec (.bpWriteBits n) s = .next (report (some .capacityExceeded) s)) ∧
    (s.arg.toNat < 2 ^ n.toNat → PendingOk s.bp →
      s.out.length + (s.bp.nbits + n.toNat) / 8 ≤ s.params.maxStreamBytes →
      ∃ t, exec (.bpWriteBits n) s = .next (report none t) ∧ AppendsBits s t (bitsOf n.toNat s.arg.toNat))

/-- `BP_WRITE_BYTE` and `BP_WRITE_BYTES` (spec/40 R203, R204): 8 bits for each byte, at any alignment. That the capacity
counts complete bytes, and not the bits left pending past a full `OUT`, is the model's choice (log 26). -/
def Obligations.BpWriteBytes : Prop :=
  decode (.cmd 0x00000012) = .ok .bpWriteByte ∧ decode (.cmd 0x00000013) = .ok .bpWriteBytes ∧
  (∀ s : State, 0xFF < s.arg.toNat → exec .bpWriteByte s = .next (report (some .invalidArgument) s)) ∧
  (∀ s : State, s.arg.toNat ≤ 0xFF → PendingOk s.bp →
    (s.params.maxStreamBytes < s.out.length + 1 →
      exec .bpWriteByte s = .next (report (some .capacityExceeded) s)) ∧
    (s.out.length + 1 ≤ s.params.maxStreamBytes →
      ∃ t, exec .bpWriteByte s = .next (report none t) ∧ AppendsBits s t (bitsOf 8 s.arg.toNat))) ∧
  (∀ s : State, PendingOk s.bp →
    (s.params.maxStreamBytes < s.out.length + s.inp.length →
      exec .bpWriteBytes s = .next (report (some .capacityExceeded) s)) ∧
    (s.out.length + s.inp.length ≤ s.params.maxStreamBytes →
      ∃ t, exec .bpWriteBytes s = .next (report none t) ∧ AppendsBits s t (streamBits s.inp)))

/-- `BP_ALIGN` pads with zero bits to the next byte boundary (spec/40 R205); `BP_RESET` drops the pending bits (R200). -/
def Obligations.BpAlignAndReset : Prop :=
  decode (.cmd 0x00000014) = .ok .bpAlign ∧ decode (.cmd 0x00000010) = .ok .bpReset ∧
  (∀ s : State, exec .bpReset s = .next (report none { s with bp := ⟨0, 0⟩ })) ∧
  (∀ s : State, PendingOk s.bp →
    (s.params.maxStreamBytes < s.out.length + (s.bp.nbits + 7) / 8 →
      0 < s.bp.nbits → exec .bpAlign s = .next (report (some .capacityExceeded) s)) ∧
    (s.out.length + (s.bp.nbits + 7) / 8 ≤ s.params.maxStreamBytes →
      ∃ t, exec .bpAlign s = .next (report none t) ∧ t.bp = ⟨0, 0⟩ ∧
        AppendsBits s t (List.replicate ((8 - s.bp.nbits) % 8) false)))

/-- The mirror law (spec/40 R221): fields written by the bit_packer and an align, read back by the bit_unpacker's reads of
the same widths, give the values written. -/
def Obligations.MirrorLaw : Prop :=
  ∀ fields : List (Nat × Nat), (∀ f ∈ fields, f.2 ≤ 32 ∧ f.1 < 2 ^ f.2) →
    readValues (fields.map (fun f => f.2))
      (streamBits (packFields Pending.empty (fields.map (fun f => .put f.1 f.2) ++ [.align])).1) =
    some (fields.map (fun f => f.1))

/-! ## bit_unpacker -/

/-- `BU_READ_BITS` and `BU_PEEK_BITS` (spec/40 R215, R216): bit `k` of the result is bit `(pos + k) mod 8` of byte
`(pos + k) div 8`; too few bits raise InsufficientBits. -/
def Obligations.BuReadBits : Prop :=
  (∀ n : BitVec 6, decode (.cmd (n.setWidth 32 <<< 8 ||| 0x1A)) = .ok (.buReadBits n) ∧
    decode (.cmd (n.setWidth 32 <<< 8 ||| 0x1B)) = .ok (.buPeekBits n)) ∧
  (∀ (n : BitVec 6) (s : State), 32 < n.toNat →
    exec (.buReadBits n) s = .next (report (some .invalidArgument) s) ∧
    exec (.buPeekBits n) s = .next (report (some .invalidArgument) s)) ∧
  ∀ (n : BitVec 6) (s : State), n.toNat ≤ 32 → UnpackerOk s.bu →
    (8 * s.bu.data.length < s.bu.pos + n.toNat →
      exec (.buReadBits n) s = .next (report (some .insufficientBits) s) ∧
      exec (.buPeekBits n) s = .next (report (some .insufficientBits) s)) ∧
    (s.bu.pos + n.toNat ≤ 8 * s.bu.data.length →
      ∃ v : Word,
        (∀ k : Nat, k < 32 → v.getLsbD k =
          (decide (k < n.toNat) && (byteAt s.bu.data ((s.bu.pos + k) / 8)).getLsbD ((s.bu.pos + k) % 8))) ∧
        exec (.buReadBits n) s =
          .next (report none { s with result := v, bu := ⟨s.bu.data, s.bu.pos + n.toNat⟩ }) ∧
        exec (.buPeekBits n) s = .next (report none { s with result := v }))

/-- The other reader commands (spec/40 R213, R214, R217 to R220). -/
def Obligations.BuCommands : Prop :=
  decode (.cmd 0x00000018) = .ok .buLoad ∧ decode (.cmd 0x00000019) = .ok .buReset ∧
  decode (.cmd 0x0000001C) = .ok .buSkipBits ∧ decode (.cmd 0x0000001D) = .ok .buAlign ∧
  decode (.cmd 0x0000001E) = .ok .buPosition ∧ decode (.cmd 0x0000001F) = .ok .buRemaining ∧
  (∀ s : State,
    (s.params.maxStreamBytes < s.bu.data.length + s.inp.length →
      exec .buLoad s = .next (report (some .capacityExceeded) s)) ∧
    (s.bu.data.length + s.inp.length ≤ s.params.maxStreamBytes →
      exec .buLoad s = .next (report none { s with bu := ⟨s.bu.data ++ s.inp, s.bu.pos⟩ }))) ∧
  (∀ s : State, exec .buReset s = .next (report none { s with bu := ⟨[], 0⟩ })) ∧
  (∀ s : State, UnpackerOk s.bu →
    (8 * s.bu.data.length < s.bu.pos + s.arg.toNat →
      exec .buSkipBits s = .next (report (some .insufficientBits) s)) ∧
    (s.bu.pos + s.arg.toNat ≤ 8 * s.bu.data.length →
      exec .buSkipBits s = .next (report none { s with bu := ⟨s.bu.data, s.bu.pos + s.arg.toNat⟩ }))) ∧
  (∀ s : State, exec .buAlign s = .next (report none { s with bu := ⟨s.bu.data, 8 * ((s.bu.pos + 7) / 8)⟩ })) ∧
  (∀ s : State, exec .buPosition s = .next (report none { s with
    result := (BitVec.ofNat 64 s.bu.pos).extractLsb' 0 32
    result2 := (BitVec.ofNat 64 s.bu.pos).extractLsb' 32 32 })) ∧
  (∀ s : State, UnpackerOk s.bu → exec .buRemaining s = .next (report none { s with
    result := (BitVec.ofNat 64 (8 * s.bu.data.length - s.bu.pos)).extractLsb' 0 32
    result2 := (BitVec.ofNat 64 (8 * s.bu.data.length - s.bu.pos)).extractLsb' 32 32 }))

/-! ## Checksums -/

/-- The two checksum functions and the six commands over them (spec/41 R240, R243 to R245, R247, R248, R250 to R252). Each
byte updates the two sums of Adler32, the low half first, from the seed's halves as they are; the CRC is the table-driven
one of R248, its table is that of R247, and it is what shifting the data in bit by bit gives. No data leaves any seed as
it is. The two values are the examples of R244 and R251. -/
def Obligations.ChecksumCommands : Prop :=
  decode (.cmd 0x00000020) = .ok .adlerSeed ∧ decode (.cmd 0x00000021) = .ok .adlerUpdate ∧
  decode (.cmd 0x00000022) = .ok .adlerRead ∧ decode (.cmd 0x00000024) = .ok .crcSeed ∧
  decode (.cmd 0x00000025) = .ok .crcUpdate ∧ decode (.cmd 0x00000026) = .ok .crcRead ∧
  (∀ seed : Word, adler32 seed [] = seed ∧ crc32 seed [] = seed) ∧
  (∀ (seed : Word) (data : Bytes) (b : Byte) (s1 s2 : Nat),
    s1 = (((adler32 seed data).extractLsb' 0 16).toNat + b.toNat) % 65521 →
    s2 = (((adler32 seed data).extractLsb' 16 16).toNat + s1) % 65521 →
    adler32 seed (data ++ [b]) = BitVec.ofNat 32 (s2 * 65536 + s1)) ∧
  (∀ n : Byte, crcEntry n =
    (List.range 8).foldl (fun c _ => if c.getLsbD 0 then 0xEDB88320 ^^^ (c >>> 1) else c >>> 1) (n.setWidth 32)) ∧
  (∀ (seed : Word) (data : Bytes) (b : Byte) (c : Word), c = crc32 seed data ^^^ 0xFFFFFFFF →
    crc32 seed (data ++ [b]) = crcEntry ((c ^^^ b.setWidth 32).extractLsb' 0 8) ^^^ (c >>> 8) ^^^ 0xFFFFFFFF) ∧
  (∀ (seed : Word) (data : Bytes), crc32 seed data = crcBitwise seed data) ∧
  adler32 1 [0x48, 0x65, 0x6C, 0x6C, 0x6F, 0x20, 0x77, 0x6F, 0x72, 0x6C, 0x64, 0x21] = 0x1D09045E ∧
  crc32 0 [0x48, 0x65, 0x6C, 0x6C, 0x6F, 0x2C, 0x20, 0x57, 0x6F, 0x72, 0x6C, 0x64, 0x21] = 0xEC4AC3D0 ∧
  ∀ s : State,
    exec .adlerSeed s = .next (report none { s with adler := s.arg }) ∧
    exec .adlerUpdate s = .next (report none { s with adler := adler32 s.adler s.inp }) ∧
    exec .adlerRead s = .next (report none { s with result := s.adler }) ∧
    exec .crcSeed s = .next (report none { s with crc := s.arg }) ∧
    exec .crcUpdate s = .next (report none { s with crc := crc32 s.crc s.inp }) ∧
    exec .crcRead s = .next (report none { s with result := s.crc })

/-- The streaming laws (spec/41 R246, R249): for every seed and both splits. -/
def Obligations.StreamingChecksums : Prop :=
  ∀ (seed : Word) (a b : Bytes),
    adler32 (adler32 seed a) b = adler32 seed (a ++ b) ∧ crc32 (crc32 seed a) b = crc32 seed (a ++ b)

/-- Delayed reduction (spec/41 R241): reducing once after a block gives what reducing after every byte gives, and over at
most 5552 bytes from sums of at most 65535 no sum reaches 2^32. -/
def Obligations.DelayedReduction : Prop :=
  ∀ (s1 s2 : Nat) (data : Bytes), data ≠ [] →
    data.foldl adlerStep (s1, s2) =
      ((data.foldl plainStep (s1, s2)).1 % 65521, (data.foldl plainStep (s1, s2)).2 % 65521) ∧
    (s1 ≤ 65535 → s2 ≤ 65535 → data.length ≤ 5552 →
      (data.foldl plainStep (s1, s2)).1 < 2 ^ 32 ∧ (data.foldl plainStep (s1, s2)).2 < 2 ^ 32)

/-! ## huffman_coder and huffman_decoder -/

/-- The validation of a lengths array (spec/42 R271): a length above 15 first, then a Kraft sum above 1. -/
def Obligations.TableValidation : Prop :=
  ∀ lengths : List Nat,
    validateLengths lengths =
      if ∃ l ∈ lengths, 15 < l then .error .invalidCodeLength
      else if 2 ^ 15 < kraftSum lengths then .error .overflow
      else .ok ()

/-- `HUF_BUILD` (spec/42 R280) on each of the three slots, and its three refusals in their order. -/
def Obligations.HufBuild : Prop :=
  (∀ slot : BitVec 2, decode (.cmd (slot.setWidth 32 <<< 19 ||| 0x30)) = .ok (.hufBuild slot)) ∧
  ∀ s : State,
    exec (.hufBuild 3) s = .next (report (some .invalidArgument) s) ∧
    (288 < s.inp.length → exec (.hufBuild 0) s = .next (report (some .invalidArgument) s)) ∧
    (32 < s.inp.length → exec (.hufBuild 1) s = .next (report (some .invalidArgument) s)) ∧
    (19 < s.inp.length → exec (.hufBuild 2) s = .next (report (some .invalidArgument) s)) ∧
    (∀ e, validateLengths (s.inp.map (fun b => b.toNat)) = .error e →
      (s.inp.length ≤ 288 → exec (.hufBuild 0) s = .next (report (some e) s)) ∧
      (s.inp.length ≤ 32 → exec (.hufBuild 1) s = .next (report (some e) s)) ∧
      (s.inp.length ≤ 19 → exec (.hufBuild 2) s = .next (report (some e) s))) ∧
    (validateLengths (s.inp.map (fun b => b.toNat)) = .ok () →
      (s.inp.length ≤ 288 →
        exec (.hufBuild 0) s = .next (report none { s with ht0 := .table (s.inp.map (fun b => b.toNat)) })) ∧
      (s.inp.length ≤ 32 →
        exec (.hufBuild 1) s = .next (report none { s with ht1 := .table (s.inp.map (fun b => b.toNat)) })) ∧
      (s.inp.length ≤ 19 →
        exec (.hufBuild 2) s = .next (report none { s with ht2 := .table (s.inp.map (fun b => b.toNat)) })))

/-- Canonical codes (spec/42 R272): the first code of length 1 is 0 and that of each length `l + 1` is twice the sum of
the first code and the number of codes of length `l`; a used symbol has the first code of its length plus the number of
symbols of that length before it. -/
def Obligations.CanonicalCodes : Prop :=
  ∀ lengths : List Nat, (∀ l ∈ lengths, l ≤ 15) →
    firstCode lengths 1 = 0 ∧
    (∀ l : Nat, 1 ≤ l → firstCode lengths (l + 1) = 2 * (firstCode lengths l + lengths.count l)) ∧
    ∀ s : Nat, s < lengths.length → lengths.getD s 0 ≠ 0 →
      (canonicalCodes lengths).getD s 0 =
        firstCode lengths (lengths.getD s 0) + (lengths.take s).count (lengths.getD s 0)

/-- Decoding undoes encoding (spec/42 R272 to R274): the bits of a used symbol's code, most significant first, decode to
that symbol with its own length, whatever bits follow; so no code is the start of another. -/
def Obligations.SymbolDecodes : Prop :=
  ∀ (lengths : List Nat) (sym : Nat) (rest : List Bool),
    LegalTable lengths → sym < lengths.length → lengths.getD sym 0 ≠ 0 →
    decodeSymbol (tableCodes lengths) (codeBits lengths sym ++ rest) = .ok (sym, lengths.getD sym 0, rest)

/-- `HUF_LOAD_FIXED` (spec/42 R281) and the codes of the two fixed tables (R275; spec/30 R135, R136). -/
def Obligations.FixedTables : Prop :=
  decode (.cmd 0x00000031) = .ok .hufLoadFixed ∧
  (∀ s : State, ∃ lit dist : List Nat,
    exec .hufLoadFixed s = .next (report none { s with ht0 := .table lit, ht1 := .table dist }) ∧
    lit.length = 288 ∧ dist.length = 30 ∧
    (∀ c < 144, lit.getD c 0 = 8 ∧ (canonicalCodes lit).getD c 0 = 0x30 + c) ∧
    (∀ c < 112, lit.getD (144 + c) 0 = 9 ∧ (canonicalCodes lit).getD (144 + c) 0 = 0x190 + c) ∧
    (∀ c < 24, lit.getD (256 + c) 0 = 7 ∧ (canonicalCodes lit).getD (256 + c) 0 = c) ∧
    (∀ c < 8, lit.getD (280 + c) 0 = 8 ∧ (canonicalCodes lit).getD (280 + c) 0 = 0xC0 + c) ∧
    (∀ c < 30, dist.getD c 0 = 5 ∧ (canonicalCodes dist).getD c 0 = c))

/-- `HUF_ENCODE` (spec/42 R282, R273): the symbol's canonical code is written, its most significant bit first; the
refusals come in the order of R282. That the capacity counts complete bytes, and not the bits left pending past a full
`OUT`, is the model's choice (log 26). -/
def Obligations.HufEncode : Prop :=
  (∀ slot : BitVec 2, decode (.cmd (slot.setWidth 32 <<< 19 ||| 0x32)) = .ok (.hufEncode slot)) ∧
  (∀ s : State, exec (.hufEncode 3) s = .next (report (some .invalidArgument) s)) ∧
  ∀ (slot : BitVec 2) (s : State), slot ≠ 3 →
    (slotContents s slot = .empty → exec (.hufEncode slot) s = .next (report (some .noTable) s)) ∧
    ∀ lengths, slotContents s slot = .table lengths →
      (lengths.length ≤ s.arg.toNat ∨ lengths.getD s.arg.toNat 0 = 0 →
        exec (.hufEncode slot) s = .next (report (some .invalidSymbol) s)) ∧
      (LegalTable lengths → s.arg.toNat < lengths.length → lengths.getD s.arg.toNat 0 ≠ 0 → PendingOk s.bp →
        (s.params.maxStreamBytes < s.out.length + (s.bp.nbits + lengths.getD s.arg.toNat 0) / 8 →
          exec (.hufEncode slot) s = .next (report (some .capacityExceeded) s)) ∧
        (s.out.length + (s.bp.nbits + lengths.getD s.arg.toNat 0) / 8 ≤ s.params.maxStreamBytes →
          ∃ t, exec (.hufEncode slot) s = .next (report none t) ∧ AppendsBits s t (codeBits lengths s.arg.toNat)))

/-- `HUF_DECODE` (spec/42 R283, R274): if the unread bits begin with a symbol's code, that symbol is returned and its bits
are consumed; if they run out while still the start of some code, InsufficientBits is raised; as soon as they begin with
bits that neither start a code nor hold one, InvalidSymbol is raised, whatever follows (spec/90 C11), in a table with no
code at once. These are all the cases of a table. Slot 3 is an invalid argument, and an empty slot has no table. -/
def Obligations.HufDecode : Prop :=
  (∀ slot : BitVec 2, decode (.cmd (slot.setWidth 32 <<< 19 ||| 0x33)) = .ok (.hufDecode slot)) ∧
  (∀ s : State, exec (.hufDecode 3) s = .next (report (some .invalidArgument) s)) ∧
  ∀ (slot : BitVec 2) (s : State), slot ≠ 3 →
    (slotContents s slot = .empty → exec (.hufDecode slot) s = .next (report (some .noTable) s)) ∧
    ∀ lengths, slotContents s slot = .table lengths →
      ((∀ l ∈ lengths, l = 0) → exec (.hufDecode slot) s = .next (report (some .invalidSymbol) s)) ∧
      (LegalTable lengths →
        (∀ (sym : Nat) (rest : List Bool), sym < lengths.length → lengths.getD sym 0 ≠ 0 →
          unreadBits s.bu = codeBits lengths sym ++ rest →
          exec (.hufDecode slot) s = .next (report none { s with
            result := BitVec.ofNat 32 sym
            bu := ⟨s.bu.data, s.bu.pos + lengths.getD sym 0⟩ })) ∧
        (∀ (sym : Nat) (missing : List Bool), sym < lengths.length → lengths.getD sym 0 ≠ 0 → missing ≠ [] →
          codeBits lengths sym = unreadBits s.bu ++ missing →
          exec (.hufDecode slot) s = .next (report (some .insufficientBits) s)) ∧
        ∀ start rest : List Bool, unreadBits s.bu = start ++ rest →
          (∀ sym < lengths.length, lengths.getD sym 0 ≠ 0 →
            ¬ start <+: codeBits lengths sym ∧ ¬ codeBits lengths sym <+: start) →
          exec (.hufDecode slot) s = .next (report (some .invalidSymbol) s))

/-- `HUF_QUERY` (spec/42 R284): the reversed code and the length, or 0 and 0 for an unused symbol of the alphabet. -/
def Obligations.HufQuery : Prop :=
  (∀ slot : BitVec 2, decode (.cmd (slot.setWidth 32 <<< 19 ||| 0x34)) = .ok (.hufQuery slot)) ∧
  (∀ s : State, exec (.hufQuery 3) s = .next (report (some .invalidArgument) s)) ∧
  ∀ (slot : BitVec 2) (s : State), slot ≠ 3 →
    (slotContents s slot = .empty → exec (.hufQuery slot) s = .next (report (some .noTable) s)) ∧
    ∀ lengths, slotContents s slot = .table lengths →
      (lengths.length ≤ s.arg.toNat → exec (.hufQuery slot) s = .next (report (some .invalidSymbol) s)) ∧
      (s.arg.toNat < lengths.length → lengths.getD s.arg.toNat 0 = 0 →
        exec (.hufQuery slot) s = .next (report none { s with result := 0, result2 := 0 })) ∧
      (LegalTable lengths → s.arg.toNat < lengths.length → lengths.getD s.arg.toNat 0 ≠ 0 →
        ∃ v : Word,
          (∀ k : Nat, k < 32 → v.getLsbD k = (codeBits lengths s.arg.toNat).getD k false) ∧
          exec (.hufQuery slot) s = .next (report none { s with
            result := v, result2 := BitVec.ofNat 32 (lengths.getD s.arg.toNat 0) }))

/-- The code lengths of a dynamic block, from the reference builder or any other (log 3), are legal (spec/42 R299), and
the reference builder's code is complete (R301, R302) and the one of the five worked examples (R308). -/
def Obligations.ChosenLengths : Prop :=
  (∀ (freqs : List Nat) (maxLen : Nat), maxLen ≤ 15 → 2 ≤ freqs.length → freqs.length ≤ 2 ^ maxLen →
    (∀ b : CodeLengthBuilder,
      (chooseLengths b freqs maxLen).length = freqs.length ∧ LegalTable (chooseLengths b freqs maxLen) ∧
      (∀ l ∈ chooseLengths b freqs maxLen, l ≤ maxLen) ∧
      ∀ s < freqs.length, freqs.getD s 0 ≠ 0 → (chooseLengths b freqs maxLen).getD s 0 ≠ 0) ∧
    kraftSum (chooseLengths .packageMerge freqs maxLen) = 2 ^ 15) ∧
  chooseLengths .packageMerge [10, 1, 1, 1, 1, 0, 5] 15 = [1, 4, 4, 4, 4, 0, 2] ∧
  chooseLengths .packageMerge [8, 4, 2, 1, 1] 15 = [1, 2, 3, 4, 4] ∧
  chooseLengths .packageMerge [8, 4, 2, 1, 1] 3 = [1, 3, 3, 3, 3] ∧
  chooseLengths .packageMerge [1, 1, 1, 1] 2 = [2, 2, 2, 2] ∧
  chooseLengths .packageMerge [0, 0, 5] 15 = [1, 0, 1]

/-! ## lz77_matcher -/

/-- The parse law (spec/43 R327), for every engine (`MATCH_CANDIDATES`): replaying the tokens of `data[s..e)` after
`data[0..s)` gives `data[0..e)`, and every token is in its ranges. -/
def Obligations.ParseLaw : Prop :=
  ∀ (m : MatchCandidates) (data : Bytes) (s e : Nat), s ≤ e → e ≤ data.length →
    replay (data.take s) (tokenize m data s e) = some (data.take e) ∧
    ∀ x ∈ tokenize m data s e, legalToken x = true

/-- The match of the reference engine (spec/43 R322 to R325): the longest candidate, among equals the nearest, rejected
only at length 3 and a distance of 8192 or more, and none only without a candidate. -/
def Obligations.LongestNearestMatch : Prop :=
  ∀ (data : Bytes) (p e : Nat), p < e → e ≤ data.length →
    (∀ k d, matchAt .exhaustive data p e = some (k, d) →
      d ≤ p ∧ IsCandidate data p e (p - d) ∧ IsMatchLength data p e (p - d) k ∧ ¬ (k = 3 ∧ 8192 ≤ d) ∧
      ∀ c k', IsCandidate data p e c → IsMatchLength data p e c k' → k' ≤ k ∧ (k' = k → c ≤ p - d)) ∧
    (matchAt .exhaustive data p e = none →
      ∀ c k', IsCandidate data p e c → IsMatchLength data p e c k' → k' = 3 ∧ 8192 ≤ p - c)

/-- `LZ_TOKENIZE`, `LZ_POP` and `LZ_COUNT` (spec/43 R329 to R331), with the token words of spec/30 R118. A count that does
not fit `RESULT` raises InvalidArgument (spec/00 R15; log 5). -/
def Obligations.LzCommands : Prop :=
  decode (.cmd 0x00000038) = .ok .lzTokenize ∧ decode (.cmd 0x00000039) = .ok .lzPop ∧
  decode (.cmd 0x0000003A) = .ok .lzCount ∧
  (∀ (s : State) (q : List LZSymbol), q = tokenize s.params.matchCandidates s.inp 0 s.inp.length →
    q.length ≤ s.inp.length ∧
    (q.length < 2 ^ 32 →
      exec .lzTokenize s = .next (report none { s with tokq := q, result := BitVec.ofNat 32 q.length })) ∧
    (2 ^ 32 ≤ q.length → exec .lzTokenize s = .next (report (some .invalidArgument) s))) ∧
  (∀ s : State, s.tokq = [] → exec .lzPop s = .next (report (some .tokenQueueEmpty) s)) ∧
  (∀ (s : State) (b : Byte) (q : List LZSymbol), s.tokq = .literal b :: q →
    exec .lzPop s = .next (report none { s with result := b.setWidth 32, tokq := q })) ∧
  (∀ (s : State) (k d : Nat) (q : List LZSymbol), s.tokq = .copy k d :: q → legalToken (.copy k d) = true →
    exec .lzPop s = .next (report none { s with result := BitVec.ofNat 32 (2 ^ 31 + k * 2 ^ 16 + d), tokq := q })) ∧
  (∀ s : State, s.tokq.length < 2 ^ 32 →
    exec .lzCount s = .next (report none { s with result := BitVec.ofNat 32 s.tokq.length })) ∧
  (∀ s : State, 2 ^ 32 ≤ s.tokq.length → exec .lzCount s = .next (report (some .invalidArgument) s))

/-! ## deflate_encoder -/

/-- `DEFLATE` (spec/44 R350, R351, R364, R366): the raw body, in the zlib wrapper if asked for, is appended to `OUT`; the
empty input gives the canonical streams of R356 at every level. A length that does not fit `RESULT` raises InvalidArgument
(spec/00 R15; log 5). At levels 1 to 9 the body
is, bit for bit, one block for each 65535 bytes of what the LZ77 engine makes of them (R353, R354): stored if the smaller of
the fixed and the dynamic block is no smaller than the chunk (R362), else dynamic if strictly smaller than fixed (R361),
with the header of spec/42 R306 and the symbols of R357, and zero bits up to the byte boundary at the end (R363). Which
engine and which builder of code lengths (log 3) the level asks for is `LEVEL_POLICY`, in whose reference value all nine
levels are one (log 4). -/
def Obligations.DeflateCommand : Prop :=
  (∀ (l : BitVec 4) (wrap : Bool),
    decode (.cmd (l.setWidth 32 <<< 14 ||| (BitVec.ofBool wrap).setWidth 32 <<< 18 ||| 0x40)) = .ok (.deflate l wrap)) ∧
  (∀ (l : BitVec 4) (wrap : Bool) (s : State), 9 < l.toNat →
    exec (.deflate l wrap) s = .next (report (some .invalidLevel) s)) ∧
  (∀ (l : BitVec 4) (wrap : Bool) (s : State) (stream : Bytes), l.toNat ≤ 9 →
    stream = (if wrap then [0x78, 0x9C] ++ deflateBody s.params s.inp l.toNat ++ u32be (adler32 1 s.inp)
      else deflateBody s.params s.inp l.toNat) →
    (s.params.maxStreamBytes < s.out.length + stream.length →
      exec (.deflate l wrap) s = .next (report (some .capacityExceeded) s)) ∧
    (s.out.length + stream.length ≤ s.params.maxStreamBytes → stream.length < 2 ^ 32 →
      exec (.deflate l wrap) s =
        .next (report none { s with out := s.out ++ stream, result := BitVec.ofNat 32 stream.length })) ∧
    (s.out.length + stream.length ≤ s.params.maxStreamBytes → 2 ^ 32 ≤ stream.length →
      exec (.deflate l wrap) s = .next (report (some .invalidArgument) s))) ∧
  (∀ (p : Params) (l : Nat), deflateStream p [] l false = [0x03, 0x00] ∧
    deflateStream p [] l true = [0x78, 0x9C, 0x03, 0x00, 0x00, 0x00, 0x00, 0x01]) ∧
  (∀ (p : Params) (data : Bytes) (l : Nat) (c : LevelChoice), data ≠ [] → 1 ≤ l → l ≤ 9 →
    c = (match p.levelPolicy with
      | .identical => ⟨p.matchCandidates, p.codeLengthBuilder⟩
      | .perLevel choices => choices.getD (l - 1) ⟨p.matchCandidates, p.codeLengthBuilder⟩) →
    ∃ pad < 8, streamBits (deflateBody p data l) = compressedBits c data ++ List.replicate pad false)

/-- Level 0 (spec/44 R353, R355, R360, R363; spec/30 R122): one stored block for each 65535 bytes, the last one final. -/
def Obligations.StoredLayout : Prop :=
  ∀ (p : Params) (data : Bytes), data ≠ [] →
    deflateBody p data 0 =
      (List.range ((data.length + 65534) / 65535)).flatMap (fun j =>
        storedBlock ((data.drop (65535 * j)).take 65535) (decide (data.length ≤ 65535 * (j + 1))))

/-- The size bound (spec/44 R369), at every level and for every choice of the OPEN parameters. -/
def Obligations.SizeBound : Prop :=
  ∀ (p : Params) (data : Bytes) (level : Nat), data ≠ [] →
    (deflateStream p data level false).length ≤ data.length + 5 * ((data.length + 65534) / 65535) ∧
    (deflateStream p data level true).length = (deflateStream p data level false).length + 6

/-- The round trip (spec/44 R368): decoding what the encoder wrote gives the data, ends in `Done` and consumes every byte,
at every level 0 to 9, in both wrappings, for every choice of the OPEN parameters (log 2, 3, 4). -/
def Obligations.RoundTrip : Prop :=
  ∀ (p : Params) (data : Bytes) (level : Nat) (wrap : Bool), level ≤ 9 →
    inflate (deflateStream p data level wrap) wrap = .done data (deflateStream p data level wrap).length

/-! ## inflate_decoder -/

/-- `INFLATE_START` and `INFLATE_FEED` (spec/45 R423, R424). -/
def Obligations.InflateStartAndFeed : Prop :=
  decode (.cmd 0x00000048) = .ok (.inflateStart false) ∧ decode (.cmd 0x00040048) = .ok (.inflateStart true) ∧
  decode (.cmd 0x00000049) = .ok .inflateFeed ∧
  (∀ s : State,
    exec (.inflateStart true) s = .next (report none { s with inf := ⟨true, [], 0, none, .zlibHeader⟩ }) ∧
    exec (.inflateStart false) s = .next (report none { s with inf := ⟨false, [], 0, none, .readBlockHeader⟩ })) ∧
  (∀ s : State, s.inf.phase = .idle → exec .inflateFeed s = .next (report (some .wrongMode) s)) ∧
  (∀ s : State, s.inf.phase ≠ .idle →
    (s.params.maxStreamBytes < s.inf.input.length + s.inp.length →
      exec .inflateFeed s = .next (report (some .capacityExceeded) s)) ∧
    (s.inf.input.length + s.inp.length ≤ s.params.maxStreamBytes →
      exec .inflateFeed s = .next (report none { s with inf := { s.inf with input := s.inf.input ++ s.inp } })))

/-- `INFLATE_RUN` (spec/45 R425): the sticky error, and the three outcomes of decoding what was fed. A count that does not
fit its register raises InvalidArgument (spec/00 R15; log 5); the private output obeys the capacity as well (log 11). -/
def Obligations.InflateRun : Prop :=
  decode (.cmd 0x0000004A) = .ok .inflateRun ∧
  (∀ s : State, s.inf.phase = .idle → exec .inflateRun s = .next (report (some .wrongMode) s)) ∧
  ∀ s : State, s.inf.phase ≠ .idle →
    (∀ e, s.inf.err = some e → exec .inflateRun s = .next (report (some e) s)) ∧
    (s.inf.err = none →
      (∀ e, inflate s.inf.input s.inf.wrap = .fail e →
        exec .inflateRun s =
          .next (report (some e) { s with inf := { s.inf with err := some e, phase := .error } })) ∧
      (∀ out ph, inflate s.inf.input s.inf.wrap = .more out ph → out.length ≤ s.params.maxStreamBytes →
        s.out.length + (out.length - s.inf.emitted) ≤ s.params.maxStreamBytes →
        exec .inflateRun s = .next (report (some .needsMoreInput) { s with
          out := s.out ++ out.drop s.inf.emitted
          inf := { s.inf with emitted := out.length, phase := ph } })) ∧
      (∀ out used, inflate s.inf.input s.inf.wrap = .done out used → out.length ≤ s.params.maxStreamBytes →
        s.out.length + (out.length - s.inf.emitted) ≤ s.params.maxStreamBytes →
        (out.length - s.inf.emitted < 2 ^ 32 → used < 2 ^ 32 →
          exec .inflateRun s = .next (report none { s with
            out := s.out ++ out.drop s.inf.emitted
            inf := { s.inf with emitted := out.length, phase := .done }
            result := BitVec.ofNat 32 (out.length - s.inf.emitted)
            result2 := BitVec.ofNat 32 used })) ∧
        (2 ^ 32 ≤ out.length - s.inf.emitted ∨ 2 ^ 32 ≤ used →
          exec .inflateRun s = .next (report (some .invalidArgument) s))) ∧
      (∀ out, ((∃ ph, inflate s.inf.input s.inf.wrap = .more out ph) ∨
          ∃ used, inflate s.inf.input s.inf.wrap = .done out used) →
        s.params.maxStreamBytes < s.out.length + (out.length - s.inf.emitted) →
        exec .inflateRun s = .next (report (some .capacityExceeded) s)))

/-- What more input does (spec/45 R416, R417): bytes after a finished stream or after a hard error change nothing, and the
output of a stream that needs more input stays the start of the output. -/
def Obligations.MoreInput : Prop :=
  ∀ (bytes more : Bytes) (wrap : Bool),
    (∀ out used, inflate bytes wrap = .done out used →
      used ≤ bytes.length ∧ inflate (bytes ++ more) wrap = .done out used) ∧
    (∀ e, inflate bytes wrap = .fail e → inflate (bytes ++ more) wrap = .fail e) ∧
    (∀ out ph, inflate bytes wrap = .more out ph →
      (∀ out' used, inflate (bytes ++ more) wrap = .done out' used → out <+: out') ∧
      (∀ out' ph', inflate (bytes ++ more) wrap = .more out' ph' → out <+: out'))

/-- The streaming law (spec/45 R426) for a stream that does not end in a hard error: however its bytes are split into
feeds, the decoder ends in the same state with the same output as after one feed. The capacity holds the whole (log
11), and the two counts of a finished stream fit their registers (log 5). After a hard error the law fails: what earlier runs appended stays (spec/70 R585; log 22). -/
def Obligations.StreamingLaw : Prop :=
  ∀ (s : State) (wrap : Bool) (chunks : List Bytes), chunks ≠ [] →
    s.inf.input = [] → s.inf.emitted = 0 → s.inf.err = none → s.inf.phase ≠ .idle → s.inf.wrap = wrap →
    chunks.flatten.length ≤ s.params.maxStreamBytes →
    ∀ out, ((∃ used, inflate chunks.flatten wrap = .done out used ∧ out.length < 2 ^ 32 ∧ used < 2 ^ 32) ∨
        ∃ ph, inflate chunks.flatten wrap = .more out ph) →
      s.out.length + out.length ≤ s.params.maxStreamBytes →
      ∃ t u, feedAll chunks s = .next t ∧ feedAndRun chunks.flatten s = .next u ∧ t.out = u.out ∧ t.inf = u.inf ∧
        t.out = s.out ++ out

/-- The symbols of a compressed block (spec/45 R410 to R413). A literal is appended, 256 ends the block, and a length
symbol copies. 286 and 287 raise InvalidSymbol before anything more is read; a distance symbol 30 or 31 raises it before
its extra bits are; a distance beyond the output raises InvalidDistance; bits that start no code raise InvalidSymbol; and
where the bits run out, the output of the symbols decoded so far is kept and more input asked for. The copy repeats the
last `dist` bytes of the output: copied byte `i` is the byte `dist` back from the start, `i mod dist` further on. The
decoder holds its output latest byte first. A fixed block's distance table has 32 codes (R407). -/
def Obligations.BackReferenceCopy : Prop :=
  (∀ (dist k : Nat) (out : Bytes), 1 ≤ dist → dist ≤ out.length →
    (copyBack dist k out.reverse).reverse =
      out ++ (List.range k).map (fun i => byteAt out (out.length - dist + i % dist)) ∧
    (copyBack dist k out.reverse).reverse = repeatBack dist k out) ∧
  (∀ d : Decoder, decodeBody 1 d = decodeSymbols
    (tableCodes (List.replicate 144 8 ++ List.replicate 112 9 ++ List.replicate 24 7 ++ List.replicate 8 8))
    (tableCodes (List.replicate 32 5)) (d.bits.length + 1) d) ∧
  (∀ (ll : List Nat) (dt : List Code) (fuel : Nat) (d : Decoder), LegalTable ll →
    (decodeSymbol (tableCodes ll) d.bits = .error .insufficientBits →
      decodeSymbols (tableCodes ll) dt (fuel + 1) d = .error (.more d.rout.reverse .decodeSymbols)) ∧
    (decodeSymbol (tableCodes ll) d.bits = .error .invalidSymbol →
      decodeSymbols (tableCodes ll) dt (fuel + 1) d = .error (.fail .invalidSymbol)) ∧
    ∀ (sym : Nat) (rest : List Bool), sym < ll.length → ll.getD sym 0 ≠ 0 → d.bits = codeBits ll sym ++ rest →
      (sym < 256 → decodeSymbols (tableCodes ll) dt (fuel + 1) d =
        decodeSymbols (tableCodes ll) dt fuel ⟨rest, d.pos + ll.getD sym 0, BitVec.ofNat 8 sym :: d.rout⟩) ∧
      (sym = 256 → decodeSymbols (tableCodes ll) dt (fuel + 1) d = .ok ⟨rest, d.pos + ll.getD sym 0, d.rout⟩) ∧
      (256 < sym →
        (∀ stop, decodeMatch sym dt ⟨rest, d.pos + ll.getD sym 0, d.rout⟩ = .error stop →
          decodeSymbols (tableCodes ll) dt (fuel + 1) d = .error stop) ∧
        (∀ t, decodeMatch sym dt ⟨rest, d.pos + ll.getD sym 0, d.rout⟩ = .ok t →
          decodeSymbols (tableCodes ll) dt (fuel + 1) d = decodeSymbols (tableCodes ll) dt fuel t))) ∧
  (∀ (sym : Nat) (dt : List Code) (d : Decoder), 285 < sym → decodeMatch sym dt d = .error (.fail .invalidSymbol)) ∧
  ∀ (sym base width : Nat) (dl : List Nat) (d : Decoder), 257 ≤ sym → sym ≤ 285 → lengthRow sym = (base, width) →
    LegalTable dl →
    (d.bits.length < width → decodeMatch sym (tableCodes dl) d = .error (.more d.rout.reverse .decodeSymbols)) ∧
    ∀ (lx : Nat) (bits : List Bool), lx < 2 ^ width → d.bits = bitsOf width lx ++ bits →
      (decodeSymbol (tableCodes dl) bits = .error .insufficientBits →
        decodeMatch sym (tableCodes dl) d = .error (.more d.rout.reverse .decodeSymbols)) ∧
      (decodeSymbol (tableCodes dl) bits = .error .invalidSymbol →
        decodeMatch sym (tableCodes dl) d = .error (.fail .invalidSymbol)) ∧
      ∀ (dsym dbase dwidth : Nat) (rest : List Bool), dsym < dl.length → dl.getD dsym 0 ≠ 0 →
        bits = codeBits dl dsym ++ rest → distRow dsym = (dbase, dwidth) →
        (29 < dsym → decodeMatch sym (tableCodes dl) d = .error (.fail .invalidSymbol)) ∧
        (dsym ≤ 29 →
          (rest.length < dwidth →
            decodeMatch sym (tableCodes dl) d = .error (.more d.rout.reverse .decodeSymbols)) ∧
          ∀ (dx : Nat) (after : List Bool), dx < 2 ^ dwidth → rest = bitsOf dwidth dx ++ after →
            (d.rout.length < dbase + dx → decodeMatch sym (tableCodes dl) d = .error (.fail .invalidDistance)) ∧
            (dbase + dx ≤ d.rout.length → decodeMatch sym (tableCodes dl) d =
              .ok ⟨after, d.pos + width + dl.getD dsym 0 + dwidth,
                (repeatBack (dbase + dx) (base + lx) d.rout.reverse).reverse⟩))

/-- The checks of the decoder's headers: a zlib header fails exactly when one of the four conditions holds (spec/45 R401,
R402); block type 3 fails as soon as its 3 bits are read, in the first block and in any later one, which begins wherever
the decoder then stands (R403, R405); a stored block fails exactly when LEN is not the complement of NLEN, and then waits
for all its bytes or copies them (R406), in any block and, seen from outside, in the first. A dynamic block's table header
(R408) raises InvalidCodeLength for more than 286 lit/len or 30 distance lengths, a repeat 16 with nothing before it, a
sequence that overruns and a symbol 256 of length 0, Overflow for any of its three tables that is over-subscribed, and
otherwise gives the two tables its lengths describe. The blocks follow each other up to the final one (R400). -/
def Obligations.HeaderChecks : Prop :=
  (∀ (cmf flg : Byte) (rest : Bytes),
    inflate (cmf :: flg :: rest) true = .fail .badZlibHeader ↔
      (cmf.toNat % 16 ≠ 8 ∨ cmf.toNat / 16 > 7 ∨ (cmf.toNat * 256 + flg.toNat) % 31 ≠ 0 ∨ flg.getLsbD 5 = true)) ∧
  (∀ (b : Byte) (rest : Bytes), b.extractLsb' 1 2 = 3 → inflate (b :: rest) false = .fail .invalidBlockType) ∧
  (∀ (fuel : Nat) (d : Decoder) (final : Bool) (rest : List Bool), d.bits = final :: true :: true :: rest →
    decodeBlocks (fuel + 1) d = .error (.fail .invalidBlockType)) ∧
  (∀ (d : Decoder) (len nlen : Half) (rest : List Bool),
    (alignDecoder d).bits = bitsOf 16 len.toNat ++ bitsOf 16 nlen.toNat ++ rest →
    (len ≠ ~~~ nlen → decodeBody 0 d = .error (.fail .storedLengthMismatch)) ∧
    (len = ~~~ nlen → rest.length < 8 * len.toNat → decodeBody 0 d = .error (.more d.rout.reverse .stored)) ∧
    (len = ~~~ nlen → ∀ (data : Bytes) (after : List Bool), rest = streamBits data ++ after → data.length = len.toNat →
      decodeBody 0 d = .ok ⟨after, (alignDecoder d).pos + 32 + 8 * len.toNat, data.reverse ++ d.rout⟩)) ∧
  (∀ (b : Byte) (len nlen : Half) (rest : Bytes), b.extractLsb' 1 2 = 0 →
    (len ≠ ~~~ nlen → inflate ([b] ++ u16le len ++ u16le nlen ++ rest) false = .fail .storedLengthMismatch) ∧
    (len = ~~~ nlen → rest.length < len.toNat →
      inflate ([b] ++ u16le len ++ u16le nlen ++ rest) false = .more [] .stored) ∧
    (len = ~~~ nlen → len.toNat ≤ rest.length → b.getLsbD 0 = true →
      inflate ([b] ++ u16le len ++ u16le nlen ++ rest) false = .done (rest.take len.toNat) (5 + len.toNat))) ∧
  (∀ bytes : Bytes,
    (∀ e, decodeBlocks (8 * bytes.length + 1) ⟨streamBits bytes, 0, []⟩ = .error (.fail e) →
      inflate bytes false = .fail e) ∧
    (∀ out ph, decodeBlocks (8 * bytes.length + 1) ⟨streamBits bytes, 0, []⟩ = .error (.more out ph) →
      inflate bytes false = .more out ph) ∧
    (∀ t, decodeBlocks (8 * bytes.length + 1) ⟨streamBits bytes, 0, []⟩ = .ok t →
      inflate bytes false = .done t.rout.reverse ((t.pos + 7) / 8))) ∧
  (∀ (fuel : Nat) (d : Decoder),
    (d.bits.length < 3 → decodeBlocks (fuel + 1) d = .error (.more d.rout.reverse .readBlockHeader)) ∧
    ∀ (final b0 b1 : Bool) (rest : List Bool), d.bits = final :: b0 :: b1 :: rest →
      (∀ stop, decodeBody (b0.toNat + 2 * b1.toNat) ⟨rest, d.pos + 3, d.rout⟩ = .error stop →
        decodeBlocks (fuel + 1) d = .error stop) ∧
      (∀ t, decodeBody (b0.toNat + 2 * b1.toNat) ⟨rest, d.pos + 3, d.rout⟩ = .ok t →
        decodeBlocks (fuel + 1) d = if final then .ok t else decodeBlocks fuel t)) ∧
  (∀ d : Decoder,
    (∀ stop, readTables d = .error stop → decodeBody 2 d = .error stop) ∧
    (∀ lt dt t, readTables d = .ok ((lt, dt), t) → decodeBody 2 d = decodeSymbols lt dt (t.bits.length + 1) t)) ∧
  (∀ d : Decoder,
    (d.bits.length < 14 → readTables d = .error (.more d.rout.reverse .dynamicTable)) ∧
    ∀ (hlit hdist hclen : Nat) (rest : List Bool), hlit < 32 → hdist < 32 → hclen < 16 →
      d.bits = bitsOf 5 hlit ++ bitsOf 5 hdist ++ bitsOf 4 hclen ++ rest →
      (286 < hlit + 257 ∨ 30 < hdist + 1 → readTables d = .error (.fail .invalidCodeLength)) ∧
      (hlit + 257 ≤ 286 → hdist + 1 ≤ 30 →
        (rest.length < 3 * (hclen + 4) → readTables d = .error (.more d.rout.reverse .dynamicTable)) ∧
        ∀ (values cl : List Nat) (after : List Bool), values.length = hclen + 4 → (∀ v ∈ values, v < 8) →
          cl = clenTable values → rest = values.flatMap (bitsOf 3) ++ after →
          (¬ LegalTable cl → readTables d = .error (.fail .overflow)) ∧
          (LegalTable cl → ∀ (total : Nat) (start : Decoder), total = hlit + 257 + (hdist + 1) →
            start = ⟨after, d.pos + 14 + 3 * (hclen + 4), d.rout⟩ →
            (∀ stop, readLengths (tableCodes cl) total total [] start = .error stop → readTables d = .error stop) ∧
            ∀ (seq ll dl : List Nat) (t : Decoder), readLengths (tableCodes cl) total total [] start = .ok (seq, t) →
              ll = seq.take (hlit + 257) → dl = seq.drop (hlit + 257) →
              ll.length = hlit + 257 ∧ dl.length = hdist + 1 ∧
              (ll.getD 256 0 = 0 → readTables d = .error (.fail .invalidCodeLength)) ∧
              (ll.getD 256 0 ≠ 0 →
                (¬ LegalTable ll ∨ ¬ LegalTable dl → readTables d = .error (.fail .overflow)) ∧
                (LegalTable ll → LegalTable dl → readTables d = .ok ((tableCodes ll, tableCodes dl), t)))))) ∧
  (∀ (cl : List Nat) (total fuel : Nat) (seq : List Nat) (d : Decoder), LegalTable cl →
    (total ≤ seq.length → readLengths (tableCodes cl) total fuel seq d = .ok (seq, d)) ∧
    (seq.length < total →
      (decodeSymbol (tableCodes cl) d.bits = .error .insufficientBits →
        readLengths (tableCodes cl) total (fuel + 1) seq d = .error (.more d.rout.reverse .dynamicTable)) ∧
      (decodeSymbol (tableCodes cl) d.bits = .error .invalidSymbol →
        readLengths (tableCodes cl) total (fuel + 1) seq d = .error (.fail .invalidSymbol)) ∧
      ∀ (sym : Nat) (rest : List Bool), sym < cl.length → cl.getD sym 0 ≠ 0 → d.bits = codeBits cl sym ++ rest →
        (sym < 16 → readLengths (tableCodes cl) total (fuel + 1) seq d =
          readLengths (tableCodes cl) total fuel (seq ++ [sym]) ⟨rest, d.pos + cl.getD sym 0, d.rout⟩) ∧
        (sym = 16 → seq = [] →
          readLengths (tableCodes cl) total (fuel + 1) seq d = .error (.fail .invalidCodeLength)) ∧
        ∀ width extra count len : Nat, IsRepeat seq sym width extra count len → extra < 2 ^ width →
          (rest.length < width →
            readLengths (tableCodes cl) total (fuel + 1) seq d = .error (.more d.rout.reverse .dynamicTable)) ∧
          ∀ after : List Bool, rest = bitsOf width extra ++ after →
            (total < seq.length + count →
              readLengths (tableCodes cl) total (fuel + 1) seq d = .error (.fail .invalidCodeLength)) ∧
            (seq.length + count ≤ total → readLengths (tableCodes cl) total (fuel + 1) seq d =
              readLengths (tableCodes cl) total fuel (seq ++ List.replicate count len)
                ⟨after, d.pos + cl.getD sym 0 + width, d.rout⟩)))

/-! ## zip_container_codec -/

/-- The modes (spec/46 R450): in a mode the table does not list a command raises WrongMode and changes nothing, and a
success leaves the table's next mode. -/
def Obligations.ZipModes : Prop :=
  (∀ (i : Instr) (s : State), legalMode i s.zip.mode = false →
    exec i s = .next (report (some .wrongMode) s)) ∧
  (∀ (i : Instr) (s t : State), isCommand i = true → exec i s = .next t → errField t.status = 0 →
    t.zip.mode = nextMode i s.zip.mode)

/-- The EOCD (spec/46 R461, R462): the highest offset with the signature, at least 22 and at most 65557 bytes before the
end; and `ZIP_LOCATE_EOCD`, in any mode. An offset that does not fit `RESULT` raises InvalidArgument (spec/00 R15; log
5). -/
def Obligations.LocateEocd : Prop :=
  (∀ (img : Bytes) (p : Nat), locateEocd img = .ok p ↔
    (p + 22 ≤ img.length ∧ img.length ≤ p + 65557 ∧ u32At img p = 0x06054B50 ∧
      ∀ q, p < q → q + 22 ≤ img.length → u32At img q ≠ 0x06054B50)) ∧
  (∀ (img : Bytes) (e : Error), locateEocd img = .error e → e = .eocdNotFound) ∧
  decode (.cmd 0x00000051) = .ok .zipLocateEocd ∧
  (∀ s : State,
    (∀ p, locateEocd s.inp = .ok p → p < 2 ^ 32 →
      exec .zipLocateEocd s = .next (report none { s with result := BitVec.ofNat 32 p })) ∧
    (∀ p, locateEocd s.inp = .ok p → 2 ^ 32 ≤ p →
      exec .zipLocateEocd s = .next (report (some .invalidArgument) s)) ∧
    (∀ e, locateEocd s.inp = .error e → exec .zipLocateEocd s = .next (report (some e) s)))

/-- `ZIP_OPEN_READ`, `ZIP_OPEN_APPEND` and `ZIP_CREATE` (spec/46 R460, R488, R480) outside the mode `Writer`: the parsed
index and the image, for appending cut at the old central directory; a parse error changes nothing. Parsing (R463) refuses
an archive of several disks (R466), then an EOCD or a central directory that passes the end (R467), then, record by
record, one that passes the directory's end or lacks the signature (R465, R467); a record gives its entry (R468 to R470).
An image longer than its space is refused, by an error the model infers (spec/20 R84; log 25). -/
def Obligations.ZipOpen : Prop :=
  decode (.cmd 0x00000050) = .ok .zipOpenRead ∧ decode (.cmd 0x00000059) = .ok .zipOpenAppend ∧
  decode (.cmd 0x00000058) = .ok .zipCreate ∧
  (∀ (img : Bytes) (e : Error), locateEocd img = .error e → parseArchive img = .error e) ∧
  (∀ (img : Bytes) (p : Nat), locateEocd img = .ok p →
    (u16At img (p + 4) ≠ 0 ∨ u16At img (p + 6) ≠ 0 ∨ u16At img (p + 8) ≠ u16At img (p + 10) →
      parseArchive img = .error .multiDiskUnsupported) ∧
    (u16At img (p + 4) = 0 → u16At img (p + 6) = 0 → u16At img (p + 8) = u16At img (p + 10) →
      ∀ cdend : Nat, cdend = (u32At img (p + 16)).toNat + (u32At img (p + 12)).toNat →
      (img.length < p + 22 + (u16At img (p + 20)).toNat ∨ img.length < cdend →
        parseArchive img = .error .corrupt) ∧
      (p + 22 + (u16At img (p + 20)).toNat ≤ img.length → cdend ≤ img.length →
        (∀ e, parseRecords img cdend (u16At img (p + 10)).toNat (u32At img (p + 16)).toNat = .error e →
          parseArchive img = .error e) ∧
        (∀ index, parseRecords img cdend (u16At img (p + 10)).toNat (u32At img (p + 16)).toNat = .ok index →
          parseArchive img = .ok (index, u32At img (p + 16)))))) ∧
  (∀ (img : Bytes) (cdend k q next : Nat),
    next = q + 46 + (u16At img (q + 28)).toNat + (u16At img (q + 30)).toNat + (u16At img (q + 32)).toNat →
    parseRecords img cdend 0 q = .ok [] ∧
    (cdend < q + 46 → parseRecords img cdend (k + 1) q = .error .corrupt) ∧
    (q + 46 ≤ cdend → u32At img q ≠ 0x02014B50 → parseRecords img cdend (k + 1) q = .error .badSignature) ∧
    (q + 46 ≤ cdend → u32At img q = 0x02014B50 → cdend < next →
      parseRecords img cdend (k + 1) q = .error .corrupt) ∧
    (q + 46 ≤ cdend → u32At img q = 0x02014B50 → next ≤ cdend →
      (∀ e, parseRecords img cdend k next = .error e → parseRecords img cdend (k + 1) q = .error e) ∧
      (∀ index, parseRecords img cdend k next = .ok index →
        ∃ e : Entry, parseRecords img cdend (k + 1) q = .ok (e :: index) ∧
          e.name = slice img (q + 46) (u16At img (q + 28)).toNat ∧ e.method = u16At img (q + 10) ∧
          e.dostime = u16At img (q + 12) ∧ e.dosdate = u16At img (q + 14) ∧ e.crc = u32At img (q + 16) ∧
          e.csize = u32At img (q + 20) ∧ e.usize = u32At img (q + 24) ∧ e.extAttr = u32At img (q + 38) ∧
          e.offset = u32At img (q + 42) ∧ EntryOk e))) ∧
  (∀ s : State, s.zip.mode = .writer →
    exec .zipOpenRead s = .next (report (some .wrongMode) s) ∧
    exec .zipOpenAppend s = .next (report (some .wrongMode) s) ∧
    exec .zipCreate s = .next (report (some .wrongMode) s)) ∧
  ∀ s : State, s.zip.mode ≠ .writer →
    exec .zipCreate s = .next (report none { s with zip := ⟨[], [], 0, .writer⟩ }) ∧
    (∀ e, parseArchive s.inp = .error e →
      exec .zipOpenRead s = .next (report (some e) s) ∧ exec .zipOpenAppend s = .next (report (some e) s)) ∧
    (∀ index off, parseArchive s.inp = .ok (index, off) → s.inp.length ≤ s.params.maxStreamBytes →
      (s.inp.length ≤ 4294967295 → exec .zipOpenRead s = .next (report none { s with
        zip := ⟨s.inp, index, off, .reader⟩, result := BitVec.ofNat 32 index.length })) ∧
      (4294967295 < s.inp.length → exec .zipOpenRead s = .next (report (some .capacityExceeded) s)) ∧
      exec .zipOpenAppend s = .next (report none { s with
        zip := ⟨s.inp.take off.toNat, index, off, .writer⟩, result := BitVec.ofNat 32 index.length }))

/-- `ZIP_ENTRY_INFO` and `ZIP_ENTRY_NAME` (spec/46 R471, R472) in the mode `Reader`. That the index is checked before the
selector is log 10. -/
def Obligations.ZipEntryQueries : Prop :=
  (∀ n : BitVec 6, decode (.cmd (n.setWidth 32 <<< 8 ||| 0x52)) = .ok (.zipEntryInfo n)) ∧
  decode (.cmd 0x00000053) = .ok .zipEntryName ∧
  ∀ s : State, s.zip.mode = .reader →
    (∀ n : BitVec 6, s.zip.index.length ≤ s.arg.toNat →
      exec (.zipEntryInfo n) s = .next (report (some .entryIndexOutOfRange) s) ∧
      exec .zipEntryName s = .next (report (some .entryIndexOutOfRange) s)) ∧
    ∀ e, s.zip.index[s.arg.toNat]? = some e →
      (∀ n : BitVec 6, 8 < n.toNat → exec (.zipEntryInfo n) s = .next (report (some .invalidArgument) s)) ∧
      exec (.zipEntryInfo 0) s = .next (report none { s with result := e.csize }) ∧
      exec (.zipEntryInfo 1) s = .next (report none { s with result := e.usize }) ∧
      exec (.zipEntryInfo 2) s = .next (report none { s with result := e.crc }) ∧
      exec (.zipEntryInfo 3) s = .next (report none { s with result := e.method.setWidth 32 }) ∧
      exec (.zipEntryInfo 4) s =
        .next (report none { s with result := e.dostime.setWidth 32 ||| (e.dosdate.setWidth 32 <<< 16) }) ∧
      exec (.zipEntryInfo 5) s = .next (report none { s with result := e.extAttr }) ∧
      exec (.zipEntryInfo 6) s = .next (report none { s with result := e.offset }) ∧
      exec (.zipEntryInfo 7) s = .next (report none { s with
        result := (BitVec.ofBool e.isDir).setWidth 32 ||| ((BitVec.ofBool e.isSymlink).setWidth 32 <<< 1) }) ∧
      (e.name.length < 2 ^ 32 →
        exec (.zipEntryInfo 8) s = .next (report none { s with result := BitVec.ofNat 32 e.name.length })) ∧
      (2 ^ 32 ≤ e.name.length →
        exec (.zipEntryInfo 8) s = .next (report (some .invalidArgument) s)) ∧
      (s.params.maxStreamBytes < s.out.length + e.name.length →
        exec .zipEntryName s = .next (report (some .capacityExceeded) s)) ∧
      (s.out.length + e.name.length ≤ s.params.maxStreamBytes → e.name.length < 2 ^ 32 →
        exec .zipEntryName s = .next (report none { s with
          out := s.out ++ e.name, result := BitVec.ofNat 32 e.name.length })) ∧
      (s.out.length + e.name.length ≤ s.params.maxStreamBytes → 2 ^ 32 ≤ e.name.length →
        exec .zipEntryName s = .next (report (some .invalidArgument) s))

/-- `ZIP_EXTRACT` (spec/46 R473 to R475): the refusals in their order: outside the mode `Reader`, an index out of range, a
local header that does not fit (Corrupt), one without its signature, a payload that does not fit (Corrupt), a method other
than 0 and 8, the decoder's own error or a stream that the payload ends in the middle of (Corrupt), then R474's size before
its CRC32, and the capacity last. Otherwise the data is appended to `OUT`; whatever is appended was verified so, and a
failure changes nothing. -/
def Obligations.ZipExtract : Prop :=
  decode (.cmd 0x00000054) = .ok .zipExtract ∧
  (∀ s : State, s.zip.mode ≠ .reader → exec .zipExtract s = .next (report (some .wrongMode) s)) ∧
  (∀ s : State, s.zip.mode = .reader → s.zip.index.length ≤ s.arg.toNat →
    exec .zipExtract s = .next (report (some .entryIndexOutOfRange) s)) ∧
  (∀ (s : State) (e : Entry) (off start : Nat), s.zip.mode = .reader → s.zip.index[s.arg.toNat]? = some e →
    off = e.offset.toNat →
    start = off + 30 + (u16At s.zip.img (off + 26)).toNat + (u16At s.zip.img (off + 28)).toNat →
    (s.zip.img.length < off + 30 → exec .zipExtract s = .next (report (some .corrupt) s)) ∧
    (off + 30 ≤ s.zip.img.length →
      (u32At s.zip.img off ≠ 0x04034B50 → exec .zipExtract s = .next (report (some .badSignature) s)) ∧
      (u32At s.zip.img off = 0x04034B50 →
        (s.zip.img.length < start + e.csize.toNat → exec .zipExtract s = .next (report (some .corrupt) s)) ∧
        (start + e.csize.toNat ≤ s.zip.img.length → ∀ raw : Bytes, raw = slice s.zip.img start e.csize.toNat →
          (e.method ≠ 0 → e.method ≠ 8 → exec .zipExtract s = .next (report (some .unsupportedMethod) s)) ∧
          (e.method = 8 →
            (∀ x, inflate raw false = .fail x → exec .zipExtract s = .next (report (some x) s)) ∧
            (∀ out ph, inflate raw false = .more out ph → exec .zipExtract s = .next (report (some .corrupt) s))) ∧
          ∀ data : Bytes, ((e.method = 0 ∧ data = raw) ∨ (e.method = 8 ∧ ∃ used, inflate raw false = .done data used)) →
            (data.length ≠ e.usize.toNat → exec .zipExtract s = .next (report (some .sizeMismatch) s)) ∧
            (data.length = e.usize.toNat →
              (crc32 0 data ≠ e.crc → exec .zipExtract s = .next (report (some .crc32Mismatch) s)) ∧
              (crc32 0 data = e.crc →
                (s.params.maxStreamBytes < s.out.length + data.length →
                  exec .zipExtract s = .next (report (some .capacityExceeded) s)) ∧
                (s.out.length + data.length ≤ s.params.maxStreamBytes →
                  exec .zipExtract s = .next (report none { s with
                    out := s.out ++ data, result := BitVec.ofNat 32 data.length, result2 := e.crc })))))))) ∧
  (∀ s t : State, exec .zipExtract s = .next t → errField t.status = 0 →
    ∃ e data, s.zip.index[s.arg.toNat]? = some e ∧ t.out = s.out ++ data ∧ data.length = e.usize.toNat ∧
      crc32 0 data = e.crc ∧ t.zip = s.zip) ∧
  (∀ s t : State, exec .zipExtract s = .next t → errField t.status ≠ 0 → t = { s with status := t.status })

/-- `ZIP_ADD_FILE` and `ZIP_ADD_DIR` (spec/46 R481, R482, R484, R492) in the mode `Writer`: the local header of spec/30
R150, the name and the payload join the image, and the entry joins the index. The refusals come in the order of R482: a
mode above 16 bits, a level above 9 (for a file), a bad name, a long name, a full index, a size or offset of 0xFFFFFFFF or
more, an image past its capacity (spec/60 R531) or the size of its space (spec/20 R84; log 25). -/
def Obligations.ZipAdd : Prop :=
  (∀ (l : BitVec 4) (store : Bool),
    decode (.cmd (l.setWidth 32 <<< 14 ||| (BitVec.ofBool store).setWidth 32 <<< 21 ||| 0x5A)) =
      .ok (.zipAddFile l store)) ∧
  decode (.cmd 0x0000005B) = .ok .zipAddDir ∧
  (∀ (l : BitVec 4) (store : Bool) (s : State), s.zip.mode = .writer →
    (s.arg.extractLsb' 16 16 ≠ 0 → exec (.zipAddFile l store) s = .next (report (some .invalidArgument) s)) ∧
    (s.arg.extractLsb' 16 16 = 0 → 9 < l.toNat →
      exec (.zipAddFile l store) s = .next (report (some .invalidLevel) s)) ∧
    (s.arg.extractLsb' 16 16 = 0 → l.toNat ≤ 9 → (s.name = [] ∨ s.name.head? = some 0x2F ∨ 0x5C ∈ s.name) →
      exec (.zipAddFile l store) s = .next (report (some .invalidArchiveName) s)) ∧
    (s.arg.extractLsb' 16 16 = 0 → l.toNat ≤ 9 → s.name ≠ [] → s.name.head? ≠ some 0x2F → 0x5C ∉ s.name →
      (65535 < s.name.length → exec (.zipAddFile l store) s = .next (report (some .nameTooLong) s)) ∧
      (s.name.length ≤ 65535 → 65535 ≤ s.zip.index.length →
        exec (.zipAddFile l store) s = .next (report (some .tooManyFiles) s)) ∧
      (s.name.length ≤ 65535 → s.zip.index.length < 65535 →
        ∀ payload : Bytes, payload = (if store then s.inp else deflateBody s.params s.inp l.toNat) →
        (0xFFFFFFFF ≤ s.inp.length ∨ 0xFFFFFFFF ≤ payload.length ∨ 0xFFFFFFFF ≤ s.zip.img.length →
          exec (.zipAddFile l store) s = .next (report (some .sizeTooLarge) s)) ∧
        (s.inp.length < 0xFFFFFFFF → payload.length < 0xFFFFFFFF → s.zip.img.length < 0xFFFFFFFF →
          (s.params.maxStreamBytes < s.zip.img.length + 30 + s.name.length + payload.length ∨
            4294967295 < s.zip.img.length + 30 + s.name.length + payload.length) →
          exec (.zipAddFile l store) s = .next (report (some .capacityExceeded) s))))) ∧
  (∀ (s : State) (nm : Bytes), s.zip.mode = .writer →
    nm = (if s.name.getLast? = some 0x2F then s.name else s.name ++ [0x2F]) →
    (s.arg.extractLsb' 16 16 ≠ 0 → exec .zipAddDir s = .next (report (some .invalidArgument) s)) ∧
    (s.arg.extractLsb' 16 16 = 0 → (nm.head? = some 0x2F ∨ 0x5C ∈ nm) →
      exec .zipAddDir s = .next (report (some .invalidArchiveName) s)) ∧
    (s.arg.extractLsb' 16 16 = 0 → nm.head? ≠ some 0x2F → 0x5C ∉ nm →
      (65535 < nm.length → exec .zipAddDir s = .next (report (some .nameTooLong) s)) ∧
      (nm.length ≤ 65535 → 65535 ≤ s.zip.index.length →
        exec .zipAddDir s = .next (report (some .tooManyFiles) s)) ∧
      (nm.length ≤ 65535 → s.zip.index.length < 65535 →
        (0xFFFFFFFF ≤ s.zip.img.length → exec .zipAddDir s = .next (report (some .sizeTooLarge) s)) ∧
        (s.zip.img.length < 0xFFFFFFFF →
          (s.params.maxStreamBytes < s.zip.img.length + 30 + nm.length ∨
            4294967295 < s.zip.img.length + 30 + nm.length) →
          exec .zipAddDir s = .next (report (some .capacityExceeded) s))))) ∧
  (∀ (l : BitVec 4) (store : Bool) (s : State) (payload : Bytes) (e : Entry), s.zip.mode = .writer →
    s.arg.extractLsb' 16 16 = 0 → l.toNat ≤ 9 → s.name ≠ [] → s.name.head? ≠ some 0x2F → 0x5C ∉ s.name →
    s.name.length ≤ 65535 → s.zip.index.length < 65535 →
    payload = (if store then s.inp else deflateBody s.params s.inp l.toNat) →
    s.inp.length < 0xFFFFFFFF → payload.length < 0xFFFFFFFF → s.zip.img.length < 0xFFFFFFFF →
    s.zip.img.length + 30 + s.name.length + payload.length ≤ s.params.maxStreamBytes →
    s.zip.img.length + 30 + s.name.length + payload.length ≤ 4294967295 →
    e.name = s.name → e.csize = BitVec.ofNat 32 payload.length → e.usize = BitVec.ofNat 32 s.inp.length →
    e.crc = crc32 0 s.inp → e.method = (if store then 0 else 8) → e.dostime = s.arg2.extractLsb' 0 16 →
    e.dosdate = s.arg2.extractLsb' 16 16 → e.extAttr = s.arg <<< 16 → e.offset = BitVec.ofNat 32 s.zip.img.length →
    EntryOk e →
    exec (.zipAddFile l store) s = .next (report none { s with
      zip := { s.zip with
        img := s.zip.img ++ u32le 0x04034B50 ++ u16le (if store then 10 else 20) ++ u16le 0 ++ u16le e.method ++
          u16le e.dostime ++ u16le e.dosdate ++ u32le e.crc ++ u32le e.csize ++ u32le e.usize ++
          u16le (BitVec.ofNat 16 s.name.length) ++ u16le 0 ++ s.name ++ payload
        index := s.zip.index ++ [e] }
      result := BitVec.ofNat 32 payload.length })) ∧
  (∀ (s : State) (nm : Bytes) (e : Entry), s.zip.mode = .writer → s.arg.extractLsb' 16 16 = 0 →
    nm = (if s.name.getLast? = some 0x2F then s.name else s.name ++ [0x2F]) → nm.head? ≠ some 0x2F → 0x5C ∉ nm →
    nm.length ≤ 65535 → s.zip.index.length < 65535 → s.zip.img.length < 0xFFFFFFFF →
    s.zip.img.length + 30 + nm.length ≤ s.params.maxStreamBytes →
    s.zip.img.length + 30 + nm.length ≤ 4294967295 →
    e.name = nm → e.csize = 0 → e.usize = 0 → e.crc = 0 → e.method = 0 → e.dostime = s.arg2.extractLsb' 0 16 →
    e.dosdate = s.arg2.extractLsb' 16 16 → e.extAttr = (s.arg <<< 16 ||| 0x10) →
    e.offset = BitVec.ofNat 32 s.zip.img.length → EntryOk e →
    exec .zipAddDir s = .next (report none { s with
      zip := { s.zip with
        img := s.zip.img ++ u32le 0x04034B50 ++ u16le 10 ++ u16le 0 ++ u16le 0 ++ u16le e.dostime ++ u16le e.dosdate ++
          u32le 0 ++ u32le 0 ++ u32le 0 ++ u16le (BitVec.ofNat 16 nm.length) ++ u16le 0 ++ nm
        index := s.zip.index ++ [e] }
      result := 0 }))

/-- `ZIP_FINALIZE` and `ZIP_CLOSE` (spec/46 R486, R487, R489): the central directory, each entry's record with every field
of spec/30 R151, and the EOCD of R152 complete the image, which is appended to `OUT`; a kept entry of a method other than 0
and 8, whose record R150 has no version for, raises InvalidArgument (spec/00 R15; log 6); closing a writer finalizes it first (what that leaves in `RESULT` is log 9) and ends in
`Idle` even when the finalize fails. An image longer than its space of 2^32 - 1 bytes is refused like one past the
capacity (spec/20 R84; log 25). -/
def Obligations.ZipFinalizeAndClose : Prop :=
  decode (.cmd 0x0000005C) = .ok .zipFinalize ∧ decode (.cmd 0x0000005D) = .ok .zipClose ∧
  (∀ s : State, s.zip.mode ≠ .writer →
    exec .zipFinalize s = .next (report (some .wrongMode) s) ∧
    exec .zipClose s = .next (report none { s with zip := ⟨[], [], 0, .idle⟩ })) ∧
  (∀ s : State, s.zip.mode = .writer → (∃ e ∈ s.zip.index, e.method ≠ 0 ∧ e.method ≠ 8) →
    exec .zipFinalize s = .next (report (some .invalidArgument) s) ∧
    exec .zipClose s = .next (report (some .invalidArgument) { s with zip := ⟨[], [], 0, .idle⟩ })) ∧
  ∀ (s : State) (cd img : Bytes), s.zip.mode = .writer →
    (∀ e ∈ s.zip.index, e.method = 0 ∨ e.method = 8) → cd = s.zip.index.flatMap centralHeader →
    img = s.zip.img ++ cd ++ u32le 0x06054B50 ++ u16le 0 ++ u16le 0 ++
      u16le (BitVec.ofNat 16 s.zip.index.length) ++ u16le (BitVec.ofNat 16 s.zip.index.length) ++
      u32le (BitVec.ofNat 32 cd.length) ++ u32le (BitVec.ofNat 32 s.zip.img.length) ++ u16le 0 →
    (0xFFFFFFFF ≤ s.zip.img.length ∨ 0xFFFFFFFF ≤ cd.length →
      exec .zipFinalize s = .next (report (some .sizeTooLarge) s) ∧
      exec .zipClose s = .next (report (some .sizeTooLarge) { s with zip := ⟨[], [], 0, .idle⟩ })) ∧
    (s.zip.img.length < 0xFFFFFFFF → cd.length < 0xFFFFFFFF →
      (s.params.maxStreamBytes < s.out.length + img.length ∨ 4294967295 < img.length →
        exec .zipFinalize s = .next (report (some .capacityExceeded) s) ∧
        exec .zipClose s = .next (report (some .capacityExceeded) { s with zip := ⟨[], [], 0, .idle⟩ })) ∧
      (s.out.length + img.length ≤ s.params.maxStreamBytes → img.length ≤ 4294967295 →
        exec .zipFinalize s = .next (report none { s with
          zip := ⟨img, s.zip.index, BitVec.ofNat 32 s.zip.img.length, .closed⟩
          out := s.out ++ img
          result := BitVec.ofNat 32 img.length }) ∧
        exec .zipClose s = .next (report none { s with
          zip := ⟨[], [], 0, .idle⟩, out := s.out ++ img, result := BitVec.ofNat 32 img.length })))

/-- Insertion order survives the archive (spec/46 R485, R463, R486; spec/20 R95): parsing what the writer serialized gives
back the index, entry for entry, and the offset of its central directory. -/
def Obligations.WrittenArchiveParses : Prop :=
  ∀ (img : Bytes) (index : List Entry), index.length ≤ 65535 → (∀ e ∈ index, EntryOk e) →
    img.length + (directoryBytes index).length < 2 ^ 32 →
    parseArchive (img ++ directoryBytes index ++
      eocdBytes (eocdRecordOf index.length (directoryBytes index).length img.length)) =
    .ok (index, BitVec.ofNat 32 img.length)

/-! ## Wire items -/

/-- The block headers and the zlib header (spec/30 R121, R145, spec/45 R405, R418), arriving at a decoder that waits for
exactly them: the decoder takes them and moves to the next phase, or raises InvalidBlockType. How an item reaches the
decoder is the model's choice (log 7). -/
def Obligations.StreamItems : Prop :=
  (∀ s : State, s.inf = ⟨true, [], 0, none, .zlibHeader⟩ → 2 ≤ s.params.maxStreamBytes →
    s.out.length ≤ s.params.maxStreamBytes →
    exec .zlibHeader s = .next (report (some .needsMoreInput) { s with
      inp := [0x78, 0x9C]
      inf := ⟨true, [0x78, 0x9C], 0, none, .readBlockHeader⟩ })) ∧
  ∀ (final : Bool) (body : BitVec 5) (s : State) (wrap : Bool) (input : Bytes),
    (wrap = false ∧ input = []) ∨ (wrap = true ∧ input = [0x78, 0x9C]) →
    s.inf = ⟨wrap, input, 0, none, .readBlockHeader⟩ → 3 ≤ s.params.maxStreamBytes →
    s.out.length ≤ s.params.maxStreamBytes →
    (∀ b : Byte, b = body.setWidth 8 <<< 3 ||| (BitVec.ofBool final).setWidth 8 →
      exec (.blockStored final body) s = .next (report (some .needsMoreInput) { s with
        inp := [b], inf := ⟨wrap, input ++ [b], 0, none, .stored⟩ })) ∧
    (∀ b : Byte, b = body.setWidth 8 <<< 3 ||| 2 ||| (BitVec.ofBool final).setWidth 8 →
      exec (.blockFixed final body) s = .next (report (some .needsMoreInput) { s with
        inp := [b], inf := ⟨wrap, input ++ [b], 0, none, .decodeSymbols⟩ })) ∧
    (∀ b : Byte, b = body.setWidth 8 <<< 3 ||| 4 ||| (BitVec.ofBool final).setWidth 8 →
      exec (.blockDynamic final body) s = .next (report (some .needsMoreInput) { s with
        inp := [b], inf := ⟨wrap, input ++ [b], 0, none, .dynamicTable⟩ })) ∧
    (∀ b : Byte, b = body.setWidth 8 <<< 3 ||| 6 ||| (BitVec.ofBool final).setWidth 8 →
      exec (.blockReserved final body) s = .next (report (some .invalidBlockType) { s with
        inp := [b], inf := ⟨wrap, input ++ [b], 0, some .invalidBlockType, .error⟩ }))

/-- The ZIP records (spec/30 R150 to R152, spec/46 R463, R468, R473, R477): a local header is skipped over to its entry's
payload, a central-directory record gives its entry, an EOCD opens the archive it closes. How a record reaches the codec
is the model's choice (log 7). -/
def Obligations.ArchiveItems : Prop :=
  (∀ (r : LocalRecord) (s : State) (img : Bytes), Instr.wf (.zipLocalHeader r) = true → s.zip.mode ≠ .writer →
    img = oneEntryImage (localBytes r) (centralBytes (emptyEntryRecord r.name)) →
    img.length ≤ s.params.maxStreamBytes → s.out.length ≤ s.params.maxStreamBytes →
    exec (.zipLocalHeader r) s = .next (report none { s with
      inp := img, arg := 0, result := 0, result2 := 0
      zip := ⟨img, [entryOf (emptyEntryRecord r.name)], BitVec.ofNat 32 (localBytes r).length, .reader⟩ })) ∧
  (∀ (r : CentralRecord) (s : State) (img : Bytes), Instr.wf (.zipCentralHeader r) = true → s.zip.mode ≠ .writer →
    img = oneEntryImage [] (centralBytes r) → img.length ≤ s.params.maxStreamBytes →
    exec (.zipCentralHeader r) s = .next (report none { s with
      inp := img, result := 1
      zip := ⟨img, [entryOf r], 0, .reader⟩ }) ∧
    (entryOf r).name = r.name ∧ (entryOf r).csize = r.csize ∧ (entryOf r).usize = r.usize ∧ (entryOf r).crc = r.crc ∧
    (entryOf r).method = r.method ∧ (entryOf r).dostime = r.time ∧ (entryOf r).dosdate = r.date ∧
    (entryOf r).extAttr = r.extAttr ∧ (entryOf r).offset = r.offset) ∧
  (∀ (r : EocdRecord) (s : State), Instr.wf (.zipEocd r) = true → s.zip.mode ≠ .writer →
    (eocdBytes r).length ≤ s.params.maxStreamBytes → locateEocd (eocdBytes r) = .ok 0 →
    (r.disk ≠ 0 ∨ r.cdDisk ≠ 0 ∨ r.nThis ≠ r.nTotal →
      exec (.zipEocd r) s = .next (report (some .multiDiskUnsupported) { s with inp := eocdBytes r })) ∧
    (r.disk = 0 → r.cdDisk = 0 → r.nThis = 0 → r.nTotal = 0 →
      r.cdOffset.toNat + r.cdSize.toNat ≤ (eocdBytes r).length →
      exec (.zipEocd r) s = .next (report none { s with
        inp := eocdBytes r, result := 0, zip := ⟨eocdBytes r, [], r.cdOffset, .reader⟩ })))

/-- The token words (spec/30 R118): a token handed to the queue's head is returned in `RESULT` in its encoding, and the
queue is as before. How a token reaches the queue is the model's choice (log 7). -/
def Obligations.TokenItems : Prop :=
  (∀ (b : BitVec 8) (s : State),
    exec (.lzTokenLiteral b) s = .next (report none { s with result := b.setWidth 32 })) ∧
  (∀ (k : BitVec 9) (d : BitVec 16) (s : State),
    exec (.lzTokenMatch k d) s = .next (report none { s with
      result := 0x80000000 ||| (k.setWidth 32 <<< 16) ||| d.setWidth 32 }))

/-! ## The zlib wrapper and its trailer -/

/-- The zlib wrapper around a raw stream (spec/45 R400, R421): behind a good header the raw stream decodes as it does
alone, and its end is followed by 4 bytes, most significant first, that must be the Adler32 of the output; fewer bytes
ask for more input. A raw stream has no trailer and no such check. -/
def Obligations.WrapperAndTrailer : Prop :=
  ∀ (cmf flg : Byte) (body : Bytes), cmf.toNat % 16 = 8 → cmf.toNat / 16 ≤ 7 →
    (cmf.toNat * 256 + flg.toNat) % 31 = 0 → flg.getLsbD 5 = false →
    (∀ e, inflate body false = .fail e → inflate (cmf :: flg :: body) true = .fail e) ∧
    (∀ out ph, inflate body false = .more out ph → inflate (cmf :: flg :: body) true = .more out ph) ∧
    (∀ out used, inflate body false = .done out used →
      (body.length < used + 4 → inflate (cmf :: flg :: body) true = .more out .trailer) ∧
      (used + 4 ≤ body.length →
        (slice body used 4 = u32be (adler32 1 out) → inflate (cmf :: flg :: body) true = .done out (used + 6)) ∧
        (slice body used 4 ≠ u32be (adler32 1 out) → inflate (cmf :: flg :: body) true = .fail .adler32Mismatch)))
end

