-- ==== Sys2Proof/Laws/BitIO.lean ====
section
/-! SUPPORT. What the bit writer and the bit reader do, as sequences of bits (spec/20 R81, R82, spec/40 R201 to R206,
R215). -/

namespace Sys2Proof.Machine

/-! ## Bits of a value -/

@[simp] theorem length_bitsOf (n v : Nat) : (bitsOf n v).length = n := by simp [bitsOf]

@[simp] theorem bitsOf_zero (v : Nat) : bitsOf 0 v = [] := rfl

theorem bitsOf_succ (n v : Nat) : bitsOf (n + 1) v = v.testBit 0 :: bitsOf n (v / 2) := by
  simp [bitsOf, List.range_succ_eq_map, Nat.testBit_succ]

/-- The bits of a value in two parts. -/
theorem bitsOf_add (m n v : Nat) : bitsOf (m + n) v = bitsOf m v ++ bitsOf n (v >>> m) := by
  simp [bitsOf, List.range_add, Nat.testBit_shiftRight]

/-- Only the low bits matter. -/
theorem bitsOf_congr {n v w : Nat} (h : ∀ i < n, v.testBit i = w.testBit i) : bitsOf n v = bitsOf n w := by
  simp only [bitsOf]
  exact List.map_congr_left fun i hi => h i (List.mem_range.1 hi)

/-- A value put above another: the low value's bits first. -/
theorem bitsOf_or_shift {m n a v : Nat} (ha : a < 2 ^ m) :
    bitsOf (m + n) (a ||| v <<< m) = bitsOf m a ++ bitsOf n v := by
  rw [bitsOf_add]
  congr 1
  · refine bitsOf_congr fun i hi => ?_
    simp [Nat.testBit_or, Nat.testBit_shiftLeft, Nat.not_le.2 hi]
  · refine bitsOf_congr fun i _ => ?_
    rw [Nat.testBit_shiftRight, Nat.testBit_or, Nat.testBit_lt_two_pow (i := m + i), Nat.testBit_shiftLeft]
    · simp
    · exact lt_of_lt_of_le ha (Nat.pow_le_pow_right (by norm_num) (Nat.le_add_right m i))

/-! ## Bits of bytes -/

theorem byteBits_eq (b : Byte) : byteBits b = bitsOf 8 b.toNat := by
  simp [byteBits, bitsOf, List.range_succ, BitVec.getLsbD]

@[simp] theorem length_byteBits (b : Byte) : (byteBits b).length = 8 := rfl

@[simp] theorem streamBits_nil : streamBits [] = [] := rfl

@[simp] theorem streamBits_cons (b : Byte) (bs : Bytes) : streamBits (b :: bs) = byteBits b ++ streamBits bs := rfl

@[simp] theorem streamBits_append (a b : Bytes) : streamBits (a ++ b) = streamBits a ++ streamBits b := by
  simp [streamBits]

@[simp] theorem length_streamBits (bs : Bytes) : (streamBits bs).length = 8 * bs.length := by
  induction bs with
  | nil => rfl
  | cons b bs ih => simp [ih]; omega

/-! ## Reading -/

/-- Reading takes the bits it returns the value of. -/
theorem takeBits_bitsOf (n v : Nat) (rest : List Bool) (hv : v < 2 ^ n) :
    takeBits n (bitsOf n v ++ rest) = some (v, rest) := by
  induction n generalizing v with
  | zero =>
    have : v = 0 := by simpa using hv
    subst this
    rfl
  | succ n ih =>
    rw [bitsOf_succ, List.cons_append, takeBits, ih (v / 2) (by rw [Nat.pow_succ] at hv; omega)]
    simp only [Option.some.injEq, Prod.mk.injEq, and_true]
    have h : (v.testBit 0).toNat = v % 2 := by
      rcases Nat.mod_two_eq_zero_or_one v with h | h <;> simp [Nat.testBit_zero, h]
    omega

/-- A read succeeds exactly if there are enough bits; its value fits its width, and the bits after it remain. -/
theorem takeBits_eq_some {n v : Nat} {bits rest : List Bool} :
    takeBits n bits = some (v, rest) ↔ v < 2 ^ n ∧ bits = bitsOf n v ++ rest := by
  refine ⟨fun h => ?_, fun ⟨hv, hb⟩ => hb ▸ takeBits_bitsOf n v rest hv⟩
  induction n generalizing bits v rest with
  | zero =>
    simp only [takeBits, Option.some.injEq, Prod.mk.injEq] at h
    obtain ⟨rfl, rfl⟩ := h
    simp
  | succ n ih =>
    cases bits with
    | nil => cases h
    | cons b bits =>
      simp only [takeBits] at h
      split at h
      · cases h
      · rename_i w r hw
        simp only [Option.some.injEq, Prod.mk.injEq] at h
        obtain ⟨rfl, rfl⟩ := h
        obtain ⟨hw1, rfl⟩ := ih hw
        refine ⟨by rw [Nat.pow_succ]; cases b <;> simp <;> omega, ?_⟩
        rw [bitsOf_succ]
        have h2 : (b.toNat + 2 * w) / 2 = w := by cases b <;> simp <;> omega
        have h3 : (b.toNat + 2 * w).testBit 0 = b := by cases b <;> simp [Nat.testBit_zero]
        rw [h2, h3, List.cons_append]

theorem takeBits_eq_none {n : Nat} {bits : List Bool} : takeBits n bits = none ↔ bits.length < n := by
  induction n generalizing bits with
  | zero => simp [takeBits]
  | succ n ih =>
    cases bits with
    | nil => simp [takeBits]
    | cons b bits =>
      simp only [takeBits]
      split
      · rename_i h; simpa using ih.1 h
      · rename_i v rest h
        have : ¬ bits.length < n := fun hl => by simp [ih.2 hl] at h
        simp only [List.length_cons, false_iff, reduceCtorEq]; omega

/-! ## Writing -/

/-- The bytes drained from an accumulator are its low bits; the bits above stay. -/
theorem drain_spec (k : Nat) (acc : BitVec 64) :
    streamBits (drain k acc).1 = bitsOf (8 * k) acc.toNat ∧ (drain k acc).2.toNat = acc.toNat >>> (8 * k) ∧
    (drain k acc).1.length = k := by
  induction k generalizing acc with
  | zero => simp [drain]
  | succ k ih =>
    obtain ⟨h1, h2, h3⟩ := ih (acc >>> 8)
    refine ⟨?_, ?_, by simp [drain, h3]⟩
    · rw [drain, streamBits_cons, h1, byteBits_eq, show 8 * (k + 1) = 8 + 8 * k by ring, bitsOf_add]
      congr 1
      refine bitsOf_congr fun i hi => ?_
      rw [BitVec.toNat_setWidth, Nat.testBit_mod_two_pow]
      simp [hi]
    · simp only [drain]
      rw [h2, BitVec.toNat_ushiftRight, ← Nat.shiftRight_add]
      congr 1
      ring

/-- Flush (R202): complete bytes come out in the order of their bits, and fewer than 8 bits stay pending. -/
theorem flush_spec (p : Pending) (h : p.acc.toNat < 2 ^ p.nbits) :
    PendingOk (flush p).2 ∧ (flush p).1.length = p.nbits / 8 ∧ (flush p).2.nbits = p.nbits % 8 ∧
    streamBits (flush p).1 ++ bitsOf (flush p).2.nbits (flush p).2.acc.toNat = bitsOf p.nbits p.acc.toNat := by
  obtain ⟨h1, h2, h3⟩ := drain_spec (p.nbits / 8) p.acc
  have hn : 8 * (p.nbits / 8) + p.nbits % 8 = p.nbits := by omega
  refine ⟨⟨by simp only [flush]; omega, ?_⟩, h3, rfl, ?_⟩
  · simp only [flush]
    rw [h2, Nat.shiftRight_eq_div_pow, Nat.div_lt_iff_lt_mul (by positivity), ← Nat.pow_add, Nat.add_comm, hn]
    exact h
  · simp only [flush]
    rw [h1, h2, ← bitsOf_add, hn]

/-- `write_bits` (R201, R206): the value's bits follow the pending ones. -/
theorem pushBits_spec (p : Pending) (v n : Nat) (hp : PendingOk p) (hn : n ≤ 32) (hv : v < 2 ^ n) :
    PendingOk (pushBits p v n).2 ∧ (pushBits p v n).1.length = (p.nbits + n) / 8 ∧
    (pushBits p v n).2.nbits = (p.nbits + n) % 8 ∧
    streamBits (pushBits p v n).1 ++ bitsOf (pushBits p v n).2.nbits (pushBits p v n).2.acc.toNat =
      bitsOf p.nbits p.acc.toNat ++ bitsOf n v := by
  obtain ⟨hb, ha⟩ := hp
  have hv2 : v <<< p.nbits < 2 ^ (p.nbits + n) := by
    rw [Nat.shiftLeft_eq, Nat.pow_add, Nat.mul_comm]
    exact Nat.mul_lt_mul_of_pos_left hv (by positivity)
  have h64 : v <<< p.nbits < 2 ^ 64 := lt_of_lt_of_le hv2 (Nat.pow_le_pow_right (by norm_num) (by omega))
  have hv64 : v < 2 ^ 64 := lt_of_lt_of_le hv (Nat.pow_le_pow_right (by norm_num) (by omega))
  have hacc : (p.acc ||| (BitVec.ofNat 64 v <<< p.nbits)).toNat = p.acc.toNat ||| v <<< p.nbits := by
    rw [BitVec.toNat_or, BitVec.toNat_shiftLeft, BitVec.toNat_ofNat, Nat.mod_eq_of_lt hv64, Nat.mod_eq_of_lt h64]
  have hlt : (p.acc ||| (BitVec.ofNat 64 v <<< p.nbits)).toNat < 2 ^ (p.nbits + n) := by
    rw [hacc]
    exact Nat.or_lt_two_pow (lt_of_lt_of_le ha (Nat.pow_le_pow_right (by norm_num) (by omega))) hv2
  obtain ⟨h1, h2, h3, h4⟩ := flush_spec ⟨p.acc ||| (BitVec.ofNat 64 v <<< p.nbits), p.nbits + n⟩ hlt
  refine ⟨h1, h2, h3, ?_⟩
  rw [pushBits, h4, hacc, bitsOf_or_shift ha]

/-- `align_to_byte` (R205): zero bits up to the next byte boundary. -/
theorem alignBits_spec (p : Pending) (hp : PendingOk p) :
    (alignBits p).2 = ⟨0, 0⟩ ∧ (alignBits p).1.length = (p.nbits + 7) / 8 ∧
    streamBits (alignBits p).1 = bitsOf p.nbits p.acc.toNat ++ List.replicate ((8 - p.nbits) % 8) false := by
  obtain ⟨hb, ha⟩ := hp
  rcases p with ⟨acc, nbits⟩
  simp only at hb ha
  rcases Nat.eq_zero_or_pos nbits with h | h
  · subst h
    have : acc = 0 := by
      apply BitVec.eq_of_toNat_eq
      simpa using ha
    subst this
    exact ⟨rfl, rfl, rfl⟩
  · have h8 : acc.toNat < 2 ^ 8 := lt_of_lt_of_le ha (Nat.pow_le_pow_right (by norm_num) (by omega))
    obtain ⟨h1, h2, h3, h4⟩ := flush_spec ⟨acc, 8⟩ h8
    simp only [Nat.reduceDiv, Nat.reduceMod] at h2 h3 h4
    have he : alignBits ⟨acc, nbits⟩ = flush ⟨acc, 8⟩ := by simp [alignBits, h]
    have h0 : (flush ⟨acc, 8⟩).2.nbits = 0 := h3
    rw [he]
    refine ⟨?_, by rw [h2]; simp only; omega, ?_⟩
    · have hz : (flush ⟨acc, 8⟩).2.acc.toNat = 0 := by
        have := h1.2
        rw [h0] at this
        omega
      have : (flush ⟨acc, 8⟩).2 = ⟨(flush ⟨acc, 8⟩).2.acc, (flush ⟨acc, 8⟩).2.nbits⟩ := rfl
      rw [this, h0, BitVec.eq_of_toNat_eq (x := (flush ⟨acc, 8⟩).2.acc) (y := 0) hz]
    · rw [h0, bitsOf_zero, List.append_nil] at h4
      rw [h4, show (8 - nbits) % 8 = 8 - nbits by omega]
      have hs : 8 = nbits + (8 - nbits) := by omega
      simp only
      conv_lhs => rw [hs, bitsOf_add]
      congr 1
      refine List.ext_getElem (by simp) fun i h1 h2 => ?_
      simp only [bitsOf, List.getElem_map, List.getElem_range, List.getElem_replicate, Nat.testBit_shiftRight]
      exact Nat.testBit_lt_two_pow (lt_of_lt_of_le ha (Nat.pow_le_pow_right (by norm_num) (by omega)))

/-- Packing fields one list after the other. -/
theorem packFields_append (p : Pending) (fs gs : List Field) :
    packFields p (fs ++ gs) =
      ((packFields p fs).1 ++ (packFields (packFields p fs).2 gs).1, (packFields (packFields p fs).2 gs).2) := by
  induction fs generalizing p with
  | nil => simp [packFields]
  | cons f fs ih => simp [packFields, ih]

/-! ## Fields as bits -/

/-- Only the position within a byte matters. -/
theorem fieldBits_congr {m n : Nat} (fs : List Field) (h : m % 8 = n % 8) : fieldBits m fs = fieldBits n fs := by
  induction fs generalizing m n with
  | nil => rfl
  | cons f fs ih =>
    cases f with
    | put v k => rw [fieldBits, fieldBits, ih (m := m + k) (n := n + k) (by omega)]
    | align => rw [fieldBits, fieldBits, h]

/-- Fields after other fields start where those end. -/
theorem fieldBits_append (pos : Nat) (fs gs : List Field) :
    fieldBits pos (fs ++ gs) = fieldBits pos fs ++ fieldBits (pos + (fieldBits pos fs).length) gs := by
  induction fs generalizing pos with
  | nil => rfl
  | cons f fs ih =>
    cases f with
    | put v k =>
      simp only [List.cons_append, fieldBits, ih, List.append_assoc, List.length_append, length_bitsOf, Nat.add_assoc]
    | align =>
      simp only [List.cons_append, fieldBits, ih, List.append_assoc, List.length_append, List.length_replicate]
      rw [fieldBits_congr gs (n := pos + ((8 - pos % 8) % 8 + (fieldBits 0 fs).length)) (by omega)]

/-- A field that the writer takes whole (R201): at most 32 bits, and a value that fits them. -/
abbrev FieldOk : Field → Prop
  | .put v n => n ≤ 32 ∧ v < 2 ^ n
  | .align => True

/-- Packing fields (R201, R205, R206): their bits follow the pending ones, complete bytes first. -/
theorem packFields_spec (p : Pending) (fs : List Field) (hp : PendingOk p) (hf : ∀ f ∈ fs, FieldOk f) :
    PendingOk (packFields p fs).2 ∧ (packFields p fs).2.nbits = (p.nbits + (fieldBits p.nbits fs).length) % 8 ∧
    streamBits (packFields p fs).1 ++ bitsOf (packFields p fs).2.nbits (packFields p fs).2.acc.toNat =
      bitsOf p.nbits p.acc.toNat ++ fieldBits p.nbits fs := by
  induction fs generalizing p with
  | nil => exact ⟨hp, (Nat.mod_eq_of_lt hp.1).symm, by simp [packFields, fieldBits]⟩
  | cons f fs ih =>
    have hfs : ∀ f ∈ fs, FieldOk f := fun g hg => hf g (List.mem_cons_of_mem f hg)
    have h0 := hf f List.mem_cons_self
    cases f with
    | put v n =>
      obtain ⟨hq, -, hn, hb⟩ := pushBits_spec p v n hp h0.1 h0.2
      obtain ⟨h1, h2, h3⟩ := ih (pushBits p v n).2 hq hfs
      have hc : fieldBits (pushBits p v n).2.nbits fs = fieldBits (p.nbits + n) fs := fieldBits_congr fs (by omega)
      rw [hc] at h2 h3
      refine ⟨h1, ?_, ?_⟩
      · simp only [packFields, packField, fieldBits, List.length_append, length_bitsOf]
        omega
      · simp only [packFields, packField, fieldBits, streamBits_append, List.append_assoc]
        rw [h3, ← List.append_assoc, hb, List.append_assoc]
    | align =>
      obtain ⟨hz, -, hb⟩ := alignBits_spec p hp
      obtain ⟨h1, h2, h3⟩ := ih ⟨0, 0⟩ (by decide) hfs
      simp only [packFields, packField, fieldBits, hz, streamBits_append, List.append_assoc]
      refine ⟨h1, ?_, ?_⟩
      · rw [h2, List.length_append, List.length_replicate]
        have := hp.1
        simp only
        omega
      · rw [h3, hb, Nat.mod_eq_of_lt hp.1]
        simp

end Sys2Proof.Machine
end

