-- ==== Sys2Proof/Laws/Decode.lean ====
section
/-! SUPPORT. Byte order and record sizes (spec/20 R83, spec/30 R150 to R152), one lemma per function. -/

namespace Sys2Proof

@[simp] theorem length_u16le (x : Half) : (u16le x).length = 2 := rfl
@[simp] theorem length_u32le (x : Word) : (u32le x).length = 4 := rfl
@[simp] theorem length_u32be (x : Word) : (u32be x).length = 4 := rfl

theorem length_localBytes (r : LocalRecord) : (localBytes r).length = 30 + r.name.length + r.extra.length := by
  unfold localBytes
  simp only [List.length_append, length_u16le, length_u32le]

theorem length_centralBytes (r : CentralRecord) :
    (centralBytes r).length = 46 + r.name.length + r.extra.length + r.comment.length := by
  unfold centralBytes
  simp only [List.length_append, length_u16le, length_u32le]

theorem length_eocdBytes (r : EocdRecord) : (eocdBytes r).length = 22 + r.comment.length := by
  unfold eocdBytes
  simp only [List.length_append, length_u16le, length_u32le]

/-- A byte past the first part of a sequence is in the second. -/
theorem byteAt_append_right (a b : Bytes) (o : Nat) : byteAt (a ++ b) (a.length + o) = byteAt b o := by
  simp [byteAt, List.getD_eq_getElem?_getD, List.getElem?_append_right]

theorem u16At_append_right (a b : Bytes) (o : Nat) : u16At (a ++ b) (a.length + o) = u16At b o := by
  simp only [u16At, Nat.add_assoc, byteAt_append_right]

theorem u32At_append_right (a b : Bytes) (o : Nat) : u32At (a ++ b) (a.length + o) = u32At b o := by
  simp only [u32At, Nat.add_assoc, byteAt_append_right]

/-- A 16-bit field reads back (R83). -/
@[simp] theorem u16At_u16le (x : Half) (rest : Bytes) : u16At (u16le x ++ rest) 0 = x := by
  simp only [u16At, byteAt, u16le, List.cons_append, List.nil_append, List.getD_cons_succ, List.getD_cons_zero]
  apply BitVec.eq_of_getLsbD_eq
  intro i hi
  show @BitVec.getLsbD (8 + 8) (BitVec.extractLsb' 8 8 x ++ BitVec.extractLsb' 0 8 x) i = _
  rw [BitVec.getLsbD_append]
  split
  · rename_i h; simp [h]
  · rename_i h
    rw [BitVec.getLsbD_extractLsb', show 8 + (i - 8) = i by omega, decide_eq_true (by omega : i - 8 < 8), Bool.true_and]

/-- A 32-bit field reads back (R83). -/
@[simp] theorem u32At_u32le (x : Word) (rest : Bytes) : u32At (u32le x ++ rest) 0 = x := by
  simp only [u32At, byteAt, u32le, List.cons_append, List.nil_append, List.getD_cons_succ, List.getD_cons_zero]
  apply BitVec.eq_of_getLsbD_eq
  intro i hi
  show @BitVec.getLsbD (8 + 8 + 8 + 8) (BitVec.extractLsb' 24 8 x ++ BitVec.extractLsb' 16 8 x ++
    BitVec.extractLsb' 8 8 x ++ BitVec.extractLsb' 0 8 x) i = _
  rw [BitVec.getLsbD_append, BitVec.getLsbD_append, BitVec.getLsbD_append]
  split
  · rename_i h; simp [h]
  split
  · rename_i h1 h2
    rw [BitVec.getLsbD_extractLsb', show 8 + (i - 8) = i by omega, decide_eq_true h2, Bool.true_and]
  split
  · rename_i h1 h2 h3
    rw [BitVec.getLsbD_extractLsb', show 16 + (i - 8 - 8) = i by omega, decide_eq_true h3, Bool.true_and]
  · rename_i h1 h2 h3
    rw [BitVec.getLsbD_extractLsb', show 24 + (i - 8 - 8 - 8) = i by omega, decide_eq_true (by omega), Bool.true_and]

end Sys2Proof
end

