-- ==== Sys2Proof/Laws/State.lean ====
section
/-! SUPPORT. The fields of the two named updates of the state, `report` and `setSlot`, one lemma each; and the fields of
the status word `report` writes (spec/30 R117, spec/60 R532). -/

namespace Sys2Proof.Machine

/-! ## The status word -/

/-- The status word bit by bit (R117). -/
theorem statusWord_getLsbD (err : BitVec 8) (ph : BitVec 4) (m : BitVec 2) (sticky : Bool) (n : BitVec 3) (i : Nat) :
    (statusWord err ph m sticky n).getLsbD i =
      if i < 8 then err.getLsbD i else if i < 12 then ph.getLsbD (i - 8) else if i < 14 then m.getLsbD (i - 12)
      else if i = 14 then sticky else if i < 16 then false else if i < 19 then n.getLsbD (i - 16) else false := by
  show @BitVec.getLsbD (13 + 3 + 1 + 1 + 2 + 4 + 8)
    ((((((0#13 ++ n) ++ 0#1) ++ BitVec.ofBool sticky) ++ m) ++ ph) ++ err) i = _
  rw [BitVec.getLsbD_append, BitVec.getLsbD_append, BitVec.getLsbD_append, BitVec.getLsbD_append,
    BitVec.getLsbD_append, BitVec.getLsbD_append]
  simp only [BitVec.getLsbD_zero, BitVec.getLsbD_ofBool, Nat.sub_sub, Nat.reduceAdd]
  rcases Nat.lt_or_ge i 8 with h | h
  · simp only [h, if_true]
  rcases Nat.lt_or_ge i 12 with h | h
  · rw [if_neg (by omega), if_pos (by omega), if_neg (by omega), if_pos h]
  rcases Nat.lt_or_ge i 14 with h | h
  · rw [if_neg (by omega), if_neg (by omega), if_pos (by omega), if_neg (by omega), if_neg (by omega), if_pos h]
  have a1 : ¬ i < 8 := by omega
  have a2 : ¬ i - 8 < 4 := by omega
  have a3 : ¬ i - 12 < 2 := by omega
  have a4 : ¬ i < 12 := by omega
  have a5 : ¬ i < 14 := by omega
  simp only [a1, a2, a3, a4, a5, if_false]
  rcases Nat.lt_or_ge i 16 with h | h
  · have : i = 14 ∨ i = 15 := by omega
    rcases this with rfl | rfl <;> simp
  have b1 : ¬ i - 14 < 1 := by omega
  have b2 : ¬ i - 15 < 1 := by omega
  have b3 : ¬ i = 14 := by omega
  have b4 : ¬ i < 16 := by omega
  have b5 : i - 16 < 3 ↔ i < 19 := by omega
  simp only [b1, b2, b3, b4, b5, if_false]

/-- A field of the status word, if its bits are there. -/
theorem extract_statusWord {w : Nat} (k : Nat) (f : BitVec w) (err : BitVec 8) (ph : BitVec 4) (m : BitVec 2) (sticky : Bool)
    (n : BitVec 3) (h : ∀ i < w, (statusWord err ph m sticky n).getLsbD (k + i) = f.getLsbD i) :
    (statusWord err ph m sticky n).extractLsb' k w = f := by
  apply BitVec.eq_of_getLsbD_eq
  intro i hi
  rw [BitVec.getLsbD_extractLsb', h i hi]
  simp [hi]

@[simp] theorem errField_statusWord (err : BitVec 8) (ph : BitVec 4) (m : BitVec 2) (sticky : Bool) (n : BitVec 3) :
    errField (statusWord err ph m sticky n) = err :=
  extract_statusWord 0 err err ph m sticky n fun i hi => by
    rw [statusWord_getLsbD, Nat.zero_add, if_pos hi]

@[simp] theorem phaseField_statusWord (err : BitVec 8) (ph : BitVec 4) (m : BitVec 2) (sticky : Bool) (n : BitVec 3) :
    phaseField (statusWord err ph m sticky n) = ph :=
  extract_statusWord 8 ph err ph m sticky n fun i hi => by
    rw [statusWord_getLsbD, if_neg (by omega), if_pos (by omega), Nat.add_sub_cancel_left]

@[simp] theorem modeField_statusWord (err : BitVec 8) (ph : BitVec 4) (m : BitVec 2) (sticky : Bool) (n : BitVec 3) :
    modeField (statusWord err ph m sticky n) = m :=
  extract_statusWord 12 m err ph m sticky n fun i hi => by
    rw [statusWord_getLsbD, if_neg (by omega), if_neg (by omega), if_pos (by omega), Nat.add_sub_cancel_left]

@[simp] theorem stickyField_statusWord (err : BitVec 8) (ph : BitVec 4) (m : BitVec 2) (sticky : Bool) (n : BitVec 3) :
    stickyField (statusWord err ph m sticky n) = sticky := by
  rw [stickyField, statusWord_getLsbD]; rfl

@[simp] theorem nbitsField_statusWord (err : BitVec 8) (ph : BitVec 4) (m : BitVec 2) (sticky : Bool) (n : BitVec 3) :
    nbitsField (statusWord err ph m sticky n) = n :=
  extract_statusWord 16 n err ph m sticky n fun i hi => by
    rw [statusWord_getLsbD, if_neg (by omega), if_neg (by omega), if_neg (by omega), if_neg (by omega),
      if_neg (by omega), if_pos (by omega), Nat.add_sub_cancel_left]

/-! ## `report` -/

@[simp] theorem report_host (e : Option Error) (s : State) : (report e s).host = s.host := rfl
@[simp] theorem report_params (e : Option Error) (s : State) : (report e s).params = s.params := rfl
@[simp] theorem report_cmd (e : Option Error) (s : State) : (report e s).cmd = s.cmd := rfl
@[simp] theorem report_arg (e : Option Error) (s : State) : (report e s).arg = s.arg := rfl
@[simp] theorem report_arg2 (e : Option Error) (s : State) : (report e s).arg2 = s.arg2 := rfl
@[simp] theorem report_result (e : Option Error) (s : State) : (report e s).result = s.result := rfl
@[simp] theorem report_result2 (e : Option Error) (s : State) : (report e s).result2 = s.result2 := rfl
@[simp] theorem report_inp (e : Option Error) (s : State) : (report e s).inp = s.inp := rfl
@[simp] theorem report_name (e : Option Error) (s : State) : (report e s).name = s.name := rfl
@[simp] theorem report_out (e : Option Error) (s : State) : (report e s).out = s.out := rfl
@[simp] theorem report_bp (e : Option Error) (s : State) : (report e s).bp = s.bp := rfl
@[simp] theorem report_bu (e : Option Error) (s : State) : (report e s).bu = s.bu := rfl
@[simp] theorem report_adler (e : Option Error) (s : State) : (report e s).adler = s.adler := rfl
@[simp] theorem report_crc (e : Option Error) (s : State) : (report e s).crc = s.crc := rfl
@[simp] theorem report_ht0 (e : Option Error) (s : State) : (report e s).ht0 = s.ht0 := rfl
@[simp] theorem report_ht1 (e : Option Error) (s : State) : (report e s).ht1 = s.ht1 := rfl
@[simp] theorem report_ht2 (e : Option Error) (s : State) : (report e s).ht2 = s.ht2 := rfl
@[simp] theorem report_tokq (e : Option Error) (s : State) : (report e s).tokq = s.tokq := rfl
@[simp] theorem report_inf (e : Option Error) (s : State) : (report e s).inf = s.inf := rfl
@[simp] theorem report_zip (e : Option Error) (s : State) : (report e s).zip = s.zip := rfl

theorem report_status (e : Option Error) (s : State) :
    (report e s).status = statusWord (outcomeCode e) (phaseCode s.inf.phase) (modeCode s.zip.mode)
      (stickyField s.status || setsSticky e) (BitVec.ofNat 3 s.bp.nbits) := rfl

@[simp] theorem errField_report (e : Option Error) (s : State) : errField (report e s).status = outcomeCode e := by
  simp [report_status]

@[simp] theorem stickyField_report (e : Option Error) (s : State) :
    stickyField (report e s).status = (stickyField s.status || setsSticky e) := by
  simp [report_status]

/-- A failing command is never reported as a success (spec/60 R530). -/
theorem errorCode_ne_zero (e : Error) : errorCode e ≠ 0 := by cases e <;> decide

/-- The reported code tells the outcome. -/
theorem outcomeCode_inj : ∀ e f : Option Error, outcomeCode e = outcomeCode f → e = f := by
  intro e f h
  rcases e with _ | e <;> rcases f with _ | f
  · rfl
  · exact absurd h.symm (errorCode_ne_zero f)
  · exact absurd h (errorCode_ne_zero e)
  · cases e <;> cases f <;> first | rfl | exact absurd h (by decide)

/-! ## `setSlot` -/

@[simp] theorem setSlot_host (s : State) (k : BitVec 2) (t : HufSlot) : (setSlot s k t).host = s.host := by
  unfold setSlot; split <;> rfl
@[simp] theorem setSlot_params (s : State) (k : BitVec 2) (t : HufSlot) : (setSlot s k t).params = s.params := by
  unfold setSlot; split <;> rfl
@[simp] theorem setSlot_cmd (s : State) (k : BitVec 2) (t : HufSlot) : (setSlot s k t).cmd = s.cmd := by
  unfold setSlot; split <;> rfl
@[simp] theorem setSlot_arg (s : State) (k : BitVec 2) (t : HufSlot) : (setSlot s k t).arg = s.arg := by
  unfold setSlot; split <;> rfl
@[simp] theorem setSlot_arg2 (s : State) (k : BitVec 2) (t : HufSlot) : (setSlot s k t).arg2 = s.arg2 := by
  unfold setSlot; split <;> rfl
@[simp] theorem setSlot_result (s : State) (k : BitVec 2) (t : HufSlot) : (setSlot s k t).result = s.result := by
  unfold setSlot; split <;> rfl
@[simp] theorem setSlot_result2 (s : State) (k : BitVec 2) (t : HufSlot) : (setSlot s k t).result2 = s.result2 := by
  unfold setSlot; split <;> rfl
@[simp] theorem setSlot_inp (s : State) (k : BitVec 2) (t : HufSlot) : (setSlot s k t).inp = s.inp := by
  unfold setSlot; split <;> rfl
@[simp] theorem setSlot_name (s : State) (k : BitVec 2) (t : HufSlot) : (setSlot s k t).name = s.name := by
  unfold setSlot; split <;> rfl
@[simp] theorem setSlot_out (s : State) (k : BitVec 2) (t : HufSlot) : (setSlot s k t).out = s.out := by
  unfold setSlot; split <;> rfl
@[simp] theorem setSlot_bp (s : State) (k : BitVec 2) (t : HufSlot) : (setSlot s k t).bp = s.bp := by
  unfold setSlot; split <;> rfl
@[simp] theorem setSlot_bu (s : State) (k : BitVec 2) (t : HufSlot) : (setSlot s k t).bu = s.bu := by
  unfold setSlot; split <;> rfl
@[simp] theorem setSlot_adler (s : State) (k : BitVec 2) (t : HufSlot) : (setSlot s k t).adler = s.adler := by
  unfold setSlot; split <;> rfl
@[simp] theorem setSlot_crc (s : State) (k : BitVec 2) (t : HufSlot) : (setSlot s k t).crc = s.crc := by
  unfold setSlot; split <;> rfl
@[simp] theorem setSlot_tokq (s : State) (k : BitVec 2) (t : HufSlot) : (setSlot s k t).tokq = s.tokq := by
  unfold setSlot; split <;> rfl
@[simp] theorem setSlot_inf (s : State) (k : BitVec 2) (t : HufSlot) : (setSlot s k t).inf = s.inf := by
  unfold setSlot; split <;> rfl
@[simp] theorem setSlot_zip (s : State) (k : BitVec 2) (t : HufSlot) : (setSlot s k t).zip = s.zip := by
  unfold setSlot; split <;> rfl
@[simp] theorem setSlot_status (s : State) (k : BitVec 2) (t : HufSlot) : (setSlot s k t).status = s.status := by
  unfold setSlot; split <;> rfl

/-- A slot written is read back; the slot number 3 shares the arm of slot 2 and is refused before (spec/30 R111). -/
@[simp] theorem slotContents_setSlot (s : State) (k : BitVec 2) (t : HufSlot) : slotContents (setSlot s k t) k = t := by
  unfold slotContents setSlot
  split <;> simp_all

end Sys2Proof.Machine
end

