-- ==== Sys2Proof/Laws/Ops.lean ====
section
/-! SUPPORT. What each shared operation can do, said once: when it succeeds and with what, so that a proof cites the lemma
and does not unfold the operation. -/

namespace Sys2Proof.Machine

/-! ## Checks and sequencing -/

theorem require_ok {c : Prop} [Decidable c] {e : Error} {u : Unit} : require c e = .ok u ↔ c := by
  unfold require; split <;> simp_all

theorem require_error {c : Prop} [Decidable c] {e f : Error} : require c e = .error f ↔ ¬ c ∧ f = e := by
  unfold require; split <;> simp_all [eq_comm]

theorem bind_ok {ε α β : Type} {x : Except ε α} {f : α → Except ε β} {b : β} :
    (x >>= f) = .ok b ↔ ∃ a, x = .ok a ∧ f a = .ok b := by
  cases x <;> simp [bind, Except.bind]

theorem bind_error {ε α β : Type} {x : Except ε α} {f : α → Except ε β} {e : ε} :
    (x >>= f) = .error e ↔ x = .error e ∨ ∃ a, x = .ok a ∧ f a = .error e := by
  cases x <;> simp [bind, Except.bind]

/-- A checked continuation is a choice: with it a chain of checks reads as the order of its errors (spec/60 R539). -/
theorem require_bind {c : Prop} [Decidable c] {e : Error} {α : Type} (f : Unit → Except Error α) :
    (require c e >>= f) = if c then f () else .error e := by
  by_cases h : c <;> simp [require, h] <;> rfl

theorem checkCapacity_ok {s : State} {n : Nat} {u : Unit} :
    checkCapacity s n = .ok u ↔ n ≤ s.params.maxStreamBytes := require_ok

theorem checkCapacity_error {s : State} {n : Nat} {e : Error} :
    checkCapacity s n = .error e ↔ s.params.maxStreamBytes < n ∧ e = .capacityExceeded := by
  rw [checkCapacity, require_error, Nat.not_le]

theorem checkImage_ok {s : State} {n : Nat} {u : Unit} :
    checkImage s n = .ok u ↔ n ≤ s.params.maxStreamBytes ∧ n ≤ imageLimit := require_ok

theorem checkImage_error {s : State} {n : Nat} {e : Error} :
    checkImage s n = .error e ↔ (s.params.maxStreamBytes < n ∨ imageLimit < n) ∧ e = .capacityExceeded := by
  rw [checkImage, require_error, Decidable.not_and_iff_not_or_not, Nat.not_le, Nat.not_le]

theorem appendOut_ok {s t : State} {bytes : Bytes} :
    appendOut s bytes = .ok t ↔
      s.out.length + bytes.length ≤ s.params.maxStreamBytes ∧ t = { s with out := s.out ++ bytes } := by
  unfold appendOut
  rw [bind_ok]
  simp only [checkCapacity_ok, Except.ok.injEq]
  exact ⟨fun ⟨_, h, ht⟩ => ⟨h, ht.symm⟩, fun ⟨h, ht⟩ => ⟨(), h, ht.symm⟩⟩

theorem appendOut_error {s : State} {bytes : Bytes} {e : Error} :
    appendOut s bytes = .error e ↔
      s.params.maxStreamBytes < s.out.length + bytes.length ∧ e = .capacityExceeded := by
  unfold appendOut
  rw [bind_error]
  simp [checkCapacity_error]

/-- A count that fits the register is its value; one that does not raises InvalidArgument. -/
theorem countWord_eq (n : Nat) :
    countWord n = if n < 4294967296 then .ok (BitVec.ofNat 32 n) else .error .invalidArgument := require_bind _

theorem countWord_ok {n : Nat} {w : Word} : countWord n = .ok w ↔ n < 4294967296 ∧ w = BitVec.ofNat 32 n := by
  rw [countWord_eq]; split <;> simp_all [eq_comm]

/-! ## The end of a command -/

/-- A command ends in a next state: that of its success, or the state it was issued in with the error's code (R532,
R533). -/
theorem complete_next {s t : State} {r : Except Error State} :
    complete s r = .next t ↔
      (∃ u, r = .ok u ∧ t = report none u) ∨ (∃ e, r = .error e ∧ t = report (some e) s) := by
  cases r <;> simp [complete, succeed, raise, eq_comm]

theorem succeed_next {s t : State} : succeed s = .next t ↔ t = report none s := by simp [succeed, eq_comm]

theorem raise_next {e : Error} {s t : State} : raise e s = .next t ↔ t = report (some e) s := by
  simp [raise, eq_comm]

theorem andThen_next {o : StepOutcome} {f : State → StepOutcome} {t : State} :
    andThen o f = .next t ↔ ∃ s, o = .next s ∧ f s = .next t := by
  cases o <;> simp [andThen]

theorem loadInput_ok {s t : State} {bytes : Bytes} :
    loadInput s bytes = .ok t ↔ bytes.length ≤ s.params.maxStreamBytes ∧ t = { s with inp := bytes } := by
  unfold loadInput
  rw [bind_ok]
  simp only [checkCapacity_ok, Except.ok.injEq]
  exact ⟨fun ⟨_, h, ht⟩ => ⟨h, ht.symm⟩, fun ⟨h, ht⟩ => ⟨(), h, ht.symm⟩⟩

/-- Bytes that fit are put in `IN` before the command; bytes that do not fit raise CapacityExceeded. -/
theorem withInput_eq (s : State) (bytes : Bytes) (f : State → StepOutcome) :
    withInput s bytes f =
      if bytes.length ≤ s.params.maxStreamBytes then f { s with inp := bytes } else raise .capacityExceeded s := by
  by_cases h : bytes.length ≤ s.params.maxStreamBytes <;>
    simp [withInput, loadInput, checkCapacity, require, h, bind, Except.bind]

/-! ## Operands -/

theorem countOperand_ok {n : BitVec 6} {k : Nat} : countOperand n = .ok k ↔ n.toNat ≤ 32 ∧ k = n.toNat := by
  unfold countOperand
  rw [bind_ok]
  simp only [require_ok, Except.ok.injEq]
  exact ⟨fun ⟨_, h, hk⟩ => ⟨h, hk.symm⟩, fun ⟨h, hk⟩ => ⟨(), h, hk.symm⟩⟩

theorem levelOperand_ok {l : BitVec 4} {k : Nat} : levelOperand l = .ok k ↔ l.toNat ≤ 9 ∧ k = l.toNat := by
  unfold levelOperand
  rw [bind_ok]
  simp only [require_ok, Except.ok.injEq]
  exact ⟨fun ⟨_, h, hk⟩ => ⟨h, hk.symm⟩, fun ⟨h, hk⟩ => ⟨(), h, hk.symm⟩⟩

theorem slotOperand_ok {k : BitVec 2} {u : Unit} : slotOperand k = .ok u ↔ k ≠ 3 := require_ok

theorem tableOperand_ok {s : State} {k : BitVec 2} {lengths : List Nat} :
    tableOperand s k = .ok lengths ↔ k ≠ 3 ∧ slotContents s k = .table lengths := by
  unfold tableOperand
  rw [bind_ok]
  simp only [slotOperand_ok]
  constructor
  · rintro ⟨_, hk, h⟩
    refine ⟨hk, ?_⟩
    split at h
    · cases h
    · rename_i ls hs
      cases h
      exact hs
  · rintro ⟨hk, hs⟩
    exact ⟨(), hk, by rw [hs]⟩

theorem symbolOperand_ok {lengths : List Nat} {s : State} {k : Nat} :
    symbolOperand lengths s = .ok k ↔ s.arg.toNat < lengths.length ∧ k = s.arg.toNat := by
  unfold symbolOperand
  rw [bind_ok]
  simp only [require_ok, Except.ok.injEq]
  exact ⟨fun ⟨_, h, hk⟩ => ⟨h, hk.symm⟩, fun ⟨h, hk⟩ => ⟨(), h, hk.symm⟩⟩

theorem unixModeOperand_ok {s : State} {m : Half} :
    unixModeOperand s = .ok m ↔ s.arg.extractLsb' 16 16 = 0 ∧ m = s.arg.extractLsb' 0 16 := by
  unfold unixModeOperand
  rw [bind_ok]
  simp only [require_ok, Except.ok.injEq]
  exact ⟨fun ⟨_, h, hm⟩ => ⟨h, hm.symm⟩, fun ⟨h, hm⟩ => ⟨(), h, hm.symm⟩⟩

theorem entryOperand_ok {s : State} {e : Entry} :
    entryOperand s = .ok e ↔ s.zip.index[s.arg.toNat]? = some e := by
  unfold entryOperand; split <;> simp_all

theorem nameOperand_ok {nm : Bytes} {u : Unit} :
    nameOperand nm = .ok u ↔
      (nm ≠ [] ∧ nm.head? ≠ some 0x2F ∧ 0x5C ∉ nm) ∧ nm.length ≤ 65535 := by
  unfold nameOperand
  rw [bind_ok]
  simp only [require_ok, exists_const]

theorem requireNotWriter_ok {s : State} {u : Unit} : requireNotWriter s = .ok u ↔ s.zip.mode ≠ .writer := require_ok
theorem requireReader_ok {s : State} {u : Unit} : requireReader s = .ok u ↔ s.zip.mode = .reader := require_ok
theorem requireWriter_ok {s : State} {u : Unit} : requireWriter s = .ok u ↔ s.zip.mode = .writer := require_ok
theorem requireStarted_ok {s : State} {u : Unit} : requireStarted s = .ok u ↔ s.inf.phase ≠ .idle := require_ok

/-! ## The operations of the units -/

/-- What the bit_packer takes over: the bytes in `OUT`, the pending bits in `BP`. -/
theorem commitWrite_ok {s t : State} {r : Bytes × Pending} :
    commitWrite s r = .ok t ↔
      s.out.length + r.1.length ≤ s.params.maxStreamBytes ∧ t = { s with out := s.out ++ r.1, bp := r.2 } := by
  unfold commitWrite
  rw [bind_ok]
  simp only [appendOut_ok, Except.ok.injEq]
  constructor
  · rintro ⟨a, ⟨h, rfl⟩, rfl⟩; exact ⟨h, rfl⟩
  · rintro ⟨h, rfl⟩; exact ⟨_, ⟨h, rfl⟩, rfl⟩

/-- `write_bits` succeeds on a value of its width, if its bytes fit (R201). -/
theorem writeBits_ok {s t : State} {v n : Nat} :
    writeBits s v n = .ok t ↔
      n ≤ 32 ∧ (n < 32 → v < 2 ^ n) ∧ s.out.length + (pushBits s.bp v n).1.length ≤ s.params.maxStreamBytes ∧
      t = { s with out := s.out ++ (pushBits s.bp v n).1, bp := (pushBits s.bp v n).2 } := by
  unfold writeBits
  simp only [bind_ok, require_ok, exists_const, commitWrite_ok, not_and, Nat.not_le, ge_iff_le]

/-- The value of the next bits of `BU`, if there are as many (R215). -/
theorem peekValue_ok {s : State} {n : BitVec 6} {v : Nat} :
    peekValue s n = .ok v ↔ n.toNat ≤ 32 ∧ ∃ rest, takeBits n.toNat (unreadBits s.bu) = some (v, rest) := by
  unfold peekValue
  rw [bind_ok]
  constructor
  · rintro ⟨k, hk, h⟩
    obtain ⟨hn, rfl⟩ := countOperand_ok.1 hk
    refine ⟨hn, ?_⟩
    split at h
    · cases h
    · rename_i w rest hw
      cases h
      exact ⟨rest, hw⟩
  · rintro ⟨hn, rest, h⟩
    exact ⟨_, countOperand_ok.2 ⟨hn, rfl⟩, by rw [h]⟩

/-- What a run commits: the output `OUT` does not have yet, the count and the phase (R425). -/
theorem commitRun_ok {s t : State} {out : Bytes} {ph : Phase} :
    commitRun s out ph = .ok t ↔
      out.length ≤ s.params.maxStreamBytes ∧
      s.out.length + (out.length - s.inf.emitted) ≤ s.params.maxStreamBytes ∧
      t = { s with out := s.out ++ out.drop s.inf.emitted,
                   inf := { s.inf with emitted := out.length, phase := ph } } := by
  unfold commitRun
  simp only [bind_ok, checkCapacity_ok, exists_const, appendOut_ok, Except.ok.injEq, List.length_drop]
  constructor
  · rintro ⟨h, a, ⟨h', rfl⟩, rfl⟩; exact ⟨h, h', rfl⟩
  · rintro ⟨h, h', rfl⟩; exact ⟨h, _, ⟨h', rfl⟩, rfl⟩

theorem addChecks_ok {s : State} {nm : Bytes} {u : Unit} :
    addChecks s nm = .ok u ↔
      ((nm ≠ [] ∧ nm.head? ≠ some 0x2F ∧ 0x5C ∉ nm) ∧ nm.length ≤ 65535) ∧ s.zip.index.length < 65535 := by
  unfold addChecks
  rw [bind_ok]
  simp only [require_ok, nameOperand_ok, exists_const]

/-- An entry added (R482, R484): it joins the image and the index, and `RESULT` is the payload's length. -/
theorem addEntry_ok {s t : State} {nm : Bytes} {mode : Half} {attr : Word} {method : Half} {data payload : Bytes} :
    addEntry s nm mode attr method data payload = .ok t ↔
      (data.length ≤ zipFieldMax ∧ payload.length ≤ zipFieldMax ∧ s.zip.img.length ≤ zipFieldMax) ∧
      ∃ e : Entry,
        e = makeEntry nm (BitVec.ofNat 32 payload.length) (BitVec.ofNat 32 data.length) (crc32 0 data) method
          (dosTimeOperand s) (dosDateOperand s) ((mode ++ 0#16) ||| attr) (BitVec.ofNat 32 s.zip.img.length) ∧
        ((s.zip.img ++ localBytes (localRecordOf e) ++ payload).length ≤ s.params.maxStreamBytes ∧
          (s.zip.img ++ localBytes (localRecordOf e) ++ payload).length ≤ imageLimit) ∧
        t = { s with zip := { s.zip with img := s.zip.img ++ localBytes (localRecordOf e) ++ payload,
                                         index := s.zip.index ++ [e] },
                     result := BitVec.ofNat 32 payload.length } := by
  unfold addEntry
  simp only [bind_ok, require_ok, exists_const, checkImage_ok, Except.ok.injEq, exists_eq_left]
  exact ⟨fun ⟨h, h', ht⟩ => ⟨h, h', ht.symm⟩, fun ⟨h, h', ht⟩ => ⟨h, h', ht.symm⟩⟩

/-- An archive finalized (R486): image, central directory and EOCD, in `ZIP` and in `OUT`. -/
theorem finalizeArchive_ok {s t : State} :
    finalizeArchive s = .ok t ↔
      s.zip.mode = .writer ∧ (∀ e ∈ s.zip.index, HasVersion e) ∧
      (s.zip.img.length ≤ zipFieldMax ∧ (directoryBytes s.zip.index).length ≤ zipFieldMax) ∧
      ∃ img : Bytes,
        img = s.zip.img ++ directoryBytes s.zip.index ++
          eocdBytes (eocdRecordOf s.zip.index.length (directoryBytes s.zip.index).length s.zip.img.length) ∧
        (img.length ≤ s.params.maxStreamBytes ∧ img.length ≤ imageLimit) ∧ s.out.length + img.length ≤ s.params.maxStreamBytes ∧
        t = { s with out := s.out ++ img,
                     zip := { s.zip with img := img, cdOffset := BitVec.ofNat 32 s.zip.img.length, mode := .closed },
                     result := BitVec.ofNat 32 img.length } := by
  unfold finalizeArchive
  simp only [bind_ok, requireWriter_ok, require_ok, exists_const, checkImage_ok, appendOut_ok, Except.ok.injEq,
    exists_eq_left]
  constructor
  · rintro ⟨hm, hv, hs, hc, a, ⟨ha, rfl⟩, rfl⟩; exact ⟨hm, hv, hs, hc, ha, rfl⟩
  · rintro ⟨hm, hv, hs, hc, ha, rfl⟩; exact ⟨hm, hv, hs, hc, _, ⟨ha, rfl⟩, rfl⟩

/-! ## The step -/

/-- What a step can do: it runs an instruction on the state whose next action was taken off, with `CMD` written for a
command; or it takes an action that runs none. -/
theorem step_next {s t : State} (h : step s = .next t) :
    (∃ i u, fetch s = .run i u ∧ exec i u = .next t) ∨ fetch s = .settled (.next t) := by
  unfold step at h
  split at h
  · rename_i i u hf; exact .inl ⟨i, u, hf, h⟩
  · rename_i o hf; exact .inr (by rw [hf, h])

/-- The fetch that runs an instruction. -/
theorem fetch_run {s u : State} {i : Instr} (h : fetch s = .run i u) :
    (∃ w rest, s.host = .issue (.cmd w) :: rest ∧ decode (.cmd w) = .ok i ∧
      u = { s with host := rest, cmd := w }) ∨
    (∃ bytes rest, s.host = .issue (.wire bytes) :: rest ∧ decode (.wire bytes) = .ok i ∧
      u = { s with host := rest }) := by
  unfold fetch at h
  split at h
  · cases h
  · rename_i a rest hs
    cases a with
    | setIn b => simp only [replaceOperand] at h; split at h <;> cases h
    | setName b => simp only [replaceOperand] at h; split at h <;> cases h
    | setArg w => cases h
    | setArg2 w => cases h
    | issue p =>
      cases p with
      | cmd w =>
        simp only [fetchPacket] at h
        split at h
        · rename_i j hd; cases h; exact .inl ⟨w, rest, hs, hd, rfl⟩
        · cases h
      | wire b =>
        simp only [fetchPacket] at h
        split at h
        · rename_i j hd; cases h; exact .inr ⟨b, rest, hs, hd, rfl⟩
        · cases h

/-- The fetch that settles a step with a next state: nothing to do, an operand replaced, or an illegal command word. -/
theorem fetch_settled {s t : State} (h : fetch s = .settled (.next t)) :
    (s.host = [] ∧ t = s) ∨
    (∃ rest, (∃ b, s.host = .setIn b :: rest ∧ b.length ≤ s.params.maxStreamBytes ∧
        t = { s with host := rest, inp := b }) ∨
      (∃ b, s.host = .setName b :: rest ∧ b.length ≤ s.params.maxStreamBytes ∧
        t = { s with host := rest, name := b }) ∨
      (∃ w, s.host = .setArg w :: rest ∧ t = { s with host := rest, arg := w }) ∨
      (∃ w, s.host = .setArg2 w :: rest ∧ t = { s with host := rest, arg2 := w }) ∨
      (∃ w, s.host = .issue (.cmd w) :: rest ∧
        t = report (some .illegalCommand) { s with host := rest, cmd := w })) := by
  unfold fetch at h
  split at h
  · rename_i hs; cases h; exact .inl ⟨hs, rfl⟩
  · rename_i a rest hs
    refine .inr ⟨rest, ?_⟩
    cases a with
    | setIn b =>
      simp only [replaceOperand] at h
      split at h
      · rename_i hb; cases h; exact .inl ⟨b, hs, hb, rfl⟩
      · cases h
    | setName b =>
      simp only [replaceOperand] at h
      split at h
      · rename_i hb; cases h; exact .inr (.inl ⟨b, hs, hb, rfl⟩)
      · cases h
    | setArg w => cases h; exact .inr (.inr (.inl ⟨w, hs, rfl⟩))
    | setArg2 w => cases h; exact .inr (.inr (.inr (.inl ⟨w, hs, rfl⟩)))
    | issue p =>
      cases p with
      | cmd w =>
        simp only [fetchPacket] at h
        split at h
        · cases h
        · cases h; exact .inr (.inr (.inr (.inr ⟨w, hs, rfl⟩)))
      | wire b =>
        simp only [fetchPacket] at h
        split at h <;> cases h

end Sys2Proof.Machine
end

