-- ==== Sys2Proof/Laws/Inflate.lean ====
section
/-! SUPPORT. What the decoder's reads and checks do (spec/45 R400, R408, R416): each stops the run with what it stops it
with, or hands on the bits after it. -/

namespace Sys2Proof.Machine

/-- A check that fails ends the run with its error. -/
theorem demand_bind {c : Prop} [Decidable c] {e : Error} {α : Type} (f : Unit → Except Stop α) :
    (demand c e >>= f) = if c then f () else .error (.fail e) := by
  unfold demand
  split <;> rfl

/-- `need_read(n)` gives the value of the next `n` bits. -/
theorem needRead_bits {ph : Phase} {n v : Nat} {d : Decoder} {rest : List Bool} (hv : v < 2 ^ n)
    (hd : d.bits = bitsOf n v ++ rest) : needRead ph n d = .ok (v, ⟨rest, d.pos + n, d.rout⟩) := by
  simp [needRead, hd, takeBits_bitsOf n v rest hv]

/-- `need_read(n)` with fewer than `n` bits left asks for more input. -/
theorem needRead_short {ph : Phase} {n : Nat} {d : Decoder} (hd : d.bits.length < n) :
    needRead ph n d = .error (.more d.rout.reverse ph) := by
  simp [needRead, takeBits_eq_none.2 hd, outOfInput]

/-- `decode(table)` where a symbol decodes. -/
theorem needSymbol_ok {ph : Phase} {codes : List Code} {d : Decoder} {sym used : Nat} {rest : List Bool}
    (h : decodeSymbol codes d.bits = .ok (sym, used, rest)) :
    needSymbol ph codes d = .ok (sym, ⟨rest, d.pos + used, d.rout⟩) := by
  simp [needSymbol, h]

/-- `decode(table)` where the bits run out asks for more input. -/
theorem needSymbol_short {ph : Phase} {codes : List Code} {d : Decoder}
    (h : decodeSymbol codes d.bits = .error .insufficientBits) :
    needSymbol ph codes d = .error (.more d.rout.reverse ph) := by
  simp [needSymbol, h, outOfInput]

/-- `decode(table)` where no code matches. -/
theorem needSymbol_invalid {ph : Phase} {codes : List Code} {d : Decoder}
    (h : decodeSymbol codes d.bits = .error .invalidSymbol) :
    needSymbol ph codes d = .error (.fail .invalidSymbol) := by
  simp [needSymbol, h, hardError]

/-- Too few bits for the code-length code lengths ask for more input. -/
theorem readClens_short {order cl : List Nat} {d : Decoder} (h : d.bits.length < 3 * order.length) :
    readClens order cl d = .error (.more d.rout.reverse .dynamicTable) := by
  induction order generalizing cl d with
  | nil => simp at h
  | cons o os ih =>
    rw [readClens]
    by_cases hl : d.bits.length < 3
    · rw [needRead_short hl]; rfl
    · cases ht : takeBits 3 d.bits with
      | none => exact absurd (takeBits_eq_none.1 ht) hl
      | some r =>
        obtain ⟨v, rest⟩ := r
        obtain ⟨hv, hb⟩ := takeBits_eq_some.1 ht
        rw [needRead_bits hv hb]
        simp only [bind, Except.bind]
        rw [ih]
        rw [hb] at h; simp at h ⊢; omega

/-- The code-length code lengths are put where the order says, one after the other. -/
theorem readClens_ok {order values cl : List Nat} {d : Decoder} {after : List Bool} (hl : values.length = order.length)
    (hv : ∀ v ∈ values, v < 8) (h : d.bits = values.flatMap (bitsOf 3) ++ after) :
    readClens order cl d = .ok ((order.zip values).foldl (fun c p => c.set p.1 p.2) cl,
      ⟨after, d.pos + 3 * order.length, d.rout⟩) := by
  induction order generalizing cl d values with
  | nil =>
    cases values with
    | nil => simp [readClens] at *; cases d; simp_all
    | cons => simp at hl
  | cons o os ih =>
    cases values with
    | nil => simp at hl
    | cons v vs =>
      rw [readClens, needRead_bits (hv v (by simp)) (by rw [h]; simp; rfl)]
      simp only [bind, Except.bind]
      rw [ih (by simpa using hl) (fun x hx => hv x (by simp [hx])) rfl]
      simp; omega

/-- Values put at the places an order without repeats names. -/
theorem placed_getD (order values cl : List Nat) (s : Nat) (hn : order.Nodup) (hs : s < cl.length) :
    ((order.zip values).foldl (fun c p => c.set p.1 p.2) cl).getD s 0 =
      if s ∈ order then (if order.idxOf s < values.length then values.getD (order.idxOf s) 0 else cl.getD s 0)
      else cl.getD s 0 := by
  induction order generalizing values cl with
  | nil => simp
  | cons o os ih =>
    cases values with
    | nil => simp
    | cons v vs =>
      obtain ⟨ho, hn⟩ := List.nodup_cons.1 hn
      rw [List.zip_cons_cons, List.foldl_cons, ih _ _ hn (by simpa using hs)]
      by_cases h : s = o
      · subst h
        simp [ho, hs]
      · simp [h, Ne.symm h]

/-- They make the table of spec/30 R139. -/
theorem placed_clens {values : List Nat} (hl : values.length ≤ 19) :
    ((clenOrder.take values.length).zip values).foldl (fun c p => c.set p.1 p.2) (List.replicate 19 0) =
      clenTable values := by
  have hz : (clenOrder.take values.length).zip values = clenOrder.zip values := by
    have h19 : clenOrder.length = 19 := rfl
    rw [List.zip_eq_zip_take_min (l₁ := clenOrder), h19, Nat.min_eq_right hl, List.take_length]
  have hlen : ∀ (zs : List (Nat × Nat)) (cl : List Nat),
      (zs.foldl (fun c p => c.set p.1 p.2) cl).length = cl.length := fun zs => by induction zs <;> simp_all
  rw [hz]
  refine List.ext_getElem (by rw [hlen]; simp [clenTable]) fun s _ h2 => ?_
  have hs : s < 19 := by simpa [clenTable] using h2
  have hget : ∀ (l : List Nat) (h : s < l.length), l[s] = l.getD s 0 := fun l h => by simp [h]
  have hm : ∀ s < 19, s ∈ clenOrder ∧ (List.replicate 19 0).getD s 0 = 0 := by decide
  rw [hget, placed_getD _ _ _ _ (by decide) (by simpa using hs), if_pos (hm s hs).1, (hm s hs).2]
  simp only [clenTable, List.getElem_map, List.getElem_range]
  change _ = values.getD (clenOrder.idxOf s) 0
  split
  · rfl
  · rw [List.getD_eq_getElem?_getD, List.getElem?_eq_none (by omega)]; rfl

/-- What a code-length symbol adds (R408): at least one value, and none above 15 if those before it are not. -/
theorem clenValues_ok {sym : Nat} {seq vs : List Nat} {d t : Decoder} (h : clenValues sym seq d = .ok (vs, t)) :
    1 ≤ vs.length ∧ ((∀ l ∈ seq, l ≤ 15) → ∀ l ∈ vs, l ≤ 15) := by
  unfold clenValues at h
  split at h
  · cases h; simpa using fun _ => by omega
  · split at h
    · split at h
      · cases h
      · rename_i v hv
        obtain ⟨⟨x, d'⟩, -, h⟩ := bind_ok.1 h
        cases h
        refine ⟨by simp; omega, fun hs l hl => ?_⟩
        rw [(List.mem_replicate.1 hl).2]
        exact hs v (List.mem_of_getLast? hv)
    · split at h <;> obtain ⟨⟨x, d'⟩, -, h⟩ := bind_ok.1 h <;> cases h <;> simp <;> omega

/-- The sequence of code lengths (R408) is as long as the header asks, with no length above 15. -/
theorem readLengths_ok {ct : List Code} {total fuel : Nat} {seq seq' : List Nat} {d t : Decoder}
    (h : readLengths ct total fuel seq d = .ok (seq', t)) (hf : total ≤ seq.length + fuel) (hl : seq.length ≤ total)
    (hs : ∀ l ∈ seq, l ≤ 15) : seq'.length = total ∧ ∀ l ∈ seq', l ≤ 15 := by
  induction fuel generalizing seq d with
  | zero => cases h; exact ⟨by omega, hs⟩
  | succ fuel ih =>
    unfold readLengths at h
    split at h
    · cases h; exact ⟨by omega, hs⟩
    · obtain ⟨⟨sym, d1⟩, -, h⟩ := bind_ok.1 h
      obtain ⟨⟨vs, d2⟩, hv, h⟩ := bind_ok.1 h
      dsimp only at h
      rw [demand_bind] at h
      split at h
      · rename_i hle
        obtain ⟨h1, h15⟩ := clenValues_ok hv
        refine ih h (by simp; omega) hle fun l hm => ?_
        exact (List.mem_append.1 hm).elim (hs l) (h15 hs l)
      · cases h

end Sys2Proof.Machine
end

