-- ==== Sys2Proof/Laws/PerInstr.lean ====
section
/-! SUPPORT. The per-instruction family EncodedFields: the opcode and the reserved bits of a command's word (spec/30 R110,
R112), the size of a wire item (R118, R120, R145, R150 to R152). -/

namespace Sys2Proof.Laws.EncodedFields

/-- The opcode of a command (R112); 0xFF, which R113 leaves unassigned, for a wire item. -/
def opcode : Instr → BitVec 8
  | .nop => 0x00
  | .coreReset => 0x01
  | .statusClear => 0x02
  | .outClear => 0x03
  | .bpReset => 0x10
  | .bpWriteBits _ => 0x11
  | .bpWriteByte => 0x12
  | .bpWriteBytes => 0x13
  | .bpAlign => 0x14
  | .buLoad => 0x18
  | .buReset => 0x19
  | .buReadBits _ => 0x1A
  | .buPeekBits _ => 0x1B
  | .buSkipBits => 0x1C
  | .buAlign => 0x1D
  | .buPosition => 0x1E
  | .buRemaining => 0x1F
  | .adlerSeed => 0x20
  | .adlerUpdate => 0x21
  | .adlerRead => 0x22
  | .crcSeed => 0x24
  | .crcUpdate => 0x25
  | .crcRead => 0x26
  | .hufBuild _ => 0x30
  | .hufLoadFixed => 0x31
  | .hufEncode _ => 0x32
  | .hufDecode _ => 0x33
  | .hufQuery _ => 0x34
  | .lzTokenize => 0x38
  | .lzPop => 0x39
  | .lzCount => 0x3A
  | .deflate _ _ => 0x40
  | .inflateStart _ => 0x48
  | .inflateFeed => 0x49
  | .inflateRun => 0x4A
  | .zipOpenRead => 0x50
  | .zipLocateEocd => 0x51
  | .zipEntryInfo _ => 0x52
  | .zipEntryName => 0x53
  | .zipExtract => 0x54
  | .zipCreate => 0x58
  | .zipOpenAppend => 0x59
  | .zipAddFile _ _ => 0x5A
  | .zipAddDir => 0x5B
  | .zipFinalize => 0x5C
  | .zipClose => 0x5D
  | .blockStored _ _ => 0xFF
  | .blockFixed _ _ => 0xFF
  | .blockDynamic _ _ => 0xFF
  | .blockReserved _ _ => 0xFF
  | .zlibHeader => 0xFF
  | .zipLocalHeader _ => 0xFF
  | .zipCentralHeader _ => 0xFF
  | .zipEocd _ => 0xFF
  | .lzTokenLiteral _ => 0xFF
  | .lzTokenMatch _ _ => 0xFF

/-- The size of a wire item in bytes; 0 for a command. -/
def wireSize : Instr → Nat
  | .blockStored _ _ => 1
  | .blockFixed _ _ => 1
  | .blockDynamic _ _ => 1
  | .blockReserved _ _ => 1
  | .zlibHeader => 2
  | .zipLocalHeader r => 30 + r.name.length + r.extra.length
  | .zipCentralHeader r => 46 + r.name.length + r.extra.length + r.comment.length
  | .zipEocd r => 22 + r.comment.length
  | .lzTokenLiteral _ => 4
  | .lzTokenMatch _ _ => 4
  | .nop => 0
  | .coreReset => 0
  | .statusClear => 0
  | .outClear => 0
  | .bpReset => 0
  | .bpWriteBits _ => 0
  | .bpWriteByte => 0
  | .bpWriteBytes => 0
  | .bpAlign => 0
  | .buLoad => 0
  | .buReset => 0
  | .buReadBits _ => 0
  | .buPeekBits _ => 0
  | .buSkipBits => 0
  | .buAlign => 0
  | .buPosition => 0
  | .buRemaining => 0
  | .adlerSeed => 0
  | .adlerUpdate => 0
  | .adlerRead => 0
  | .crcSeed => 0
  | .crcUpdate => 0
  | .crcRead => 0
  | .hufBuild _ => 0
  | .hufLoadFixed => 0
  | .hufEncode _ => 0
  | .hufDecode _ => 0
  | .hufQuery _ => 0
  | .lzTokenize => 0
  | .lzPop => 0
  | .lzCount => 0
  | .deflate _ _ => 0
  | .inflateStart _ => 0
  | .inflateFeed => 0
  | .inflateRun => 0
  | .zipOpenRead => 0
  | .zipLocateEocd => 0
  | .zipEntryInfo _ => 0
  | .zipEntryName => 0
  | .zipExtract => 0
  | .zipCreate => 0
  | .zipOpenAppend => 0
  | .zipAddFile _ _ => 0
  | .zipAddDir => 0
  | .zipFinalize => 0
  | .zipClose => 0

/-- A command's word has the command's opcode in bits 7:0 and zeros in its reserved bits; a wire item has the size of its
format. -/
def Statement (i : Instr) : Prop :=
  match encode i with
  | .cmd w => opcField w = opcode i ∧ reservedField w = 0
  | .wire bytes => bytes.length = wireSize i

/-- The opcode of a command word. -/
theorem opcField_commandWord (opc : BitVec 8) (n : BitVec 6) (level : BitVec 4) (wrap : Bool) (slot : BitVec 2)
    (store : Bool) : opcField (commandWord opc n level wrap slot store) = opc := by
  apply BitVec.eq_of_toNat_eq
  simp only [opcField, commandWord, BitVec.extractLsb'_toNat, Nat.shiftRight_zero]
  have h := BitVec.toNat_append (0#10 ++ BitVec.ofBool store ++ slot ++ BitVec.ofBool wrap ++ level ++ n) opc
  have h2 : (0#10 ++ BitVec.ofBool store ++ slot ++ BitVec.ofBool wrap ++ level ++ n ++ opc : BitVec 32).toNat =
      (0#10 ++ BitVec.ofBool store ++ slot ++ BitVec.ofBool wrap ++ level ++ n).toNat <<< 8 ||| opc.toNat := h
  rw [h2, Nat.shiftLeft_eq, ← Nat.shiftLeft_eq, ← Nat.shiftLeft_add_eq_or_of_lt opc.isLt, Nat.shiftLeft_eq]
  have := opc.isLt
  omega

/-- The reserved bits of a command word. -/
theorem reservedField_commandWord (opc : BitVec 8) (n : BitVec 6) (level : BitVec 4) (wrap : Bool) (slot : BitVec 2)
    (store : Bool) : reservedField (commandWord opc n level wrap slot store) = 0 := by
  apply BitVec.eq_of_getLsbD_eq
  intro i hi
  rw [reservedField, BitVec.getLsbD_extractLsb', commandWord]
  show (decide (i < 10) && @BitVec.getLsbD (10 + 1 + 2 + 1 + 4 + 6 + 8)
    (((((0#10 ++ BitVec.ofBool store) ++ slot) ++ BitVec.ofBool wrap) ++ level) ++ n ++ opc) (22 + i)) = _
  rw [BitVec.getLsbD_append, if_neg (by omega), BitVec.getLsbD_append, if_neg (by omega), BitVec.getLsbD_append,
    if_neg (by omega), BitVec.getLsbD_append, if_neg (by omega), BitVec.getLsbD_append, if_neg (by omega),
    BitVec.getLsbD_append, if_neg (by omega)]
  simp

theorem commandWord_statement (opc : BitVec 8) (n : BitVec 6) (level : BitVec 4) (wrap : Bool) (slot : BitVec 2)
    (store : Bool) :
    opcField (commandWord opc n level wrap slot store) = opc ∧
    reservedField (commandWord opc n level wrap slot store) = 0 :=
  ⟨opcField_commandWord .., reservedField_commandWord ..⟩

theorem nop : Statement .nop := commandWord_statement ..
theorem coreReset : Statement .coreReset := commandWord_statement ..
theorem statusClear : Statement .statusClear := commandWord_statement ..
theorem outClear : Statement .outClear := commandWord_statement ..
theorem bpReset : Statement .bpReset := commandWord_statement ..
theorem bpWriteBits (n : BitVec 6) : Statement (.bpWriteBits n) := commandWord_statement ..
theorem bpWriteByte : Statement .bpWriteByte := commandWord_statement ..
theorem bpWriteBytes : Statement .bpWriteBytes := commandWord_statement ..
theorem bpAlign : Statement .bpAlign := commandWord_statement ..
theorem buLoad : Statement .buLoad := commandWord_statement ..
theorem buReset : Statement .buReset := commandWord_statement ..
theorem buReadBits (n : BitVec 6) : Statement (.buReadBits n) := commandWord_statement ..
theorem buPeekBits (n : BitVec 6) : Statement (.buPeekBits n) := commandWord_statement ..
theorem buSkipBits : Statement .buSkipBits := commandWord_statement ..
theorem buAlign : Statement .buAlign := commandWord_statement ..
theorem buPosition : Statement .buPosition := commandWord_statement ..
theorem buRemaining : Statement .buRemaining := commandWord_statement ..
theorem adlerSeed : Statement .adlerSeed := commandWord_statement ..
theorem adlerUpdate : Statement .adlerUpdate := commandWord_statement ..
theorem adlerRead : Statement .adlerRead := commandWord_statement ..
theorem crcSeed : Statement .crcSeed := commandWord_statement ..
theorem crcUpdate : Statement .crcUpdate := commandWord_statement ..
theorem crcRead : Statement .crcRead := commandWord_statement ..
theorem hufBuild (slot : BitVec 2) : Statement (.hufBuild slot) := commandWord_statement ..
theorem hufLoadFixed : Statement .hufLoadFixed := commandWord_statement ..
theorem hufEncode (slot : BitVec 2) : Statement (.hufEncode slot) := commandWord_statement ..
theorem hufDecode (slot : BitVec 2) : Statement (.hufDecode slot) := commandWord_statement ..
theorem hufQuery (slot : BitVec 2) : Statement (.hufQuery slot) := commandWord_statement ..
theorem lzTokenize : Statement .lzTokenize := commandWord_statement ..
theorem lzPop : Statement .lzPop := commandWord_statement ..
theorem lzCount : Statement .lzCount := commandWord_statement ..
theorem deflate (level : BitVec 4) (wrap : Bool) : Statement (.deflate level wrap) := commandWord_statement ..
theorem inflateStart (wrap : Bool) : Statement (.inflateStart wrap) := commandWord_statement ..
theorem inflateFeed : Statement .inflateFeed := commandWord_statement ..
theorem inflateRun : Statement .inflateRun := commandWord_statement ..
theorem zipOpenRead : Statement .zipOpenRead := commandWord_statement ..
theorem zipLocateEocd : Statement .zipLocateEocd := commandWord_statement ..
theorem zipEntryInfo (n : BitVec 6) : Statement (.zipEntryInfo n) := commandWord_statement ..
theorem zipEntryName : Statement .zipEntryName := commandWord_statement ..
theorem zipExtract : Statement .zipExtract := commandWord_statement ..
theorem zipCreate : Statement .zipCreate := commandWord_statement ..
theorem zipOpenAppend : Statement .zipOpenAppend := commandWord_statement ..
theorem zipAddFile (level : BitVec 4) (store : Bool) : Statement (.zipAddFile level store) := commandWord_statement ..
theorem zipAddDir : Statement .zipAddDir := commandWord_statement ..
theorem zipFinalize : Statement .zipFinalize := commandWord_statement ..
theorem zipClose : Statement .zipClose := commandWord_statement ..
theorem blockStored (final : Bool) (body : BitVec 5) : Statement (.blockStored final body) := rfl
theorem blockFixed (final : Bool) (body : BitVec 5) : Statement (.blockFixed final body) := rfl
theorem blockDynamic (final : Bool) (body : BitVec 5) : Statement (.blockDynamic final body) := rfl
theorem blockReserved (final : Bool) (body : BitVec 5) : Statement (.blockReserved final body) := rfl
theorem zlibHeader : Statement .zlibHeader := rfl
theorem zipLocalHeader (r : LocalRecord) : Statement (.zipLocalHeader r) := length_localBytes r
theorem zipCentralHeader (r : CentralRecord) : Statement (.zipCentralHeader r) := length_centralBytes r
theorem zipEocd (r : EocdRecord) : Statement (.zipEocd r) := length_eocdBytes r
theorem lzTokenLiteral (byte : BitVec 8) : Statement (.lzTokenLiteral byte) := rfl
theorem lzTokenMatch (length : BitVec 9) (distance : BitVec 16) : Statement (.lzTokenMatch length distance) := rfl

end Sys2Proof.Laws.EncodedFields
end

