-- ==== Sys2Proof/Laws/ZipCodec.lean ====
section
/-! SUPPORT. What locating the EOCD and parsing an archive can do, for an image that ends in an EOCD without a comment; and
what the writer's central directory is. -/

namespace Sys2Proof.Machine

/-- The scan answers the last of its positions where the signature stands (spec/46 R461). -/
theorem lastSignature_last {n p : Nat} {bytes : Bytes} (h : u32At (bytes.drop n) 0 = eocdSig) :
    lastSignature p (n + 1) bytes = some (p + n) := by
  induction n generalizing p bytes with
  | zero => simpa [lastSignature] using h
  | succ n ih =>
    have h' : u32At (bytes.tail.drop n) 0 = eocdSig := by rwa [List.drop_tail]
    rw [lastSignature, ih h', Nat.add_right_comm, Nat.add_assoc]

/-- An EOCD at the very end of an image is the one located. -/
theorem locateEocd_append {img eocd : Bytes} (hl : eocd.length = 22) (hs : u32At eocd 0 = eocdSig) :
    locateEocd (img ++ eocd) = .ok img.length := by
  have hlen : (img ++ eocd).length - 22 = img.length := by rw [List.length_append, hl, Nat.add_sub_cancel]
  have hd : ((img ++ eocd).drop (img.length - eocdReach)).drop (img.length - (img.length - eocdReach)) = eocd := by
    rw [List.drop_drop, Nat.add_sub_cancel' (Nat.sub_le _ _), List.drop_left]
  unfold locateEocd
  rw [if_neg (by rw [List.length_append, hl]; omega)]
  simp only [hlen]
  rw [lastSignature_last (by rw [hd]; exact hs), Nat.add_sub_cancel' (Nat.sub_le _ _)]

/-- Parsing behind a located EOCD `r` (spec/46 R463): its two checks in their order, then the records. -/
theorem parseArchive_located {img : Bytes} {p : Nat} {r : EocdRecord} (hp : locateEocd img = .ok p)
    (hr : r = eocdAt img p) :
    parseArchive img =
      if r.disk = 0 ∧ r.cdDisk = 0 ∧ r.nThis = r.nTotal then
        if p + 22 + (u16At img (p + 20)).toNat ≤ img.length ∧ r.cdOffset.toNat + r.cdSize.toNat ≤ img.length then
          (parseRecords img (r.cdOffset.toNat + r.cdSize.toNat) r.nTotal.toNat r.cdOffset.toNat).map
            (fun index => (index, r.cdOffset))
        else .error .corrupt
      else .error .multiDiskUnsupported := by
  subst hr
  unfold parseArchive
  rw [hp]
  show (require _ _ >>= _) = _
  simp only [require_bind]
  cases parseRecords img ((eocdAt img p).cdOffset.toNat + (eocdAt img p).cdSize.toNat) (eocdAt img p).nTotal.toNat
    (eocdAt img p).cdOffset.toNat <;> rfl

/-- The record the writer makes of an entry is that of spec/30 R151. -/
theorem centralBytes_entry (e : Entry) : centralBytes (centralRecordOf e) = centralHeader e := by
  unfold centralBytes centralRecordOf centralHeader centralSig versionMadeBy len16
  simp only [versionNeeded, List.append_nil, List.length_nil, BitVec.ofNat_eq_ofNat]

/-- The central directory holds the entries' records in the index's order (spec/46 R486). -/
theorem directoryBytes_eq (index : List Entry) : directoryBytes index = index.flatMap centralHeader :=
  List.flatMap_congr fun e _ => centralBytes_entry e

end Sys2Proof.Machine
end

