-- ==== Sys2Proof/Tests/Slice0.lean ====
section
/-! SUPPORT. The model's own tests. Expected values are those of spec/95 (the vector or the rule is named beside each test)
or are written out by hand from the encodings of spec/30. Last come the witnesses: states and operands that meet the
hypotheses of each statement, at the ends of their ranges. -/

namespace Sys2Proof.Tests

open Sys2Proof Sys2Proof.Machine

/-! ## WellFormed: an ill-formed term for each check -/

/-- A local header of nothing. -/
def localZero : LocalRecord := ⟨0, 0, 0, 0, 0, 0, 0, 0, [], []⟩
/-- A central-directory record of nothing. -/
def centralZero : CentralRecord := ⟨0, 0, 0, 0, 0, 0, 0, 0, 0, 0, 0, 0, 0, [], [], []⟩
/-- An EOCD of nothing. -/
def eocdZero : EocdRecord := ⟨0, 0, 0, 0, 0, 0, []⟩
/-- One byte too many for a 16-bit length field. -/
def tooLong : Bytes := List.replicate 65536 0

theorem fits16_tooLong : fits16 tooLong = false := by
  unfold fits16 tooLong
  rw [List.length_replicate]
  decide

theorem test_wf_local_name : Instr.wf (.zipLocalHeader { localZero with name := tooLong }) = false := by
  simp [Instr.wf, fits16_tooLong]
theorem test_wf_local_extra : Instr.wf (.zipLocalHeader { localZero with extra := tooLong }) = false := by
  simp [Instr.wf, fits16_tooLong]
theorem test_wf_central_name : Instr.wf (.zipCentralHeader { centralZero with name := tooLong }) = false := by
  simp [Instr.wf, fits16_tooLong]
theorem test_wf_central_extra : Instr.wf (.zipCentralHeader { centralZero with extra := tooLong }) = false := by
  simp [Instr.wf, fits16_tooLong]
theorem test_wf_central_comment : Instr.wf (.zipCentralHeader { centralZero with comment := tooLong }) = false := by
  simp [Instr.wf, fits16_tooLong]
theorem test_wf_eocd_comment : Instr.wf (.zipEocd { eocdZero with comment := tooLong }) = false := by
  simp [Instr.wf, fits16_tooLong]
theorem test_wf_match_short : Instr.wf (.lzTokenMatch 2 1) = false := by decide
theorem test_wf_match_long : Instr.wf (.lzTokenMatch 259 1) = false := by decide
theorem test_wf_match_near : Instr.wf (.lzTokenMatch 3 0) = false := by decide
theorem test_wf_match_far : Instr.wf (.lzTokenMatch 3 32769) = false := by decide

/-! ## Decoding: a word for every constructor

The command words are STORE SLOT WRAP LEVEL N OPC with their widths of R110, after ten reserved zeros. -/

/-- A command word field by field, in the order of R110 from bit 31 down. -/
abbrev fields (store : BitVec 1) (slot : BitVec 2) (wrap : BitVec 1) (level : BitVec 4) (n : BitVec 6) (opc : BitVec 8) :
    Packet := .cmd (0b0000000000#10 ++ store ++ slot ++ wrap ++ level ++ n ++ opc)

theorem test_decode_nop : decode (.cmd 0x00000000) = .ok .nop := by decide
theorem test_decode_coreReset : decode (fields 0 0 0 0 0 0b00000001) = .ok .coreReset := by decide
theorem test_decode_statusClear : decode (.cmd 0x00000002) = .ok .statusClear := by decide
theorem test_decode_outClear : decode (.cmd 0x00000003) = .ok .outClear := by decide
theorem test_decode_bpReset : decode (.cmd 0x00000010) = .ok .bpReset := by decide
-- V-BP-1: BP_WRITE_BITS N=3 is 00000311
theorem test_decode_bpWriteBits : decode (fields 0 0 0 0 0b000011 0b00010001) = .ok (.bpWriteBits 3) ∧
    decode (.cmd 0x00000311) = .ok (.bpWriteBits 3) := by decide
theorem test_decode_bpWriteByte : decode (.cmd 0x00000012) = .ok .bpWriteByte := by decide
theorem test_decode_bpWriteBytes : decode (.cmd 0x00000013) = .ok .bpWriteBytes := by decide
theorem test_decode_bpAlign : decode (.cmd 0x00000014) = .ok .bpAlign := by decide
theorem test_decode_buLoad : decode (.cmd 0x00000018) = .ok .buLoad := by decide
theorem test_decode_buReset : decode (.cmd 0x00000019) = .ok .buReset := by decide
-- V-BU-10: BU_READ_BITS N=32 is 0000201A; V-BU-2: BU_PEEK_BITS N=5 is 0000051B
theorem test_decode_buReadBits : decode (fields 0 0 0 0 0b100000 0b00011010) = .ok (.buReadBits 32) ∧
    decode (.cmd 0x0000201A) = .ok (.buReadBits 32) := by decide
theorem test_decode_buPeekBits : decode (.cmd 0x0000051B) = .ok (.buPeekBits 5) := by decide
theorem test_decode_buSkipBits : decode (.cmd 0x0000001C) = .ok .buSkipBits := by decide
theorem test_decode_buAlign : decode (.cmd 0x0000001D) = .ok .buAlign := by decide
theorem test_decode_buPosition : decode (.cmd 0x0000001E) = .ok .buPosition := by decide
theorem test_decode_buRemaining : decode (.cmd 0x0000001F) = .ok .buRemaining := by decide
theorem test_decode_adlerSeed : decode (fields 0 0 0 0 0 0b00100000) = .ok .adlerSeed := by decide
theorem test_decode_adlerUpdate : decode (.cmd 0x00000021) = .ok .adlerUpdate := by decide
theorem test_decode_adlerRead : decode (.cmd 0x00000022) = .ok .adlerRead := by decide
theorem test_decode_crcSeed : decode (.cmd 0x00000024) = .ok .crcSeed := by decide
theorem test_decode_crcUpdate : decode (.cmd 0x00000025) = .ok .crcUpdate := by decide
theorem test_decode_crcRead : decode (.cmd 0x00000026) = .ok .crcRead := by decide
-- V-HUF-9: HUF_BUILD SLOT=3 is 00180030; V-HUF-11: HUF_QUERY SLOT=1 is 00080034
theorem test_decode_hufBuild : decode (fields 0 0b11 0 0 0 0b00110000) = .ok (.hufBuild 3) ∧
    decode (.cmd 0x00180030) = .ok (.hufBuild 3) := by decide
theorem test_decode_hufLoadFixed : decode (.cmd 0x00000031) = .ok .hufLoadFixed := by decide
theorem test_decode_hufEncode : decode (.cmd 0x00080032) = .ok (.hufEncode 1) := by decide
theorem test_decode_hufDecode : decode (.cmd 0x00100033) = .ok (.hufDecode 2) := by decide
theorem test_decode_hufQuery : decode (.cmd 0x00080034) = .ok (.hufQuery 1) := by decide
theorem test_decode_lzTokenize : decode (fields 0 0 0 0 0 0b00111000) = .ok .lzTokenize := by decide
theorem test_decode_lzPop : decode (.cmd 0x00000039) = .ok .lzPop := by decide
theorem test_decode_lzCount : decode (.cmd 0x0000003A) = .ok .lzCount := by decide
-- V-DEF-1: DEFLATE LEVEL=6 WRAP=1 is 00058040
theorem test_decode_deflate : decode (fields 0 0 0b1 0b0110 0 0b01000000) = .ok (.deflate 6 true) ∧
    decode (.cmd 0x00058040) = .ok (.deflate 6 true) := by decide
-- P2: INFLATE_START WRAP=1 is 00040048
theorem test_decode_inflateStart : decode (fields 0 0 0b1 0 0 0b01001000) = .ok (.inflateStart true) ∧
    decode (.cmd 0x00040048) = .ok (.inflateStart true) := by decide
theorem test_decode_inflateFeed : decode (.cmd 0x00000049) = .ok .inflateFeed := by decide
theorem test_decode_inflateRun : decode (.cmd 0x0000004A) = .ok .inflateRun := by decide
theorem test_decode_zipOpenRead : decode (.cmd 0x00000050) = .ok .zipOpenRead := by decide
theorem test_decode_zipLocateEocd : decode (.cmd 0x00000051) = .ok .zipLocateEocd := by decide
-- V-ZIP-16: ZIP_ENTRY_INFO N=9 is 00000952
theorem test_decode_zipEntryInfo : decode (.cmd 0x00000952) = .ok (.zipEntryInfo 9) := by decide
theorem test_decode_zipEntryName : decode (.cmd 0x00000053) = .ok .zipEntryName := by decide
theorem test_decode_zipExtract : decode (.cmd 0x00000054) = .ok .zipExtract := by decide
theorem test_decode_zipCreate : decode (.cmd 0x00000058) = .ok .zipCreate := by decide
theorem test_decode_zipOpenAppend : decode (.cmd 0x00000059) = .ok .zipOpenAppend := by decide
-- V-ZIP-12: ZIP_ADD_FILE STORE=1 is 0020005A; P3: LEVEL=6 is 0001805A
theorem test_decode_zipAddFile : decode (fields 0b1 0 0 0 0 0b01011010) = .ok (.zipAddFile 0 true) ∧
    decode (.cmd 0x0001805A) = .ok (.zipAddFile 6 false) := by decide
theorem test_decode_zipAddDir : decode (.cmd 0x0000005B) = .ok .zipAddDir := by decide
theorem test_decode_zipFinalize : decode (.cmd 0x0000005C) = .ok .zipFinalize := by decide
theorem test_decode_zipClose : decode (.cmd 0x0000005D) = .ok .zipClose := by decide
-- R120, R121: BFINAL in bit 0, BTYPE in bits 2:1
theorem test_decode_blockStored : decode (.wire [0b00000000]) = .ok (.blockStored false 0) := by decide
theorem test_decode_blockFixed : decode (.wire [0b01001011]) = .ok (.blockFixed true 0b01001) := by decide
theorem test_decode_blockDynamic : decode (.wire [0b00000101]) = .ok (.blockDynamic true 0) := by decide
theorem test_decode_blockReserved : decode (.wire [0b00000111]) = .ok (.blockReserved true 0) := by decide
theorem test_decode_zlibHeader : decode (.wire [0x78, 0x9C]) = .ok .zlibHeader := by decide
-- R482: the local header of A; R487: its central record and the EOCD of the 191-byte archive
theorem test_decode_zipLocalHeader :
    decode (.wire [0x50, 0x4B, 0x03, 0x04, 0x14, 0x00, 0x00, 0x00, 0x08, 0x00, 0x00, 0x00, 0x21, 0x00, 0x43, 0xBE, 0xB7,
      0xE8, 0x06, 0x00, 0x00, 0x00, 0x01, 0x00, 0x00, 0x00, 0x01, 0x00, 0x00, 0x00, 0x41]) =
    .ok (.zipLocalHeader {
      version := 20, flags := 0, method := 8, time := 0, date := 0x0021, crc := 0xE8B7BE43,
      csize := 6, usize := 1, name := [0x41], extra := [] }) := by decide
theorem test_decode_zipCentralHeader :
    decode (.wire [0x50, 0x4B, 0x01, 0x02, 0x1E, 0x03, 0x14, 0x00, 0x00, 0x00, 0x08, 0x00, 0x00, 0x00, 0x21, 0x00, 0xAE,
      0x1B, 0xAE, 0xB5, 0x07, 0x00, 0x00, 0x00, 0x02, 0x00, 0x00, 0x00, 0x01, 0x00, 0x00, 0x00, 0x00, 0x00, 0x00, 0x00,
      0x00, 0x00, 0x00, 0x00, 0xA4, 0x81, 0x25, 0x00, 0x00, 0x00, 0x42]) =
    .ok (.zipCentralHeader {
      madeBy := 0x031E, version := 20, flags := 0, method := 8, time := 0, date := 0x0021,
      crc := 0xB5AE1BAE, csize := 7, usize := 2, diskStart := 0, intAttr := 0, extAttr := 0x81A40000, offset := 0x25,
      name := [0x42], extra := [], comment := [] }) := by decide
theorem test_decode_zipEocd :
    decode (.wire [0x50, 0x4B, 0x05, 0x06, 0x00, 0x00, 0x00, 0x00, 0x02, 0x00, 0x02, 0x00, 0x5E, 0x00, 0x00, 0x00, 0x4B,
      0x00, 0x00, 0x00, 0x00, 0x00]) =
    .ok (.zipEocd { disk := 0, cdDisk := 0, nThis := 2, nTotal := 2, cdSize := 94, cdOffset := 75, comment := [] }) := by
  decide
-- R330: 0x00000061 and 0x800F0003
theorem test_decode_lzTokenLiteral : decode (.wire [0x61, 0x00, 0x00, 0x00]) = .ok (.lzTokenLiteral 0x61) := by decide
theorem test_decode_lzTokenMatch : decode (.wire [0x03, 0x00, 0x0F, 0x80]) = .ok (.lzTokenMatch 15 3) := by decide

-- V-SYS-4 to V-SYS-7
theorem test_decode_unassigned : decode (.cmd 0x000000FF) = .error .unassignedOpcode := by decide
theorem test_decode_reserved_bit : decode (.cmd 0x00400011) = .error .reservedBits := by decide
theorem test_decode_unused_field : decode (.cmd 0x00000100) = .error .unusedField := by decide
theorem test_decode_not_an_item : decode (.wire []) = .error .notAWireItem := by decide
-- a match of 259 bytes is none (R118)
theorem test_decode_bad_token : decode (.wire [0x01, 0x00, 0x03, 0x81]) = .error .notAWireItem := by decide

/-! ## Execution: small states, one command each -/

/-- What is seen of the next state, if there is one. -/
def see {α : Type} (f : State → α) : StepOutcome → Option α
  | .next t => some (f t)
  | _ => none

/-- The code in `STATUS.ERR`. -/
def err : StepOutcome → Option (BitVec 8) := see (fun t => errField t.status)

/-- The reset state with `ARG` and `IN` written. -/
def withOperands (arg : Word) (inp : Bytes) : State := { State.reset with arg := arg, inp := inp }

-- V-SYS-2, V-SYS-3, V-CK-18, R537
theorem test_nop_keeps_sticky : see State.status (exec .nop { State.reset with status := 0x0000400E }) =
    some 0x00004000 := by decide
theorem test_statusClear : see State.status (exec .statusClear { State.reset with status := 0x0000400E }) =
    some 0x00000000 := by decide
theorem test_coreReset : see (fun t => t) (exec .coreReset
    { State.reset with crc := 0xE8B7BE43, status := 0x4000, out := [1], tokq := [.literal 1], bp := ⟨5, 3⟩ }) =
    some State.reset := by decide
theorem test_outClear_keeps_pending : see (fun t => (t.out, t.bp)) (exec .outClear
    { State.reset with out := [0xBC], bp := ⟨0xA, 4⟩ }) = some ([], ⟨0xA, 4⟩) := by decide
-- V-SYS-9
theorem test_nbits_copy : see State.status (exec (.bpWriteBits 3) (withOperands 5 [])) = some 0x00030000 := by decide

-- V-BP-1, V-BP-3, V-BP-6, V-BP-13, V-BP-8, V-BP-12
theorem test_bpWriteBits_completes_byte : see (fun t => (t.out, t.bp))
    (exec (.bpWriteBits 5) { withOperands 0x1F [] with bp := ⟨5, 3⟩ }) = some ([0xFD], ⟨0, 0⟩) := by decide
theorem test_bpWriteBits_wide_value : err (exec (.bpWriteBits 3) (withOperands 8 [])) = some 0x0C := by decide
theorem test_bpWriteByte_unaligned : see (fun t => (t.out, t.bp))
    (exec .bpWriteByte { withOperands 0x61 [] with bp := ⟨0xA, 4⟩ }) = some ([0x1A], ⟨6, 4⟩) := by decide
theorem test_bpWriteByte_wide_value : err (exec .bpWriteByte (withOperands 0x100 [])) = some 0x0C := by decide
theorem test_bpWriteBytes_unaligned : see (fun t => (t.out, t.bp))
    (exec .bpWriteBytes { withOperands 0 [1, 2] with bp := ⟨0xF, 4⟩ }) = some ([0x1F, 0x20], ⟨0, 4⟩) := by decide
theorem test_bpAlign_pads : see (fun t => (t.out, t.bp))
    (exec .bpAlign { State.reset with out := [0x03], bp := ⟨0, 2⟩ }) = some ([0x03, 0x00], ⟨0, 0⟩) := by decide
theorem test_bpReset_drops : see (fun t => (t.out, t.bp)) (exec .bpReset { State.reset with bp := ⟨1, 5⟩ }) =
    some ([], ⟨0, 0⟩) := by decide

-- V-BU-11, V-BU-10, V-BU-3, V-BU-7, V-BU-8, V-BU-12
theorem test_buLoad_appends : see State.bu (exec .buLoad { withOperands 0 [0] with bu := ⟨[0xFD], 3⟩ }) =
    some ⟨[0xFD, 0], 3⟩ := by decide
theorem test_buReadBits_five_bytes : see (fun t => (t.result, t.bu.pos))
    (exec (.buReadBits 32) { State.reset with bu := ⟨[0x78, 0x56, 0x34, 0x12, 0xAB], 4⟩ }) = some (0xB1234567, 36) := by
  decide
theorem test_buReadBits_zero : see (fun t => (t.result, t.status))
    (exec (.buReadBits 0) { State.reset with result := 7, bu := ⟨[0xFD], 8⟩ }) = some (0, 0) := by decide
theorem test_buPeekBits : see (fun t => (t.result, t.bu.pos))
    (exec (.buPeekBits 5) { State.reset with bu := ⟨[0xFD], 3⟩ }) = some (0x1F, 3) := by decide
theorem test_buPeekBits_past_end : see (fun t => (t.result, errField t.status))
    (exec (.buPeekBits 6) { State.reset with result := 0x1F, bu := ⟨[0xFD], 3⟩ }) = some (0x1F, 0x01) := by decide
theorem test_buSkipBits : see (fun t => t.bu.pos) (exec .buSkipBits { withOperands 12 [] with bu := ⟨[0xFD, 0], 0⟩ }) =
    some 12 := by decide
theorem test_buSkipBits_past_end : err (exec .buSkipBits { withOperands 1 [] with bu := ⟨[0xFD, 0], 16⟩ }) =
    some 0x01 := by decide
theorem test_buAlign : see (fun t => t.bu.pos) (exec .buAlign { State.reset with bu := ⟨[0xFD, 0], 12⟩ }) =
    some 16 := by decide
theorem test_buPosition : see (fun t => (t.result, t.result2))
    (exec .buPosition { State.reset with bu := ⟨[0xFD, 0], 12⟩ }) = some (12, 0) := by decide
theorem test_buRemaining : see (fun t => (t.result, t.result2))
    (exec .buRemaining { State.reset with bu := ⟨[0xFD, 0], 12⟩ }) = some (4, 0) := by decide
theorem test_buReset : see State.bu (exec .buReset { State.reset with bu := ⟨[0xFD, 0], 12⟩ }) = some ⟨[], 0⟩ := by decide

-- V-CK-2, V-CK-8, V-CK-7, V-CK-12, V-CK-1, V-CK-10
theorem test_adlerUpdate : see State.adler (exec .adlerUpdate (withOperands 0 [0x61, 0x62, 0x63])) =
    some 0x024D0127 := by decide
theorem test_adlerUpdate_reduces : see State.adler
    (exec .adlerUpdate { withOperands 0 [0] with adler := 0xFFFFFFFF }) = some 0x001C000E := by decide
theorem test_adlerUpdate_empty : see State.adler (exec .adlerUpdate { State.reset with adler := 0xFFFFFFFF }) =
    some 0xFFFFFFFF := by decide
theorem test_adlerSeed : see State.adler (exec .adlerSeed (withOperands 0xFFF0FFF0 [])) = some 0xFFF0FFF0 := by decide
theorem test_adlerRead : see State.result (exec .adlerRead State.reset) = some 0x00000001 := by decide
theorem test_crcUpdate : see State.crc
    (exec .crcUpdate (withOperands 0 [0x31, 0x32, 0x33, 0x34, 0x35, 0x36, 0x37, 0x38, 0x39])) = some 0xCBF43926 := by
  decide +kernel
theorem test_crcSeed : see State.crc (exec .crcSeed (withOperands 7 [])) = some 7 := by decide
theorem test_crcRead : see State.result (exec .crcRead { State.reset with crc := 0xE8B7BE43 }) =
    some 0xE8B7BE43 := by decide

-- V-HUF-5, V-HUF-7, V-HUF-10, V-HUF-12, V-HUF-13 to V-HUF-16, V-HUF-3, V-HUF-19
theorem test_hufBuild_overflow : see (fun t => (t.ht0, errField t.status))
    (exec (.hufBuild 0) { withOperands 0 [1, 1, 1] with ht0 := .table [1] }) = some (.table [1], 0x03) := by decide
theorem test_hufBuild_length_first : err (exec (.hufBuild 0) (withOperands 0 [0xFF, 1, 1, 1])) = some 0x02 := by decide
theorem test_hufLoadFixed : see (fun t => (t.ht0, t.ht1, t.ht2)) (exec .hufLoadFixed State.reset) =
    some (.table fixedLitLengths, .table fixedDistLengths, .empty) := by decide +kernel
theorem test_hufEncode : see (fun t => t.out)
    (exec (.hufEncode 0) { withOperands 97 [] with ht0 := .table fixedLitLengths }) = some [0x89] := by decide +kernel
theorem test_hufEncode_unused : err (exec (.hufEncode 0) { withOperands 1 [] with ht0 := .table [1, 0] }) =
    some 0x08 := by decide
theorem test_hufDecode_no_code : see (fun t => (errField t.status, t.bu.pos))
    (exec (.hufDecode 1) { State.reset with ht1 := .table fixedDistLengths, bu := ⟨[0x1F], 0⟩ }) = some (0x08, 0) := by
  decide
theorem test_hufQuery : see (fun t => (t.result, t.result2))
    (exec (.hufQuery 0) { withOperands 7 [] with ht0 := .table [3, 3, 3, 3, 3, 2, 4, 4] }) = some (0xF, 4) := by decide
theorem test_hufQuery_reversed : see (fun t => (t.result, t.result2))
    (exec (.hufQuery 0) { withOperands 1 [] with ht0 := .table [3, 3, 3, 3, 3, 2, 4, 4] }) = some (6, 3) := by decide

-- V-LZ-9, V-LZ-6, R330
theorem test_lzTokenize_longest : see (fun t => (t.tokq, t.result)) (exec .lzTokenize
    (withOperands 0 [0x61, 0x62, 0x63, 0x64, 0x61, 0x62, 0x63, 0x78, 0x61, 0x62, 0x63, 0x64])) =
    some ([.literal 0x61, .literal 0x62, .literal 0x63, .literal 0x64, .copy 3 4, .literal 0x78, .copy 4 8], 7) := by
  decide
theorem test_lzTokenize_overlap : see (fun t => t.tokq) (exec .lzTokenize (withOperands 0 (List.replicate 4 0x61))) =
    some [.literal 0x61, .copy 3 1] := by decide
theorem test_lzPop : see (fun t => (t.result, t.tokq))
    (exec .lzPop { State.reset with tokq := [.copy 15 3, .literal 1] }) = some (0x800F0003, [.literal 1]) := by decide
theorem test_lzPop_empty : see State.status (exec .lzPop State.reset) = some 0x0000400E := by decide
theorem test_lzCount : see State.result (exec .lzCount { State.reset with tokq := [.copy 15 3, .literal 1] }) =
    some 2 := by decide

-- V-DEF-7
theorem test_deflate_stored : see (fun t => t.out) (exec (.deflate 0 true) (withOperands 0 [0x61, 0x61, 0x61, 0x61])) =
    some [0x78, 0x9C, 0x01, 0x04, 0x00, 0xFB, 0xFF, 0x61, 0x61, 0x61, 0x61, 0x03, 0xCE, 0x01, 0x85] := by
  decide

-- P2, P4, V-INF-23
theorem test_inflateStart : see (fun t => (t.inf, t.status)) (exec (.inflateStart true) State.reset) =
    some (⟨true, [], 0, none, .zlibHeader⟩, 0x00000100) := by decide
theorem test_inflateFeed : see (fun t => t.inf.input) (exec .inflateFeed
    { withOperands 0 [0x9C, 0x03] with inf := ⟨true, [0x78], 0, none, .zlibHeader⟩ }) = some [0x78, 0x9C, 0x03] := by
  decide
theorem test_inflateFeed_idle : err (exec .inflateFeed State.reset) = some 0x1D := by decide

/-- The 106-byte archive of one stored file `A` holding `a`: local header, name, payload, directory, EOCD (R150 to R152). -/
def archiveA : Bytes :=
  [0x50, 0x4B, 0x03, 0x04, 0x0A, 0, 0, 0, 0, 0, 0, 0, 0x21, 0, 0x43, 0xBE, 0xB7, 0xE8, 1, 0, 0, 0, 1, 0, 0, 0, 1, 0, 0, 0,
   0x41, 0x61] ++
  [0x50, 0x4B, 0x01, 0x02, 0x1E, 0x03, 0x0A, 0, 0, 0, 0, 0, 0, 0, 0x21, 0, 0x43, 0xBE, 0xB7, 0xE8, 1, 0, 0, 0, 1, 0, 0, 0,
   1, 0, 0, 0, 0, 0, 0, 0, 0, 0, 0, 0, 0xA4, 0x81, 0, 0, 0, 0, 0x41] ++
  [0x50, 0x4B, 0x05, 0x06, 0, 0, 0, 0, 1, 0, 1, 0, 0x2F, 0, 0, 0, 0x20, 0, 0, 0, 0, 0]

/-- Its entry. -/
def entryA : Entry := ⟨[0x41], 1, 1, 0xE8B7BE43, 0, 0, 0x0021, 0x81A40000, 0, false, false⟩

/-- A reader that has it open. -/
def readerA : State := { State.reset with zip := ⟨archiveA, [entryA], 32, .reader⟩ }

/-- An empty writer. -/
def writer : State := { State.reset with zip := ⟨[], [], 0, .writer⟩ }

-- R460, R461, R471 to R473, R488
theorem test_zipOpenRead : see (fun t => (t.zip, t.result, t.status)) (exec .zipOpenRead (withOperands 0 archiveA)) =
    some (⟨archiveA, [entryA], 32, .reader⟩, 1, 0x00001000) := by decide +kernel
theorem test_zipOpenRead_cut : err (exec .zipOpenRead (withOperands 0 (archiveA.take 100))) = some 0x14 := by
  decide +kernel
theorem test_zipLocateEocd : see State.result (exec .zipLocateEocd (withOperands 0 archiveA)) = some 79 := by
  decide +kernel
theorem test_zipEntryInfo : see State.result (exec (.zipEntryInfo 4) readerA) = some 0x00210000 := by decide
theorem test_zipEntryInfo_selector : err (exec (.zipEntryInfo 9) readerA) = some 0x0C := by decide
theorem test_zipEntryName : see (fun t => (t.out, t.result)) (exec .zipEntryName readerA) = some ([0x41], 1) := by decide
theorem test_zipExtract : see (fun t => (t.out, t.result, t.result2)) (exec .zipExtract readerA) =
    some ([0x61], 1, 0xE8B7BE43) := by decide
theorem test_zipExtract_index : err (exec .zipExtract { readerA with arg := 1 }) = some 0x1E := by decide
theorem test_zipOpenAppend : see (fun t => t.zip) (exec .zipOpenAppend (withOperands 0 archiveA)) =
    some ⟨archiveA.take 32, [entryA], 32, .writer⟩ := by decide +kernel
-- V-ZIP-3, V-ZIP-4, V-ZIP-6, V-ZIP-27, R482, R489
theorem test_zipCreate : see (fun t => (t.zip, t.status)) (exec .zipCreate readerA) =
    some (⟨[], [], 0, .writer⟩, 0x00002000) := by decide
theorem test_zipAddFile : see (fun t => (t.zip.img, t.zip.index, t.result)) (exec (.zipAddFile 0 true)
    { writer with name := [0x41], inp := [0x61], arg := 0x81A4, arg2 := 0x00210000 }) =
    some (archiveA.take 32, [entryA], 1) := by decide
theorem test_zipAddFile_mode : err (exec (.zipAddFile 6 false) State.reset) = some 0x1D := by decide
theorem test_zipAddDir : see (fun t => t.zip.index.map (fun e => (e.name, e.extAttr, e.isDir)))
    (exec .zipAddDir { writer with name := [0x64], arg := 0x41ED }) = some [([0x64, 0x2F], 0x41ED0010, true)] := by
  decide
theorem test_zipFinalize : see (fun t => (t.out, t.result, t.status)) (exec .zipFinalize writer) =
    some ([0x50, 0x4B, 0x05, 0x06, 0, 0, 0, 0, 0, 0, 0, 0, 0, 0, 0, 0, 0, 0, 0, 0, 0, 0], 22, 0x00003000) := by
  decide
theorem test_zipClose : see (fun t => (t.out.length, t.zip)) (exec .zipClose writer) = some (22, Zip.reset) := by
  decide
theorem test_zipClose_idle : see (fun t => t) (exec .zipClose State.reset) = some State.reset := by decide

-- R405, R418, R118
theorem test_blockReserved : see (fun t => (t.inf.phase, t.status)) (exec (.blockReserved true 0)
    { State.reset with inf := ⟨false, [], 0, none, .readBlockHeader⟩ }) = some (.error, 0x00004904) := by decide
theorem test_zlibHeader : see (fun t => (t.inf.phase, t.status)) (exec .zlibHeader
    { State.reset with inf := ⟨true, [], 0, none, .zlibHeader⟩ }) = some (.readBlockHeader, 0x00000205) := by
  decide
theorem test_lzTokenMatch : see (fun t => (t.result, t.tokq)) (exec (.lzTokenMatch 15 3) State.reset) =
    some (0x800F0003, []) := by decide
theorem test_lzTokenLiteral : see (fun t => (t.result, t.tokq)) (exec (.lzTokenLiteral 0x61) State.reset) =
    some (0x00000061, []) := by decide

/-! ## The step -/

-- V-SYS-6: the word is written to CMD, and nothing but STATUS changes else
theorem test_step_illegal : see (fun t => (t.cmd, t.status, t.host))
    (step { State.reset with host := [.issue (.cmd 0x00400000)] }) = some (0x00400000, 0x0000401F, []) := by decide
theorem test_step_operand : see (fun t => (t.inp, t.host)) (step { State.reset with host := [.setIn [1], .setArg 2] }) =
    some ([1], [.setArg 2]) := by decide
theorem test_step_waits : see (fun t => t) (step State.reset) = some State.reset := by decide
theorem test_fetchWord : see (fun t => (t.cmd, t.result)) (step (State.reset.withFetchWord 32 0x00000022)) =
    some (0x00000022, 1) := by decide

/-! ## Witnesses: the hypotheses of each statement are met, at the ends of their ranges -/

/-- The reset state with streams of at most `n` bytes. -/
def capped (n : Nat) : State := { State.reset with params := { Params.reference with maxStreamBytes := n } }

theorem test_witness_DecodeEncode : Instr.wf (.lzTokenMatch 3 1) = true ∧ Instr.wf (.lzTokenMatch 258 32768) = true ∧
    Instr.wf (.zipLocalHeader localZero) = true ∧ Instr.wf (.zipCentralHeader centralZero) = true ∧
    Instr.wf (.zipEocd { eocdZero with comment := [1] }) = true := by decide

theorem test_witness_EncodeDecode : decode (.cmd 0x00002011) = .ok (.bpWriteBits 32) ∧
    decode (.wire [0xFF]) = .ok (.blockReserved true 31) ∧
    decode (.wire [0x01, 0x00, 0x03, 0x80]) = .ok (.lzTokenMatch 3 1) := by decide

theorem test_witness_CommandLegality : LegalWord 0x00000000 ∧ LegalWord 0x0023C05A ∧ ¬ LegalWord 0x00000004 ∧
    ¬ LegalWord 0x0000005E ∧ ¬ LegalWord 0x00400000 ∧ ¬ LegalWord 0x00000100 ∧ 32 < (33#6).toNat ∧ 9 < (10#4).toNat := by
  decide

theorem test_witness_StepRunsInstruction_cmd : ({ State.reset with host := [.issue (.cmd 0x22)] } : State).host =
    .issue (.cmd 0x22) :: [] ∧ decode (.cmd 0x22) = .ok .adlerRead := by decide
theorem test_witness_StepRunsInstruction_wire : ({ State.reset with host := [.issue (.wire [0])] } : State).host =
    .issue (.wire [0]) :: [] ∧ decode (.wire [0]) = .ok (.blockStored false 0) := by decide
theorem test_witness_StepRunsInstruction_operands : ([7] : Bytes).length ≤ (capped 1).params.maxStreamBytes ∧
    ({ capped 1 with host := [.setIn [7]] } : State).host = .setIn [7] :: [] ∧
    ({ capped 1 with host := [.setName [7]] } : State).host = .setName [7] :: [] ∧
    ({ capped 1 with host := [.setArg 7] } : State).host = .setArg 7 :: [] ∧
    ({ capped 1 with host := [.setArg2 7] } : State).host = .setArg2 7 :: [] ∧ State.reset.host = [] := by decide

theorem test_witness_StatusAfterCommand : isCommand .lzPop = true ∧ ∃ t, exec .lzPop State.reset = .next t :=
  ⟨by decide, _, rfl⟩

/-- A decoder that waits at the start of a raw stream whose input is `bytes`. -/
def rawDecoder (bytes : Bytes) : State := { State.reset with inf := ⟨false, bytes, 0, none, .readBlockHeader⟩ }

theorem test_witness_Rollback : isCommand .lzPop = true ∧ err (exec .lzPop State.reset) = some 0x0E ∧
    isCommand .inflateRun = true ∧ err (exec .inflateRun (rawDecoder [])) = some 0x05 ∧
    err (exec .inflateRun (rawDecoder [7])) = some 0x04 ∧ isCommand .zipClose = true ∧
    err (exec .zipClose { writer with params := { Params.reference with maxStreamBytes := 21 } }) = some 0x1C := by
  decide

theorem test_witness_FrameOfEveryInstruction : (∃ t, exec .lzPop State.reset = .next t) ∧ Item.out ∉ mayWrite .lzPop :=
  ⟨⟨_, rfl⟩, by decide⟩
theorem test_witness_FrameOfEveryInstruction_out : Instr.zipEntryName ≠ .outClear ∧ Instr.zipEntryName ≠ .coreReset ∧
    see State.out (exec .zipEntryName { readerA with out := [0x7A] }) = some [0x7A, 0x41] := by decide

theorem test_witness_Housekeeping : (0x00000100 : Word).extractLsb' 0 8 = 0 ∧ (0x00000100 : Word) ≠ 0 := by decide

theorem test_witness_StepKeepsBitIo : PendingOk ⟨127, 7⟩ ∧ PendingOk State.reset.bp ∧ UnpackerOk ⟨[0xFD], 8⟩ ∧
    UnpackerOk State.reset.bu ∧ see (fun t => t) (step State.reset) = some State.reset := by decide
theorem test_witness_StepKeepsStatus : StatusOk State.reset ∧
    StatusOk { State.reset with status := 0x0000490A, inf := ⟨true, [], 0, some .badZlibHeader, .error⟩ } ∧
    see (fun t => t) (step State.reset) = some State.reset := by decide
theorem test_witness_StepKeepsStreams : StreamsOk State.reset ∧ StreamsOk { capped 1 with out := [1] } ∧
    see (fun t => t) (step State.reset) = some State.reset := by decide
theorem test_witness_StepKeepsTables : TablesOk State.reset ∧
    TablesOk { State.reset with ht2 := .table [1, 15, 15], tokq := [.copy 258 32768, .copy 3 8191, .copy 3 1] } ∧
    see (fun t => t) (step State.reset) = some State.reset := by decide
theorem test_witness_StepKeepsArchive : ArchiveOk State.reset ∧ ArchiveOk readerA ∧
    see (fun t => t) (step State.reset) = some State.reset := by decide

/-- Seven bits pending, all ones. -/
def full7 (n : Nat) (arg : Word) : State := { capped n with bp := ⟨127, 7⟩, arg := arg }

theorem test_witness_BpWriteBits_refused : 32 < (33#6).toNat ∧ (31#6).toNat ≤ 32 ∧ 2 ^ (31#6).toNat ≤ (full7 4 0x80000000).arg.toNat ∧
    2 ^ (0#6).toNat ≤ (full7 4 1).arg.toNat := by decide
theorem test_witness_BpWriteBits_capacity : (32#6).toNat ≤ 32 ∧ (full7 3 0xFFFFFFFF).arg.toNat < 2 ^ (32#6).toNat ∧
    PendingOk (full7 3 0).bp ∧
    (full7 3 0).params.maxStreamBytes < (full7 3 0).out.length + ((full7 3 0).bp.nbits + (32#6).toNat) / 8 := by decide
theorem test_witness_BpWriteBits : (32#6).toNat ≤ 32 ∧ (full7 4 0xFFFFFFFF).arg.toNat < 2 ^ (32#6).toNat ∧
    PendingOk (full7 4 0).bp ∧
    (full7 4 0).out.length + ((full7 4 0).bp.nbits + (32#6).toNat) / 8 ≤ (full7 4 0).params.maxStreamBytes := by decide

theorem test_witness_BpWriteBytes : 0xFF < (full7 1 0x100).arg.toNat ∧ (full7 1 0xFF).arg.toNat ≤ 0xFF ∧
    PendingOk (full7 1 0xFF).bp ∧ (full7 0 0).params.maxStreamBytes < (full7 0 0).out.length + 1 ∧
    (full7 1 0).out.length + 1 ≤ (full7 1 0).params.maxStreamBytes ∧
    (full7 1 0).params.maxStreamBytes < (full7 1 0).out.length + ([1, 2] : Bytes).length ∧
    (full7 2 0).out.length + ([1, 2] : Bytes).length ≤ (full7 2 0).params.maxStreamBytes := by decide

theorem test_witness_BpAlignAndReset : PendingOk (full7 0 0).bp ∧ 0 < (full7 0 0).bp.nbits ∧
    (full7 0 0).params.maxStreamBytes < (full7 0 0).out.length + ((full7 0 0).bp.nbits + 7) / 8 ∧
    (full7 1 0).out.length + ((full7 1 0).bp.nbits + 7) / 8 ≤ (full7 1 0).params.maxStreamBytes := by decide

theorem test_witness_MirrorLaw : ∀ f ∈ [(0, 0), (4294967295, 32), (1, 1)], f.2 ≤ 32 ∧ f.1 < 2 ^ f.2 := by decide

theorem test_witness_BuReadBits : 32 < (33#6).toNat ∧ (32#6).toNat ≤ 32 ∧ UnpackerOk ⟨[0, 0, 0, 0], 0⟩ ∧
    UnpackerOk ⟨[0, 0, 0, 0], 1⟩ ∧ 8 * ([0, 0, 0, 0] : Bytes).length < 1 + (32#6).toNat ∧
    0 + (32#6).toNat ≤ 8 * ([0, 0, 0, 0] : Bytes).length := by decide

theorem test_witness_BuCommands : UnpackerOk ⟨[0], 8⟩ ∧ UnpackerOk ⟨[0], 0⟩ ∧
    8 * ([0] : Bytes).length < 8 + (1#32).toNat ∧ 0 + (8#32).toNat ≤ 8 * ([0] : Bytes).length ∧
    (capped 1).params.maxStreamBytes < ([0] : Bytes).length + ([0] : Bytes).length ∧
    ([0] : Bytes).length + ([0] : Bytes).length ≤ (capped 2).params.maxStreamBytes := by decide

theorem test_witness_ChecksumCommands : (adler32 0xFFFFFFFF [] = 0xFFFFFFFF) ∧
    14 = (((adler32 0xFFFFFFFF []).extractLsb' 0 16).toNat + (0 : Byte).toNat) % 65521 ∧
    28 = (((adler32 0xFFFFFFFF []).extractLsb' 16 16).toNat + 14) % 65521 ∧
    (0xFFFFFFFF : Word) = crc32 0 [] ^^^ 0xFFFFFFFF := by decide

theorem test_witness_DelayedReduction : ([0] : Bytes) ≠ [] ∧ 65535 ≤ 65535 ∧ ([0] : Bytes).length ≤ 5552 := by decide

theorem test_witness_HufBuild_refused : 288 < (List.replicate 289 (0 : Byte)).length ∧
    32 < (List.replicate 33 (0 : Byte)).length ∧ 19 < (List.replicate 20 (0 : Byte)).length ∧
    validateLengths [1, 1, 1] = .error .overflow ∧ validateLengths [16] = .error .invalidCodeLength ∧
    ([1, 1, 1] : List Nat).length ≤ 19 := by decide +kernel
theorem test_witness_HufBuild : validateLengths (List.replicate 288 9) = .ok () ∧
    validateLengths (List.replicate 32 5) = .ok () ∧ validateLengths (List.replicate 19 5) = .ok () ∧
    (List.replicate 288 (9 : Byte)).length ≤ 288 ∧ (List.replicate 32 (5 : Byte)).length ≤ 32 ∧
    (List.replicate 19 (5 : Byte)).length ≤ 19 := by decide +kernel

theorem test_witness_CanonicalCodes : (∀ l ∈ [0, 1, 15], l ≤ 15) ∧ 2 < ([0, 1, 15] : List Nat).length ∧
    ([0, 1, 15] : List Nat).getD 2 0 ≠ 0 := by decide

theorem test_witness_SymbolDecodes : LegalTable [0, 1, 15] ∧ 2 < ([0, 1, 15] : List Nat).length ∧
    ([0, 1, 15] : List Nat).getD 2 0 ≠ 0 ∧ LegalTable [1, 1] := by decide

/-- A slot with a one-bit and a fifteen-bit code, seven pending bits, and two bytes to read. -/
def coder (n : Nat) (arg : Word) : State :=
  { full7 n arg with ht2 := .table [0, 1, 15], bu := ⟨[0x00, 0x00], 0⟩ }

theorem test_witness_HufEncode_refused : (2#2) ≠ 3 ∧ slotContents State.reset 2 = .empty ∧
    slotContents (coder 2 3) 2 = .table [0, 1, 15] ∧ ([0, 1, 15] : List Nat).length ≤ (coder 2 3).arg.toNat ∧
    ([0, 1, 15] : List Nat).getD (coder 2 0).arg.toNat 0 = 0 := by decide
theorem test_witness_HufEncode : (2#2) ≠ 3 ∧ slotContents (coder 2 2) 2 = .table [0, 1, 15] ∧
    LegalTable [0, 1, 15] ∧ (coder 2 2).arg.toNat < ([0, 1, 15] : List Nat).length ∧
    ([0, 1, 15] : List Nat).getD (coder 2 2).arg.toNat 0 ≠ 0 ∧ PendingOk (coder 2 2).bp ∧
    (coder 2 2).out.length + ((coder 2 2).bp.nbits + 15) / 8 ≤ (coder 2 2).params.maxStreamBytes ∧
    (coder 1 2).params.maxStreamBytes < (coder 1 2).out.length + ((coder 1 2).bp.nbits + 15) / 8 := by decide

theorem test_witness_HufDecode : (2#2) ≠ 3 ∧ slotContents State.reset 2 = .empty ∧
    slotContents { State.reset with ht1 := .table [0, 0] } 1 = .table [0, 0] ∧ (∀ l ∈ [0, 0], l = 0) ∧
    slotContents (coder 1 0) 2 = .table [0, 1, 15] ∧ LegalTable [0, 1, 15] ∧ 1 < ([0, 1, 15] : List Nat).length ∧
    ([0, 1, 15] : List Nat).getD 1 0 ≠ 0 ∧
    unreadBits (coder 1 0).bu = codeBits [0, 1, 15] 1 ++ List.replicate 15 false := by decide

theorem test_witness_HufDecode_failures : LegalTable [0, 1, 15] ∧ 2 < ([0, 1, 15] : List Nat).length ∧
    ([0, 1, 15] : List Nat).getD 2 0 ≠ 0 ∧ List.replicate 7 false ≠ [] ∧
    codeBits [0, 1, 15] 2 = unreadBits ⟨[0x01], 0⟩ ++ List.replicate 7 false ∧
    codeBits [0, 1, 15] 1 = unreadBits ⟨[0x01], 8⟩ ++ [false] ∧
    unreadBits ⟨[0x03], 0⟩ = [true, true] ++ List.replicate 6 false ∧
    (∀ sym < ([0, 1, 15] : List Nat).length, ([0, 1, 15] : List Nat).getD sym 0 ≠ 0 →
      ¬ [true, true] <+: codeBits [0, 1, 15] sym ∧ ¬ codeBits [0, 1, 15] sym <+: [true, true]) := by decide

theorem test_witness_HufQuery : (2#2) ≠ 3 ∧ slotContents State.reset 2 = .empty ∧
    slotContents (coder 1 3) 2 = .table [0, 1, 15] ∧ ([0, 1, 15] : List Nat).length ≤ (coder 1 3).arg.toNat ∧
    (coder 1 0).arg.toNat < ([0, 1, 15] : List Nat).length ∧ ([0, 1, 15] : List Nat).getD (coder 1 0).arg.toNat 0 = 0 ∧
    LegalTable [0, 1, 15] ∧ (coder 1 2).arg.toNat < ([0, 1, 15] : List Nat).length ∧
    ([0, 1, 15] : List Nat).getD (coder 1 2).arg.toNat 0 ≠ 0 := by decide

theorem test_witness_ChosenLengths : 1 ≤ 15 ∧ 2 ≤ ([0, 0] : List Nat).length ∧ ([0, 0] : List Nat).length ≤ 2 ^ 1 ∧
    15 ≤ 15 ∧ (List.replicate 286 1).length ≤ 2 ^ 15 := by decide +kernel

theorem test_witness_ParseLaw : 1 ≤ 4 ∧ 4 ≤ ([1, 1, 1, 1] : Bytes).length := by decide

theorem test_witness_LongestNearestMatch : 1 < 4 ∧ 4 ≤ ([1, 1, 1, 1] : Bytes).length ∧
    matchAt .exhaustive [1, 1, 1, 1] 1 4 = some (3, 1) ∧ matchAt .exhaustive [1, 1, 1, 1] 2 4 = none := by decide
theorem test_witness_LongestNearestMatch_candidate : IsCandidate [1, 1, 1, 1] 1 4 0 ∧
    IsMatchLength [1, 1, 1, 1] 1 4 0 3 := by
  refine ⟨⟨by decide, by decide, by decide, by decide⟩, by decide, by decide, fun h => ?_⟩
  exact absurd h (by decide)

theorem test_witness_LzCommands : ([] : Bytes).length < 2 ^ 32 ∧ ([] : List LZSymbol).length < 2 ^ 32 ∧
    legalToken (.copy 258 32768) = true ∧ legalToken (.copy 3 1) = true ∧ State.reset.tokq = [] ∧
    ({ State.reset with tokq := [.literal 1] } : State).tokq = .literal 1 :: [] ∧
    ({ State.reset with tokq := [.copy 3 1] } : State).tokq = .copy 3 1 :: [] := by decide

theorem test_witness_DeflateCommand : 9 < (10#4).toNat ∧ (9#4).toNat ≤ 9 ∧
    deflateBody (capped 1).params (capped 1).inp 9 = [0x03, 0x00] ∧
    (capped 1).params.maxStreamBytes < (capped 1).out.length + ([0x03, 0x00] : Bytes).length ∧
    (capped 2).out.length + ([0x03, 0x00] : Bytes).length ≤ (capped 2).params.maxStreamBytes ∧
    ([0x03, 0x00] : Bytes).length < 2 ^ 32 := by decide

theorem test_witness_StoredLayout_SizeBound_RoundTrip : ([0x61] : Bytes) ≠ [] ∧ 9 ≤ 9 ∧ 0 ≤ 9 := by decide

theorem test_witness_InflateStartAndFeed : State.reset.inf.phase = .idle ∧ (rawDecoder []).inf.phase ≠ .idle ∧
    (capped 0).params.maxStreamBytes < ([] : Bytes).length + ([1] : Bytes).length ∧
    ([] : Bytes).length + ([1] : Bytes).length ≤ (capped 1).params.maxStreamBytes := by decide

theorem test_witness_InflateRun_refused : State.reset.inf.phase = .idle ∧ (rawDecoder [7]).inf.phase ≠ .idle ∧
    (rawDecoder [7]).inf.err = none ∧ inflate [7] false = .fail .invalidBlockType ∧
    (⟨false, [7], 0, some .invalidBlockType, .error⟩ : Inflater).err = some .invalidBlockType ∧
    (⟨false, [7], 0, some .invalidBlockType, .error⟩ : Inflater).phase ≠ .idle := by decide
/-- A stored block holding `a`, another one to come, and the final one. -/
def storedA : Bytes := [0x00, 0x01, 0x00, 0xFE, 0xFF, 0x61]
def finalA : Bytes := [0x01, 0x01, 0x00, 0xFE, 0xFF, 0x61]

theorem test_witness_InflateRun_more : inflate storedA false = .more [0x61] .readBlockHeader ∧
    ([0x61] : Bytes).length ≤ (capped 1).params.maxStreamBytes ∧
    (capped 1).out.length + (([0x61] : Bytes).length - 0) ≤ (capped 1).params.maxStreamBytes ∧
    (capped 0).params.maxStreamBytes < (capped 0).out.length + (([0x61] : Bytes).length - 0) := by decide
theorem test_witness_InflateRun_done : inflate finalA false = .done [0x61] 6 ∧
    ([0x61] : Bytes).length ≤ (capped 1).params.maxStreamBytes ∧
    (capped 1).out.length + (([0x61] : Bytes).length - 0) ≤ (capped 1).params.maxStreamBytes ∧
    ([0x61] : Bytes).length < 2 ^ 32 ∧ 6 < 2 ^ 32 ∧
    (capped 0).params.maxStreamBytes < (capped 0).out.length + (([0x61] : Bytes).length - 0) := by decide

theorem test_witness_MoreInput : inflate finalA false = .done [0x61] 6 ∧ inflate [7] false = .fail .invalidBlockType ∧
    inflate storedA false = .more [0x61] .readBlockHeader ∧
    inflate (storedA ++ finalA) false = .done [0x61, 0x61] 12 ∧
    inflate (storedA ++ storedA) false = .more [0x61, 0x61] .readBlockHeader := by decide

theorem test_witness_StreamingLaw : [storedA, [], finalA] ≠ [] ∧
    (rawDecoder []).inf = ⟨false, [], 0, none, .readBlockHeader⟩ ∧
    [storedA, [], finalA].flatten.length ≤ (capped 12).params.maxStreamBytes ∧
    inflate [storedA, [], finalA].flatten false = .done [0x61, 0x61] 12 ∧
    inflate [storedA, []].flatten false = .more [0x61] .readBlockHeader ∧ ([0x61, 0x61] : Bytes).length < 2 ^ 32 ∧
    12 < 2 ^ 32 ∧
    (capped 12).out.length + ([0x61, 0x61] : Bytes).length ≤ (capped 12).params.maxStreamBytes := by decide

theorem test_witness_BackReferenceCopy : 1 ≤ 2 ∧ 2 ≤ ([1, 2] : Bytes).length ∧ 1 ≤ ([1, 2] : Bytes).length := by decide
/-- What a match decodes to, as output and bits read; and why it stops. -/
def matched : Except Stop Decoder → Option (Bytes × Nat)
  | .ok d => some (d.rout.reverse, d.pos)
  | .error _ => none
def stopped {α : Type} : Except Stop α → Option Stop
  | .ok _ => none
  | .error e => some e

-- R131 to R133, R412, R413: rows at the ends of the tables, and a match for each way it can go
theorem test_witness_BackReferenceCopy_rows : lengthRow 257 = (3, 0) ∧ lengthRow 264 = (10, 0) ∧ lengthRow 265 = (11, 1) ∧
    lengthRow 284 = (227, 5) ∧ lengthRow 285 = (258, 0) ∧ distRow 0 = (1, 0) ∧ distRow 3 = (4, 0) ∧ distRow 4 = (5, 1) ∧
    distRow 29 = (24577, 13) ∧ 31 < 2 ^ 5 ∧ 0 < 2 ^ 0 ∧ 8191 < 2 ^ 13 := by decide
theorem test_witness_BackReferenceCopy_match : LegalTable [1, 2] ∧ 1 < ([1, 2] : List Nat).length ∧
    ([1, 2] : List Nat).getD 1 0 ≠ 0 ∧
    [true] ++ (codeBits [1, 2] 1 ++ []) = bitsOf (lengthRow 265).2 1 ++ ([true, false] ++ bitsOf (distRow 1).2 0) ∧
    matched (decodeMatch 265 (tableCodes [1, 2]) ⟨[true, false], 0, [0x62, 0x61]⟩) =
      some ([0x61, 0x62] ++ List.replicate 12 0x62, 2) ∧
    matched (decodeMatch 257 (tableCodes [1, 2]) ⟨[true, false], 0, [0x62, 0x61]⟩) =
      some ([0x61, 0x62, 0x61, 0x62, 0x61], 2) := by decide
theorem test_witness_BackReferenceCopy_stops : 285 < 286 ∧
    decodeMatch 286 [] ⟨[], 0, []⟩ = .error (.fail .invalidSymbol) ∧
    ([] : List Bool).length < (lengthRow 265).2 ∧
    decodeSymbol (tableCodes [1, 2]) [] = .error .insufficientBits ∧
    decodeSymbol (tableCodes [1, 2]) [true, true] = .error .invalidSymbol ∧
    stopped (decodeMatch 257 (tableCodes [1, 2]) ⟨[true, true], 0, [0x61]⟩) = some (.fail .invalidSymbol) ∧
    stopped (decodeMatch 257 (tableCodes [1, 2]) ⟨[true], 0, [0x61]⟩) = some (.more [0x61] .decodeSymbols) ∧
    stopped (decodeMatch 257 (tableCodes [1, 2]) ⟨[true, false], 0, [0x61]⟩) = some (.fail .invalidDistance) := by decide
theorem test_witness_BackReferenceCopy_distance : 29 < 30 ∧ 30 < (List.replicate 30 0 ++ [1, 1]).length ∧
    (List.replicate 30 0 ++ [1, 1]).getD 30 0 ≠ 0 ∧ LegalTable (List.replicate 30 0 ++ [1, 1]) ∧
    stopped (decodeMatch 257 (tableCodes (List.replicate 30 0 ++ [1, 1])) ⟨[false], 0, [0x61]⟩) =
      some (.fail .invalidSymbol) ∧
    stopped (decodeMatch 257 (tableCodes (List.replicate 29 0 ++ [1])) ⟨[false], 0, [0x61]⟩) =
      some (.more [0x61] .decodeSymbols) ∧
    stopped (decodeMatch 257 (tableCodes (List.replicate 29 0 ++ [1])) ⟨false :: bitsOf 13 0, 0, [0x61]⟩) =
      some (.fail .invalidDistance) := by decide

theorem test_witness_HeaderChecks : inflate [0x78, 0x9D] true = .fail .badZlibHeader ∧
    inflate [0x78, 0x9C] true ≠ .fail .badZlibHeader ∧ (0x07 : Byte).extractLsb' 1 2 = 3 := by decide

theorem test_witness_HeaderChecks_stored : (0x01 : Byte).extractLsb' 1 2 = 0 ∧ (0x01 : Byte).getLsbD 0 = true ∧
    (1 : Half) ≠ ~~~ (0xFFFF : Half) ∧ (1 : Half) = ~~~ (0xFFFE : Half) ∧ ([] : Bytes).length < (1 : Half).toNat ∧
    (1 : Half).toNat ≤ ([0x61] : Bytes).length ∧
    (Decoder.mk [false, true, true] 0 []).bits = false :: true :: true :: [] ∧
    (alignDecoder ⟨streamBits [0x01, 0x00, 0xFE, 0xFF, 0x61], 8, []⟩).bits =
      bitsOf 16 (1 : Half).toNat ++ bitsOf 16 (0xFFFE : Half).toNat ++ (streamBits [0x61] ++ []) ∧
    ([] : List Bool).length < 8 * (1 : Half).toNat ∧ ([0x61] : Bytes).length = (1 : Half).toNat := by decide

theorem test_witness_HeaderChecks_blocks : decodeBlocks (8 * finalA.length + 1) ⟨streamBits finalA, 0, []⟩ =
      .ok ⟨[], 48, [0x61]⟩ ∧
    stopped (decodeBlocks (8 * storedA.length + 1) ⟨streamBits storedA, 0, []⟩) = some (.more [0x61] .readBlockHeader) ∧
    stopped (decodeBlocks 9 ⟨streamBits [0x07], 0, []⟩) = some (.fail .invalidBlockType) ∧ ([] : List Bool).length < 3 ∧
    decodeBody ((false).toNat + 2 * (false).toNat) ⟨(streamBits finalA).drop 3, 0 + 3, []⟩ = .ok ⟨[], 48, [0x61]⟩ ∧
    stopped (decodeBody ((true).toNat + 2 * (true).toNat) ⟨[], 3, []⟩) = some (.fail .invalidBlockType) := by decide
theorem test_witness_HeaderChecks_counts : 286 < 30 + 257 ∧ 30 < 30 + 1 ∧ 29 + 257 ≤ 286 ∧ 29 + 1 ≤ 30 ∧
    ([] : List Bool).length < 14 ∧ ([] : List Bool).length < 3 * (0 + 4) ∧
    stopped (readTables ⟨bitsOf 5 30 ++ bitsOf 5 0 ++ bitsOf 4 0 ++ [], 0, []⟩) = some (.fail .invalidCodeLength) ∧
    stopped (readTables ⟨bitsOf 5 0 ++ bitsOf 5 30 ++ bitsOf 4 0 ++ [], 0, []⟩) = some (.fail .invalidCodeLength) ∧
    stopped (readTables ⟨bitsOf 5 29 ++ bitsOf 5 29 ++ bitsOf 4 0 ++ [], 0, []⟩) = some (.more [] .dynamicTable) ∧
    ([1, 1, 1, 0] : List Nat).length = 0 + 4 ∧ (∀ v ∈ [1, 1, 1, 0], v < 8) ∧ ¬ LegalTable (clenTable [1, 1, 1, 0]) ∧
    stopped (readTables ⟨bitsOf 5 0 ++ bitsOf 5 0 ++ bitsOf 4 0 ++ ([1, 1, 1, 0].flatMap (bitsOf 3) ++ []), 0, []⟩) =
      some (.fail .overflow) ∧
    LegalTable (clenTable [2, 2, 2, 2]) ∧
    stopped (readLengths (tableCodes (clenTable [2, 2, 2, 2])) 258 258 [] ⟨[false, true], 0, []⟩) =
      some (.fail .invalidCodeLength) := by decide
theorem test_witness_HeaderChecks_lengths : LegalTable (clenTable [2, 2, 2, 2]) ∧
    (∀ sym ∈ [0, 16, 17, 18], sym < (clenTable [2, 2, 2, 2]).length ∧ (clenTable [2, 2, 2, 2]).getD sym 0 ≠ 0) ∧
    LegalTable (clenTable [0, 0, 0, 1]) ∧
    decodeSymbol (tableCodes (clenTable [0, 0, 0, 1])) [] = .error .insufficientBits ∧
    decodeSymbol (tableCodes (clenTable [0, 0, 0, 1])) [true] = .error .invalidSymbol := by decide
theorem test_witness_HeaderChecks_isRepeat : IsRepeat [7] 16 2 3 6 7 ∧ IsRepeat [] 17 3 0 3 0 ∧ IsRepeat [] 18 7 127 138 0 ∧ 3 < 2 ^ 2 ∧ 0 < 2 ^ 3 ∧ 127 < 2 ^ 7 ∧
    ([true] : List Bool).length < 2 ∧ 6 < ([7] : List Nat).length + 6 ∧ ([7] : List Nat).length + 6 ≤ 7 := by decide
theorem test_witness_HeaderChecks_repeats :
    stopped (readLengths (tableCodes (clenTable [2, 2, 2, 2])) 6 6 [7] ⟨[false, true, true, true], 0, []⟩) =
      some (.fail .invalidCodeLength) ∧
    readLengths (tableCodes (clenTable [2, 2, 2, 2])) 7 7 [7] ⟨[false, true, true, true], 0, []⟩ =
      .ok (List.replicate 7 7, ⟨[], 4, []⟩) := by decide

theorem test_witness_ZipModes : legalMode .zipOpenRead writer.zip.mode = false ∧
    legalMode .zipFinalize readerA.zip.mode = false ∧ legalMode .zipExtract State.reset.zip.mode = false ∧
    isCommand .zipCreate = true ∧ err (exec .zipCreate readerA) = some 0 := by decide

theorem test_witness_LocateEocd : locateEocd (eocdBytes eocdZero) = .ok 0 ∧ 0 < 2 ^ 32 ∧
    locateEocd [] = .error .eocdNotFound := by decide

theorem test_witness_ZipOpen : writer.zip.mode = .writer ∧ State.reset.zip.mode ≠ .writer ∧
    parseArchive State.reset.inp = .error .eocdNotFound ∧ parseArchive archiveA = .ok ([entryA], 32) ∧
    parseArchive (eocdBytes eocdZero) = .ok ([], 0) ∧ archiveA.length ≤ State.reset.params.maxStreamBytes ∧
    archiveA.length ≤ 4294967295 := by decide +kernel
/-- An image of `n` zeros and an EOCD, in a block whose streams hold it, is longer than its space and parses. -/
def LongImage (n : Nat) : Prop :=
  let s : State := { capped (n + 22) with inp := List.replicate n 0 ++ eocdBytes eocdZero }
  s.zip.mode ≠ .writer ∧ parseArchive s.inp = .ok ([], 0) ∧ s.inp.length ≤ s.params.maxStreamBytes ∧
    4294967295 < s.inp.length
theorem longImage_located (n : Nat) : locateEocd (List.replicate n 0 ++ eocdBytes eocdZero) = .ok n := by
  rw [locateEocd_append (by decide) (by decide), List.length_replicate]
theorem longImage_parses (n : Nat) (h : 4294967295 < n) : LongImage n := by
  have hl : (List.replicate n (0 : Byte) ++ eocdBytes eocdZero).length = n + 22 := by
    rw [List.length_append, List.length_replicate]; rfl
  have hat : ∀ o, u16At (List.replicate n 0 ++ eocdBytes eocdZero) (n + o) = u16At (eocdBytes eocdZero) o := fun o => by
    have := u16At_append_right (List.replicate n 0) (eocdBytes eocdZero) o
    rwa [List.length_replicate] at this
  have hat32 : ∀ o, u32At (List.replicate n 0 ++ eocdBytes eocdZero) (n + o) = u32At (eocdBytes eocdZero) o := fun o => by
    have := u32At_append_right (List.replicate n 0) (eocdBytes eocdZero) o
    rwa [List.length_replicate] at this
  refine ⟨by show ZipMode.idle ≠ .writer; decide, ?_, Nat.le_of_eq hl, by rw [hl]; omega⟩
  show parseArchive (List.replicate n 0 ++ eocdBytes eocdZero) = _
  rw [parseArchive_located (longImage_located n) rfl]
  simp only [eocdAt, hat, hat32, hl]
  rw [if_pos (by decide), if_pos ⟨Nat.le_refl _, Nat.zero_le _⟩]
  rfl

theorem test_witness_ZipOpen_long : LongImage 4294967296 := longImage_parses _ (by decide)

/-- The bytes of an EOCD that gives one record of `size` bytes at `offset`. -/
def oneRecordEocd (size offset : Word) : Bytes :=
  eocdBytes { eocdZero with nThis := 1, nTotal := 1, cdSize := size, cdOffset := offset }

theorem test_witness_ZipOpen_parse : locateEocd [] = .error .eocdNotFound ∧
    locateEocd (eocdBytes { eocdZero with disk := 1 }) = .ok 0 ∧
    u16At (eocdBytes { eocdZero with disk := 1 }) (0 + 4) ≠ 0 ∧
    locateEocd (oneRecordEocd 23 0) = .ok 0 ∧ u16At (oneRecordEocd 23 0) (0 + 8) = u16At (oneRecordEocd 23 0) (0 + 10) ∧
    (oneRecordEocd 23 0).length < (u32At (oneRecordEocd 23 0) (0 + 16)).toNat + (u32At (oneRecordEocd 23 0) (0 + 12)).toNat ∧
    (u32At (oneRecordEocd 22 0) (0 + 16)).toNat + (u32At (oneRecordEocd 22 0) (0 + 12)).toNat ≤
      (oneRecordEocd 22 0).length ∧
    0 + 22 + (u16At (oneRecordEocd 22 0) (0 + 20)).toNat ≤ (oneRecordEocd 22 0).length ∧
    parseRecords (oneRecordEocd 22 0) 22 1 0 = .error .corrupt := by decide
theorem test_witness_ZipOpen_records : 45 < 0 + 46 ∧ 0 + 46 ≤ 46 ∧ u32At (List.replicate 46 0) 0 ≠ 0x02014B50 ∧
    u32At (centralBytes { centralZero with name := [0x41] }) 0 = 0x02014B50 ∧
    46 < 0 + 46 + (u16At (centralBytes { centralZero with name := [0x41] }) (0 + 28)).toNat ∧
    0 + 46 + (u16At (centralBytes { centralZero with name := [0x41] }) (0 + 28)).toNat ≤ 47 ∧
    parseRecords (centralBytes { centralZero with name := [0x41] }) 47 0 47 = .ok [] ∧
    parseRecords (centralBytes { centralZero with name := [0x41] }) 47 1 47 = .error .corrupt := by decide

theorem test_witness_LocateEocd_large :
    locateEocd (List.replicate (2 ^ 32) 0 ++ eocdBytes eocdZero) = .ok (2 ^ 32) ∧ 2 ^ 32 ≤ 2 ^ 32 :=
  ⟨longImage_located _, Nat.le_refl _⟩

theorem test_witness_ZipEntryQueries_large : 2 ^ 32 ≤ (List.replicate (2 ^ 32) (0x41 : Byte)).length ∧
    ([] : Bytes).length + (List.replicate (2 ^ 32) (0x41 : Byte)).length ≤ (capped (2 ^ 32)).params.maxStreamBytes := by
  rw [List.length_replicate]
  exact ⟨Nat.le_refl _, Nat.le_of_eq (Nat.zero_add _)⟩

theorem test_witness_ZipEntryQueries : readerA.zip.mode = .reader ∧
    readerA.zip.index.length ≤ ({ readerA with arg := 1 } : State).arg.toNat ∧
    readerA.zip.index[readerA.arg.toNat]? = some entryA ∧ 8 < (9#6).toNat ∧ entryA.name.length < 2 ^ 32 ∧
    (capped 0).params.maxStreamBytes < ([] : Bytes).length + entryA.name.length ∧
    ([] : Bytes).length + entryA.name.length ≤ (capped 1).params.maxStreamBytes := by decide

theorem test_witness_ZipExtract : readerA.zip.mode = .reader ∧ readerA.zip.index[readerA.arg.toNat]? = some entryA ∧
    entryA.offset.toNat + 30 ≤ readerA.zip.img.length ∧ u32At readerA.zip.img entryA.offset.toNat = 0x04034B50 ∧
    entryA.offset.toNat + 30 + (u16At readerA.zip.img (entryA.offset.toNat + 26)).toNat +
      (u16At readerA.zip.img (entryA.offset.toNat + 28)).toNat + entryA.csize.toNat ≤ readerA.zip.img.length ∧
    [0x61] = slice readerA.zip.img (entryA.offset.toNat + 30 + (u16At readerA.zip.img (entryA.offset.toNat + 26)).toNat +
      (u16At readerA.zip.img (entryA.offset.toNat + 28)).toNat) entryA.csize.toNat ∧ entryA.method = 0 ∧
    ([0x61] : Bytes).length = entryA.usize.toNat ∧ crc32 0 [0x61] = entryA.crc ∧
    readerA.out.length + ([0x61] : Bytes).length ≤ readerA.params.maxStreamBytes := by decide
theorem test_witness_ZipExtract_deflated : inflate [0x01, 0x01, 0x00, 0xFE, 0xFF, 0x61] false = .done [0x61] 6 ∧
    err (exec .zipExtract readerA) = some 0 ∧ err (exec .zipExtract State.reset) = some 0x1D := by decide
/-- A reader of one entry whose local header, without a name, is at offset 0. -/
def extractor (payload : Bytes) (e : Entry) : State :=
  { capped 64 with zip := ⟨localBytes localZero ++ payload, [{ e with csize := BitVec.ofNat 32 payload.length }], 0, .reader⟩ }
-- R473, R474: each refusal, with all those that come after it in place (method 9 before the data, a size of 9 before the CRC)
theorem test_witness_ZipExtract_header :
    err (exec .zipExtract { readerA with zip := { readerA.zip with img := archiveA.take 29 } }) = some 0x11 ∧
    err (exec .zipExtract { readerA with zip := { readerA.zip with img := 0 :: archiveA.drop 1 } }) = some 0x10 ∧
    err (exec .zipExtract { readerA with zip := { readerA.zip with img := archiveA.take 31 } }) = some 0x11 ∧
    err (exec .zipExtract (extractor [7] { entryA with method := 9, usize := 9 })) = some 0x16 := by decide
theorem test_witness_ZipExtract_data : inflate [7] false = .fail .invalidBlockType ∧
    err (exec .zipExtract (extractor [7] { entryA with method := 8, usize := 9 })) = some 0x04 ∧
    inflate storedA false = .more [0x61] .readBlockHeader ∧
    err (exec .zipExtract (extractor storedA { entryA with method := 8 })) = some 0x11 ∧
    err (exec .zipExtract (extractor [0x62] { entryA with usize := 9 })) = some 0x13 ∧
    err (exec .zipExtract (extractor [0x62] entryA)) = some 0x12 ∧
    err (exec .zipExtract { extractor [0x61] entryA with out := List.replicate 64 0 }) = some 0x1C ∧
    see State.out (exec .zipExtract (extractor finalA { entryA with method := 8 })) = some [0x61] := by decide

/-- A writer about to add `A`. -/
def adding : State := { writer with name := [0x41], inp := [0x61], arg := 0x81A4, arg2 := 0x00210000 }

theorem test_witness_ZipAdd_refused : adding.zip.mode = .writer ∧
    ({ adding with arg := 0x00010000 } : State).arg.extractLsb' 16 16 ≠ 0 ∧ adding.arg.extractLsb' 16 16 = 0 ∧
    9 < (10#4).toNat ∧ (9#4).toNat ≤ 9 ∧ ([0x2F, 0x61] : Bytes).head? = some 0x2F ∧
    (0x5C : Byte) ∈ ([0x61, 0x5C] : Bytes) := by decide
theorem test_witness_ZipAdd_file : adding.zip.mode = .writer ∧ adding.arg.extractLsb' 16 16 = 0 ∧ (9#4).toNat ≤ 9 ∧
    adding.name ≠ [] ∧ adding.name.head? ≠ some 0x2F ∧ 0x5C ∉ adding.name ∧ adding.name.length ≤ 65535 ∧
    adding.zip.index.length < 65535 ∧ adding.inp.length < 0xFFFFFFFF ∧ adding.zip.img.length < 0xFFFFFFFF ∧
    adding.zip.img.length + 30 + adding.name.length + adding.inp.length ≤ adding.params.maxStreamBytes ∧
    adding.zip.img.length + 30 + adding.name.length + adding.inp.length ≤ 4294967295 ∧
    entryA.name = adding.name ∧ entryA.csize = BitVec.ofNat 32 adding.inp.length ∧
    entryA.usize = BitVec.ofNat 32 adding.inp.length ∧ entryA.crc = crc32 0 adding.inp ∧ entryA.method = 0 ∧
    entryA.dostime = adding.arg2.extractLsb' 0 16 ∧ entryA.dosdate = adding.arg2.extractLsb' 16 16 ∧
    entryA.extAttr = adding.arg <<< 16 ∧ entryA.offset = BitVec.ofNat 32 adding.zip.img.length ∧ EntryOk entryA := by
  decide
theorem test_witness_ZipAdd_dir :
    let nm : Bytes := [0x41, 0x2F]
    let e : Entry := ⟨nm, 0, 0, 0, 0, 0, 0x0021, 0x81A40010, 0, true, false⟩
    nm = (if adding.name.getLast? = some 0x2F then adding.name else adding.name ++ [0x2F]) ∧ nm.head? ≠ some 0x2F ∧
    0x5C ∉ nm ∧ nm.length ≤ 65535 ∧ adding.zip.img.length + 30 + nm.length ≤ adding.params.maxStreamBytes ∧
    adding.zip.img.length + 30 + nm.length ≤ 4294967295 ∧ e.dostime = adding.arg2.extractLsb' 0 16 ∧ e.dosdate = adding.arg2.extractLsb' 16 16 ∧
    e.extAttr = (adding.arg <<< 16 ||| 0x10) ∧ e.offset = BitVec.ofNat 32 adding.zip.img.length ∧ EntryOk e := by decide

theorem adding_adds : adding.zip.mode = .writer ∧ adding.arg.extractLsb' 16 16 = 0 ∧ adding.name ≠ [] ∧
    adding.name.head? ≠ some 0x2F ∧ 0x5C ∉ adding.name ∧ adding.name.length ≤ 65535 ∧
    adding.zip.index.length < 65535 ∧ adding.inp.length < 0xFFFFFFFF := by decide

/-- A good name of `n` bytes. -/
def LongName (n : Nat) : Prop :=
  let nm : Bytes := List.replicate n 0x61
  nm ≠ [] ∧ nm.head? ≠ some 0x2F ∧ 0x5C ∉ nm ∧ 65535 < nm.length
theorem longName_good (n : Nat) (h : 65535 < n) : LongName n := by
  cases n with
  | zero => omega
  | succ n => exact ⟨by simp [List.replicate_succ], by simp [List.replicate_succ], by simp, by simpa using h⟩
theorem test_witness_ZipAdd_nameTooLong : LongName 65536 := longName_good _ (by decide)

/-- A writer about to add `A` whose index holds `n` entries. -/
def indexed (n : Nat) : State := { adding with zip := { adding.zip with index := List.replicate n entryA } }
theorem test_witness_ZipAdd_tooManyFiles : (indexed 65535).zip.mode = .writer ∧ (indexed 65535).name ≠ [] ∧
    65535 ≤ (indexed 65535).zip.index.length :=
  ⟨adding_adds.1, adding_adds.2.2.1, Nat.le_of_eq List.length_replicate.symm⟩

/-- A writer about to add `A` whose image holds `n` bytes. -/
def imaged (n : Nat) : State := { adding with zip := { adding.zip with img := List.replicate n 0 } }
theorem length_imaged (n : Nat) : (imaged n).zip.img.length = n := List.length_replicate
theorem test_witness_ZipAdd_sizeTooLarge : (imaged 0xFFFFFFFF).zip.mode = .writer ∧
    (imaged 0xFFFFFFFF).zip.index.length < 65535 ∧ 0xFFFFFFFF ≤ (imaged 0xFFFFFFFF).zip.img.length :=
  ⟨adding_adds.1, adding_adds.2.2.2.2.2.2.1, Nat.le_of_eq (length_imaged _).symm⟩
theorem test_witness_ZipAdd_imageLimit : (imaged 0xFFFFFFFE).zip.mode = .writer ∧
    (imaged 0xFFFFFFFE).zip.img.length < 0xFFFFFFFF ∧
    4294967295 < (imaged 0xFFFFFFFE).zip.img.length + 30 + ([0x41] : Bytes).length + ([0x61] : Bytes).length :=
  ⟨adding_adds.1, by rw [length_imaged]; decide, by rw [length_imaged]; decide⟩
theorem test_witness_ZipAdd_capacity : (capped 31).params.maxStreamBytes < adding.zip.img.length + 30 +
    adding.name.length + adding.inp.length ∧ adding.zip.img.length < 0xFFFFFFFF := by decide
theorem test_witness_ZipAdd_dir_refused : ([] : Bytes) ++ [0x2F] =
      (if ([] : Bytes).getLast? = some 0x2F then [] else [] ++ [0x2F]) ∧
    (([] : Bytes) ++ [0x2F]).head? = some 0x2F ∧ (0x5C : Byte) ∈ ([0x5C, 0x2F] : Bytes) ∧
    (capped 31).params.maxStreamBytes < ([] : Bytes).length + 30 + ([0x41, 0x2F] : Bytes).length := by decide

theorem test_witness_ZipFinalizeAndClose : State.reset.zip.mode ≠ .writer ∧ writer.zip.mode = .writer ∧
    writer.zip.index.flatMap centralHeader = [] ∧ [entryA].flatMap centralHeader = (archiveA.drop 32).take 47 ∧
    centralHeader { entryA with method := 8 } = u32le 0x02014B50 ++ u16le 0x031E ++ u16le 20 ++ u16le 0 ++ u16le 8 ++
      (archiveA.drop 44).take 35 ∧ writer.zip.img.length < 0xFFFFFFFF ∧ ([] : Bytes).length < 0xFFFFFFFF ∧
    (capped 21).params.maxStreamBytes < ([] : Bytes).length + (eocdBytes eocdZero).length ∧
    ([] : Bytes).length + (eocdBytes eocdZero).length ≤ (capped 22).params.maxStreamBytes ∧
    (eocdBytes eocdZero).length ≤ 4294967295 := by decide
-- R15, R150: an entry of method 9 kept by ZIP_OPEN_APPEND
theorem test_witness_ZipFinalizeAndClose_method :
    let s : State := { writer with zip := { writer.zip with index := [{ entryA with method := 9 }] } }
    s.zip.mode = .writer ∧ (∃ e ∈ s.zip.index, e.method ≠ 0 ∧ e.method ≠ 8) ∧
    err (exec .zipFinalize s) = some 0x0C ∧ err (exec .zipClose s) = some 0x0C ∧
    (∀ e ∈ [entryA, { entryA with method := 8 }], e.method = 0 ∨ e.method = 8) := by decide
theorem test_witness_ZipFinalizeAndClose_imageLimit :
    4294967295 < (List.replicate 0xFFFFFFFE (0 : Byte) ++ eocdBytes eocdZero).length := by
  rw [List.length_append, List.length_replicate]; decide
theorem test_witness_ZipFinalizeAndClose_large : 0xFFFFFFFF ≤ (List.replicate 0xFFFFFFFF (0 : Byte)).length := by
  rw [List.length_replicate]

theorem test_witness_WrittenArchiveParses : ([entryA] : List Entry).length ≤ 65535 ∧ (∀ e ∈ [entryA], EntryOk e) ∧
    ([] : Bytes).length + (directoryBytes [entryA]).length < 2 ^ 32 := by decide

theorem test_witness_StreamItems : 2 ≤ (capped 2).params.maxStreamBytes ∧ 3 ≤ (capped 3).params.maxStreamBytes ∧
    (capped 2).out.length ≤ (capped 2).params.maxStreamBytes ∧
    ({ capped 2 with inf := ⟨true, [], 0, none, .zlibHeader⟩ } : State).inf = ⟨true, [], 0, none, .zlibHeader⟩ ∧
    (rawDecoder []).inf = ⟨false, [], 0, none, .readBlockHeader⟩ ∧
    ({ capped 3 with inf := ⟨true, [0x78, 0x9C], 0, none, .readBlockHeader⟩ } : State).inf =
      ⟨true, [0x78, 0x9C], 0, none, .readBlockHeader⟩ := by decide

theorem test_witness_ArchiveItems : Instr.wf (.zipLocalHeader localZero) = true ∧
    Instr.wf (.zipCentralHeader centralZero) = true ∧ Instr.wf (.zipEocd eocdZero) = true ∧
    State.reset.zip.mode ≠ .writer ∧
    (oneEntryImage (localBytes localZero) (centralBytes (emptyEntryRecord []))).length ≤
      (capped 98).params.maxStreamBytes ∧
    (oneEntryImage [] (centralBytes centralZero)).length ≤ (capped 68).params.maxStreamBytes ∧
    (eocdBytes eocdZero).length ≤ (capped 22).params.maxStreamBytes ∧ locateEocd (eocdBytes eocdZero) = .ok 0 ∧
    locateEocd (eocdBytes { eocdZero with disk := 1 }) = .ok 0 ∧ ({ eocdZero with disk := 1 } : EocdRecord).disk ≠ 0 ∧
    eocdZero.cdOffset.toNat + eocdZero.cdSize.toNat ≤ (eocdBytes eocdZero).length := by decide

theorem test_witness_WrapperAndTrailer : (0x78 : Byte).toNat % 16 = 8 ∧ (0x78 : Byte).toNat / 16 ≤ 7 ∧
    ((0x78 : Byte).toNat * 256 + (0x9C : Byte).toNat) % 31 = 0 ∧ (0x9C : Byte).getLsbD 5 = false ∧
    inflate [0x07] false = .fail .invalidBlockType ∧ inflate storedA false = .more [0x61] .readBlockHeader ∧
    inflate finalA false = .done [0x61] 6 ∧ inflate (finalA ++ [0x00, 0x62, 0x00]) false = .done [0x61] 6 ∧
    (finalA ++ [0x00, 0x62, 0x00]).length < 6 + 4 ∧ 6 + 4 ≤ (finalA ++ [0x00, 0x62, 0x00, 0x62]).length ∧
    slice (finalA ++ [0x00, 0x62, 0x00, 0x62]) 6 4 = u32be (adler32 1 [0x61]) ∧
    slice (finalA ++ [0x00, 0x62, 0x00, 0x63]) 6 4 ≠ u32be (adler32 1 [0x61]) := by decide

/-! ## Counts that do not fit a result register (log 5) -/

/-- An engine that looks at no candidate makes a literal of every byte. -/
theorem literals_length (data : Bytes) (e fuel p : Nat) (h : fuel ≤ e - p) :
    (tokenizeFrom (.mostRecent 0) data e fuel p).length = fuel := by
  induction fuel generalizing p with
  | zero => rfl
  | succ fuel ih =>
    have hm : matchAt (.mostRecent 0) data p e = none := by simp [matchAt, admitted, lastOnes, bestOf]
    rw [tokenizeFrom, if_pos (by omega), hm]
    simp only [List.length_cons, ih (p + 1) (by omega)]

theorem test_witness_LzCommands_large : 2 ^ 32 ≤
    (tokenize (.mostRecent 0) (List.replicate (2 ^ 32) 0) 0 (List.replicate (2 ^ 32) (0 : Byte)).length).length := by
  rw [tokenize, literals_length _ _ _ _ (Nat.le_refl _), List.length_replicate]
  exact Nat.le_refl _

theorem test_witness_LzCommands_queue : 2 ^ 32 ≤ (List.replicate (2 ^ 32) (LZSymbol.literal 0)).length := by
  rw [List.length_replicate]

/-- Bytes take 8 bits each. -/
theorem fieldBits_bytes (pos : Nat) (bytes : Bytes) (rest : List Field) :
    8 * bytes.length ≤ (fieldBits pos (byteFields bytes ++ rest)).length := by
  induction bytes generalizing pos with
  | nil => simp
  | cons b bs ih => have := ih (pos + 8); simp [byteFields, fieldBits] at *; omega

/-- An empty stored block in whole bytes, and how the decoder passes it. -/
def emptyStored (final : Bool) : Bytes := [if final then 1 else 0, 0, 0, 0xFF, 0xFF]

theorem passes_empty (fuel pos : Nat) (final : Bool) (rest : List Bool) (hp : pos % 8 = 0) :
    decodeBlocks (fuel + 1) ⟨streamBits (emptyStored final) ++ rest, pos, []⟩ =
      if final then .ok ⟨rest, pos + 40, []⟩ else decodeBlocks fuel ⟨rest, pos + 40, []⟩ := by
  have ha : alignDecoder
      ⟨[false, false, false, false, false] ++ (bitsOf 16 0 ++ (bitsOf 16 65535 ++ rest)), pos + 1 + 2, []⟩ =
      ⟨bitsOf 16 0 ++ (bitsOf 16 65535 ++ rest), pos + 8, []⟩ := by
    have h5 : (8 - (pos + 1 + 2) % 8) % 8 = 5 := by omega
    simp only [alignDecoder, h5]
    rfl
  have hb : streamBits (emptyStored final) ++ rest = bitsOf 1 final.toNat ++ (bitsOf 2 0 ++
      ([false, false, false, false, false] ++ (bitsOf 16 0 ++ (bitsOf 16 65535 ++ rest)))) := by cases final <;> rfl
  rw [hb, decodeBlocks, needRead_bits (by cases final <;> decide) rfl]
  simp only [bind, Except.bind]
  rw [needRead_bits (by decide) rfl]
  simp only
  rw [decodeBody, if_pos rfl, decodeStored, ha]
  simp only [bind, Except.bind]
  rw [needRead_bits (by decide) rfl]
  simp only
  rw [needRead_bits (by decide) rfl]
  cases final <;> simp [demand, takeBytes]

/-- It passes `n` of them and a final one. -/
theorem passes_all (n fuel pos : Nat) (hp : pos % 8 = 0) :
    decodeBlocks (fuel + n + 1)
      ⟨(List.replicate n (streamBits (emptyStored false))).flatten ++ streamBits (emptyStored true), pos, []⟩ =
      .ok ⟨[], pos + 40 * (n + 1), []⟩ := by
  induction n generalizing pos with
  | zero => simpa using passes_empty fuel pos true [] hp
  | succ n ih =>
    rw [List.replicate_succ, List.flatten_cons, List.append_assoc, passes_empty _ _ false _ hp, if_neg (by simp)]
    rw [show fuel + (n+1) = fuel + n + 1 by omega, ih (pos + 40) (by omega)]
    congr 2; omega

/-- A stream of `n` empty blocks and a final one, 5 bytes each. -/
def emptyBlocks (n : Nat) : Bytes := (List.replicate n (emptyStored false)).flatten ++ emptyStored true

theorem emptyBlocks_done (n : Nat) : inflate (emptyBlocks n) false = .done [] (5 * (n + 1)) := by
  have hs : streamBits (emptyBlocks n) =
      (List.replicate n (streamBits (emptyStored false))).flatten ++ streamBits (emptyStored true) := by
    rw [emptyBlocks, streamBits_append]
    congr 1
    induction n with
    | zero => rfl
    | succ n ih => rw [List.replicate_succ, List.flatten_cons, streamBits_append, ih]; rfl
  have hl : (streamBits (emptyBlocks n)).length = 40 * n + 40 := by
    rw [length_streamBits, emptyBlocks]; simp [emptyStored]; omega
  unfold inflate decodeStream
  simp only [bind, Except.bind, Bool.false_eq_true, if_false, hl]
  rw [show 40 * n + 40 + 1 = (39 * n + 40) + n + 1 by omega, hs, passes_all _ _ _ rfl]
  simp only [alignDecoder, List.reverse_nil, Nat.zero_add]
  congr 1
  omega

theorem test_witness_InflateRun_large : inflate (emptyBlocks 858993459) false = .done [] 4294967300 ∧
    2 ^ 32 ≤ 4294967300 := ⟨emptyBlocks_done 858993459, by decide⟩

/-- The fields of a stored block fit the writer, and take 8 bits and more for each byte. -/
theorem storedFields_fit (chunk : Bytes) (final : Bool) (h : chunk.length ≤ 65535) :
    (∀ f ∈ storedFields chunk final, FieldOk f) ∧
    ∀ pos, 8 * chunk.length ≤ (fieldBits pos (storedFields chunk final)).length := by
  constructor
  · have hx : chunk.length ^^^ 0xFFFF < 2 ^ 16 := Nat.xor_lt_two_pow (by omega) (by decide)
    intro f hf
    simp only [storedFields, byteFields, List.mem_append, List.mem_cons, List.not_mem_nil, or_false, List.mem_map] at hf
    rcases hf with (rfl | rfl | rfl | rfl | rfl) | ⟨b, -, rfl⟩
    · cases final <;> decide
    · decide
    · trivial
    · exact ⟨by decide, by omega⟩
    · exact ⟨by decide, hx⟩
    · exact ⟨by decide, b.isLt⟩
  · intro pos
    have := fieldBits_bytes (0 + 16 + 16) chunk []
    rw [List.append_nil] at this
    simp only [storedFields, List.cons_append, List.nil_append, fieldBits, List.length_append]
    omega

/-- Level 0 writes no fewer bytes than it is given, for a whole number of chunks. -/
theorem stored_length (p : Params) (k : Nat) (hk : 0 < k) :
    65535 * k ≤ (deflateBody p (List.replicate (65535 * k) 0) 0).length := by
  have hn : (List.replicate (65535 * k) (0 : Byte)).length = 65535 * k := List.length_replicate
  generalize List.replicate (65535 * k) (0 : Byte) = data at hn
  have hc : splitChunks data.length = (List.range k).map (fun j => (65535 * j, 65535 * (j + 1))) := by
    rw [hn, splitChunks, show (65535 * k + blockChunk - 1) / blockChunk = k by unfold blockChunk; omega]
    refine List.map_congr_left fun j hj => ?_
    rw [List.mem_range] at hj
    unfold blockChunk
    congr 1
    omega
  have hfit : ∀ j < k, (∀ f ∈ chunkFields p data 0 (65535 * j) (65535 * (j + 1)) (65535 * (j + 1) = data.length), FieldOk f) ∧
      ∀ pos, 8 * 65535 ≤ (fieldBits pos
        (chunkFields p data 0 (65535 * j) (65535 * (j + 1)) (65535 * (j + 1) = data.length))).length := by
    intro j hj
    have hl : (slice data (65535 * j) (65535 * (j + 1) - 65535 * j)).length = 65535 := by
      simp only [slice, List.length_take, List.length_drop, hn]; omega
    have := storedFields_fit (slice data (65535 * j) (65535 * (j + 1) - 65535 * j)) (65535 * (j + 1) = data.length)
      (Nat.le_of_eq hl)
    rw [hl] at this
    exact this
  have hlen : ∀ (js : List Nat) (pos : Nat), (∀ j ∈ js, j < k) → 8 * 65535 * js.length ≤ (fieldBits pos
      ((js.map (fun j => (65535 * j, 65535 * (j + 1)))).flatMap
        (fun c => chunkFields p data 0 c.1 c.2 (c.2 = data.length)))).length := by
    intro js
    induction js with
    | nil => intro pos _; exact Nat.zero_le _
    | cons j js ih =>
      intro pos hj
      rw [List.map_cons, List.flatMap_cons, fieldBits_append, List.length_append, List.length_cons]
      have h1 := (hfit j (hj j List.mem_cons_self)).2 pos
      have h2 := ih (pos + (fieldBits pos
        (chunkFields p data 0 (65535 * j) (65535 * (j + 1)) (65535 * (j + 1) = data.length))).length)
        fun x hx => hj x (List.mem_cons_of_mem j hx)
      simp only at h1 h2 ⊢
      omega
  have hok : ∀ f ∈ (splitChunks data.length).flatMap (fun c => chunkFields p data 0 c.1 c.2 (c.2 = data.length)) ++ [.align],
      FieldOk f := by
    intro f hf
    rw [hc, List.mem_append, List.mem_flatMap] at hf
    rcases hf with ⟨c, hc', hf⟩ | hf
    · obtain ⟨j, hj, rfl⟩ := List.mem_map.1 hc'
      exact (hfit j (List.mem_range.1 hj)).1 f hf
    · rw [List.mem_singleton.1 hf]; trivial
  have hd : data ≠ [] := fun h => by rw [h] at hn; simp only [List.length_nil] at hn; omega
  obtain ⟨h1, -, h3⟩ := packFields_spec Pending.empty _ (by decide) hok
  have h4 := congrArg List.length h3
  have h5 := hlen (List.range k) Pending.empty.nbits fun j hj => List.mem_range.1 hj
  have h0 : Pending.empty.nbits = 0 := rfl
  have h8 := h1.1
  rw [← hc, List.length_range] at h5
  rw [fieldBits_append] at h4
  simp only [List.length_append, length_streamBits, length_bitsOf] at h4
  rw [deflateBody, if_neg hd]
  simp only
  omega

theorem test_witness_DeflateCommand_large :
    2 ^ 32 ≤ (deflateBody Params.reference (List.replicate (65535 * 65538) 0) (0#4).toNat).length :=
  Nat.le_trans (by decide) (stored_length Params.reference 65538 (by decide))

/-! ## The tests over the fixed tables, which the kernel takes longest to evaluate (V-HUF-13, V-DEF-6, the example of R426) -/

theorem test_hufDecode : see (fun t => (t.result, t.bu.pos))
    (exec (.hufDecode 0) { State.reset with ht0 := .table fixedLitLengths, bu := ⟨[0], 0⟩ }) = some (256, 7) := by
  decide +kernel

theorem test_deflate_fixed : see (fun t => (t.out, t.result)) (exec (.deflate 6 true)
    (withOperands 0 [0x61, 0x61, 0x61, 0x61])) =
    some ([0x78, 0x9C, 0x4B, 0x04, 0x02, 0x00, 0x03, 0xCE, 0x01, 0x85], 10) := by decide +kernel

/-- The reference engine and builder. -/
def referenceChoice : LevelChoice := ⟨.exhaustive, .packageMerge⟩

theorem test_witness_DeflateCommand_level : ([0x61] : Bytes) ≠ [] ∧ 1 ≤ 1 ∧ 1 ≤ 9 ∧ 9 ≤ 9 ∧
    Params.reference.levelPolicy = .identical ∧
    referenceChoice = ⟨Params.reference.matchCandidates, Params.reference.codeLengthBuilder⟩ ∧
    [referenceChoice].getD (1 - 1) ⟨.mostRecent 1, .packageMerge⟩ = referenceChoice ∧
    [referenceChoice].getD (9 - 1) ⟨.mostRecent 1, .packageMerge⟩ = ⟨.mostRecent 1, .packageMerge⟩ := by decide

-- R370: `aaaa` as a fixed block, `a` as a stored one; R371: a dynamic one
theorem test_compressedBits_fixed : compressedBits referenceChoice [0x61, 0x61, 0x61, 0x61] ++ List.replicate 2 false =
    streamBits [0x4B, 0x04, 0x02, 0x00] := by decide +kernel
theorem test_compressedBits_stored : compressedBits referenceChoice [0x61] = streamBits finalA := by decide +kernel
theorem test_compressedBits_dynamic : compressedBits referenceChoice
    [0xF2, 0xF3, 0xF3, 0xF0, 0xF1, 0xF3, 0xF1, 0xF1, 0xF0, 0xF0, 0xF3, 0xF3, 0xF1, 0xF2, 0xF1, 0xF1, 0xF1, 0xF2, 0xF3, 0xF1] ++
      [false] =
    streamBits [0x05, 0xC1, 0x01, 0x01, 0x00, 0x00, 0x08, 0xC3, 0xA0, 0xFE, 0x6D, 0xE5, 0x2B, 0x20, 0xAC, 0x4E, 0xDC, 0x95,
      0x61, 0x79] := by decide +kernel

theorem test_inflateRun_waits : see (fun t => (t.out, t.status, t.inf.emitted)) (exec .inflateRun
    { State.reset with inf := ⟨true, [0x78, 0x9C, 0x4B, 0x04], 0, none, .zlibHeader⟩ }) =
    some ([0x61], 0x00000605, 1) := by decide +kernel

/-- Symbols 255 to 257 with two bits each. -/
def lastSymbols : List Nat := List.replicate 255 0 ++ [2, 2, 2]

-- R410, R411: a literal, a match with distance 1, the end of the block
theorem test_witness_BackReferenceCopy_symbols : LegalTable lastSymbols ∧ lastSymbols.length = 258 ∧
    (∀ sym ∈ [255, 256, 257], lastSymbols.getD sym 0 ≠ 0) ∧
    decodeSymbol (tableCodes lastSymbols) [] = .error .insufficientBits ∧
    decodeSymbol (tableCodes lastSymbols) [true, true] = .error .invalidSymbol ∧
    codeBits lastSymbols 255 ++ (codeBits lastSymbols 257 ++ (codeBits [1] 0 ++ codeBits lastSymbols 256)) =
      [false, false, true, false, false, false, true] ∧
    decodeSymbols (tableCodes lastSymbols) (tableCodes [1]) 4 ⟨[false, false, true, false, false, false, true], 0, []⟩ =
      .ok ⟨[], 7, [0xFF, 0xFF, 0xFF, 0xFF]⟩ := by decide +kernel

-- V-INF-19, V-INF-20, V-INF-21
theorem test_witness_BackReferenceCopy_fixed : inflate [0x03, 0x02, 0x00] false = .fail .invalidDistance ∧
    inflate [0x4B, 0x04, 0x3E] false = .fail .invalidSymbol ∧ inflate [0x1B, 0x03] false = .fail .invalidSymbol := by
  decide +kernel

/-- A table header of 257 and 1 lengths: 18 code-length code lengths, of which the symbols 18, 0 and 1 have 2, 2 and 1 bits,
so that 1 is `0`, 0 is `10` and 18 is `11`. -/
def shortHeader (code : List Bool) : Decoder :=
  ⟨bitsOf 5 0 ++ bitsOf 5 0 ++ bitsOf 4 14 ++ ([0, 0, 2, 2, 0, 0, 0, 0, 0, 0, 0, 0, 0, 0, 0, 0, 0, 1].flatMap (bitsOf 3) ++ code),
    0, []⟩

-- R408: lengths 1 for 256 and for distance 0; none for 256; three lengths of 1 bit
theorem test_witness_HeaderChecks_tables :
    readTables (shortHeader ([true, true] ++ bitsOf 7 127 ++ [true, true] ++ bitsOf 7 107 ++ [false, false])) =
      .ok ((tableCodes (List.replicate 256 0 ++ [1]), tableCodes [1]), ⟨[], 88, []⟩) ∧
    readTables (shortHeader ([true, true] ++ bitsOf 7 127 ++ [true, true] ++ bitsOf 7 108 ++ [false])) =
      .error (.fail .invalidCodeLength) ∧
    readTables (shortHeader ([false, false, true, true] ++ bitsOf 7 127 ++ [true, true] ++ bitsOf 7 105 ++ [false, false])) =
      .error (.fail .overflow) ∧
    stopped (readTables (shortHeader [true])) = some (.more [] .dynamicTable) := by decide +kernel

theorem test_inflateRun_done : see (fun t => (t.out, t.status, t.result, t.result2)) (exec .inflateRun
    { State.reset with
      out := [0x61]
      inf := ⟨true, [0x78, 0x9C, 0x4B, 0x04, 0x02, 0x00, 0x03, 0xCE, 0x01, 0x85], 1, none, .decodeSymbols⟩ }) =
    some ([0x61, 0x61, 0x61, 0x61], 0x00000800, 3, 10) := by decide +kernel

end Sys2Proof.Tests
end

/-! The state's statements: what each instruction writes, and from it the frame, the reset values and the invariants
every step keeps. -/

namespace Sys2Proof.Machine

/-! ## The errors a command raises (spec/60 R530)

`IoError` is reserved for the host. Checks and sequencing raise what their parts raise, so that one `simp` walks a
command's chain of checks. -/

/-- An outcome whose error, if it is one, is not the code reserved for the host. -/
def Reports {α : Type} (r : Except Error α) : Prop := r ≠ .error .ioError

@[simp] theorem reports_ok {α : Type} (a : α) : Reports (.ok a : Except Error α) := by simp [Reports]

@[simp] theorem reports_error {α : Type} (e : Error) : Reports (.error e : Except Error α) ↔ e ≠ .ioError := by
  simp [Reports]

@[simp] theorem reports_bind {α β : Type} (r : Except Error α) (f : α → Except Error β) :
    Reports (r >>= f) ↔ Reports r ∧ ∀ a, r = .ok a → Reports (f a) := by
  simp [Reports, bind_error]

@[simp] theorem reports_require (c : Prop) [Decidable c] (e : Error) :
    Reports (require c e) ↔ c ∨ e ≠ .ioError := by
  by_cases h : c <;> simp [require, h]

@[simp] theorem reports_checkCapacity (s : State) (n : Nat) : Reports (checkCapacity s n) := by simp [checkCapacity]
@[simp] theorem reports_checkImage (s : State) (n : Nat) : Reports (checkImage s n) := by simp [checkImage]
@[simp] theorem reports_appendOut (s : State) (bytes : Bytes) : Reports (appendOut s bytes) := by simp [appendOut]
@[simp] theorem reports_countWord (n : Nat) : Reports (countWord n) := by simp [countWord]
@[simp] theorem reports_countOperand (n : BitVec 6) : Reports (countOperand n) := by simp [countOperand]
@[simp] theorem reports_slotOperand (k : BitVec 2) : Reports (slotOperand k) := by simp [slotOperand]
@[simp] theorem reports_levelOperand (l : BitVec 4) : Reports (levelOperand l) := by simp [levelOperand]
@[simp] theorem reports_unixModeOperand (s : State) : Reports (unixModeOperand s) := by simp [unixModeOperand]
@[simp] theorem reports_requireNotWriter (s : State) : Reports (requireNotWriter s) := by simp [requireNotWriter]
@[simp] theorem reports_requireReader (s : State) : Reports (requireReader s) := by simp [requireReader]
@[simp] theorem reports_requireWriter (s : State) : Reports (requireWriter s) := by simp [requireWriter]
@[simp] theorem reports_requireStarted (s : State) : Reports (requireStarted s) := by simp [requireStarted]
@[simp] theorem reports_addChecks (s : State) (nm : Bytes) : Reports (addChecks s nm) := by
  simp [addChecks, nameOperand]
@[simp] theorem reports_commitWrite (s : State) (r : Bytes × Pending) : Reports (commitWrite s r) := by
  simp [commitWrite]
@[simp] theorem reports_writeBits (s : State) (v n : Nat) : Reports (writeBits s v n) := by simp [writeBits]
@[simp] theorem reports_symbolOperand (lengths : List Nat) (s : State) : Reports (symbolOperand lengths s) := by
  simp [symbolOperand]
@[simp] theorem reports_commitRun (s : State) (out : Bytes) (ph : Phase) : Reports (commitRun s out ph) := by
  simp [commitRun]

@[simp] theorem reports_entryOperand (s : State) : Reports (entryOperand s) := by
  unfold entryOperand; split <;> simp

@[simp] theorem reports_tableOperand (s : State) (k : BitVec 2) : Reports (tableOperand s k) := by
  unfold tableOperand
  cases slotContents s k <;> simp

@[simp] theorem reports_peekValue (s : State) (n : BitVec 6) : Reports (peekValue s n) := by
  unfold peekValue
  simp only [reports_bind, reports_countOperand, true_and]
  intro k _
  split <;> simp

@[simp] theorem reports_entryField (e : Entry) (n : BitVec 6) : Reports (entryField e n) := by
  unfold entryField; split <;> simp

@[simp] theorem reports_locateEocd (img : Bytes) : Reports (locateEocd img) := by
  unfold locateEocd
  split
  · simp
  · dsimp only
    split <;> simp

@[simp] theorem reports_parseRecords (img : Bytes) (stop k q : Nat) : Reports (parseRecords img stop k q) := by
  induction k generalizing q with
  | zero => simp [parseRecords]
  | succ k ih => simp [parseRecords, ih]

@[simp] theorem reports_parseArchive (img : Bytes) : Reports (parseArchive img) := by simp [parseArchive]

@[simp] theorem reports_addEntry (s : State) (nm : Bytes) (mode : Half) (attr : Word) (method : Half)
    (data payload : Bytes) : Reports (addEntry s nm mode attr method data payload) := by simp [addEntry]

@[simp] theorem reports_finalizeArchive (s : State) : Reports (finalizeArchive s) := by simp [finalizeArchive]

/-- A lengths array is refused with one of the two errors of spec/42 R271. -/
theorem validateLengths_error {lengths : List Nat} {e : Error} (h : validateLengths lengths = .error e) :
    e = .invalidCodeLength ∨ e = .overflow := by
  rw [validateLengths, bind_error] at h
  simp only [require_error] at h
  obtain ⟨-, rfl⟩ | ⟨-, -, -, rfl⟩ := h
  · exact .inl rfl
  · exact .inr rfl

@[simp] theorem reports_validateLengths (lengths : List Nat) : Reports (validateLengths lengths) := by
  simp [validateLengths]

/-- Decoding a symbol fails with one of the two errors of spec/42 R274. -/
theorem decodeFrom_error {codes : List Code} {c l : Nat} {bits : List Bool} {e : Error}
    (h : decodeFrom codes c l bits = .error e) : e = .insufficientBits ∨ e = .invalidSymbol := by
  induction bits generalizing c l with
  | nil =>
    unfold decodeFrom at h
    split at h
    · cases h
    · split at h <;> cases h
      · exact .inl rfl
      · exact .inr rfl
  | cons b bits ih =>
    unfold decodeFrom at h
    split at h
    · cases h
    · split at h
      · exact ih h
      · cases h; exact .inr rfl

@[simp] theorem reports_decodeSymbol (codes : List Code) (bits : List Bool) : Reports (decodeSymbol codes bits) := by
  intro h
  obtain h | h := decodeFrom_error h <;> cases h

/-! ## Where the decoder stops (spec/45 R400, R416)

It asks for more input in a phase other than `Error`, or fails with a hard error. -/

/-- The two ways to stop: never in the phase `Error`, and with a hard error only. -/
def StopOk : Stop → Prop
  | .more _ ph => ph ≠ .error
  | .fail e => e ∈ hardErrors

/-- An outcome of the decoder that, if it is a stop, is a legal one. -/
def Stops {α : Type} (r : Except Stop α) : Prop := ∀ stop, r = .error stop → StopOk stop

@[simp] theorem stops_ok {α : Type} (a : α) : Stops (.ok a : Except Stop α) := by simp [Stops]

@[simp] theorem stops_outOfInput {α : Type} (ph : Phase) (d : Decoder) :
    Stops (outOfInput ph d : Except Stop α) ↔ ph ≠ .error := by simp [Stops, outOfInput, StopOk]

@[simp] theorem stops_hardError {α : Type} (e : Error) :
    Stops (hardError e : Except Stop α) ↔ e ∈ hardErrors := by
  simp [Stops, hardError, StopOk]

@[simp] theorem stops_bind {α β : Type} (r : Except Stop α) (f : α → Except Stop β) :
    Stops (r >>= f) ↔ Stops r ∧ ∀ a, r = .ok a → Stops (f a) := by
  cases r <;> simp [Stops, bind, Except.bind]

@[simp] theorem stops_demand (c : Prop) [Decidable c] (e : Error) : Stops (demand c e) ↔ c ∨ e ∈ hardErrors := by
  by_cases h : c <;> simp [demand, h]

theorem stops_needRead {ph : Phase} (n : Nat) (d : Decoder) (h : ph ≠ .error) : Stops (needRead ph n d) := by
  unfold needRead; split <;> simp [h]

theorem stops_needSymbol {ph : Phase} (codes : List Code) (d : Decoder) (h : ph ≠ .error) :
    Stops (needSymbol ph codes d) := by
  unfold needSymbol
  split
  · simp
  · simpa using h
  · rename_i e hne he
    obtain rfl | rfl := decodeFrom_error he
    · exact (hne rfl).elim
    · simp [hardErrors]

@[simp] theorem stops_decodeStored (d : Decoder) : Stops (decodeStored d) := by
  simp only [decodeStored, stops_bind, stops_demand]
  refine ⟨stops_needRead _ _ (by decide), fun _ _ => ⟨stops_needRead _ _ (by decide), fun _ _ =>
    ⟨.inr (by decide), fun _ _ => ?_⟩⟩⟩
  split <;> simp

@[simp] theorem stops_decodeMatch (sym : Nat) (dt : List Code) (d : Decoder) : Stops (decodeMatch sym dt d) := by
  simp [decodeMatch, stops_needRead, stops_needSymbol, hardErrors]

@[simp] theorem stops_decodeSymbols (lt dt : List Code) (fuel : Nat) (d : Decoder) :
    Stops (decodeSymbols lt dt fuel d) := by
  induction fuel generalizing d with
  | zero => simp [decodeSymbols]
  | succ fuel ih =>
    simp only [decodeSymbols, stops_bind]
    refine ⟨stops_needSymbol _ _ (by decide), fun a _ => ?_⟩
    split
    · exact ih _
    · split
      · simp
      · simp [ih]

@[simp] theorem stops_readClens (order cl : List Nat) (d : Decoder) : Stops (readClens order cl d) := by
  induction order generalizing cl d with
  | nil => simp [readClens]
  | cons o os ih => simp [readClens, ih, stops_needRead]

@[simp] theorem stops_clenValues (sym : Nat) (seq : List Nat) (d : Decoder) : Stops (clenValues sym seq d) := by
  unfold clenValues
  split
  · simp
  · split
    · split <;> simp [stops_needRead, hardErrors]
    · split <;> simp [stops_needRead]

@[simp] theorem stops_readLengths (ct : List Code) (total fuel : Nat) (seq : List Nat) (d : Decoder) :
    Stops (readLengths ct total fuel seq d) := by
  induction fuel generalizing seq d with
  | zero => simp [readLengths]
  | succ fuel ih =>
    unfold readLengths
    split
    · simp
    · simp [ih, stops_needSymbol, hardErrors]

@[simp] theorem stops_buildCodes (lengths : List Nat) : Stops (buildCodes lengths) := by
  unfold buildCodes
  split
  · simp
  · rename_i e he
    obtain rfl | rfl := validateLengths_error he <;> simp [hardErrors]

@[simp] theorem stops_readTables (d : Decoder) : Stops (readTables d) := by
  simp [readTables, stops_needRead, hardErrors]

@[simp] theorem stops_decodeBody (btype : Nat) (d : Decoder) : Stops (decodeBody btype d) := by
  unfold decodeBody
  split
  · simp
  · split
    · simp
    · split <;> simp [hardErrors]

@[simp] theorem stops_decodeBlocks (fuel : Nat) (d : Decoder) : Stops (decodeBlocks fuel d) := by
  induction fuel generalizing d with
  | zero => simp [decodeBlocks]
  | succ fuel ih =>
    simp only [decodeBlocks, stops_bind, stops_decodeBody, true_and]
    refine ⟨stops_needRead _ _ (by decide), fun _ _ => ⟨stops_needRead _ _ (by decide), fun _ _ d' _ => ?_⟩⟩
    split
    · simp
    · exact ih _

@[simp] theorem stops_decodeTrailer (d : Decoder) : Stops (decodeTrailer d) := by
  unfold decodeTrailer
  split <;> simp [hardErrors]

@[simp] theorem stops_decodeZlibHeader (d : Decoder) : Stops (decodeZlibHeader d) := by
  simp [decodeZlibHeader, stops_needRead, hardErrors]

theorem stops_decodeStream (wrap : Bool) (d : Decoder) : Stops (decodeStream wrap d) := by
  cases wrap <;> simp [decodeStream]

/-- The decoder waits in a phase other than `Error` (spec/45 R416). -/
theorem inflate_more {bytes out : Bytes} {wrap : Bool} {ph : Phase} (h : inflate bytes wrap = .more out ph) :
    ph ≠ .error := by
  unfold inflate at h
  split at h
  · cases h
  · rename_i hd; cases h; exact stops_decodeStream _ _ _ hd
  · cases h

/-- The decoder fails with a hard error (spec/45 R401 to R421). -/
theorem inflate_fail {bytes : Bytes} {wrap : Bool} {e : Error} (h : inflate bytes wrap = .fail e) :
    e ∈ hardErrors := by
  unfold inflate at h
  split at h
  · cases h
  · cases h
  · rename_i hd; cases h; exact stops_decodeStream _ _ _ hd

/-- No hard error is the code reserved for the host. -/
theorem hardErrors_ne_ioError {e : Error} (h : e ∈ hardErrors) : e ≠ .ioError := by
  rintro rfl; revert h; decide

@[simp] theorem reports_decodePayload (method : Half) (raw : Bytes) : Reports (decodePayload method raw) := by
  unfold decodePayload
  split
  · simp
  · split
    · split
      · simp
      · simp
      · rename_i e he; simpa using hardErrors_ne_ioError (inflate_fail he)
    · simp

@[simp] theorem reports_extractEntry (img : Bytes) (e : Entry) : Reports (extractEntry img e) := by
  simp [extractEntry, validateEntry]

/-! ## The bit units keep their invariants (spec/10 R36, R37) -/

/-- A reversed code fits its width. -/
theorem reverseBits_lt (n c : Nat) : reverseBits n c < 2 ^ n := by
  induction n generalizing c with
  | zero => simp [reverseBits]
  | succ n ih =>
    have h1 := ih (c / 2)
    have h2 : c % 2 * 2 ^ n ≤ 1 * 2 ^ n := Nat.mul_le_mul_right _ (by omega)
    rw [reverseBits, Nat.pow_succ]
    omega

/-- Bytes are fields the writer takes whole. -/
theorem byteFields_ok (bytes : Bytes) : ∀ f ∈ byteFields bytes, FieldOk f := by
  intro f hf
  obtain ⟨b, -, rfl⟩ := List.mem_map.1 hf
  exact ⟨by decide, b.isLt⟩

theorem pendingOk_alignBits {p : Pending} (hp : PendingOk p) : PendingOk (alignBits p).2 := by
  rw [(alignBits_spec p hp).1]; decide

/-- Bits read are there: a decoded symbol took what it is said to have taken. -/
theorem decodeFrom_ok {codes : List Code} {c l sym used : Nat} {bits rest : List Bool}
    (h : decodeFrom codes c l bits = .ok (sym, used, rest)) : used + rest.length = l + bits.length := by
  induction bits generalizing c l with
  | nil =>
    unfold decodeFrom at h
    split at h
    · cases h; rfl
    · split at h <;> cases h
  | cons b bits ih =>
    unfold decodeFrom at h
    split at h
    · cases h; rfl
    · split at h
      · have := ih h
        simp only [List.length_cons]
        omega
      · cases h

theorem length_unreadBits (u : Unpacker) : (unreadBits u).length = remainingBits u := by
  simp [unreadBits, remainingBits]

theorem peekValue_le {s : State} {n : BitVec 6} {v : Nat} (h : peekValue s n = .ok v) :
    n.toNat ≤ remainingBits s.bu := by
  obtain ⟨-, rest, hr⟩ := peekValue_ok.1 h
  have := (takeBits_eq_some.1 hr).2
  rw [← length_unreadBits, this]
  simp

theorem decodeSymbol_le {codes : List Code} {u : Unpacker} {sym used : Nat} {rest : List Bool}
    (h : decodeSymbol codes (unreadBits u) = .ok (sym, used, rest)) : used ≤ remainingBits u := by
  have := decodeFrom_ok h
  rw [length_unreadBits] at this
  omega

/-- Consuming bits that are there. -/
theorem unpackerOk_advance {u : Unpacker} {n : Nat} (hn : n ≤ remainingBits u) (hu : UnpackerOk u) :
    UnpackerOk { u with pos := u.pos + n } := by
  simp only [remainingBits, UnpackerOk] at *
  omega

/-! ## Validated tables are legal (spec/42 R271) -/

/-- The part of the Kraft sum of the lengths from `l` on. -/
def kraftTail (lengths : List Nat) (l : Nat) : Nat := (lengths.map (fun x => if l ≤ x then 2 ^ (15 - x) else 0)).sum

theorem kraftTail_one (lengths : List Nat) : kraftTail lengths 1 = kraftSum lengths := by
  unfold kraftTail kraftSum
  congr 1
  refine List.map_congr_left fun x _ => ?_
  by_cases h : x = 0 <;> simp [h, Nat.one_le_iff_ne_zero]

theorem kraftTail_sixteen {lengths : List Nat} (h : ∀ l ∈ lengths, l ≤ 15) : kraftTail lengths 16 = 0 := by
  refine List.sum_eq_zero fun x hx => ?_
  obtain ⟨l, hl, rfl⟩ := List.mem_map.1 hx
  have := h l hl
  rw [if_neg (by omega)]

/-- The codes of one length and those of the longer ones. -/
theorem kraftTail_succ (lengths : List Nat) (l : Nat) :
    kraftTail lengths l = lengthCount lengths l * 2 ^ (15 - l) + kraftTail lengths (l + 1) := by
  unfold kraftTail lengthCount
  induction lengths with
  | nil => simp
  | cons x xs ih =>
    rw [List.map_cons, List.sum_cons, ih, List.map_cons, List.sum_cons, List.count_cons]
    by_cases h : x = l
    · subst h; simp; ring
    · rw [if_congr (show l ≤ x ↔ l + 1 ≤ x by omega) rfl rfl]
      simp [h]; ring

/-- The Kraft check from one length on: the codes that are left suffice for the lengths from there on. -/
theorem kraftFits_iff {lengths : List Nat} (h15 : ∀ l ∈ lengths, l ≤ 15) {k l left : Nat} (hk : k + l = 16) :
    kraftFits lengths k l left = true ↔ kraftTail lengths l ≤ left * 2 ^ k := by
  induction k generalizing l left with
  | zero =>
    obtain rfl : l = 16 := by omega
    simp [kraftFits, kraftTail_sixteen h15]
  | succ k ih =>
    have hl : 15 - l = k := by omega
    have hp : 0 < 2 ^ k := by positivity
    rw [kraftFits, kraftTail_succ, hl, show left * 2 ^ (k + 1) = 2 * left * 2 ^ k by ring]
    split
    · rename_i hlt
      have := Nat.mul_lt_mul_of_pos_right hlt hp
      simp only [Bool.false_eq_true, false_iff]
      omega
    · rename_i hle
      rw [ih (by omega), Nat.sub_mul]
      have := Nat.mul_le_mul_right (2 ^ k) (Nat.not_lt.1 hle)
      omega

/-- The validation of R271 accepts the legal tables. -/
theorem validateLengths_ok {lengths : List Nat} {u : Unit} :
    validateLengths lengths = .ok u ↔ LegalTable lengths := by
  rw [validateLengths, bind_ok]
  simp only [require_ok, exists_const]
  refine and_congr_right fun h15 => ?_
  rw [kraftFits_iff h15 rfl, kraftTail_one, Nat.one_mul]
  rfl

theorem slotOk_fixedLit : slotOk 288 (.table fixedLitLengths) = true := by decide +kernel
theorem slotOk_fixedDist : slotOk 32 (.table fixedDistLengths) = true := by decide +kernel

/-! ## The tokens of the parse are legal (spec/43 R322 to R327) -/

theorem commonLength_le (cap : Nat) (a b : Bytes) : commonLength cap a b ≤ cap := by
  fun_induction commonLength cap a b <;> omega

theorem commonLength_mono {m n : Nat} (h : m ≤ n) (a b : Bytes) : commonLength m a b ≤ commonLength n a b := by
  induction m generalizing n a b with
  | zero => simp [commonLength]
  | succ m ih =>
    obtain ⟨n, rfl⟩ : ∃ k, n = k + 1 := ⟨n - 1, by omega⟩
    cases a with
    | nil => simp [commonLength]
    | cons x xs =>
      cases b with
      | nil => simp [commonLength]
      | cons y ys =>
        simp only [commonLength]
        split
        · exact Nat.succ_le_succ (ih (by omega) xs ys)
        · exact Nat.le_refl 0

theorem positionsFrom_mem {c n : Nat} {bytes : Bytes} {x : Nat × Bytes} (h : x ∈ positionsFrom c n bytes) :
    c ≤ x.1 ∧ x.1 < c + n := by
  induction n generalizing c bytes with
  | zero => simp [positionsFrom] at h
  | succ n ih =>
    obtain rfl | h := List.mem_cons.1 h
    · simp
    · have := ih h; omega

/-- A candidate lies in the window, and its trigram is that of the lookahead (R322). -/
theorem windowCandidates_mem {data : Bytes} {p e : Nat} {x : Nat × Bytes} (h : x ∈ windowCandidates data p e) :
    p - windowSize ≤ x.1 ∧ x.1 < p ∧ p + minMatch ≤ e ∧
      commonLength minMatch x.2 (data.drop p) = minMatch := by
  unfold windowCandidates at h
  dsimp only at h
  split at h
  · rename_i he
    obtain ⟨hx, hm⟩ := List.mem_filter.1 h
    have := positionsFrom_mem hx
    exact ⟨this.1, by omega, he, by simpa using hm⟩
  · cases h

/-- No engine looks past the candidates. -/
theorem admitted_subset (m : MatchCandidates) (data : Bytes) (p : Nat) (cs : List (Nat × Bytes)) :
    admitted m data p cs ⊆ cs := by
  cases m with
  | exhaustive => exact List.Subset.refl cs
  | mostRecent n => exact List.drop_subset _ cs
  | engine id => exact fun _ => List.mem_of_mem_filter

/-- The best match is that of one of the candidates (R324). -/
theorem bestOf_some {cap k c : Nat} {ahead : Bytes} {best : Option (Nat × Nat)} {cs : List (Nat × Bytes)}
    (h : bestOf cap ahead best cs = some (k, c)) :
    best = some (k, c) ∨ ∃ x ∈ cs, x.1 = c ∧ commonLength cap x.2 ahead = k := by
  induction cs generalizing best with
  | nil => exact .inl h
  | cons x xs ih =>
    have hx : some (commonLength cap x.2 ahead, x.1) = some (k, c) →
        ∃ y ∈ x :: xs, y.1 = c ∧ commonLength cap y.2 ahead = k := by
      intro he
      cases he
      exact ⟨x, List.mem_cons_self, rfl, rfl⟩
    have hxs : (∃ y ∈ xs, y.1 = c ∧ commonLength cap y.2 ahead = k) →
        ∃ y ∈ x :: xs, y.1 = c ∧ commonLength cap y.2 ahead = k :=
      fun ⟨y, hy, he⟩ => ⟨y, List.mem_cons_of_mem _ hy, he⟩
    simp only [bestOf] at h
    split at h
    · exact .inr ((ih h).elim hx hxs)
    · split at h
      · exact .inr ((ih h).elim hx hxs)
      · exact (ih h).imp_right hxs

/-- A match is in the ranges of R327. -/
theorem matchAt_legal {m : MatchCandidates} {data : Bytes} {p e k d : Nat} (h : matchAt m data p e = some (k, d)) :
    legalToken (.copy k d) = true := by
  unfold matchAt at h
  split at h
  · cases h
  · rename_i k' c hbest
    split at h
    · cases h
    · rename_i hfar
      cases h
      obtain hnone | ⟨x, hx, rfl, hk⟩ := bestOf_some hbest
      · cases hnone
      · obtain ⟨hlo, hlt, he, htri⟩ := windowCandidates_mem (admitted_subset _ _ _ _ hx)
        have hmin : minMatch ≤ min maxMatch (e - p) := by
          simp only [minMatch, maxMatch] at *; omega
        have hge := commonLength_mono hmin x.2 (data.drop p)
        have hle := commonLength_le (min maxMatch (e - p)) x.2 (data.drop p)
        rw [htri, hk] at hge
        rw [hk] at hle
        simp only [legalToken, decide_eq_true_eq, minMatch, maxMatch, windowSize, farDistance] at *
        omega

theorem tokenizeFrom_legal {m : MatchCandidates} {data : Bytes} {e fuel p : Nat} :
    ∀ x ∈ tokenizeFrom m data e fuel p, legalToken x = true := by
  induction fuel generalizing p with
  | zero => simp [tokenizeFrom]
  | succ fuel ih =>
    unfold tokenizeFrom
    split
    · split
      · exact List.forall_mem_cons.2 ⟨rfl, ih⟩
      · rename_i k d hm
        exact List.forall_mem_cons.2 ⟨matchAt_legal hm, ih⟩
    · simp

/-! ## Entries and archives (spec/10 R52, spec/46 R463, R469, R470, R492) -/

/-- The directory bit as a mask (R469). -/
theorem isDirectory_eq (attr : Word) (name : Bytes) :
    isDirectory attr name = (decide (attr &&& 0x10 ≠ 0) || decide (name.getLast? = some 0x2F)) := by
  have hmask : attr &&& 0x10 = if attr.getLsbD 4 then 0x10 else 0 := BitVec.and_twoPow attr 4
  have hbit : attr.getLsbD 4 = decide (attr &&& 0x10 ≠ 0) := by
    rw [hmask]; cases attr.getLsbD 4 <;> decide
  rw [isDirectory, hbit, Bool.beq_eq_decide_eq]

/-- The file type bits of the Unix mode as a mask (R470). -/
theorem isSymbolicLink_eq (attr : Word) :
    isSymbolicLink attr = decide ((attr >>> 16) &&& 0xF000 = 0xA000) := by
  have hmask : (attr >>> 16) &&& (0xF000 : Word) = (attr.extractLsb' 28 4).setWidth 32 <<< 12 := by
    apply BitVec.eq_of_getLsbD_eq
    intro i hi
    interval_cases i <;> simp
  have htype : ∀ f : BitVec 4, (f == 0xA#4) = decide (f.setWidth 32 <<< 12 = (0xA000 : Word)) := by decide
  rw [isSymbolicLink, hmask, htype]

theorem entryOk_makeEntry {name : Bytes} (csize usize crc : Word) (method dostime dosdate : Half)
    (extAttr offset : Word) (h : name.length ≤ 65535) :
    EntryOk (makeEntry name csize usize crc method dostime dosdate extAttr offset) :=
  ⟨h, isDirectory_eq _ _, isSymbolicLink_eq _⟩

/-- A name read from a record fits the record's length field (R151). -/
theorem length_centralAt_name (img : Bytes) (q : Nat) : (centralAt img q).name.length ≤ 65535 := by
  have h := (u16At img (q + 28)).isLt
  simp only [centralAt, slice, List.length_take]
  omega

theorem parseRecords_ok {img : Bytes} {stop k q : Nat} {index : List Entry}
    (h : parseRecords img stop k q = .ok index) : index.length = k ∧ ∀ e ∈ index, EntryOk e := by
  induction k generalizing q index with
  | zero => cases h; simp
  | succ k ih =>
    simp only [parseRecords, bind_ok, require_ok, exists_const] at h
    obtain ⟨-, -, -, rest, hrest, h⟩ := h
    cases h
    obtain ⟨hlen, hok⟩ := ih hrest
    have he : EntryOk (entryOf (centralAt img q)) := entryOk_makeEntry _ _ _ _ _ _ _ _ (length_centralAt_name img q)
    exact ⟨by simp [hlen], List.forall_mem_cons.2 ⟨he, hok⟩⟩

/-- A parsed archive has at most 65535 entries, each within its limits. -/
theorem parseArchive_ok {img : Bytes} {index : List Entry} {cdoff : Word} (h : parseArchive img = .ok (index, cdoff)) :
    index.length ≤ 65535 ∧ ∀ e ∈ index, EntryOk e := by
  simp only [parseArchive, bind_ok, require_ok, exists_const] at h
  obtain ⟨p, -, -, -, rest, hrest, h⟩ := h
  cases h
  obtain ⟨hlen, hok⟩ := parseRecords_ok hrest
  have := (eocdAt img p).nTotal.isLt
  exact ⟨by omega, hok⟩

/-! ## What an instruction can write, said once (spec/10, spec/30 R112)

An instruction's effects are a sequence of writes, each to one item among its results, and each leaving the item as
legal as it found it. The frame of every instruction and the invariants follow from this relation. -/

/-- The decoder's invariant (spec/10 R45, R46). -/
abbrev InflaterOk (f : Inflater) : Prop := (f.phase = .error ↔ f.err ≠ none) ∧ ∀ e ∈ f.err, e ∈ hardErrors

/-- The queue's invariant (spec/43 R327). -/
abbrev QueueOk (q : List LZSymbol) : Prop := ∀ x ∈ q, legalToken x = true

/-- The codec's invariant (spec/10 R51, R52, spec/46 R492). -/
abbrev ZipOk (z : Zip) : Prop :=
  z.index.length ≤ 65535 ∧ (∀ e ∈ z.index, EntryOk e) ∧ (z.mode = .idle → z = Zip.reset)

/-- The image is within its capacity and its space (spec/60 R531, spec/20 R84). -/
abbrev ImageOk (p : Params) (z : Zip) : Prop := z.img.length ≤ p.maxStreamBytes ∧ z.img.length ≤ imageLimit

/-- One write of instruction `i`, from `s` to the state named last. -/
inductive Write (i : Instr) (s : State) : State → Prop
  | status {w : Word} : Write i s { s with status := w }
  | cleared (hi : i = .outClear) : Write i s { s with out := [] }
  | reset (hi : i = .coreReset) : Write i s { State.reset with host := s.host, params := s.params }
  | arg (hi : .arg ∈ mayWrite i) (w : Word) : Write i s { s with arg := w }
  | result (hi : .result ∈ mayWrite i) (w : Word) : Write i s { s with result := w }
  | result2 (hi : .result2 ∈ mayWrite i) (w : Word) : Write i s { s with result2 := w }
  | inp {bytes : Bytes} (hi : .inp ∈ mayWrite i) (hc : bytes.length ≤ s.params.maxStreamBytes) :
      Write i s { s with inp := bytes }
  | out {bytes : Bytes} (hi : .out ∈ mayWrite i) (hc : s.out.length + bytes.length ≤ s.params.maxStreamBytes) :
      Write i s { s with out := s.out ++ bytes }
  | bp {p : Pending} (hi : .bp ∈ mayWrite i) (hp : PendingOk s.bp → PendingOk p) : Write i s { s with bp := p }
  | bu {u : Unpacker} (hi : .bu ∈ mayWrite i) (hu : UnpackerOk s.bu → UnpackerOk u)
      (hc : s.bu.data.length ≤ s.params.maxStreamBytes → u.data.length ≤ s.params.maxStreamBytes) :
      Write i s { s with bu := u }
  | adler (hi : .adler ∈ mayWrite i) (w : Word) : Write i s { s with adler := w }
  | crc (hi : .crc ∈ mayWrite i) (w : Word) : Write i s { s with crc := w }
  | ht0 {t : HufSlot} (hi : .ht0 ∈ mayWrite i) (ht : slotOk 288 t = true) : Write i s { s with ht0 := t }
  | ht1 {t : HufSlot} (hi : .ht1 ∈ mayWrite i) (ht : slotOk 32 t = true) : Write i s { s with ht1 := t }
  | ht2 {t : HufSlot} (hi : .ht2 ∈ mayWrite i) (ht : slotOk 19 t = true) : Write i s { s with ht2 := t }
  | tokq {q : List LZSymbol} (hi : .tokq ∈ mayWrite i) (hq : QueueOk s.tokq → QueueOk q) :
      Write i s { s with tokq := q }
  | inf {f : Inflater} (hi : .inf ∈ mayWrite i) (hf : InflaterOk s.inf → InflaterOk f)
      (hc : s.inf.input.length ≤ s.params.maxStreamBytes → f.input.length ≤ s.params.maxStreamBytes) :
      Write i s { s with inf := f }
  | zip {z : Zip} (hi : .zip ∈ mayWrite i) (hz : ZipOk s.zip → ZipOk z)
      (hc : ImageOk s.params s.zip → ImageOk s.params z) : Write i s { s with zip := z }

/-- A sequence of writes of an instruction. -/
abbrev Writes (i : Instr) : State → State → Prop := Relation.ReflTransGen (Write i)

/-- The end of an instruction (spec/60 R532): after its writes the outcome is reported, and it is no `IoError`. -/
def Ends (i : Instr) (s t : State) : Prop :=
  ∃ (e : Option Error) (u : State), Writes i s u ∧ (InflaterOk s.inf → e ≠ some .ioError) ∧ t = report e u

section

variable {i : Instr} {s t u : State}

/-- What every write keeps, a sequence of them keeps. -/
theorem Writes.keeps {P : State → Prop} (h : Writes i s t) (hw : ∀ s t, Write i s t → P s → P t) (hs : P s) :
    P t := by
  induction h with
  | refl => exact hs
  | tail _ hlast ih => exact hw _ _ hlast ih

/-- A write keeps the decoder's invariant. -/
theorem Write.inflaterOk (h : Write i s t) : InflaterOk s.inf → InflaterOk t.inf := by
  cases h with
  | reset => exact fun _ => (by decide : InflaterOk Inflater.reset)
  | inf _ hf => exact hf
  | _ => exact id

theorem Writes.inflaterOk (h : Writes i s t) : InflaterOk s.inf → InflaterOk t.inf :=
  h.keeps fun _ _ => Write.inflaterOk

theorem Ends.writes : Ends i s t → Writes i s t := by
  rintro ⟨e, u, hw, -, rfl⟩
  exact hw.tail .status

/-- Writes before an end. -/
theorem Ends.after (hw : Writes i s u) : Ends i u t → Ends i s t := by
  rintro ⟨e, v, hv, he, rfl⟩
  exact ⟨e, v, hw.trans hv, he ∘ hw.inflaterOk, rfl⟩

theorem ends_report {e : Option Error} (he : e ≠ some .ioError) (hw : Writes i s u) : Ends i s (report e u) :=
  ⟨e, u, hw, fun _ => he, rfl⟩

theorem ends_succeed (h : succeed u = .next t) (hw : Writes i s u) : Ends i s t := by
  rw [succeed_next.1 h]
  exact ends_report (by decide) hw

/-- A command that raises an error has written nothing; one that succeeds has written what its checks let it (R533). -/
theorem ends_complete {r : Except Error State} (h : complete s r = .next t) (hr : Reports r)
    (hok : ∀ u, r = .ok u → Writes i s u) : Ends i s t := by
  obtain ⟨u, hu, rfl⟩ | ⟨e, he, rfl⟩ := complete_next.1 h
  · exact ends_report (by decide) (hok u hu)
  · refine ends_report (fun hio => hr ?_) .refl
    rw [he, Option.some.inj hio]

theorem ends_andThen {o : StepOutcome} {f : State → StepOutcome} (h : andThen o f = .next t)
    (ho : ∀ u, o = .next u → Writes i s u) (hf : ∀ u, f u = .next t → Ends i u t) : Ends i s t := by
  obtain ⟨u, hu, ht⟩ := andThen_next.1 h
  exact (hf u ht).after (ho u hu)

theorem ends_withInput {bytes : Bytes} {f : State → StepOutcome} (h : withInput s bytes f = .next t)
    (hi : .inp ∈ mayWrite i) (hf : ∀ u, f u = .next t → Ends i u t) : Ends i s t := by
  rw [withInput_eq] at h
  split at h
  · rename_i hc
    exact (hf _ h).after (.single (.inp hi hc))
  · rw [raise_next.1 h]
    exact ends_report (by decide) .refl

/-! ### The shared writes -/

/-- An append to `OUT`. -/
theorem writes_appendOut {bytes : Bytes} (hi : .out ∈ mayWrite i) (h : appendOut s bytes = .ok t) : Writes i s t := by
  obtain ⟨hc, rfl⟩ := appendOut_ok.1 h
  exact .single (.out hi hc)

/-- The bit_packer takes over what a write left. -/
theorem writes_commitWrite {r : Bytes × Pending} (ho : .out ∈ mayWrite i) (hb : .bp ∈ mayWrite i)
    (hr : PendingOk s.bp → PendingOk r.2) (h : commitWrite s r = .ok t) : Writes i s t := by
  obtain ⟨hc, rfl⟩ := commitWrite_ok.1 h
  exact .tail (.single (.out ho hc)) (.bp hb hr)

theorem writes_writeBits {v n : Nat} (ho : .out ∈ mayWrite i) (hb : .bp ∈ mayWrite i) (hv : n = 32 → v < 2 ^ 32)
    (h : writeBits s v n = .ok t) : Writes i s t := by
  obtain ⟨hn, hlt, hc, rfl⟩ := writeBits_ok.1 h
  refine writes_commitWrite (r := pushBits s.bp v n) ho hb (fun hp => ?_) (commitWrite_ok.2 ⟨hc, rfl⟩)
  refine (pushBits_spec s.bp v n hp hn ?_).1
  obtain h32 | rfl := Nat.lt_or_eq_of_le hn
  · exact hlt h32
  · exact hv rfl

/-- The output of a run goes to `OUT`, and the decoder waits in a phase other than `Error`. -/
theorem writes_commitRun {out : Bytes} {ph : Phase} (ho : .out ∈ mayWrite i) (hi : .inf ∈ mayWrite i)
    (he : s.inf.err = none) (hph : ph ≠ .error) (h : commitRun s out ph = .ok t) : Writes i s t := by
  obtain ⟨-, hc, rfl⟩ := commitRun_ok.1 h
  refine .tail (.single (.out ho (bytes := out.drop s.inf.emitted) ?_)) (.inf hi (fun _ => ?_) id)
  · rwa [List.length_drop]
  · simp only [InflaterOk, he]; simpa using hph

/-- `RESULT` and `RESULT2` written. -/
theorem writes_results (h1 : .result ∈ mayWrite i) (h2 : .result2 ∈ mayWrite i) (v w : Word) :
    Writes i s { s with result := v, result2 := w } := .tail (.single (.result h1 v)) (.result2 h2 w)

/-- Bits of `BU` consumed, with what they stand for in `RESULT`. -/
theorem writes_read {n : Nat} (h1 : .result ∈ mayWrite i) (h2 : .bu ∈ mayWrite i) (hn : n ≤ remainingBits s.bu)
    (w : Word) : Writes i s { s with result := w, bu := { s.bu with pos := s.bu.pos + n } } :=
  .tail (.single (.result h1 w)) (.bu h2 (unpackerOk_advance hn) id)

/-- A parsed archive that is opened, its image cut or not. -/
theorem write_openZip {img : Bytes} {index : List Entry} {cdoff : Word} {mode : ZipMode} {bytes : Bytes}
    (hi : .zip ∈ mayWrite i) (hp : parseArchive bytes = .ok (index, cdoff)) (hm : mode ≠ .idle)
    (hc : img.length ≤ s.params.maxStreamBytes ∧ img.length ≤ imageLimit) :
    Write i s { s with zip := ⟨img, index, cdoff, mode⟩ } := by
  obtain ⟨hlen, hok⟩ := parseArchive_ok hp
  exact .zip hi (fun _ => ⟨hlen, hok, fun h => absurd h hm⟩) (fun _ => hc)

/-- An entry that joins the archive of a writer (R482, R484). -/
theorem writes_addEntry {nm : Bytes} {mode : Half} {attr : Word} {method : Half} {data payload : Bytes}
    (hz : .zip ∈ mayWrite i) (hr : .result ∈ mayWrite i) (hm : s.zip.mode = .writer) (hn : addChecks s nm = .ok ())
    (h : addEntry s nm mode attr method data payload = .ok t) : Writes i s t := by
  obtain ⟨-, e, rfl, hc, rfl⟩ := addEntry_ok.1 h
  obtain ⟨⟨-, hlen⟩, hroom⟩ := addChecks_ok.1 hn
  refine .tail (.single (.result hr (BitVec.ofNat 32 payload.length)))
    (.zip hz (fun hok => ⟨?_, ?_, fun hidle => ?_⟩) (fun _ => hc))
  · simpa using hroom
  · intro e he
    obtain he | he := List.mem_append.1 he
    · exact hok.2.1 e he
    · rw [List.mem_singleton.1 he]
      exact entryOk_makeEntry _ _ _ _ _ _ _ _ hlen
  · exact absurd (hm.symm.trans hidle) (by decide)

/-- An archive finalized (R486). -/
theorem writes_finalizeArchive (hz : .zip ∈ mayWrite i) (ho : .out ∈ mayWrite i) (hr : .result ∈ mayWrite i)
    (h : finalizeArchive s = .ok t) : Writes i s t := by
  obtain ⟨-, -, -, img, -, himg, hout, rfl⟩ := finalizeArchive_ok.1 h
  refine .tail (.tail (.single (.out ho hout)) (.zip hz (fun hok => ?_) (fun _ => himg))) (.result hr _)
  obtain ⟨hlen, hentries, -⟩ := hok
  exact ⟨hlen, hentries, fun hidle => absurd hidle (by simp)⟩

/-- The codec reset. -/
theorem write_zipReset (hz : .zip ∈ mayWrite i) : Write i s { s with zip := Zip.reset } :=
  .zip hz (fun _ => by decide) (fun _ => ⟨Nat.zero_le _, Nat.zero_le _⟩)

/-! ### The commands -/

theorem ends_bpWriteBits {n : BitVec 6} (h : exec (.bpWriteBits n) s = .next t) : Ends (.bpWriteBits n) s t :=
  ends_complete h (by simp) fun _ hu =>
    writes_writeBits (by simp [mayWrite]) (by simp [mayWrite]) (fun _ => s.arg.isLt) hu

theorem ends_bpWriteByte (h : exec .bpWriteByte s = .next t) : Ends .bpWriteByte s t := by
  refine ends_complete h (by simp) fun u hu => ?_
  obtain ⟨-, -, hu⟩ := bind_ok.1 hu
  exact writes_writeBits (by decide) (by decide) (fun _ => s.arg.isLt) hu

theorem ends_bpWriteBytes (h : exec .bpWriteBytes s = .next t) : Ends .bpWriteBytes s t :=
  ends_complete h (by simp) fun _ hu => writes_commitWrite (by decide) (by decide)
    (fun hp => (packFields_spec s.bp _ hp (byteFields_ok s.inp)).1) hu

theorem ends_bpAlign (h : exec .bpAlign s = .next t) : Ends .bpAlign s t :=
  ends_complete h (by simp) fun _ hu => writes_commitWrite (by decide) (by decide) pendingOk_alignBits hu

theorem ends_buLoad (h : exec .buLoad s = .next t) : Ends .buLoad s t := by
  refine ends_complete h (by simp) fun u hu => ?_
  simp only [bind_ok, checkCapacity_ok, exists_const, Except.ok.injEq] at hu
  obtain ⟨hc, rfl⟩ := hu
  refine .single (.bu (by decide) (fun hok => ?_) (fun _ => by simpa using hc))
  simp only [UnpackerOk, List.length_append] at *
  omega

theorem ends_buReadBits {n : BitVec 6} (h : exec (.buReadBits n) s = .next t) : Ends (.buReadBits n) s t := by
  refine ends_complete h (by simp) fun u hu => ?_
  obtain ⟨v, hv, hu⟩ := bind_ok.1 hu
  cases hu
  exact writes_read (by simp [mayWrite]) (by simp [mayWrite]) (peekValue_le hv) _

theorem ends_buPeekBits {n : BitVec 6} (h : exec (.buPeekBits n) s = .next t) : Ends (.buPeekBits n) s t := by
  refine ends_complete h (by simp) fun u hu => ?_
  obtain ⟨v, -, hu⟩ := bind_ok.1 hu
  cases hu
  exact .single (.result (by simp [mayWrite]) _)

theorem ends_buSkipBits (h : exec .buSkipBits s = .next t) : Ends .buSkipBits s t := by
  refine ends_complete h (by simp) fun u hu => ?_
  simp only [bind_ok, require_ok, exists_const, Except.ok.injEq] at hu
  obtain ⟨hn, rfl⟩ := hu
  exact .single (.bu (by decide) (unpackerOk_advance hn) id)

theorem ends_buAlign (h : exec .buAlign s = .next t) : Ends .buAlign s t := by
  refine ends_succeed h (.single (.bu (by decide) (fun hok => ?_) id))
  simp only [UnpackerOk] at *
  omega

/-- A legal table in a slot that is one (spec/42 R280). -/
theorem ends_hufBuild {slot : BitVec 2} (h : exec (.hufBuild slot) s = .next t) : Ends (.hufBuild slot) s t := by
  refine ends_complete h (by simp) fun u hu => ?_
  simp only [bind_ok, slotOperand_ok, require_ok, validateLengths_ok, exists_const, Except.ok.injEq] at hu
  obtain ⟨hslot, hlen, hlegal, rfl⟩ := hu
  have hok : slotOk (slotCapacity slot) (.table (lengthsOperand s)) = true :=
    decide_eq_true ⟨by simpa [lengthsOperand] using hlen, hlegal⟩
  have hcases : ∀ k : BitVec 2, k ≠ 3 → k = 0 ∨ k = 1 ∨ k = 2 := by decide
  obtain rfl | rfl | rfl := hcases slot hslot
  · exact .single (.ht0 (by decide) hok)
  · exact .single (.ht1 (by decide) hok)
  · exact .single (.ht2 (by decide) hok)

theorem ends_hufLoadFixed (h : exec .hufLoadFixed s = .next t) : Ends .hufLoadFixed s t :=
  ends_succeed h (.tail (.single (.ht0 (by decide) slotOk_fixedLit)) (.ht1 (by decide) slotOk_fixedDist))

theorem ends_hufEncode {slot : BitVec 2} (h : exec (.hufEncode slot) s = .next t) : Ends (.hufEncode slot) s t := by
  refine ends_complete h (by simp) fun u hu => ?_
  simp only [bind_ok, require_ok, exists_const] at hu
  obtain ⟨lengths, -, sym, -, -, hu⟩ := hu
  exact writes_writeBits (by simp [mayWrite]) (by simp [mayWrite]) (fun h32 => h32 ▸ reverseBits_lt _ _) hu

theorem ends_hufDecode {slot : BitVec 2} (h : exec (.hufDecode slot) s = .next t) : Ends (.hufDecode slot) s t := by
  refine ends_complete h (by simp) fun u hu => ?_
  obtain ⟨lengths, -, hu⟩ := bind_ok.1 hu
  obtain ⟨⟨sym, used, rest⟩, hd, hu⟩ := bind_ok.1 hu
  cases hu
  exact writes_read (by simp [mayWrite]) (by simp [mayWrite]) (decodeSymbol_le hd) _

theorem ends_hufQuery {slot : BitVec 2} (h : exec (.hufQuery slot) s = .next t) : Ends (.hufQuery slot) s t := by
  refine ends_complete h ?_ fun u hu => ?_
  · simp only [reports_bind, reports_tableOperand, reports_symbolOperand, true_and]
    intro _ _ _ _
    split <;> simp
  · simp only [bind_ok] at hu
    obtain ⟨lengths, -, sym, -, hu⟩ := hu
    split at hu <;> cases hu <;> exact writes_results (by simp [mayWrite]) (by simp [mayWrite]) _ _

theorem ends_lzTokenize (h : exec .lzTokenize s = .next t) : Ends .lzTokenize s t := by
  refine ends_complete h (by simp) fun u hu => ?_
  obtain ⟨n, -, hu⟩ := bind_ok.1 hu
  cases hu
  exact .tail (.single (.result (by decide) n)) (.tokq (by decide) (fun _ => tokenizeFrom_legal))

theorem ends_lzPop (h : exec .lzPop s = .next t) : Ends .lzPop s t := by
  refine ends_complete h (by split <;> simp) fun u hu => ?_
  split at hu
  · cases hu
  · rename_i x rest hq
    cases hu
    refine .tail (.single (.result (by decide) (tokenWord x))) (.tokq (by decide) fun hok y hy => hok y ?_)
    exact hq ▸ List.mem_cons_of_mem x hy

theorem ends_lzCount (h : exec .lzCount s = .next t) : Ends .lzCount s t := by
  refine ends_complete h (by simp) fun u hu => ?_
  obtain ⟨n, -, hu⟩ := bind_ok.1 hu
  cases hu
  exact .single (.result (by decide) _)

theorem ends_deflate {level : BitVec 4} {wrap : Bool} (h : exec (.deflate level wrap) s = .next t) :
    Ends (.deflate level wrap) s t := by
  refine ends_complete h (by simp) fun u hu => ?_
  simp only [bind_ok] at hu
  obtain ⟨l, -, a, ha, n, -, hu⟩ := hu
  cases hu
  exact (writes_appendOut (by simp [mayWrite]) ha).tail (.result (by simp [mayWrite]) _)

theorem ends_inflateStart {wrap : Bool} (h : exec (.inflateStart wrap) s = .next t) :
    Ends (.inflateStart wrap) s t := by
  refine ends_succeed h (.single (.inf (by simp [mayWrite]) (fun _ => ?_) (fun _ => Nat.zero_le _)))
  cases wrap <;> decide

theorem ends_inflateFeed (hi : .inf ∈ mayWrite i) (h : execInflateFeed s = .next t) : Ends i s t := by
  refine ends_complete h (by simp) fun u hu => ?_
  simp only [bind_ok, checkCapacity_ok, exists_const, Except.ok.injEq] at hu
  obtain ⟨-, -, hc, rfl⟩ := hu
  exact .single (.inf hi id (fun _ => by simpa using hc))

/-- A run (R425): the error it held before, the end of the stream, more input asked for, or a hard error. -/
theorem ends_inflateRun (ho : .out ∈ mayWrite i) (hi : .inf ∈ mayWrite i) (h1 : .result ∈ mayWrite i)
    (h2 : .result2 ∈ mayWrite i) (h : execInflateRun s = .next t) : Ends i s t := by
  unfold execInflateRun at h
  split at h
  · rename_i e he
    rw [raise_next.1 h]
    refine ends_report (fun hio => reports_requireStarted s ?_) .refl
    rw [he, Option.some.inj hio]
  split at h
  · rename_i e he
    refine ⟨some e, s, .refl, fun hok hio => ?_, raise_next.1 h⟩
    exact hardErrors_ne_ioError (hok.2 e he) (Option.some.inj hio)
  rename_i herr
  split at h
  · refine ends_complete h (by simp) fun u hu => ?_
    simp only [bind_ok] at hu
    obtain ⟨a, ha, v, -, w, -, hu⟩ := hu
    cases hu
    exact (writes_commitRun ho hi herr (by decide) ha).trans (writes_results h1 h2 v w)
  · rename_i out ph hrun
    split at h
    · rename_i u hu
      cases h
      exact ends_report (by decide) (writes_commitRun ho hi herr (inflate_more hrun) hu)
    · rename_i e he
      rw [raise_next.1 h]
      refine ends_report (fun hio => reports_commitRun s out ph ?_) .refl
      rw [he, Option.some.inj hio]
  · rename_i e hrun
    have hhard := inflate_fail hrun
    cases h
    refine ends_report (by simpa using hardErrors_ne_ioError hhard) (.single (.inf hi (fun _ => ?_) id))
    simpa [InflaterOk] using hhard

theorem ends_zipOpenRead (hz : .zip ∈ mayWrite i) (hr : .result ∈ mayWrite i) (h : execZipOpenRead s = .next t) :
    Ends i s t := by
  refine ends_complete h (by simp) fun u hu => ?_
  simp only [bind_ok, checkImage_ok, exists_const] at hu
  obtain ⟨-, -, ⟨index, cdoff⟩, hp, hc, n, -, hu⟩ := hu
  cases hu
  exact .tail (.single (write_openZip hz hp (by decide) hc)) (.result hr _)

theorem ends_zipLocateEocd (h : exec .zipLocateEocd s = .next t) : Ends .zipLocateEocd s t := by
  refine ends_complete h (by simp) fun u hu => ?_
  simp only [bind_ok] at hu
  obtain ⟨p, -, n, -, hu⟩ := hu
  cases hu
  exact .single (.result (by decide) _)

theorem ends_zipEntryInfo {n : BitVec 6} (h : exec (.zipEntryInfo n) s = .next t) : Ends (.zipEntryInfo n) s t := by
  refine ends_complete h (by simp) fun u hu => ?_
  simp only [bind_ok] at hu
  obtain ⟨-, -, e, -, v, -, hu⟩ := hu
  cases hu
  exact .single (.result (by simp [mayWrite]) _)

theorem ends_zipEntryName (h : exec .zipEntryName s = .next t) : Ends .zipEntryName s t := by
  refine ends_complete h (by simp) fun u hu => ?_
  simp only [bind_ok] at hu
  obtain ⟨-, -, e, -, a, ha, n, -, hu⟩ := hu
  cases hu
  exact (writes_appendOut (by decide) ha).tail (.result (by decide) _)

theorem ends_zipExtract (ho : .out ∈ mayWrite i) (h1 : .result ∈ mayWrite i) (h2 : .result2 ∈ mayWrite i)
    (h : execZipExtract s = .next t) : Ends i s t := by
  refine ends_complete h (by simp) fun u hu => ?_
  simp only [bind_ok] at hu
  obtain ⟨-, -, e, -, data, -, a, ha, n, -, hu⟩ := hu
  cases hu
  exact (writes_appendOut ho ha).trans (writes_results h1 h2 _ _)

theorem ends_zipCreate (h : exec .zipCreate s = .next t) : Ends .zipCreate s t := by
  refine ends_complete h (by simp) fun u hu => ?_
  obtain ⟨-, -, hu⟩ := bind_ok.1 hu
  cases hu
  exact .single (.zip (by decide) (fun _ => by decide) (fun _ => ⟨Nat.zero_le _, Nat.zero_le _⟩))

theorem ends_zipOpenAppend (h : exec .zipOpenAppend s = .next t) : Ends .zipOpenAppend s t := by
  refine ends_complete h (by simp) fun u hu => ?_
  simp only [bind_ok, checkImage_ok, exists_const] at hu
  obtain ⟨-, -, ⟨index, cdoff⟩, hp, hc, n, -, hu⟩ := hu
  cases hu
  exact .tail (.single (write_openZip (by decide) hp (by decide) hc)) (.result (by decide) _)

theorem ends_zipAddFile {level : BitVec 4} {store : Bool} (h : exec (.zipAddFile level store) s = .next t) :
    Ends (.zipAddFile level store) s t := by
  refine ends_complete h (by cases store <;> simp) fun u hu => ?_
  simp only [bind_ok, requireWriter_ok, exists_const] at hu
  obtain ⟨hm, mode, -, l, -, u, hn, hu⟩ := hu
  cases store <;> exact writes_addEntry (by simp [mayWrite]) (by simp [mayWrite]) hm hn hu

theorem ends_zipAddDir (h : exec .zipAddDir s = .next t) : Ends .zipAddDir s t := by
  refine ends_complete h (by simp) fun u hu => ?_
  simp only [bind_ok, requireWriter_ok, exists_const] at hu
  obtain ⟨hm, mode, -, u, hn, hu⟩ := hu
  exact writes_addEntry (by decide) (by decide) hm hn hu

theorem ends_zipFinalize (h : exec .zipFinalize s = .next t) : Ends .zipFinalize s t :=
  ends_complete h (by simp) fun _ hu => writes_finalizeArchive (by decide) (by decide) (by decide) hu

/-- `ZIP` is reset whether or not a writer's finalize succeeds (spec/60 R533, exception 3). -/
theorem ends_zipClose (h : exec .zipClose s = .next t) : Ends .zipClose s t := by
  change execZipClose s = _ at h
  unfold execZipClose at h
  split at h
  · split at h
    · rename_i u hu
      have hw : Writes .zipClose s u := writes_finalizeArchive (by decide) (by decide) (by decide) hu
      exact ends_succeed h (hw.tail (write_zipReset (by decide)))
    · rename_i e he
      cases h
      refine ends_report (fun hio => reports_finalizeArchive s ?_) (.single (write_zipReset (by decide)))
      rw [he, Option.some.inj hio]
  · exact ends_succeed h (.single (write_zipReset (by decide)))

/-! ### The wire items (log 7) -/

theorem ends_arriveAtDecoder {bytes : Bytes} (hi : mayWrite i = [.inp, .out, .inf, .result, .result2])
    (h : arriveAtDecoder bytes s = .next t) : Ends i s t :=
  ends_withInput h (by simp [hi]) fun _ hu =>
    ends_andThen hu (fun _ hv => (ends_inflateFeed (by simp [hi]) hv).writes)
      fun _ hv => ends_inflateRun (by simp [hi]) (by simp [hi]) (by simp [hi]) (by simp [hi]) hv

/-- Bytes that are opened as an archive. -/
theorem ends_openInput {bytes : Bytes} (hi : mayWrite i = [.inp, .zip, .result])
    (h : withInput s bytes execZipOpenRead = .next t) : Ends i s t :=
  ends_withInput h (by simp [hi]) fun _ hu => ends_zipOpenRead (by simp [hi]) (by simp [hi]) hu

theorem ends_zipLocalHeader {r : LocalRecord} (h : exec (.zipLocalHeader r) s = .next t) :
    Ends (.zipLocalHeader r) s t := by
  change execZipLocalHeader r s = _ at h
  unfold execZipLocalHeader at h
  refine ends_withInput h (by simp [mayWrite]) fun u hu => ends_andThen hu (fun v hv => ?_) fun v hv => ?_
  · exact (ends_zipOpenRead (by simp [mayWrite]) (by simp [mayWrite]) hv).writes
  · exact (ends_zipExtract (by simp [mayWrite]) (by simp [mayWrite]) (by simp [mayWrite]) hv).after
      (.single (.arg (by simp [mayWrite]) _))

/-- The token is taken off the queue again. -/
theorem returnToken_eq (x : LZSymbol) (s : State) :
    returnToken x s = .next (report none { s with result := tokenWord x }) := rfl

theorem ends_returnToken {x : LZSymbol} (hi : .result ∈ mayWrite i) (h : returnToken x s = .next t) : Ends i s t := by
  rw [returnToken_eq] at h
  cases h
  exact ends_report (by decide) (.single (.result hi _))

/-- Every instruction ends with a report, after writes to its own results only, each of which keeps its item legal. -/
theorem exec_ends (h : exec i s = .next t) : Ends i s t := by
  cases i with
  | nop => exact ends_succeed h .refl
  | coreReset => exact ends_succeed h (.single (.reset rfl))
  | statusClear => exact ends_succeed h (.single .status)
  | outClear => exact ends_succeed h (.single (.cleared rfl))
  | bpReset => exact ends_succeed h (.single (.bp (by decide) fun _ => by decide))
  | bpWriteBits n => exact ends_bpWriteBits h
  | bpWriteByte => exact ends_bpWriteByte h
  | bpWriteBytes => exact ends_bpWriteBytes h
  | bpAlign => exact ends_bpAlign h
  | buLoad => exact ends_buLoad h
  | buReset => exact ends_succeed h (.single (.bu (by decide) (fun _ => by decide) (fun _ => Nat.zero_le _)))
  | buReadBits n => exact ends_buReadBits h
  | buPeekBits n => exact ends_buPeekBits h
  | buSkipBits => exact ends_buSkipBits h
  | buAlign => exact ends_buAlign h
  | buPosition => exact ends_succeed h (writes_results (by decide) (by decide) _ _)
  | buRemaining => exact ends_succeed h (writes_results (by decide) (by decide) _ _)
  | adlerSeed => exact ends_succeed h (.single (.adler (by decide) _))
  | adlerUpdate => exact ends_succeed h (.single (.adler (by decide) _))
  | adlerRead => exact ends_succeed h (.single (.result (by decide) _))
  | crcSeed => exact ends_succeed h (.single (.crc (by decide) _))
  | crcUpdate => exact ends_succeed h (.single (.crc (by decide) _))
  | crcRead => exact ends_succeed h (.single (.result (by decide) _))
  | hufBuild slot => exact ends_hufBuild h
  | hufLoadFixed => exact ends_hufLoadFixed h
  | hufEncode slot => exact ends_hufEncode h
  | hufDecode slot => exact ends_hufDecode h
  | hufQuery slot => exact ends_hufQuery h
  | lzTokenize => exact ends_lzTokenize h
  | lzPop => exact ends_lzPop h
  | lzCount => exact ends_lzCount h
  | deflate level wrap => exact ends_deflate h
  | inflateStart wrap => exact ends_inflateStart h
  | inflateFeed => exact ends_inflateFeed (by decide) h
  | inflateRun => exact ends_inflateRun (by decide) (by decide) (by decide) (by decide) h
  | zipOpenRead => exact ends_zipOpenRead (by decide) (by decide) h
  | zipLocateEocd => exact ends_zipLocateEocd h
  | zipEntryInfo n => exact ends_zipEntryInfo h
  | zipEntryName => exact ends_zipEntryName h
  | zipExtract => exact ends_zipExtract (by decide) (by decide) (by decide) h
  | zipCreate => exact ends_zipCreate h
  | zipOpenAppend => exact ends_zipOpenAppend h
  | zipAddFile level store => exact ends_zipAddFile h
  | zipAddDir => exact ends_zipAddDir h
  | zipFinalize => exact ends_zipFinalize h
  | zipClose => exact ends_zipClose h
  | blockStored final body => exact ends_arriveAtDecoder (bytes := [blockByte 0 final body]) rfl h
  | blockFixed final body => exact ends_arriveAtDecoder (bytes := [blockByte 1 final body]) rfl h
  | blockDynamic final body => exact ends_arriveAtDecoder (bytes := [blockByte 2 final body]) rfl h
  | blockReserved final body => exact ends_arriveAtDecoder (bytes := [blockByte 3 final body]) rfl h
  | zlibHeader => exact ends_arriveAtDecoder (bytes := [0x78, 0x9C]) rfl h
  | zipLocalHeader r => exact ends_zipLocalHeader h
  | zipCentralHeader r => exact ends_openInput (bytes := oneEntryImage [] (centralBytes r)) rfl h
  | zipEocd r => exact ends_openInput (bytes := eocdBytes r) rfl h
  | lzTokenLiteral b => exact ends_returnToken (by simp [mayWrite]) h
  | lzTokenMatch k d => exact ends_returnToken (by simp [mayWrite]) h

end

section

variable {i : Instr} {s t u : State} {item : Item}

/-! ## The frame of every instruction (spec/30 R112, spec/10 R33) -/

theorem sameItem_refl (s : State) (item : Item) : sameItem s s item := by cases item <;> rfl

theorem sameItem_trans (h : sameItem s t item) (h' : sameItem t u item) : sameItem s u item := by
  cases item <;> exact h'.trans h

/-- A write leaves every item alone that is none of the instruction's results. -/
theorem sameItem_of_write (h : Write i s t) (hi : item ∉ mayWrite i) : sameItem s t item := by
  cases h with
  | status => exact sameItem_refl s item
  | cleared hc | reset hc =>
    subst hc
    cases item <;> try rfl
    all_goals exact absurd (by decide) hi
  | _ hw =>
    cases item <;> try rfl
    exact absurd hw hi

theorem sameItem_of_writes (h : Writes i s t) (hi : item ∉ mayWrite i) : sameItem s t item :=
  h.keeps (P := (sameItem s · item)) (fun _ _ hw hs => sameItem_trans hs (sameItem_of_write hw hi))
    (sameItem_refl s item)

/-- A write of another instruction than `OUT_CLEAR` and `CORE_RESET` removes nothing from `OUT`. -/
theorem out_grows_of_write (hc : i ≠ .outClear) (hr : i ≠ .coreReset) (h : Write i s t) : s.out <+: t.out := by
  cases h with
  | cleared hi => exact absurd hi hc
  | reset hi => exact absurd hi hr
  | out => exact List.prefix_append _ _
  | _ => exact List.prefix_refl _

theorem out_grows_of_writes (hc : i ≠ .outClear) (hr : i ≠ .coreReset) (h : Writes i s t) : s.out <+: t.out :=
  h.keeps (P := (s.out <+: ·.out)) (fun _ _ hw hs => hs.trans (out_grows_of_write hc hr hw)) (List.prefix_refl _)

/-! ## Invariants of a step

What every write keeps and what does not depend on the host's registers, every step keeps. -/

/-- The host's actions change the host's program, `CMD` and the operands, and a stream operand within its capacity only
(spec/70 R590, R591). -/
def OperandFree (P : State → Prop) : Prop :=
  ∀ (s : State) (host : List HostAction) (cmd arg arg2 : Word) (inp name : Bytes),
    (s.inp.length ≤ s.params.maxStreamBytes → inp.length ≤ s.params.maxStreamBytes) →
    (s.name.length ≤ s.params.maxStreamBytes → name.length ≤ s.params.maxStreamBytes) →
    P s → P { s with host := host, cmd := cmd, arg := arg, arg2 := arg2, inp := inp, name := name }

/-- A step is the host's action, and then an instruction or an illegal command. -/
theorem step_keeps {P : State → Prop} (hop : OperandFree P)
    (hill : ∀ s, P s → P (report (some .illegalCommand) s))
    (hexec : ∀ i s t, P s → exec i s = .next t → P t) (hs : P s) (h : step s = .next t) : P t := by
  obtain ⟨i, u, hf, hx⟩ | hf := step_next h
  · refine hexec i u t ?_ hx
    obtain ⟨w, rest, -, -, rfl⟩ | ⟨bytes, rest, -, -, rfl⟩ := fetch_run hf
    · exact hop s rest w s.arg s.arg2 s.inp s.name id id hs
    · exact hop s rest s.cmd s.arg s.arg2 s.inp s.name id id hs
  · obtain ⟨-, rfl⟩ | ⟨rest, ⟨b, -, hb, rfl⟩ | ⟨b, -, hb, rfl⟩ | ⟨w, -, rfl⟩ | ⟨w, -, rfl⟩ | ⟨w, -, rfl⟩⟩ :=
      fetch_settled hf
    · exact hs
    · exact hop s rest s.cmd s.arg s.arg2 b s.name (fun _ => hb) id hs
    · exact hop s rest s.cmd s.arg s.arg2 s.inp b id (fun _ => hb) hs
    · exact hop s rest s.cmd w s.arg2 s.inp s.name id id hs
    · exact hop s rest s.cmd s.arg w s.inp s.name id id hs
    · exact hill _ (hop s rest w s.arg s.arg2 s.inp s.name id id hs)

/-- What every write keeps, every step keeps. -/
theorem step_keeps_of_write {P : State → Prop} (hop : OperandFree P) (hw : ∀ i s t, Write i s t → P s → P t)
    (hs : P s) (h : step s = .next t) : P t :=
  step_keeps hop (fun s => hw .nop s _ .status) (fun i _ _ hs hx => (exec_ends hx).writes.keeps (hw i) hs) hs h

/-! ### The status word -/

theorem outcomeCode_assigned {e : Option Error} (he : e ≠ some .ioError) :
    (outcomeCode e).toNat ≤ 0x1F ∧ outcomeCode e ≠ 0x0F ∧ outcomeCode e ≠ 0x1B := by
  cases e with
  | none => decide
  | some e => revert he; cases e <;> decide

/-- A report of an assigned code agrees with the units (R532). -/
theorem statusOk_report {e : Option Error} (he : e ≠ some .ioError) (hs : InflaterOk s.inf) :
    StatusOk (report e s) := by
  obtain ⟨hle, h0F, h1B⟩ := outcomeCode_assigned he
  obtain ⟨hphase, hhard⟩ := hs
  rw [StatusOk, errField_report, stickyField_report]
  exact ⟨rfl, hle, h0F, h1B, hphase, hhard⟩

/-! ## Reset (spec/10 R55, spec/70 R570, R571) -/

/-- A report that finds the status word it would write changes nothing. -/
theorem report_eq_self {e : Option Error} (h : (report e s).status = s.status) : report e s = s := by
  have hs : report e s = { s with status := (report e s).status } := rfl
  rw [hs, h]

/-- The reset state's status word is the one a success reports in it (spec/30 R117). -/
theorem statusWord_reset :
    statusWord (outcomeCode none) (phaseCode .idle) (modeCode .idle) (stickyField 0 || setsSticky none)
      (BitVec.ofNat 3 0) = 0 := by decide

/-- `CORE_RESET` leaves the reset state, but for the host's program and the parameters. -/
theorem exec_coreReset (s : State) :
    exec .coreReset s = .next { State.reset with host := s.host, params := s.params } :=
  congrArg Host.Outcome.next (report_eq_self statusWord_reset)

end

/-! ## The statements -/

/-- Settles O9: an instruction's writes go to its own results, and those to `OUT` append. -/
theorem frameOfEveryInstruction : Obligations.FrameOfEveryInstruction :=
  ⟨fun _ _ _ _ h hi => sameItem_of_writes (exec_ends h).writes hi,
    fun _ _ _ hc hr h => out_grows_of_writes hc hr (exec_ends h).writes⟩

/-- Settles O11: the state `CORE_RESET` leaves is the reset state, item by item. -/
theorem resetValues : Obligations.ResetValues :=
  ⟨fun s => ⟨_, exec_coreReset s, by simp [State.reset, Pending.empty, Inflater.reset, Zip.reset]⟩,
    exec_coreReset State.reset⟩

/-- Settles O12: a write to `BP` or `BU` keeps its invariant, and no other write touches them. -/
theorem stepKeepsBitIo : Obligations.StepKeepsBitIo := by
  intro s t hp hu h
  refine step_keeps_of_write (P := fun s => PendingOk s.bp ∧ UnpackerOk s.bu) (fun _ _ _ _ _ _ _ _ _ hs => hs) ?_
    ⟨hp, hu⟩ h
  rintro i s t hw ⟨hp, hu⟩
  cases hw with
  | reset => exact (by decide : PendingOk State.reset.bp ∧ UnpackerOk State.reset.bu)
  | bp _ hbp => exact ⟨hbp hp, hu⟩
  | bu _ hbu => exact ⟨hp, hbu hu⟩
  | _ => exact ⟨hp, hu⟩

/-- Settles O13: every command and every illegal word ends with a report of an assigned code, and a write to the decoder
keeps its error and its phase in agreement. -/
theorem stepKeepsStatus : Obligations.StepKeepsStatus := by
  intro s t hs h
  refine step_keeps (P := StatusOk) (fun _ _ _ _ _ _ _ _ _ hs => hs) (fun s hs => ?_) (fun i s t hs hx => ?_) hs h
  · obtain ⟨-, -, -, -, hinf⟩ := hs
    exact statusOk_report (by decide) hinf
  · obtain ⟨-, -, -, -, hinf⟩ := hs
    obtain ⟨e, u, hw, he, rfl⟩ := exec_ends hx
    exact statusOk_report (he hinf) (hw.inflaterOk hinf)

/-- Settles O14: a write to a stream is checked against its capacity, and none goes to the parameters. -/
theorem stepKeepsStreams : Obligations.StepKeepsStreams := by
  intro s t hs h
  refine step_keeps_of_write (P := fun u => StreamsOk u ∧ u.params = s.params) ?_ ?_ ⟨hs, rfl⟩ h
  · rintro u host cmd arg arg2 inp name hin hnm ⟨⟨hinp, hname, hrest⟩, hpar⟩
    exact ⟨⟨hin hinp, hnm hname, hrest⟩, hpar⟩
  · rintro i u v hw ⟨⟨hinp, hname, hout, hbu, hinf, himg, hspace⟩, hpar⟩
    cases hw with
    | cleared => exact ⟨⟨hinp, hname, Nat.zero_le _, hbu, hinf, himg, hspace⟩, hpar⟩
    | reset =>
      exact ⟨by simp [StreamsOk, State.reset, Inflater.reset, Zip.reset], hpar⟩
    | inp _ hc => exact ⟨⟨hc, hname, hout, hbu, hinf, himg, hspace⟩, hpar⟩
    | out _ hc => exact ⟨⟨hinp, hname, List.length_append ▸ hc, hbu, hinf, himg, hspace⟩, hpar⟩
    | bu _ _ hc => exact ⟨⟨hinp, hname, hout, hc hbu, hinf, himg, hspace⟩, hpar⟩
    | inf _ _ hc => exact ⟨⟨hinp, hname, hout, hbu, hc hinf, himg, hspace⟩, hpar⟩
    | zip _ _ hc => exact ⟨⟨hinp, hname, hout, hbu, hinf, hc ⟨himg, hspace⟩⟩, hpar⟩
    | _ => exact ⟨⟨hinp, hname, hout, hbu, hinf, himg, hspace⟩, hpar⟩

/-- Settles O15: a slot is written with a legal table only, the queue with legal tokens only. -/
theorem stepKeepsTables : Obligations.StepKeepsTables := by
  intro s t hs h
  refine step_keeps_of_write (P := TablesOk) (fun _ _ _ _ _ _ _ _ _ hs => hs) ?_ hs h
  rintro i u v hw ⟨h0, h1, h2, hq⟩
  cases hw with
  | reset => exact (by decide : TablesOk State.reset)
  | ht0 _ ht => exact ⟨ht, h1, h2, hq⟩
  | ht1 _ ht => exact ⟨h0, ht, h2, hq⟩
  | ht2 _ ht => exact ⟨h0, h1, ht, hq⟩
  | tokq _ hq' => exact ⟨h0, h1, h2, hq' hq⟩
  | _ => exact ⟨h0, h1, h2, hq⟩

/-- Settles O16: a write to the codec keeps the index within its limits and the mode `Idle` without an archive. -/
theorem stepKeepsArchive : Obligations.StepKeepsArchive := by
  intro s t hs h
  refine step_keeps_of_write (P := ArchiveOk) (fun _ _ _ _ _ _ _ _ _ hs => hs) ?_ hs h
  rintro i u v hw hok
  cases hw with
  | reset => exact (by decide : ArchiveOk State.reset)
  | zip _ hz => exact hz hok
  | _ => exact hok

/-- Settles O17: each invariant is a finite fact about the reset state. -/
theorem resetMeetsInvariants : Obligations.ResetMeetsInvariants := by
  unfold Obligations.ResetMeetsInvariants
  decide

end Sys2Proof.Machine

/-! The archive's opening: the checks of the parser in their order, and `ZIP_OPEN_READ` and `ZIP_OPEN_APPEND` as one
operation (spec/46 R460, R463, R488). -/

namespace Sys2Proof.Machine

/-! ## The parser's checks (spec/46 R463 to R468) -/

theorem parseArchive_not_located {img : Bytes} {e : Error} (h : locateEocd img = .error e) :
    parseArchive img = .error e :=
  bind_error.2 (.inl h)

theorem parseArchive_several_disks {img : Bytes} {p : Nat} (hp : locateEocd img = .ok p)
    (h : u16At img (p + 4) ≠ 0 ∨ u16At img (p + 6) ≠ 0 ∨ u16At img (p + 8) ≠ u16At img (p + 10)) :
    parseArchive img = .error .multiDiskUnsupported :=
  (parseArchive_located hp rfl).trans <| if_neg fun ⟨hd, hcd, htot⟩ =>
    h.elim (· hd) fun h => h.elim (· hcd) (· htot)

/-- Behind the EOCD of an archive on one disk, the record and the directory must lie in the image (R463, R467). -/
theorem parseArchive_one_disk {img : Bytes} {p stop : Nat} (hp : locateEocd img = .ok p)
    (hd : u16At img (p + 4) = 0) (hcd : u16At img (p + 6) = 0) (htot : u16At img (p + 8) = u16At img (p + 10))
    (hstop : stop = (u32At img (p + 16)).toNat + (u32At img (p + 12)).toNat) :
    parseArchive img =
      if p + 22 + (u16At img (p + 20)).toNat ≤ img.length ∧ stop ≤ img.length then
        (parseRecords img stop (u16At img (p + 10)).toNat (u32At img (p + 16)).toNat).map
          (fun index => (index, u32At img (p + 16)))
      else .error .corrupt := by
  subst hstop
  exact (parseArchive_located hp rfl).trans (if_pos ⟨hd, hcd, htot⟩)

/-- One round of the record loop: its three checks in their order, then the records behind this one (R463, R465, R467). -/
theorem parseRecords_succ {img : Bytes} {stop k q next : Nat}
    (hn : next = q + 46 + (u16At img (q + 28)).toNat + (u16At img (q + 30)).toNat + (u16At img (q + 32)).toNat) :
    parseRecords img stop (k + 1) q =
      if q + 46 ≤ stop then
        if u32At img q = 0x02014B50 then
          if next ≤ stop then
            (parseRecords img stop k next).map (fun rest => entryOf (centralAt img q) :: rest)
          else .error .corrupt
        else .error .badSignature
      else .error .corrupt := by
  subst hn
  rw [parseRecords]
  simp only [require_bind]
  cases parseRecords img stop k _ <;> rfl

/-- The flags of a parsed entry are those of R469 and R470, and its name fits (R468). -/
theorem entryOk_entryOf_centralAt (img : Bytes) (q : Nat) : EntryOk (entryOf (centralAt img q)) :=
  entryOk_makeEntry _ _ _ _ _ _ _ _ (length_centralAt_name img q)

/-! ## Opening an archive (spec/46 R460, R488) -/

theorem requireNotWriter_error {s : State} {e : Error} :
    requireNotWriter s = .error e ↔ s.zip.mode = .writer ∧ e = .wrongMode := by
  rw [requireNotWriter, require_error, Decidable.not_not]

/-- What the two opening commands share: they differ in the part of `IN` they keep as the image, given the
central-directory offset, and in the mode they leave. -/
def openArchive (kept : Word → Bytes) (mode : ZipMode) (s : State) : Except Error State := do
  requireNotWriter s
  let (index, off) ← parseArchive s.inp
  checkImage s (kept off).length
  let n ← countWord index.length
  .ok { s with zip := ⟨kept off, index, off, mode⟩, result := n }

theorem exec_zipOpenRead (s : State) :
    exec .zipOpenRead s = complete s (openArchive (fun _ => s.inp) .reader s) := rfl

theorem exec_zipOpenAppend (s : State) :
    exec .zipOpenAppend s = complete s (openArchive (fun off => s.inp.take off.toNat) .writer s) := rfl

section
variable {kept : Word → Bytes} {mode : ZipMode} {s : State}

theorem openArchive_writer (hm : s.zip.mode = .writer) : openArchive kept mode s = .error .wrongMode :=
  bind_error.2 (.inl (requireNotWriter_error.2 ⟨hm, rfl⟩))

theorem openArchive_parse_error {e : Error} (hm : s.zip.mode ≠ .writer) (hp : parseArchive s.inp = .error e) :
    openArchive kept mode s = .error e :=
  bind_error.2 (.inr ⟨(), requireNotWriter_ok.2 hm, bind_error.2 (.inl hp)⟩)

theorem openArchive_image_too_long {index : List Entry} {off : Word} (hm : s.zip.mode ≠ .writer)
    (hp : parseArchive s.inp = .ok (index, off)) (hc : imageLimit < (kept off).length) :
    openArchive kept mode s = .error .capacityExceeded :=
  bind_error.2 (.inr ⟨(), requireNotWriter_ok.2 hm, bind_error.2 (.inr ⟨_, hp,
    bind_error.2 (.inl (checkImage_error.2 ⟨.inr hc, rfl⟩))⟩)⟩)

/-- A parsed archive has at most 65535 entries, so that their count always fits `RESULT`. -/
theorem openArchive_ok {index : List Entry} {off : Word} (hm : s.zip.mode ≠ .writer)
    (hp : parseArchive s.inp = .ok (index, off)) (hs : (kept off).length ≤ s.params.maxStreamBytes)
    (hl : (kept off).length ≤ imageLimit) :
    openArchive kept mode s =
      .ok { s with zip := ⟨kept off, index, off, mode⟩, result := BitVec.ofNat 32 index.length } := by
  obtain ⟨hlen, -⟩ := parseArchive_ok hp
  have hcount : countWord index.length = .ok (BitVec.ofNat 32 index.length) := countWord_ok.2 ⟨by omega, rfl⟩
  exact bind_ok.2 ⟨(), requireNotWriter_ok.2 hm, bind_ok.2 ⟨_, hp,
    bind_ok.2 ⟨(), checkImage_ok.2 ⟨hs, hl⟩, bind_ok.2 ⟨_, hcount, rfl⟩⟩⟩⟩

end

/-- An image cut at a 32-bit offset always fits its space (spec/20 R84). -/
theorem length_take_word_le (bytes : Bytes) (off : Word) : (bytes.take off.toNat).length ≤ imageLimit := by
  have hoff := off.isLt
  rw [List.length_take, imageLimit]
  omega

theorem exec_zipCreate_writer {s : State} (hm : s.zip.mode = .writer) :
    exec .zipCreate s = .next (report (some .wrongMode) s) :=
  congrArg (complete s) (bind_error.2 (.inl (requireNotWriter_error.2 ⟨hm, rfl⟩)))

theorem exec_zipCreate_not_writer {s : State} (hm : s.zip.mode ≠ .writer) :
    exec .zipCreate s = .next (report none { s with zip := ⟨[], [], 0, .writer⟩ }) :=
  congrArg (complete s) (bind_ok.2 ⟨(), requireNotWriter_ok.2 hm, rfl⟩)

/-- Settles O51: the parser is its checks in their order, and both opening commands are `openArchive`. -/
theorem zipOpen : Obligations.ZipOpen := by
  refine ⟨by decide, by decide, by decide, fun _ _ => parseArchive_not_located, fun img p hp => ?_,
    fun img cdend k q next hn => ?_, fun s hm => ?_, fun s hm => ?_⟩
  · -- behind a located EOCD
    refine ⟨parseArchive_several_disks hp, fun hd hcd htot cdend hend => ?_⟩
    rw [parseArchive_one_disk hp hd hcd htot hend]
    refine ⟨fun hpast => if_neg (by omega), fun heocd hdir => ?_⟩
    rw [if_pos ⟨heocd, hdir⟩]
    exact ⟨fun e he => by rw [he]; rfl, fun index hi => by rw [hi]; rfl⟩
  · -- one record
    have hround := parseRecords_succ (stop := cdend) (k := k) hn
    refine ⟨rfl, fun hpast => ?_, fun hin hsig => ?_, fun hin hsig hpast => ?_, fun hin hsig hnext => ?_⟩
    · rw [hround, if_neg (by omega)]
    · rw [hround, if_pos hin, if_neg hsig]
    · rw [hround, if_pos hin, if_pos hsig, if_neg (by omega)]
    · rw [hround, if_pos hin, if_pos hsig, if_pos hnext]
      exact ⟨fun e he => by rw [he]; rfl, fun index hi => ⟨entryOf (centralAt img q), by rw [hi]; rfl,
        rfl, rfl, rfl, rfl, rfl, rfl, rfl, rfl, rfl, entryOk_entryOf_centralAt img q⟩⟩
  · -- in the mode `Writer`
    rw [exec_zipOpenRead, exec_zipOpenAppend, openArchive_writer hm, openArchive_writer hm]
    exact ⟨rfl, rfl, exec_zipCreate_writer hm⟩
  · -- outside it
    rw [exec_zipOpenRead, exec_zipOpenAppend]
    refine ⟨exec_zipCreate_not_writer hm, fun e hp => ?_,
      fun index off hp hcap => ⟨fun hfit => ?_, fun hlong => ?_, ?_⟩⟩
    · rw [openArchive_parse_error hm hp, openArchive_parse_error hm hp]
      exact ⟨rfl, rfl⟩
    · rw [openArchive_ok hm hp hcap hfit]
      rfl
    · rw [openArchive_image_too_long (kept := fun _ => s.inp) hm hp hlong]
      rfl
    · have hcut : (s.inp.take off.toNat).length ≤ s.inp.length := List.length_take_le' _ _
      rw [openArchive_ok hm hp (hcut.trans hcap) (length_take_word_le s.inp off)]
      rfl

end Sys2Proof.Machine

/-! The encodings: a command word and its fields, a wire item and its bytes, and from both that the decoder and the
encoder undo each other (spec/30). -/

namespace Sys2Proof

open Machine (unassigned usedFields LegalWord)
open Laws.EncodedFields (opcField_commandWord reservedField_commandWord)

/-! ## Bits and parts of a vector -/

theorem ofBool_getLsbD {n : Nat} (w : BitVec n) (k : Nat) : BitVec.ofBool (w.getLsbD k) = w.extractLsb' k 1 := by
  refine BitVec.eq_of_getLsbD_eq fun i hi => ?_
  obtain rfl : i = 0 := by omega
  simp

theorem getLsbD_of_extract {n k : Nat} {w : BitVec n} {b : Bool} (h : w.extractLsb' k 1 = BitVec.ofBool b) :
    w.getLsbD k = b := by
  rw [BitVec.getLsbD_eq_extractLsb', h]
  cases b <;> rfl

/-- No bit is set outside a mask exactly if the mask keeps the vector. -/
theorem and_not_eq_zero_iff {n : Nat} {w m : BitVec n} : w &&& ~~~m = 0 ↔ w &&& m = w := by
  simp only [BitVec.eq_of_getLsbD_eq_iff, BitVec.getLsbD_and, BitVec.getLsbD_not, BitVec.ofNat_eq_ofNat,
    BitVec.getLsbD_zero]
  refine forall₂_congr fun i hi => ?_
  cases w.getLsbD i <;> simp [hi]

theorem and_eq_self_of_ones {n : Nat} {x m : BitVec n} (h : m = BitVec.allOnes n) : x &&& m = x := by
  rw [h, BitVec.and_allOnes]

/-! ## Command words and their fields (R110) -/

section
variable (opc : BitVec 8) (n : BitVec 6) (level : BitVec 4) (wrap : Bool) (slot : BitVec 2) (store : Bool)

theorem nField_commandWord : nField (commandWord opc n level wrap slot store) = n :=
  (BitVec.extractLsb'_append_eq_of_le (by decide)).trans BitVec.extractLsb'_append_eq_right

theorem levelField_commandWord : levelField (commandWord opc n level wrap slot store) = level :=
  (BitVec.extractLsb'_append_eq_of_le (by decide)).trans <|
    (BitVec.extractLsb'_append_eq_of_le (by decide)).trans BitVec.extractLsb'_append_eq_right

theorem wrapField_commandWord : wrapField (commandWord opc n level wrap slot store) = wrap :=
  getLsbD_of_extract <| (BitVec.extractLsb'_append_eq_of_le (by decide)).trans <|
    (BitVec.extractLsb'_append_eq_of_le (by decide)).trans <|
    (BitVec.extractLsb'_append_eq_of_le (by decide)).trans BitVec.extractLsb'_append_eq_right

theorem slotField_commandWord : slotField (commandWord opc n level wrap slot store) = slot :=
  (BitVec.extractLsb'_append_eq_of_le (by decide)).trans <|
    (BitVec.extractLsb'_append_eq_of_le (by decide)).trans <|
    (BitVec.extractLsb'_append_eq_of_le (by decide)).trans <|
    (BitVec.extractLsb'_append_eq_of_le (by decide)).trans BitVec.extractLsb'_append_eq_right

theorem storeField_commandWord : storeField (commandWord opc n level wrap slot store) = store :=
  getLsbD_of_extract <| (BitVec.extractLsb'_append_eq_of_le (by decide)).trans <|
    (BitVec.extractLsb'_append_eq_of_le (by decide)).trans <|
    (BitVec.extractLsb'_append_eq_of_le (by decide)).trans <|
    (BitVec.extractLsb'_append_eq_of_le (by decide)).trans <|
    (BitVec.extractLsb'_append_eq_of_le (by decide)).trans BitVec.extractLsb'_append_eq_right

end

/-- A word without reserved bits is made of its fields. -/
theorem commandWord_fields {w : Word} (h : reservedField w = 0) :
    commandWord (opcField w) (nField w) (levelField w) (wrapField w) (slotField w) (storeField w) = w := by
  have hjoin (k m n : Nat) : w.extractLsb' (k + m) n ++ w.extractLsb' k m = w.extractLsb' k (n + m) :=
    BitVec.extractLsb'_append_extractLsb'_eq_extractLsb' rfl
  rw [commandWord, wrapField, storeField, ofBool_getLsbD, ofBool_getLsbD, ← show reservedField w = 0#10 from h]
  calc
    _ = w.extractLsb' 22 10 ++ w.extractLsb' 21 1 ++ w.extractLsb' 19 2 ++ w.extractLsb' 18 1 ++
        w.extractLsb' 14 4 ++ w.extractLsb' 8 6 ++ w.extractLsb' 0 8 := rfl
    _ = w.extractLsb' 0 32 := by
      rw [hjoin 21 1 10, hjoin 19 2 11, hjoin 18 1 13, hjoin 14 4 14, hjoin 8 6 18, hjoin 0 8 24]
    _ = w := BitVec.extractLsb'_eq_self

theorem reservedField_and {m : Word} (hm : reservedField m = 0) (w : Word) : reservedField (w &&& m) = 0 := by
  rw [reservedField, BitVec.extractLsb'_and, ← reservedField, ← reservedField, hm, BitVec.ofNat_eq_ofNat,
    BitVec.and_zero]

/-- What a mask keeps of a word is what it keeps of its fields. -/
theorem and_eq_commandWord {m : Word} (hm : reservedField m = 0) (w : Word) :
    w &&& m = commandWord (opcField w &&& opcField m) (nField w &&& nField m) (levelField w &&& levelField m)
      (wrapField w && wrapField m) (slotField w &&& slotField m) (storeField w && storeField m) := by
  rw [← commandWord_fields (reservedField_and hm w)]
  simp only [opcField, nField, levelField, wrapField, slotField, storeField, BitVec.extractLsb'_and,
    BitVec.getLsbD_and]

/-! ### What each column of R112 keeps of a word -/

section
variable (w : Word)

theorem and_noField : w &&& (0#32 ||| 255#32) = plainWord (opcField w) := by
  rw [and_eq_commandWord (by decide)]
  simp [plainWord, opcField, nField, levelField, wrapField, slotField, storeField, and_eq_self_of_ones]

theorem and_nField : w &&& (0x3F00#32 ||| 255#32) = nWord (opcField w) (nField w) := by
  rw [and_eq_commandWord (by decide)]
  simp [nWord, opcField, nField, levelField, wrapField, slotField, storeField, and_eq_self_of_ones]

theorem and_slotField : w &&& (0x180000#32 ||| 255#32) = slotWord (opcField w) (slotField w) := by
  rw [and_eq_commandWord (by decide)]
  simp [slotWord, opcField, nField, levelField, wrapField, slotField, storeField, and_eq_self_of_ones]

theorem and_levelField_wrapField :
    w &&& (0x7C000#32 ||| 255#32) = commandWord (opcField w) 0 (levelField w) (wrapField w) 0 false := by
  rw [and_eq_commandWord (by decide)]
  simp [opcField, nField, levelField, wrapField, slotField, storeField, and_eq_self_of_ones]

theorem and_wrapField : w &&& (0x40000#32 ||| 255#32) = commandWord (opcField w) 0 0 (wrapField w) 0 false := by
  rw [and_eq_commandWord (by decide)]
  simp [opcField, nField, levelField, wrapField, slotField, storeField, and_eq_self_of_ones]

theorem and_levelField_storeField :
    w &&& (0x23C000#32 ||| 255#32) = commandWord (opcField w) 0 (levelField w) false 0 (storeField w) := by
  rw [and_eq_commandWord (by decide)]
  simp [opcField, nField, levelField, wrapField, slotField, storeField, and_eq_self_of_ones]

end

theorem onlyFields_ok {mask w : Word} {i j : Instr} :
    onlyFields mask w i = .ok j ↔ w &&& (mask ||| 0xFF) = w ∧ i = j := by
  simp only [onlyFields, and_not_eq_zero_iff]
  split <;> simp_all

section
variable (opc : BitVec 8) (n : BitVec 6) (level : BitVec 4) (wrap : Bool) (slot : BitVec 2) (store : Bool) (i : Instr)

theorem onlyFields_plainWord : onlyFields 0 (plainWord opc) i = .ok i :=
  onlyFields_ok.2 ⟨(and_noField _).trans (by simp only [plainWord, opcField_commandWord]), rfl⟩

theorem onlyFields_nWord : onlyFields nMask (nWord opc n) i = .ok i :=
  onlyFields_ok.2 ⟨(and_nField _).trans (by simp only [nWord, opcField_commandWord, nField_commandWord]), rfl⟩

theorem onlyFields_slotWord : onlyFields slotMask (slotWord opc slot) i = .ok i :=
  onlyFields_ok.2 ⟨(and_slotField _).trans
    (by simp only [slotWord, opcField_commandWord, slotField_commandWord]), rfl⟩

theorem onlyFields_level_wrap :
    onlyFields (levelMask ||| wrapMask) (commandWord opc 0 level wrap 0 false) i = .ok i :=
  onlyFields_ok.2 ⟨(and_levelField_wrapField _).trans
    (by rw [opcField_commandWord, levelField_commandWord, wrapField_commandWord]), rfl⟩

theorem onlyFields_wrap : onlyFields wrapMask (commandWord opc 0 0 wrap 0 false) i = .ok i :=
  onlyFields_ok.2 ⟨(and_wrapField _).trans (by rw [opcField_commandWord, wrapField_commandWord]), rfl⟩

theorem onlyFields_level_store :
    onlyFields (levelMask ||| storeMask) (commandWord opc 0 level false 0 store) i = .ok i :=
  onlyFields_ok.2 ⟨(and_levelField_storeField _).trans
    (by rw [opcField_commandWord, levelField_commandWord, storeField_commandWord]), rfl⟩

end

/-! ## The decoder of command words (R111 to R113) -/

theorem opcField_eq {w : Word} {k : Nat} (h : (opcField w).toNat = k) : opcField w = BitVec.ofNat 8 k := by
  rw [← h, BitVec.ofNat_toNat, BitVec.setWidth_eq]

/-- The decoder by its rows: an assigned opcode names one command, whose word holds the fields its row uses, and no
other bit may be set; every other opcode is unassigned. -/
theorem decodeCommand_cases {w : Word} (h : reservedField w = 0) :
    (unassigned (opcField w) = false ∧ ∃ i, decodeCommand w = onlyFields (usedFields (opcField w)) w i ∧
      encode i = .cmd (w &&& (usedFields (opcField w) ||| 0xFF))) ∨
    unassigned (opcField w) = true ∧ decodeCommand w = .error .unassignedOpcode := by
  rw [decodeCommand, if_neg (not_not.2 h)]
  split
  case h_47 =>
    have hlt := (opcField w).isLt
    refine .inr ⟨?_, rfl⟩
    simp only [imp_false] at *
    simp only [unassigned, Bool.or_eq_true, Bool.and_eq_true, decide_eq_true_eq, beq_iff_eq]
    omega
  all_goals
    rename_i hopc
    rw [opcField_eq hopc]
    refine .inl ⟨rfl, _, rfl, ?_⟩
    simp only [encode, usedFields, BitVec.reduceToNat, BitVec.ofNat_eq_ofNat, and_noField, and_nField, and_slotField,
      and_levelField_wrapField, and_wrapField, and_levelField_storeField, opcField_eq hopc]

theorem reservedField_of_usedFields {o : BitVec 8} {w : Word} (h : w &&& (usedFields o ||| 0xFF) = w) :
    reservedField w = 0 := by
  have hm : reservedField (usedFields o ||| 0xFF) = 0 := by unfold usedFields; split <;> rfl
  rw [← h, reservedField_and hm]

theorem reservedField_of_decodeCommand {w : Word} {i : Instr} (h : decodeCommand w = .ok i) : reservedField w = 0 := by
  by_contra hr
  rw [decodeCommand, if_pos hr] at h
  cases h

theorem encode_of_decodeCommand {w : Word} {i : Instr} (h : decodeCommand w = .ok i) : encode i = .cmd w := by
  obtain ⟨-, j, hj, henc⟩ | ⟨-, herr⟩ := decodeCommand_cases (reservedField_of_decodeCommand h)
  · obtain ⟨hw, rfl⟩ := onlyFields_ok.1 (hj.symm.trans h)
    rwa [hw] at henc
  · cases herr.symm.trans h

/-- The words that decode are the legal ones. -/
theorem legalWord_iff {w : Word} : LegalWord w ↔ ∃ i, decodeCommand w = .ok i := by
  unfold LegalWord
  rw [and_not_eq_zero_iff, BitVec.or_comm]
  change unassigned (opcField w) = false ∧ w &&& (usedFields (opcField w) ||| 0xFF) = w ↔ _
  constructor
  · rintro ⟨hopc, hw⟩
    obtain ⟨-, i, hi, -⟩ | ⟨hno, -⟩ := decodeCommand_cases (reservedField_of_usedFields hw)
    · exact ⟨i, hi.trans (onlyFields_ok.2 ⟨hw, rfl⟩)⟩
    · cases hopc.symm.trans hno
  · rintro ⟨i, h⟩
    obtain ⟨hopc, j, hj, -⟩ | ⟨-, herr⟩ := decodeCommand_cases (reservedField_of_decodeCommand h)
    · exact ⟨hopc, (onlyFields_ok.1 (hj.symm.trans h)).1⟩
    · cases herr.symm.trans h

/-! ## Block headers and tokens (R118, R120, R121) -/

section
variable (btype : BitVec 2) (final : Bool) (body : BitVec 5)

theorem blockByte_body : (blockByte btype final body).extractLsb' 3 5 = body :=
  (BitVec.extractLsb'_append_eq_of_le (by decide)).trans BitVec.extractLsb'_append_eq_left

theorem blockByte_btype : (blockByte btype final body).extractLsb' 1 2 = btype :=
  (BitVec.extractLsb'_append_eq_of_le (by decide)).trans BitVec.extractLsb'_append_eq_right

theorem blockByte_final : (blockByte btype final body).getLsbD 0 = final :=
  getLsbD_of_extract BitVec.extractLsb'_append_eq_right

end

/-- A byte is made of a header and five bits. -/
theorem blockByte_fields (b : Byte) : blockByte (b.extractLsb' 1 2) (b.getLsbD 0) (b.extractLsb' 3 5) = b := by
  have hjoin (k m n : Nat) : b.extractLsb' (k + m) n ++ b.extractLsb' k m = b.extractLsb' k (n + m) :=
    BitVec.extractLsb'_append_extractLsb'_eq_extractLsb' rfl
  rw [blockByte, ofBool_getLsbD, hjoin 1 2 5]
  exact (hjoin 0 1 7).trans BitVec.extractLsb'_eq_self

theorem encode_decodeBlock (b : Byte) : encode (decodeBlock b) = .wire [b] := by
  have hbyte (t : BitVec 2) (h : (b.extractLsb' 1 2).toNat = t.toNat) :
      Packet.wire [blockByte t (b.getLsbD 0) (b.extractLsb' 3 5)] = .wire [b] := by
    rw [← BitVec.eq_of_toNat_eq h, blockByte_fields]
  have hlt := (b.extractLsb' 1 2).isLt
  unfold decodeBlock
  dsimp only
  split
  · exact hbyte 0 ‹_›
  · exact hbyte 1 ‹_›
  · exact hbyte 2 ‹_›
  · simp only [imp_false] at *
    exact hbyte 3 (show _ = 3 by omega)

theorem decodeToken_literalWord (b : BitVec 8) : decodeToken (literalWord b) = .ok (.lzTokenLiteral b) := by
  have hhigh : (literalWord b).extractLsb' 8 24 = 0 := BitVec.extractLsb'_append_eq_left
  have hlow : (literalWord b).extractLsb' 0 8 = b := BitVec.extractLsb'_append_eq_right
  rw [decodeToken, if_pos hhigh, hlow]

section
variable (k : BitVec 9) (d : BitVec 16)

theorem matchWord_tag : (matchWord k d).extractLsb' 25 7 = 64 :=
  (BitVec.extractLsb'_append_eq_of_le (by decide)).trans BitVec.extractLsb'_append_eq_left

theorem matchWord_length : (matchWord k d).extractLsb' 16 9 = k :=
  (BitVec.extractLsb'_append_eq_of_le (by decide)).trans BitVec.extractLsb'_append_eq_right

theorem matchWord_distance : (matchWord k d).extractLsb' 0 16 = d := BitVec.extractLsb'_append_eq_right

/-- A match's word is no literal's: bit 31 is set. -/
theorem matchWord_not_literal : (matchWord k d).extractLsb' 8 24 ≠ 0 := by
  intro h
  have hset : (matchWord k d).getLsbD 31 = true := by
    simpa using congrArg (BitVec.getLsbD · 6) (matchWord_tag k d)
  have hclear : (matchWord k d).getLsbD 31 = false := by simpa using congrArg (BitVec.getLsbD · 23) h
  cases hset.symm.trans hclear

theorem decodeToken_matchWord (h : (Instr.lzTokenMatch k d).wf = true) :
    decodeToken (matchWord k d) = .ok (.lzTokenMatch k d) := by
  rw [decodeToken, if_neg (matchWord_not_literal k d), if_pos (matchWord_tag k d), matchWord_length,
    matchWord_distance]
  exact if_pos h

end

theorem literalWord_of_high {w : Word} (h : w.extractLsb' 8 24 = 0) : literalWord (w.extractLsb' 0 8) = w := by
  have hjoin : w.extractLsb' 8 24 ++ w.extractLsb' 0 8 = w.extractLsb' 0 32 :=
    BitVec.extractLsb'_append_extractLsb'_eq_extractLsb' rfl
  rw [literalWord, ← show w.extractLsb' 8 24 = 0#24 from h]
  exact hjoin.trans BitVec.extractLsb'_eq_self

theorem matchWord_of_tag {w : Word} (h : w.extractLsb' 25 7 = 64) :
    matchWord (w.extractLsb' 16 9) (w.extractLsb' 0 16) = w := by
  have hjoin (k m n : Nat) : w.extractLsb' (k + m) n ++ w.extractLsb' k m = w.extractLsb' k (n + m) :=
    BitVec.extractLsb'_append_extractLsb'_eq_extractLsb' rfl
  rw [matchWord, show 1#1 ++ 0#6 = w.extractLsb' 25 7 from h.symm, hjoin 16 9 7]
  exact (hjoin 0 16 16).trans BitVec.extractLsb'_eq_self

/-- Only a token's word decodes to it, and within the token's ranges. -/
theorem decodeToken_ok {w : Word} {i : Instr} (h : decodeToken w = .ok i) :
    encode i = .wire (u32le w) ∧ i.wf = true := by
  unfold decodeToken at h
  dsimp only at h
  split at h
  · rename_i hhigh
    cases h
    exact ⟨congrArg (fun w => Packet.wire (u32le w)) (literalWord_of_high hhigh), rfl⟩
  split at h
  · rename_i htag
    split at h
    · rename_i hwf
      cases h
      exact ⟨congrArg (fun w => Packet.wire (u32le w)) (matchWord_of_tag htag), hwf⟩
    · cases h
  · cases h

/-! ## Fields read behind other fields (R83) -/

section
variable (x : Half) (y : Word) (a b : Bytes) (o n : Nat)

@[simp] theorem u16At_skip_u16le : u16At (u16le x ++ b) (o + 2) = u16At b o := by
  rw [Nat.add_comm]; exact u16At_append_right (u16le x) b o

@[simp] theorem u16At_skip_u32le : u16At (u32le y ++ b) (o + 4) = u16At b o := by
  rw [Nat.add_comm]; exact u16At_append_right (u32le y) b o

@[simp] theorem u32At_skip_u16le : u32At (u16le x ++ b) (o + 2) = u32At b o := by
  rw [Nat.add_comm]; exact u32At_append_right (u16le x) b o

@[simp] theorem u32At_skip_u32le : u32At (u32le y ++ b) (o + 4) = u32At b o := by
  rw [Nat.add_comm]; exact u32At_append_right (u32le y) b o

theorem slice_append_right : slice (a ++ b) (a.length + o) n = slice b o n := by
  rw [slice, slice, List.drop_length_add_append]

@[simp] theorem slice_skip_u16le : slice (u16le x ++ b) (o + 2) n = slice b o n := by
  rw [Nat.add_comm]; exact slice_append_right (u16le x) b o n

@[simp] theorem slice_skip_u32le : slice (u32le y ++ b) (o + 4) n = slice b o n := by
  rw [Nat.add_comm]; exact slice_append_right (u32le y) b o n

theorem slice_append_length : slice (a ++ b) a.length n = slice b 0 n := slice_append_right a b 0 n

theorem slice_append_left : slice (a ++ b) 0 a.length = a := List.take_left

end

/-- A length that fits its field is read back from it. -/
theorem toNat_len16 {b : Bytes} (h : fits16 b = true) : (len16 b).toNat = b.length := by
  simpa [len16, fits16] using h

/-! ## A record read back from its bytes (R150 to R152) -/

section
variable (r : LocalRecord) (rest : Bytes)

theorem localBytes_sig : u32At (localBytes r ++ rest) 0 = localSig := by simp [localBytes]
theorem localBytes_nameLength : u16At (localBytes r ++ rest) 26 = len16 r.name := by simp [localBytes]
theorem localBytes_extraLength : u16At (localBytes r ++ rest) 28 = len16 r.extra := by simp [localBytes]

variable {r}

theorem localAt_localBytes (h : (Instr.zipLocalHeader r).wf = true) : localAt (localBytes r ++ rest) 0 = r := by
  simp only [Instr.wf, Bool.and_eq_true] at h
  obtain ⟨hname, hextra⟩ := h
  simp [localAt, localBytes, toNat_len16 hname, toNat_len16 hextra, slice_append_left, Nat.add_comm 30,
    slice_append_length r.name]

end

section
variable (r : CentralRecord) (rest : Bytes)

theorem centralBytes_sig : u32At (centralBytes r ++ rest) 0 = centralSig := by unfold centralBytes; simp
theorem centralBytes_nameLength : u16At (centralBytes r ++ rest) 28 = len16 r.name := by unfold centralBytes; simp
theorem centralBytes_extraLength : u16At (centralBytes r ++ rest) 30 = len16 r.extra := by unfold centralBytes; simp
theorem centralBytes_commentLength : u16At (centralBytes r ++ rest) 32 = len16 r.comment := by
  unfold centralBytes; simp

variable {r}

theorem centralAt_centralBytes (h : (Instr.zipCentralHeader r).wf = true) :
    centralAt (centralBytes r ++ rest) 0 = r := by
  simp only [Instr.wf, Bool.and_eq_true] at h
  obtain ⟨⟨hname, hextra⟩, hcomment⟩ := h
  unfold centralAt centralBytes
  simp [toNat_len16 hname, toNat_len16 hextra, toNat_len16 hcomment, slice_append_left, Nat.add_comm 46,
    Nat.add_right_comm _ 46, slice_append_length r.name, slice_append_right r.name, slice_append_length r.extra]

end

section
variable (r : EocdRecord) (rest : Bytes)

theorem eocdBytes_sig : u32At (eocdBytes r ++ rest) 0 = eocdSig := by simp [eocdBytes]
theorem eocdBytes_commentLength : u16At (eocdBytes r ++ rest) 20 = len16 r.comment := by simp [eocdBytes]

variable {r}

theorem eocdAt_eocdBytes (h : (Instr.zipEocd r).wf = true) : eocdAt (eocdBytes r ++ rest) 0 = r := by
  simp only [Instr.wf] at h
  simp [eocdAt, eocdBytes, toNat_len16 h, slice_append_left]

end

/-! ## Bytes put together again from their fields (R83) -/

section
variable {bs : Bytes} {o : Nat}

theorem slice_succ (n : Nat) (h : o < bs.length) : slice bs o (n + 1) = byteAt bs o :: slice bs (o + 1) n := by
  rw [slice, List.drop_eq_getElem_cons h, List.take_succ_cons, byteAt, List.getD_eq_getElem _ _ h]
  rfl

theorem u16le_append (hi lo : Byte) : u16le (hi ++ lo) = [lo, hi] := by
  have h0 : (hi ++ lo).extractLsb' 0 8 = lo := BitVec.extractLsb'_append_eq_right
  have h8 : (hi ++ lo).extractLsb' 8 8 = hi := BitVec.extractLsb'_append_eq_left
  rw [u16le, h0, h8]

theorem u32le_append (b3 b2 b1 b0 : Byte) : u32le (b3 ++ b2 ++ b1 ++ b0) = [b0, b1, b2, b3] := by
  have h0 : (b3 ++ b2 ++ b1 ++ b0).extractLsb' 0 8 = b0 := BitVec.extractLsb'_append_eq_right
  have h8 : (b3 ++ b2 ++ b1 ++ b0).extractLsb' 8 8 = b1 :=
    (BitVec.extractLsb'_append_eq_of_le (by decide)).trans BitVec.extractLsb'_append_eq_right
  have h16 : (b3 ++ b2 ++ b1 ++ b0).extractLsb' 16 8 = b2 :=
    (BitVec.extractLsb'_append_eq_of_le (by decide)).trans <|
      (BitVec.extractLsb'_append_eq_of_le (by decide)).trans BitVec.extractLsb'_append_eq_right
  have h24 : (b3 ++ b2 ++ b1 ++ b0).extractLsb' 24 8 = b3 :=
    (BitVec.extractLsb'_append_eq_of_le (by decide)).trans <|
      (BitVec.extractLsb'_append_eq_of_le (by decide)).trans BitVec.extractLsb'_append_eq_left
  rw [u32le, h0, h8, h16, h24]

theorem u16le_u16At (h : o + 2 ≤ bs.length) : u16le (u16At bs o) = slice bs o 2 := by
  rw [u16At, u16le_append, slice_succ 1 (by omega), slice_succ 0 (by omega)]
  rfl

theorem u32le_u32At (h : o + 4 ≤ bs.length) : u32le (u32At bs o) = slice bs o 4 := by
  rw [u32At, u32le_append, slice_succ 3 (by omega), slice_succ 2 (by omega), slice_succ 1 (by omega),
    slice_succ 0 (by omega)]
  rfl

theorem slice_append_slice {p n m : Nat} (h : p = o + n) : slice bs o n ++ slice bs p m = slice bs o (n + m) := by
  rw [h, slice, slice, slice, ← List.drop_drop, List.take_add]

theorem slice_all : slice bs 0 bs.length = bs := List.take_length

theorem len16_slice {x : Half} (h : o + x.toNat ≤ bs.length) : len16 (slice bs o x.toNat) = x := by
  have hlen : (slice bs o x.toNat).length = x.toNat := by
    rw [slice, List.length_take, List.length_drop]
    omega
  rw [len16, hlen, BitVec.ofNat_toNat, BitVec.setWidth_eq]

theorem fits16_slice (bs : Bytes) (o : Nat) (x : Half) : fits16 (slice bs o x.toNat) = true := by
  have hlt := x.isLt
  simp only [fits16, slice, List.length_take, decide_eq_true_eq]
  omega

end

/-! The fields of a record are adjacent slices of it, so that writing what was read gives the bytes back. -/

section
variable {bs : Bytes}

theorem localBytes_localAt (hs : u32At bs 0 = localSig)
    (hl : bs.length = 30 + (u16At bs 26).toNat + (u16At bs 28).toNat) : localBytes (localAt bs 0) = bs := by
  unfold localBytes localAt
  dsimp only
  simp (disch := omega) only [← hs, Nat.zero_add, len16_slice, u16le_u16At, u32le_u32At, slice_append_slice,
    Nat.reduceAdd, ← hl]
  exact slice_all

theorem centralBytes_centralAt (hs : u32At bs 0 = centralSig)
    (hl : bs.length = 46 + (u16At bs 28).toNat + (u16At bs 30).toNat + (u16At bs 32).toNat) :
    centralBytes (centralAt bs 0) = bs := by
  unfold centralBytes centralAt
  dsimp only
  simp (disch := omega) only [← hs, Nat.zero_add, len16_slice, u16le_u16At, u32le_u32At, slice_append_slice,
    Nat.reduceAdd, ← hl]
  exact slice_all

theorem eocdBytes_eocdAt (hs : u32At bs 0 = eocdSig) (hl : bs.length = 22 + (u16At bs 20).toNat) :
    eocdBytes (eocdAt bs 0) = bs := by
  unfold eocdBytes eocdAt
  dsimp only
  simp (disch := omega) only [← hs, Nat.zero_add, len16_slice, u16le_u16At, u32le_u32At, slice_append_slice,
    Nat.reduceAdd, ← hl]
  exact slice_all

end

/-! ## The decoder of records (R153) -/

theorem decodeRecord_localBytes {r : LocalRecord} (h : (Instr.zipLocalHeader r).wf = true) :
    decodeRecord (localBytes r) = .ok (.zipLocalHeader r) := by
  have hr := localAt_localBytes [] h
  have hsig := localBytes_sig r []
  have hn := localBytes_nameLength r []
  have he := localBytes_extraLength r []
  have hl := length_localBytes r
  rw [List.append_nil] at hr hsig hn he
  simp only [Instr.wf, Bool.and_eq_true] at h
  obtain ⟨hname, hextra⟩ := h
  rw [decodeRecord, if_pos, hr]
  rw [hn, he, toNat_len16 hname, toNat_len16 hextra]
  exact ⟨hsig, by omega, hl⟩

theorem decodeRecord_centralBytes {r : CentralRecord} (h : (Instr.zipCentralHeader r).wf = true) :
    decodeRecord (centralBytes r) = .ok (.zipCentralHeader r) := by
  have hr := centralAt_centralBytes [] h
  have hsig := centralBytes_sig r []
  have hn := centralBytes_nameLength r []
  have he := centralBytes_extraLength r []
  have hc := centralBytes_commentLength r []
  have hl := length_centralBytes r
  rw [List.append_nil] at hr hsig hn he hc
  simp only [Instr.wf, Bool.and_eq_true] at h
  obtain ⟨⟨hname, hextra⟩, hcomment⟩ := h
  have hother : u32At (centralBytes r) 0 ≠ localSig := hsig ▸ by decide
  rw [decodeRecord, if_neg (hother ·.1), if_pos, hr]
  rw [hn, he, hc, toNat_len16 hname, toNat_len16 hextra, toNat_len16 hcomment]
  exact ⟨hsig, by omega, hl⟩

theorem decodeRecord_eocdBytes {r : EocdRecord} (h : (Instr.zipEocd r).wf = true) :
    decodeRecord (eocdBytes r) = .ok (.zipEocd r) := by
  have hr := eocdAt_eocdBytes [] h
  have hsig := eocdBytes_sig r []
  have hc := eocdBytes_commentLength r []
  have hl := length_eocdBytes r
  rw [List.append_nil] at hr hsig hc
  simp only [Instr.wf] at h
  have hlocal : u32At (eocdBytes r) 0 ≠ localSig := hsig ▸ by decide
  have hcentral : u32At (eocdBytes r) 0 ≠ centralSig := hsig ▸ by decide
  rw [decodeRecord, if_neg (hlocal ·.1), if_neg (hcentral ·.1), if_pos, hr]
  rw [hc, toNat_len16 h]
  exact ⟨hsig, by omega, hl⟩

theorem wf_localAt (bs : Bytes) : (Instr.zipLocalHeader (localAt bs 0)).wf = true := by
  simp [Instr.wf, localAt, fits16_slice]

theorem wf_centralAt (bs : Bytes) : (Instr.zipCentralHeader (centralAt bs 0)).wf = true := by
  simp [Instr.wf, centralAt, fits16_slice]

theorem wf_eocdAt (bs : Bytes) : (Instr.zipEocd (eocdAt bs 0)).wf = true := by
  simp [Instr.wf, eocdAt, fits16_slice]

/-- Only a record's bytes decode to it. -/
theorem decodeRecord_ok {bs : Bytes} {i : Instr} (h : decodeRecord bs = .ok i) :
    encode i = .wire bs ∧ i.wf = true := by
  unfold decodeRecord at h
  dsimp only at h
  split at h
  · rename_i hc
    obtain ⟨hsig, -, hl⟩ := hc
    cases h
    exact ⟨congrArg Packet.wire (localBytes_localAt hsig hl), wf_localAt bs⟩
  split at h
  · rename_i hc
    obtain ⟨hsig, -, hl⟩ := hc
    cases h
    exact ⟨congrArg Packet.wire (centralBytes_centralAt hsig hl), wf_centralAt bs⟩
  split at h
  · rename_i hc
    obtain ⟨hsig, -, hl⟩ := hc
    cases h
    exact ⟨congrArg Packet.wire (eocdBytes_eocdAt hsig hl), wf_eocdAt bs⟩
  · cases h

/-! ## The decoder of wire items, and of packets -/

theorem decodeWire_of_long {bs : Bytes} (h : 5 ≤ bs.length) : decodeWire bs = decodeRecord bs := by
  unfold decodeWire
  split
  · simp at h
  · simp at h
  · simp at h
  · rfl

theorem wf_decodeBlock (b : Byte) : (decodeBlock b).wf = true := by
  unfold decodeBlock
  dsimp only
  split <;> rfl

/-- Only an item's bytes decode to it: one byte, two, four, or a record. -/
theorem decodeWire_ok {bs : Bytes} {i : Instr} (h : decodeWire bs = .ok i) : encode i = .wire bs ∧ i.wf = true := by
  unfold decodeWire at h
  split at h
  · rename_i b
    cases h
    exact ⟨encode_decodeBlock b, wf_decodeBlock b⟩
  · split at h
    · rename_i hbytes
      obtain ⟨rfl, rfl⟩ := hbytes
      cases h
      exact ⟨rfl, rfl⟩
    · cases h
  · rename_i b0 b1 b2 b3
    rw [← show u32le (u32At [b0, b1, b2, b3] 0) = _ from u32le_append b3 b2 b1 b0]
    exact decodeToken_ok h
  · exact decodeRecord_ok h

theorem wf_of_encode_cmd {i : Instr} {w : Word} (h : encode i = .cmd w) : i.wf = true := by
  cases i <;> cases h <;> rfl

/-- A well-formed instruction decodes from its encoding. The words of the commands without fields are closed, and the
decoder computes on them; a command with fields is read through `commandWord`, an item through its format. -/
theorem decode_encode (i : Instr) (hwf : i.wf = true) : decode (encode i) = .ok i := by
  have hres {opc n level wrap slot store} : ¬ reservedField (commandWord opc n level wrap slot store) ≠ 0 :=
    not_not.2 (reservedField_commandWord ..)
  have hblock (t f b) : decodeWire [blockByte t f b] = .ok (decodeBlock (blockByte t f b)) := rfl
  have htoken (w : Word) : decodeWire (u32le w) = decodeToken w := congrArg decodeToken (u32At_u32le w [])
  cases i with
  | bpWriteBits n | buReadBits n | buPeekBits n | zipEntryInfo n =>
    rw [encode, decode, nWord, decodeCommand, if_neg hres, opcField_commandWord, nField_commandWord]
    exact onlyFields_nWord ..
  | hufBuild slot | hufEncode slot | hufDecode slot | hufQuery slot =>
    rw [encode, decode, slotWord, decodeCommand, if_neg hres, opcField_commandWord, slotField_commandWord]
    exact onlyFields_slotWord ..
  | deflate level wrap =>
    rw [encode, decode, decodeCommand, if_neg hres, opcField_commandWord, levelField_commandWord,
      wrapField_commandWord]
    exact onlyFields_level_wrap ..
  | inflateStart wrap =>
    rw [encode, decode, decodeCommand, if_neg hres, opcField_commandWord, wrapField_commandWord]
    exact onlyFields_wrap ..
  | zipAddFile level store =>
    rw [encode, decode, decodeCommand, if_neg hres, opcField_commandWord, levelField_commandWord,
      storeField_commandWord]
    exact onlyFields_level_store ..
  | blockStored f b | blockFixed f b | blockDynamic f b | blockReserved f b =>
    rw [encode, decode, hblock, decodeBlock, blockByte_btype, blockByte_body, blockByte_final]
    rfl
  | zipLocalHeader r =>
    rw [encode, decode, decodeWire_of_long (by rw [length_localBytes]; omega), decodeRecord_localBytes hwf]
  | zipCentralHeader r =>
    rw [encode, decode, decodeWire_of_long (by rw [length_centralBytes]; omega), decodeRecord_centralBytes hwf]
  | zipEocd r =>
    rw [encode, decode, decodeWire_of_long (by rw [length_eocdBytes]; omega), decodeRecord_eocdBytes hwf]
  | lzTokenLiteral b => rw [encode, decode, htoken, decodeToken_literalWord]
  | lzTokenMatch k d => rw [encode, decode, htoken, decodeToken_matchWord k d hwf]
  | _ => rfl

theorem encode_of_decode {p : Packet} {i : Instr} (h : decode p = .ok i) : encode i = p ∧ i.wf = true := by
  cases p with
  | cmd w =>
    have henc := encode_of_decodeCommand h
    exact ⟨henc, wf_of_encode_cmd henc⟩
  | wire bs => exact decodeWire_ok h

/-- Settles O1, by the instruction's form. -/
theorem decodeEncode : Obligations.DecodeEncode := decode_encode

/-- Settles O2: the fields a row uses make the whole word, and the fields of an item are all of its bytes. -/
theorem encodeDecode : Obligations.EncodeDecode := fun _ _ => encode_of_decode

/-- Settles O3: twelve closed packets, on which the decoder computes. -/
theorem decodeWords : Obligations.DecodeWords := by
  unfold Obligations.DecodeWords
  decide

end Sys2Proof

/-! Which command words are legal, and the checks of field values a legal word can fail (spec/30 R111, R113; spec/44
R351); then the token words and the commands on `TOKQ` (spec/30 R118; spec/43 R329 to R331). -/

namespace Sys2Proof.Machine

/-! ## The first check of a command -/

section
variable {α : Type} {s : State} {x : Except Error α} {f : α → Except Error State}

theorem complete_error_bind {e : Error} (h : x = .error e) : complete s (x >>= f) = .next (report (some e) s) :=
  congrArg (complete s) (bind_error.2 (.inl h))

theorem complete_ok_bind {a : α} (h : x = .ok a) : complete s (x >>= f) = complete s (f a) := by rw [h]; rfl

end

theorem countOperand_error {n : BitVec 6} (h : 32 < n.toNat) : countOperand n = .error .invalidArgument :=
  bind_error.2 (.inl (require_error.2 ⟨Nat.not_le.2 h, rfl⟩))

theorem levelOperand_error {l : BitVec 4} (h : 9 < l.toNat) : levelOperand l = .error .invalidLevel :=
  bind_error.2 (.inl (require_error.2 ⟨Nat.not_le.2 h, rfl⟩))

theorem peekValue_error {n : BitVec 6} (s : State) (h : 32 < n.toNat) : peekValue s n = .error .invalidArgument :=
  bind_error.2 (.inl (countOperand_error h))

theorem writeBits_error {n : Nat} (s : State) (v : Nat) (h : 32 < n) : writeBits s v n = .error .invalidArgument :=
  bind_error.2 (.inl (require_error.2 ⟨Nat.not_le.2 h, rfl⟩))

theorem countWord_fits {n : Nat} (h : n < 2 ^ 32) : countWord n = .ok (BitVec.ofNat 32 n) := countWord_ok.2 ⟨h, rfl⟩

theorem countWord_error {n : Nat} (h : 2 ^ 32 ≤ n) : countWord n = .error .invalidArgument :=
  (countWord_eq n).trans (if_neg (Nat.not_lt.2 h))

/-! ## Legality (spec/30 R111, R113) -/

/-- An illegal word is left in `CMD`, and nothing runs. -/
theorem step_illegal {w : Word} (s : State) (h : ¬ LegalWord w) :
    step { s with host := .issue (.cmd w) :: s.host } = .next (report (some .illegalCommand) { s with cmd := w }) := by
  cases hd : decodeCommand w with
  | ok i => exact absurd (legalWord_iff.2 ⟨i, hd⟩) h
  | error e =>
    simp only [step, fetch, fetchPacket, decode, hd]
    rfl

/-- Settles O4: the decoder accepts the legal words, and each field value is refused by its command's first check. -/
theorem commandLegality : Obligations.CommandLegality := by
  refine ⟨fun w => legalWord_iff, fun w s => step_illegal s, fun n s hn => ?_, fun s => ⟨rfl, rfl, rfl, rfl⟩,
    fun l wrap s hl => complete_error_bind (levelOperand_error hl)⟩
  have hpeek := peekValue_error s hn
  exact ⟨congrArg (complete s) (writeBits_error s _ hn), complete_error_bind hpeek, complete_error_bind hpeek⟩

/-! ## Token words (spec/30 R118) -/

theorem literalWord_eq (b : Byte) : literalWord b = b.setWidth 32 := by
  rw [literalWord, BitVec.setWidth_eq_append (by decide)]
  rfl

theorem matchWord_eq (k : BitVec 9) (d : BitVec 16) :
    matchWord k d = 0x80000000 ||| k.setWidth 32 <<< 16 ||| d.setWidth 32 := by
  have happ : (1#1 ++ 0#6 ++ k ++ d).setWidth 32 = _ := BitVec.setWidth_append_append_eq_shiftLeft_setWidth_or
  rw [BitVec.setWidth_eq] at happ
  exact happ

theorem toNat_append_eq_add {m n : Nat} (x : BitVec m) (y : BitVec n) :
    (x ++ y).toNat = x.toNat * 2 ^ n + y.toNat := by
  rw [BitVec.toNat_append, ← Nat.shiftLeft_add_eq_or_of_lt y.isLt, Nat.shiftLeft_eq]

/-- The word of a match within the ranges of spec/43 R327, as a number. -/
theorem tokenWord_copy {k d : Nat} (h : legalToken (.copy k d) = true) :
    tokenWord (.copy k d) = BitVec.ofNat 32 (2 ^ 31 + k * 2 ^ 16 + d) := by
  obtain ⟨-, hk, -, hd, -⟩ := of_decide_eq_true h
  have hword : (tokenWord (.copy k d)).toNat = (64 * 2 ^ 9 + k % 2 ^ 9) * 2 ^ 16 + d % 2 ^ 16 := by
    rw [tokenWord, matchWord]
    refine (toNat_append_eq_add ..).trans ?_
    rw [toNat_append_eq_add, BitVec.toNat_ofNat, BitVec.toNat_ofNat]
    rfl
  apply BitVec.eq_of_toNat_eq
  rw [hword, BitVec.toNat_ofNat]
  omega

/-! ## The commands on `TOKQ` (spec/43 R329 to R331) -/

/-- A parse has no more tokens than rounds. -/
theorem length_tokenizeFrom_le (m : MatchCandidates) (data : Bytes) (e fuel p : Nat) :
    (tokenizeFrom m data e fuel p).length ≤ fuel := by
  induction fuel generalizing p with
  | zero => exact Nat.le_refl 0
  | succ fuel ih =>
    unfold tokenizeFrom
    split
    · split <;> exact Nat.succ_le_succ (ih _)
    · exact Nat.zero_le _

theorem exec_lzPop_nil {s : State} (h : s.tokq = []) :
    exec .lzPop s = .next (report (some .tokenQueueEmpty) s) := by
  change execLzPop s = _
  rw [execLzPop, h]
  rfl

theorem exec_lzPop_cons {s : State} {x : LZSymbol} {q : List LZSymbol} (h : s.tokq = x :: q) :
    exec .lzPop s = .next (report none { s with result := tokenWord x, tokq := q }) := by
  change execLzPop s = _
  rw [execLzPop, h]
  rfl

/-- Settles O38: a parse has at most one token for each byte, and a popped token is returned as its word. -/
theorem lzCommands : Obligations.LzCommands := by
  refine ⟨by decide, by decide, by decide, fun s q hq => ?_, fun s => exec_lzPop_nil, fun s b q h => ?_,
    fun s k d q h hl => ?_, fun s hn => complete_ok_bind (countWord_fits hn),
    fun s hn => complete_error_bind (countWord_error hn)⟩
  · subst hq
    exact ⟨length_tokenizeFrom_le .., fun hn => complete_ok_bind (countWord_fits hn),
      fun hn => complete_error_bind (countWord_error hn)⟩
  · rw [exec_lzPop_cons h, tokenWord, literalWord_eq]
  · rw [exec_lzPop_cons h, tokenWord_copy hl]

/-- Settles O59: the token put at the queue's head is the one popped. -/
theorem tokenItems : Obligations.TokenItems := by
  refine ⟨fun b s => ?_, fun k d s => ?_⟩
  · change returnToken (.literal b) s = _
    rw [returnToken_eq, tokenWord, literalWord_eq]
  · change returnToken (.copy k.toNat d.toNat) s = _
    rw [returnToken_eq, tokenWord, BitVec.ofNat_toNat, BitVec.ofNat_toNat, BitVec.setWidth_eq, BitVec.setWidth_eq,
      matchWord_eq]

end Sys2Proof.Machine

/-! The block headers and the zlib header at a decoder that waits for exactly them (spec/30 R121, R145; spec/45 R405,
R418): what the decoder makes of the bits, and the feed and the run that bring them to it (log 7). -/

namespace Sys2Proof.Machine

/-! ## The bits of a block header (spec/30 R120, R121) -/

/-- The bits of two fields side by side, those of the low one first. -/
theorem bitsOf_append {m n : Nat} (x : BitVec m) (y : BitVec n) :
    bitsOf (n + m) (x ++ y).toNat = bitsOf n y.toNat ++ bitsOf m x.toNat := by
  rw [BitVec.toNat_append, Nat.or_comm, bitsOf_or_shift y.isLt]

section
variable (t : BitVec 2) (final : Bool) (body : BitVec 5)

theorem byteBits_blockByte :
    byteBits (blockByte t final body) = bitsOf 1 final.toNat ++ (bitsOf 2 t.toNat ++ bitsOf 5 body.toNat) := by
  rw [byteBits_eq, blockByte]
  refine (bitsOf_append (m := 7) (n := 1) _ _).trans ?_
  rw [bitsOf_append (m := 5) (n := 2) body t, BitVec.toNat_ofBool]

theorem blockByte_eq :
    blockByte t final body = body.setWidth 8 <<< 3 ||| t.setWidth 8 <<< 1 ||| (BitVec.ofBool final).setWidth 8 := by
  have happ : (body ++ t ++ BitVec.ofBool final).setWidth 8 = _ :=
    BitVec.setWidth_append_append_eq_shiftLeft_setWidth_or
  rw [BitVec.setWidth_eq] at happ
  exact happ

end

/-! ## A body of five bits (spec/45 R406 to R408, R416)

Five bits decide no block: each type but the reserved one asks for more input in its own phase. -/

section
variable (body : BitVec 5) (p : Nat)

theorem decodeBody_stored_five : decodeBody 0 ⟨bitsOf 5 body.toNat, p, []⟩ = .error (.more [] .stored) := by
  refine bind_error.2 (.inl (needRead_short ?_))
  simp only [alignDecoder, List.length_drop, length_bitsOf]
  omega

/-- Five bits are the start of a longer fixed code, whichever they are (spec/30 R135). -/
theorem decodeSymbol_fixed_five :
    decodeSymbol (tableCodes fixedLitLengths) (bitsOf 5 body.toNat) = .error .insufficientBits := by
  revert body
  decide +kernel

theorem decodeBody_fixed_five : decodeBody 1 ⟨bitsOf 5 body.toNat, p, []⟩ = .error (.more [] .decodeSymbols) :=
  bind_error.2 (.inl (needSymbol_short (decodeSymbol_fixed_five body)))

/-- The five bits are `HLIT`, and `HDIST` is missing. -/
theorem decodeBody_dynamic_five : decodeBody 2 ⟨bitsOf 5 body.toNat, p, []⟩ = .error (.more [] .dynamicTable) := by
  have hlit : needRead .dynamicTable 5 ⟨bitsOf 5 body.toNat, p, []⟩ = .ok (body.toNat, ⟨[], p + 5, []⟩) :=
    needRead_bits body.isLt (List.append_nil _).symm
  exact bind_error.2 (.inl (bind_error.2 (.inr ⟨_, hlit, bind_error.2 (.inl rfl)⟩)))

end

/-! ## A stream that ends with a block header (spec/45 R400, R401, R405) -/

/-- The streams whose last bit is read when a block header is due. -/
abbrev AtFirstBlock (wrap : Bool) (input : Bytes) : Prop :=
  (wrap = false ∧ input = []) ∨ (wrap = true ∧ input = [0x78, 0x9C])

theorem length_le_of_atFirstBlock {wrap : Bool} {input : Bytes} (h : AtFirstBlock wrap input) : input.length ≤ 2 := by
  obtain ⟨-, rfl⟩ | ⟨-, rfl⟩ := h <;> simp

theorem inflate_zlibHeader : inflate [0x78, 0x9C] true = .more [] .readBlockHeader := rfl

/-- The header the encoder writes passes the decoder's checks. -/
theorem decodeZlibHeader_default (rest : List Bool) :
    decodeZlibHeader ⟨streamBits [0x78, 0x9C] ++ rest, 0, []⟩ = .ok ⟨rest, 16, []⟩ := rfl

section
variable {t : BitVec 2} {final : Bool} {body : BitVec 5} {stop : Stop}

/-- The three header bits are read, and the block's body stops as it does. -/
theorem decodeBlocks_header {p : Nat} {rout : Bytes} (fuel : Nat)
    (h : decodeBody t.toNat ⟨bitsOf 5 body.toNat, p + 1 + 2, rout⟩ = .error stop) :
    decodeBlocks (fuel + 1) ⟨byteBits (blockByte t final body), p, rout⟩ = .error stop := by
  rw [decodeBlocks, needRead_bits (v := final.toNat) final.toNat_lt (byteBits_blockByte t final body)]
  refine bind_error.2 (.inr ⟨_, rfl, ?_⟩)
  dsimp only
  rw [needRead_bits t.isLt rfl]
  exact bind_error.2 (.inr ⟨_, rfl, bind_error.2 (.inl h)⟩)

theorem decodeStream_header {wrap : Bool} {input : Bytes} (hw : AtFirstBlock wrap input)
    (h : ∀ p, decodeBody t.toNat ⟨bitsOf 5 body.toNat, p, []⟩ = .error stop) :
    decodeStream wrap ⟨streamBits (input ++ [blockByte t final body]), 0, []⟩ = .error stop := by
  obtain ⟨rfl, rfl⟩ | ⟨rfl, rfl⟩ := hw
  · exact bind_error.2 (.inr ⟨_, rfl, bind_error.2 (.inl (decodeBlocks_header 8 (h 3)))⟩)
  · rw [decodeStream, streamBits_append]
    exact bind_error.2 (.inr ⟨_, decodeZlibHeader_default _, bind_error.2 (.inl (decodeBlocks_header 8 (h 19)))⟩)

end

theorem inflate_of_more {bytes out : Bytes} {wrap : Bool} {ph : Phase}
    (h : decodeStream wrap ⟨streamBits bytes, 0, []⟩ = .error (.more out ph)) : inflate bytes wrap = .more out ph := by
  rw [inflate, h]

theorem inflate_of_fail {bytes : Bytes} {wrap : Bool} {e : Error}
    (h : decodeStream wrap ⟨streamBits bytes, 0, []⟩ = .error (.fail e)) : inflate bytes wrap = .fail e := by
  rw [inflate, h]

/-! ## Feeding and running (spec/45 R424, R425) -/

/-- The report between two commands leaves no trace: the next report writes the whole word, but for the sticky bit,
which a success keeps (spec/60 R532). -/
theorem report_inf_report (e : Option Error) (s : State) (f : Inflater) :
    report e { report none s with inf := f } = report e { s with inf := f } := by
  simp only [report, stickyField_statusWord, setsSticky, Bool.or_false]

section
variable {s : State} {bytes : Bytes}

theorem execInflateFeed_fits (hph : s.inf.phase ≠ .idle)
    (hcap : s.inf.input.length + s.inp.length ≤ s.params.maxStreamBytes) :
    execInflateFeed s = .next (report none { s with inf := { s.inf with input := s.inf.input ++ s.inp } }) :=
  (complete_ok_bind (requireStarted_ok (u := ()).2 hph)).trans
    (complete_ok_bind (checkCapacity_ok (u := ()).2 hcap))

/-- Before any output, a run that asks for more input only moves to the phase it waits in. -/
theorem execInflateRun_more {ph : Phase} (hph : s.inf.phase ≠ .idle) (herr : s.inf.err = none)
    (hemit : s.inf.emitted = 0) (hout : s.out.length ≤ s.params.maxStreamBytes)
    (h : inflate s.inf.input s.inf.wrap = .more [] ph) :
    execInflateRun s = .next (report (some .needsMoreInput) { s with inf := { s.inf with phase := ph } }) := by
  have hcommit : commitRun s [] ph = .ok { s with inf := { s.inf with phase := ph } } :=
    commitRun_ok.2 ⟨Nat.zero_le _, by simpa using hout, by simp [← hemit]⟩
  rw [execInflateRun, requireStarted_ok (u := ()).2 hph]
  simp only [herr, h, hcommit]

/-- A run that fails keeps its error. -/
theorem execInflateRun_fail {e : Error} (hph : s.inf.phase ≠ .idle) (herr : s.inf.err = none)
    (h : inflate s.inf.input s.inf.wrap = .fail e) :
    execInflateRun s = .next (report (some e) { s with inf := { s.inf with err := some e, phase := .error } }) := by
  rw [execInflateRun, requireStarted_ok (u := ()).2 hph]
  simp only [herr, h]

theorem arriveAtDecoder_fits (hph : s.inf.phase ≠ .idle)
    (hcap : s.inf.input.length + bytes.length ≤ s.params.maxStreamBytes) :
    arriveAtDecoder bytes s =
      execInflateRun (report none { s with inp := bytes, inf := { s.inf with input := s.inf.input ++ bytes } }) := by
  have hin : bytes.length ≤ s.params.maxStreamBytes := by omega
  have hfeed := execInflateFeed_fits (s := { s with inp := bytes }) hph hcap
  rw [arriveAtDecoder, withInput_eq, if_pos hin, hfeed]
  rfl

variable {wrap : Bool} {input : Bytes} {ph : Phase}

theorem arriveAtDecoder_more {ph' : Phase} (hs : s.inf = ⟨wrap, input, 0, none, ph⟩) (hph : ph ≠ .idle)
    (hcap : input.length + bytes.length ≤ s.params.maxStreamBytes) (hout : s.out.length ≤ s.params.maxStreamBytes)
    (h : inflate (input ++ bytes) wrap = .more [] ph') :
    arriveAtDecoder bytes s = .next (report (some .needsMoreInput) { s with
      inp := bytes, inf := ⟨wrap, input ++ bytes, 0, none, ph'⟩ }) := by
  rw [arriveAtDecoder_fits (by rwa [hs]) (by rwa [hs]), hs, execInflateRun_more (ph := ph'), report_inf_report]
  · rfl
  · exact hph
  · rfl
  · rfl
  · exact hout
  · exact h

theorem arriveAtDecoder_fail {e : Error} (hs : s.inf = ⟨wrap, input, 0, none, ph⟩) (hph : ph ≠ .idle)
    (hcap : input.length + bytes.length ≤ s.params.maxStreamBytes) (h : inflate (input ++ bytes) wrap = .fail e) :
    arriveAtDecoder bytes s = .next (report (some e) { s with
      inp := bytes, inf := ⟨wrap, input ++ bytes, 0, some e, .error⟩ }) := by
  rw [arriveAtDecoder_fits (by rwa [hs]) (by rwa [hs]), hs, execInflateRun_fail (e := e), report_inf_report]
  · rfl
  · exact hph
  · rfl
  · exact h

end

/-! ## The items -/

section
variable {s : State} {wrap : Bool} {input : Bytes} {t : BitVec 2} {body : BitVec 5} {b : Byte} (final : Bool)

/-- A block header whose body then asks for more input. -/
theorem blockHeader_more {ph : Phase} (hw : AtFirstBlock wrap input)
    (hs : s.inf = ⟨wrap, input, 0, none, .readBlockHeader⟩) (hcap : 3 ≤ s.params.maxStreamBytes)
    (hout : s.out.length ≤ s.params.maxStreamBytes) (hb : blockByte t final body = b)
    (h : ∀ p, decodeBody t.toNat ⟨bitsOf 5 body.toNat, p, []⟩ = .error (.more [] ph)) :
    arriveAtDecoder [blockByte t final body] s = .next (report (some .needsMoreInput) { s with
      inp := [b], inf := ⟨wrap, input ++ [b], 0, none, ph⟩ }) := by
  subst hb
  have hlen := length_le_of_atFirstBlock hw
  exact arriveAtDecoder_more hs (by decide) (Nat.le_trans (Nat.succ_le_succ hlen) hcap) hout
    (inflate_of_more (decodeStream_header hw h))

/-- A block header whose type the decoder refuses. -/
theorem blockHeader_fail {e : Error} (hw : AtFirstBlock wrap input)
    (hs : s.inf = ⟨wrap, input, 0, none, .readBlockHeader⟩) (hcap : 3 ≤ s.params.maxStreamBytes)
    (hb : blockByte t final body = b)
    (h : ∀ p, decodeBody t.toNat ⟨bitsOf 5 body.toNat, p, []⟩ = .error (.fail e)) :
    arriveAtDecoder [blockByte t final body] s = .next (report (some e) { s with
      inp := [b], inf := ⟨wrap, input ++ [b], 0, some e, .error⟩ }) := by
  subst hb
  have hlen := length_le_of_atFirstBlock hw
  exact arriveAtDecoder_fail hs (by decide) (Nat.le_trans (Nat.succ_le_succ hlen) hcap)
    (inflate_of_fail (decodeStream_header hw h))

end

/-- Settles O57: the header bits choose the body, and the five bits after them do not decide it. -/
theorem streamItems : Obligations.StreamItems := by
  refine ⟨fun s hs hcap hout => arriveAtDecoder_more hs (by decide) hcap hout inflate_zlibHeader,
    fun final body s wrap input hw hs hcap hout => ⟨fun b hb => ?_, fun b hb => ?_, fun b hb => ?_, fun b hb => ?_⟩⟩
  · exact blockHeader_more (t := 0) final hw hs hcap hout (by simp [blockByte_eq, hb]) (decodeBody_stored_five body)
  · exact blockHeader_more (t := 1) final hw hs hcap hout (by simp [blockByte_eq, hb]) (decodeBody_fixed_five body)
  · exact blockHeader_more (t := 2) final hw hs hcap hout (by simp [blockByte_eq, hb]) (decodeBody_dynamic_five body)
  · exact blockHeader_fail (t := 3) final hw hs hcap (by simp [blockByte_eq, hb]) fun _ => rfl

end Sys2Proof.Machine

/-! ZIP records handed to the codec (spec/30 R150 to R152; spec/46 R463, R468, R473, R477): what the parser makes of the
images the records are put in (log 7), and the commands that read them. -/

namespace Sys2Proof.Machine

/-! ## Records at the end of other bytes -/

section
variable (a b : Bytes)

theorem eocdAt_append_right : eocdAt (a ++ b) a.length = eocdAt b 0 := by
  simp only [eocdAt, u16At_append_right, u32At_append_right, slice_append_right, Nat.zero_add]

theorem centralAt_append_right : centralAt (a ++ b) a.length = centralAt b 0 := by
  unfold centralAt
  simp only [u16At_append_right, u32At_append_right, slice_append_right, Nat.zero_add, Nat.add_assoc]

end

theorem length_localBytes_le {r : LocalRecord} (h : (Instr.zipLocalHeader r).wf = true) :
    30 ≤ (localBytes r).length ∧ (localBytes r).length ≤ 30 + 2 * 65535 := by
  simp only [Instr.wf, fits16, Bool.and_eq_true, decide_eq_true_eq] at h
  rw [length_localBytes]
  omega

theorem length_centralBytes_le {r : CentralRecord} (h : (Instr.zipCentralHeader r).wf = true) :
    46 ≤ (centralBytes r).length ∧ (centralBytes r).length ≤ 46 + 3 * 65535 := by
  simp only [Instr.wf, fits16, Bool.and_eq_true, decide_eq_true_eq] at h
  rw [length_centralBytes]
  omega

theorem length_eocdBytes_le {r : EocdRecord} (h : (Instr.zipEocd r).wf = true) :
    (eocdBytes r).length ≤ 22 + 65535 := by
  simp only [Instr.wf, fits16, decide_eq_true_eq] at h
  rw [length_eocdBytes]
  omega

/-! ## The parser on these images (spec/46 R461, R463, R468) -/

/-- Parsing an image that ends in the record of the EOCD located: the record itself always lies in the image. -/
theorem parseArchive_eocdBytes {front : Bytes} {r : EocdRecord} (h : (Instr.zipEocd r).wf = true)
    (hp : locateEocd (front ++ eocdBytes r) = .ok front.length) :
    parseArchive (front ++ eocdBytes r) =
      if r.disk = 0 ∧ r.cdDisk = 0 ∧ r.nThis = r.nTotal then
        if r.cdOffset.toNat + r.cdSize.toNat ≤ (front ++ eocdBytes r).length then
          (parseRecords (front ++ eocdBytes r) (r.cdOffset.toNat + r.cdSize.toNat) r.nTotal.toNat
            r.cdOffset.toNat).map (fun index => (index, r.cdOffset))
        else .error .corrupt
      else .error .multiDiskUnsupported := by
  have hread := eocdAt_eocdBytes [] h
  have hcomment := eocdBytes_commentLength r []
  rw [List.append_nil] at hread hcomment
  simp only [Instr.wf] at h
  rw [parseArchive_located hp ((eocdAt_append_right front (eocdBytes r)).trans hread).symm, u16At_append_right,
    hcomment, toNat_len16 h, List.length_append, length_eocdBytes, Nat.add_assoc]
  simp only [Nat.le_refl, true_and]

/-- The record loop over one record ends where the record does, with the entry the record describes. -/
theorem parseRecords_centralBytes {r : CentralRecord} (lead rest : Bytes) (h : (Instr.zipCentralHeader r).wf = true) :
    parseRecords (lead ++ (centralBytes r ++ rest)) (lead.length + (centralBytes r).length) 1 lead.length =
      .ok [entryOf r] := by
  have hread := centralAt_centralBytes rest h
  have hsig : u32At (lead ++ (centralBytes r ++ rest)) lead.length = 0x02014B50 :=
    (u32At_append_right lead _ 0).trans (centralBytes_sig r rest)
  have hl := length_centralBytes r
  simp only [Instr.wf, Bool.and_eq_true] at h
  obtain ⟨⟨hname, hextra⟩, hcomment⟩ := h
  rw [parseRecords_succ rfl, u16At_append_right, u16At_append_right, u16At_append_right, centralBytes_nameLength,
    centralBytes_extraLength, centralBytes_commentLength, toNat_len16 hname, toNat_len16 hextra, toNat_len16 hcomment,
    if_pos (by omega), if_pos hsig, if_pos (by omega), centralAt_append_right, hread]
  rfl

section
variable (count : Nat) {size offset : Nat}

theorem eocdRecordOf_cdSize (h : size < 2 ^ 32) : (eocdRecordOf count size offset).cdSize.toNat = size :=
  (BitVec.toNat_ofNat ..).trans (Nat.mod_eq_of_lt h)

theorem eocdRecordOf_cdOffset (h : offset < 2 ^ 32) : (eocdRecordOf count size offset).cdOffset.toNat = offset :=
  (BitVec.toNat_ofNat ..).trans (Nat.mod_eq_of_lt h)

theorem length_eocdRecordOf : (eocdBytes (eocdRecordOf count size offset)).length = 22 := length_eocdBytes _

theorem locateEocd_eocdRecordOf (front : Bytes) :
    locateEocd (front ++ eocdBytes (eocdRecordOf count size offset)) = .ok front.length := by
  have hsig := eocdBytes_sig (eocdRecordOf count size offset) []
  rw [List.append_nil] at hsig
  exact locateEocd_append (length_eocdRecordOf count) hsig

end

theorem length_oneEntryImage (lead record : Bytes) :
    (oneEntryImage lead record).length = lead.length + record.length + 22 := by
  rw [oneEntryImage, List.length_append, List.length_append, length_eocdRecordOf]

/-- An image of one entry has the entry of its record as its index, and the record's offset. -/
theorem parseArchive_oneEntryImage {lead : Bytes} {r : CentralRecord} (h : (Instr.zipCentralHeader r).wf = true)
    (hlen : lead.length + (centralBytes r).length < 2 ^ 32) :
    parseArchive (oneEntryImage lead (centralBytes r)) = .ok ([entryOf r], BitVec.ofNat 32 lead.length) := by
  have hsize := eocdRecordOf_cdSize 1 (size := (centralBytes r).length) (offset := lead.length) (by omega)
  have hoff := eocdRecordOf_cdOffset 1 (size := (centralBytes r).length) (offset := lead.length) (by omega)
  have hdir : lead.length + (centralBytes r).length ≤ (oneEntryImage lead (centralBytes r)).length := by
    rw [length_oneEntryImage]
    omega
  rw [oneEntryImage] at hdir ⊢
  rw [parseArchive_eocdBytes rfl (locateEocd_eocdRecordOf 1 _), if_pos ⟨rfl, rfl, rfl⟩, hoff, hsize, if_pos hdir,
    List.append_assoc]
  exact congrArg (Except.map _) (parseRecords_centralBytes lead _ h)

/-! ## Opening and extracting (spec/46 R460, R473, R474) -/

section
variable {s : State}

theorem execZipOpenRead_ok {index : List Entry} {off : Word} (hm : s.zip.mode ≠ .writer)
    (hp : parseArchive s.inp = .ok (index, off)) (hs : s.inp.length ≤ s.params.maxStreamBytes)
    (hl : s.inp.length ≤ imageLimit) :
    execZipOpenRead s = .next (report none { s with
      zip := ⟨s.inp, index, off, .reader⟩, result := BitVec.ofNat 32 index.length }) :=
  congrArg (complete s) (openArchive_ok (kept := fun _ => s.inp) hm hp hs hl)

theorem execZipOpenRead_parse_error {e : Error} (hm : s.zip.mode ≠ .writer) (hp : parseArchive s.inp = .error e) :
    execZipOpenRead s = .next (report (some e) s) :=
  congrArg (complete s) (openArchive_parse_error (kept := fun _ => s.inp) hm hp)

/-- An entry that extracts, and whose data fit. -/
theorem execZipExtract_ok {e : Entry} {data : Bytes} (hm : s.zip.mode = .reader)
    (he : s.zip.index[s.arg.toNat]? = some e) (hx : extractEntry s.zip.img e = .ok data)
    (hout : s.out.length + data.length ≤ s.params.maxStreamBytes) (hn : data.length < 2 ^ 32) :
    execZipExtract s = .next (report none { s with
      out := s.out ++ data, result := BitVec.ofNat 32 data.length, result2 := e.crc }) := by
  rw [execZipExtract, complete_ok_bind (requireReader_ok (u := ()).2 hm), complete_ok_bind (entryOperand_ok.2 he),
    complete_ok_bind hx, complete_ok_bind (appendOut_ok.2 ⟨hout, rfl⟩), complete_ok_bind (countWord_fits hn)]
  rfl

end

/-- The empty stored entry at the start of an image: its local header is skipped over to an empty payload, whose length
and CRC32 are the entry's. -/
theorem extractEntry_empty {r : LocalRecord} (rest : Bytes) (h : (Instr.zipLocalHeader r).wf = true) :
    extractEntry (localBytes r ++ rest) (entryOf (emptyEntryRecord r.name)) = .ok [] := by
  have hl := length_localBytes r
  have hn := localBytes_nameLength r rest
  have he := localBytes_extraLength r rest
  have hoff : (entryOf (emptyEntryRecord r.name)).offset.toNat = 0 := rfl
  have hcsize : (entryOf (emptyEntryRecord r.name)).csize.toNat = 0 := rfl
  simp only [Instr.wf, Bool.and_eq_true] at h
  obtain ⟨hname, hextra⟩ := h
  rw [extractEntry]
  simp only [require_bind, hoff, hcsize, Nat.zero_add, hn, he, toNat_len16 hname, toNat_len16 hextra,
    List.length_append, slice, List.take_zero]
  rw [if_pos (by omega), if_pos (localBytes_sig r rest), if_pos (by omega)]
  rfl

/-! ## The items -/

theorem wf_emptyEntryRecord {r : LocalRecord} (h : (Instr.zipLocalHeader r).wf = true) :
    (Instr.zipCentralHeader (emptyEntryRecord r.name)).wf = true := by
  simp only [Instr.wf, Bool.and_eq_true] at h ⊢
  exact ⟨⟨h.1, rfl⟩, rfl⟩

/-- A local header: the archive is opened and its empty entry extracted. -/
theorem exec_zipLocalHeader {r : LocalRecord} {s : State} {img : Bytes} (h : (Instr.zipLocalHeader r).wf = true)
    (hm : s.zip.mode ≠ .writer) (himg : img = oneEntryImage (localBytes r) (centralBytes (emptyEntryRecord r.name)))
    (hcap : img.length ≤ s.params.maxStreamBytes) (hout : s.out.length ≤ s.params.maxStreamBytes) :
    exec (.zipLocalHeader r) s = .next (report none { s with
      inp := img, arg := 0, result := 0, result2 := 0
      zip := ⟨img, [entryOf (emptyEntryRecord r.name)], BitVec.ofNat 32 (localBytes r).length, .reader⟩ }) := by
  have hwf := wf_emptyEntryRecord h
  have hlead := length_localBytes_le h
  have hrec := length_centralBytes_le hwf
  have hlen := length_oneEntryImage (localBytes r) (centralBytes (emptyEntryRecord r.name))
  have hparse := parseArchive_oneEntryImage (lead := localBytes r) hwf (by omega)
  have hexec : exec (.zipLocalHeader r) s =
      withInput s (oneEntryImage (localBytes r) (centralBytes (emptyEntryRecord r.name)))
        (fun t => andThen (execZipOpenRead t) (fun u => execZipExtract { u with arg := 0 })) := rfl
  rw [← himg] at hlen hparse hexec
  have hlim : img.length ≤ imageLimit := by rw [imageLimit]; omega
  have hx : extractEntry img (entryOf (emptyEntryRecord r.name)) = .ok [] := by
    rw [himg, oneEntryImage, List.append_assoc]
    exact extractEntry_empty _ h
  rw [hexec, withInput_eq, if_pos hcap, execZipOpenRead_ok (s := { s with inp := img }) hm hparse hcap hlim]
  change execZipExtract _ = _
  rw [execZipExtract_ok (e := entryOf (emptyEntryRecord r.name)) (data := [])]
  · simp only [report, stickyField_statusWord, setsSticky, Bool.or_false, List.append_nil]
    rfl
  · rfl
  · rfl
  · exact hx
  · exact hout
  · decide

/-- A central-directory record: the archive is opened, and its one entry is the record's. -/
theorem exec_zipCentralHeader {r : CentralRecord} {s : State} {img : Bytes} (h : (Instr.zipCentralHeader r).wf = true)
    (hm : s.zip.mode ≠ .writer) (himg : img = oneEntryImage [] (centralBytes r))
    (hcap : img.length ≤ s.params.maxStreamBytes) :
    exec (.zipCentralHeader r) s = .next (report none { s with
      inp := img, result := 1, zip := ⟨img, [entryOf r], 0, .reader⟩ }) := by
  have hrec := length_centralBytes_le h
  have hlen := length_oneEntryImage [] (centralBytes r)
  have hparse := parseArchive_oneEntryImage (lead := []) h (by rw [List.length_nil]; omega)
  have hexec : exec (.zipCentralHeader r) s = withInput s (oneEntryImage [] (centralBytes r)) execZipOpenRead := rfl
  rw [← himg] at hlen hparse hexec
  rw [List.length_nil, Nat.zero_add] at hlen
  have hlim : img.length ≤ imageLimit := by rw [imageLimit]; omega
  rw [hexec, withInput_eq, if_pos hcap, execZipOpenRead_ok (s := { s with inp := img }) hm hparse hcap hlim]
  rfl

section
variable {r : EocdRecord} {s : State}

theorem exec_zipEocd (hcap : (eocdBytes r).length ≤ s.params.maxStreamBytes) :
    exec (.zipEocd r) s = execZipOpenRead { s with inp := eocdBytes r } := by
  change withInput s (eocdBytes r) _ = _
  rw [withInput_eq, if_pos hcap]

theorem exec_zipEocd_several_disks (h : (Instr.zipEocd r).wf = true) (hm : s.zip.mode ≠ .writer)
    (hcap : (eocdBytes r).length ≤ s.params.maxStreamBytes) (hp : locateEocd (eocdBytes r) = .ok 0)
    (hmulti : r.disk ≠ 0 ∨ r.cdDisk ≠ 0 ∨ r.nThis ≠ r.nTotal) :
    exec (.zipEocd r) s = .next (report (some .multiDiskUnsupported) { s with inp := eocdBytes r }) := by
  have hone : ¬ (r.disk = 0 ∧ r.cdDisk = 0 ∧ r.nThis = r.nTotal) := fun ⟨hd, hcd, htot⟩ =>
    hmulti.elim (· hd) fun h => h.elim (· hcd) (· htot)
  rw [exec_zipEocd hcap]
  exact execZipOpenRead_parse_error (s := { s with inp := eocdBytes r }) hm
    ((parseArchive_eocdBytes (front := []) h hp).trans (if_neg hone))

theorem exec_zipEocd_empty (h : (Instr.zipEocd r).wf = true) (hm : s.zip.mode ≠ .writer)
    (hcap : (eocdBytes r).length ≤ s.params.maxStreamBytes) (hp : locateEocd (eocdBytes r) = .ok 0)
    (hdisk : r.disk = 0) (hcdDisk : r.cdDisk = 0) (hthis : r.nThis = 0) (htotal : r.nTotal = 0)
    (hdir : r.cdOffset.toNat + r.cdSize.toNat ≤ (eocdBytes r).length) :
    exec (.zipEocd r) s = .next (report none { s with
      inp := eocdBytes r, result := 0, zip := ⟨eocdBytes r, [], r.cdOffset, .reader⟩ }) := by
  have hparse : parseArchive (eocdBytes r) = .ok ([], r.cdOffset) := by
    refine (parseArchive_eocdBytes (front := []) h hp).trans ?_
    rw [if_pos ⟨hdisk, hcdDisk, hthis.trans htotal.symm⟩, List.nil_append, if_pos hdir, htotal]
    rfl
  have hlim : (eocdBytes r).length ≤ imageLimit := (length_eocdBytes_le h).trans (by decide)
  rw [exec_zipEocd hcap, execZipOpenRead_ok (s := { s with inp := eocdBytes r }) hm hparse hcap hlim]
  rfl

end

/-- Settles O58: each record reads back from the image it stands in. -/
theorem archiveItems : Obligations.ArchiveItems :=
  ⟨fun _ _ _ hwf hm himg hcap hout => exec_zipLocalHeader hwf hm himg hcap hout,
    fun _ _ _ hwf hm himg hcap =>
      ⟨exec_zipCentralHeader hwf hm himg hcap, rfl, rfl, rfl, rfl, rfl, rfl, rfl, rfl, rfl⟩,
    fun _ _ hwf hm hcap hp => ⟨exec_zipEocd_several_disks hwf hm hcap hp, exec_zipEocd_empty hwf hm hcap hp⟩⟩

end Sys2Proof.Machine

/-! Bit I/O: the commands of the bit_packer, what it writes as a sequence of bits (spec/40 R200 to R206), the commands of
the bit_unpacker, which bits it reads (R213 to R222), and that the reads give back the fields written (R221). -/

namespace Sys2Proof.Machine

/-! ## Command words with a bit count (spec/30 R110) -/

theorem nWord_eq (opc : BitVec 8) (n : BitVec 6) : nWord opc n = n.setWidth 32 <<< 8 ||| opc.setWidth 32 := by
  have happ : (0#18 ++ n ++ opc).setWidth 32 = _ := BitVec.setWidth_append_append_eq_shiftLeft_setWidth_or
  rw [BitVec.setWidth_eq, BitVec.setWidth_zero, BitVec.zero_shiftLeft, BitVec.zero_or] at happ
  exact happ

theorem decode_nWord {opc : BitVec 8} {n : BitVec 6} {i : Instr} (h : encode i = .cmd (nWord opc n)) :
    decode (.cmd (n.setWidth 32 <<< 8 ||| opc.setWidth 32)) = .ok i := by
  rw [← nWord_eq, ← h]
  exact decode_encode i (wf_of_encode_cmd h)

/-! ## Taking over what a writer left (spec/40 R201, R206; spec/60 R531) -/

section
variable {s : State} {r : Bytes × Pending}

theorem complete_commitWrite_full (h : s.params.maxStreamBytes < s.out.length + r.1.length) :
    complete s (commitWrite s r) = .next (report (some .capacityExceeded) s) :=
  complete_error_bind (appendOut_error.2 ⟨h, rfl⟩)

theorem complete_commitWrite_fits (h : s.out.length + r.1.length ≤ s.params.maxStreamBytes) :
    complete s (commitWrite s r) = .next (report none { s with out := s.out ++ r.1, bp := r.2 }) :=
  congrArg (complete s) (commitWrite_ok.2 ⟨h, rfl⟩)

/-- A writer that put bits behind the pending ones appends them to the bits written before. -/
theorem appendsBits_of_writer {bits : List Bool} (hok : PendingOk r.2)
    (hbits : streamBits r.1 ++ bitsOf r.2.nbits r.2.acc.toNat = bitsOf s.bp.nbits s.bp.acc.toNat ++ bits) :
    AppendsBits s { s with out := s.out ++ r.1, bp := r.2 } bits := by
  refine ⟨rfl, hok, ?_⟩
  rw [writtenBits, writtenBits, streamBits_append, List.append_assoc, hbits, List.append_assoc]

end

/-! ## `write_bits` and its command (spec/40 R201, R203) -/

section
variable {s : State} {v n : Nat}

/-- A field that is whole passes both checks. -/
theorem writeBits_eq (s : State) (hn : n ≤ 32) (hv : v < 2 ^ n) :
    writeBits s v n = commitWrite s (pushBits s.bp v n) := by
  rw [writeBits, require_bind, if_pos hn, require_bind, if_pos fun h => Nat.not_le.2 hv h.2]

/-- A value of at most 32 bits with one at `n` or above is refused: `n` is not 32 then. -/
theorem writeBits_value_error (s : State) (hn : n ≤ 32) (hv : 2 ^ n ≤ v) (h32 : v < 2 ^ 32) :
    writeBits s v n = .error .invalidArgument := by
  have hlt : n < 32 := (Nat.pow_lt_pow_iff_right (by decide)).1 (hv.trans_lt h32)
  rw [writeBits, require_bind, if_pos hn, require_bind, if_neg (not_not.2 ⟨hlt, hv⟩)]

theorem complete_writeBits_full (hn : n ≤ 32) (hv : v < 2 ^ n) (hp : PendingOk s.bp)
    (hcap : s.params.maxStreamBytes < s.out.length + (s.bp.nbits + n) / 8) :
    complete s (writeBits s v n) = .next (report (some .capacityExceeded) s) := by
  obtain ⟨-, hlen, -⟩ := pushBits_spec s.bp v n hp hn hv
  rw [writeBits_eq s hn hv]
  exact complete_commitWrite_full (hlen ▸ hcap)

theorem complete_writeBits_fits (hn : n ≤ 32) (hv : v < 2 ^ n) (hp : PendingOk s.bp)
    (hcap : s.out.length + (s.bp.nbits + n) / 8 ≤ s.params.maxStreamBytes) :
    ∃ t, complete s (writeBits s v n) = .next (report none t) ∧ AppendsBits s t (bitsOf n v) := by
  obtain ⟨hok, hlen, -, hbits⟩ := pushBits_spec s.bp v n hp hn hv
  rw [writeBits_eq s hn hv]
  exact ⟨_, complete_commitWrite_fits (hlen ▸ hcap), appendsBits_of_writer hok hbits⟩

end

/-- Settles O18: the two checks of `write_bits` in their order, and then a whole field is pushed. -/
theorem bpWriteBits : Obligations.BpWriteBits :=
  ⟨fun _ => decode_nWord (opc := 0x11) rfl, fun _ s hn => congrArg (complete s) (writeBits_error s _ hn), fun _ s hn =>
    ⟨fun hv => congrArg (complete s) (writeBits_value_error s hn hv s.arg.isLt), complete_writeBits_full hn,
      complete_writeBits_fits hn⟩⟩

/-! ## Bytes as fields (spec/40 R203, R204) -/

theorem fieldBits_byteFields (pos : Nat) (bytes : Bytes) : fieldBits pos (byteFields bytes) = streamBits bytes := by
  induction bytes generalizing pos with
  | nil => rfl
  | cons b bs ih => rw [streamBits_cons, byteBits_eq, ← ih (pos + 8)]; rfl

/-- Whole bytes leave as many pending bits as they found, so as many bytes come out as went in. -/
theorem length_packFields_byteFields {p : Pending} (hp : PendingOk p) (bytes : Bytes) :
    (packFields p (byteFields bytes)).1.length = bytes.length := by
  obtain ⟨-, hn, hbits⟩ := packFields_spec p _ hp (byteFields_ok bytes)
  have hlen := congrArg List.length hbits
  rw [fieldBits_byteFields, length_streamBits] at hn
  simp only [fieldBits_byteFields, List.length_append, length_streamBits, length_bitsOf] at hlen
  have := hp.1
  omega

theorem exec_bpWriteByte {s : State} (h : s.arg.toNat ≤ 0xFF) :
    exec .bpWriteByte s = complete s (writeBits s s.arg.toNat 8) :=
  complete_ok_bind (a := ()) (require_ok.2 h)

/-- Settles O19: a byte is a field of 8 bits, and 8 bits make exactly one byte complete. -/
theorem bpWriteBytes : Obligations.BpWriteBytes := by
  refine ⟨by decide, by decide, fun s h => complete_error_bind (require_error.2 ⟨Nat.not_le.2 h, rfl⟩),
    fun s h hp => ?_, fun s hp => ?_⟩
  · have hone : (s.bp.nbits + 8) / 8 = 1 := by have := hp.1; omega
    rw [exec_bpWriteByte h]
    exact ⟨fun hcap => complete_writeBits_full (by decide) (Nat.lt_succ_of_le h) hp (hone.symm ▸ hcap),
      fun hcap => complete_writeBits_fits (by decide) (Nat.lt_succ_of_le h) hp (hone.symm ▸ hcap)⟩
  · have hlen := length_packFields_byteFields hp s.inp
    obtain ⟨hok, -, hbits⟩ := packFields_spec s.bp _ hp (byteFields_ok s.inp)
    rw [fieldBits_byteFields] at hbits
    exact ⟨fun hcap => complete_commitWrite_full (hlen.symm ▸ hcap),
      fun hcap => ⟨_, complete_commitWrite_fits (hlen.symm ▸ hcap), appendsBits_of_writer hok hbits⟩⟩

/-! ## Alignment (spec/40 R205) -/

/-- Settles O20: an align puts the padding behind the pending bits and leaves none. -/
theorem bpAlignAndReset : Obligations.BpAlignAndReset := by
  refine ⟨by decide, by decide, fun _ => rfl, fun s hp => ?_⟩
  obtain ⟨hnone, hlen, hbits⟩ := alignBits_spec s.bp hp
  refine ⟨fun hcap _ => complete_commitWrite_full (hlen.symm ▸ hcap),
    fun hcap => ⟨_, complete_commitWrite_fits (hlen.symm ▸ hcap), hnone,
      appendsBits_of_writer (pendingOk_alignBits hp) ?_⟩⟩
  rw [hnone, bitsOf_zero, List.append_nil, hbits]

/-! ## The mirror law (spec/40 R206, R221) -/

/-- After an align every bit written is in the bytes. -/
theorem streamBits_packFields_align {p : Pending} {fs : List Field} (hp : PendingOk p) (hf : ∀ f ∈ fs, FieldOk f) :
    streamBits (packFields p (fs ++ [.align])).1 =
      bitsOf p.nbits p.acc.toNat ++ fieldBits p.nbits (fs ++ [.align]) := by
  have hlast : (packFields p (fs ++ [.align])).2 = ⟨0, 0⟩ := by
    obtain ⟨hok, -⟩ := packFields_spec p fs hp hf
    rw [packFields_append]
    exact (alignBits_spec _ hok).1
  have hall : ∀ f ∈ fs ++ [.align], FieldOk f :=
    List.forall_mem_append.2 ⟨hf, List.forall_mem_singleton.2 trivial⟩
  obtain ⟨-, -, hbits⟩ := packFields_spec p (fs ++ [.align]) hp hall
  rwa [hlast, bitsOf_zero, List.append_nil] at hbits

/-- Reads of the fields' widths take the fields' bits and return their values. -/
theorem readValues_fieldBits {fields : List (Nat × Nat)} (h : ∀ f ∈ fields, f.2 ≤ 32 ∧ f.1 < 2 ^ f.2) (pos : Nat)
    (rest : List Bool) :
    readValues (fields.map fun f => f.2) (fieldBits pos (fields.map fun f => .put f.1 f.2) ++ rest) =
      some (fields.map fun f => f.1) := by
  induction fields generalizing pos with
  | nil => rfl
  | cons f fs ih =>
    obtain ⟨hf, hfs⟩ := List.forall_mem_cons.1 h
    simp only [List.map_cons, fieldBits, readValues, List.append_assoc, takeBits_bitsOf f.2 f.1 _ hf.2, ih hfs,
      Option.map_some]

/-- Settles O21: the bytes are the fields' bits and the padding, and each read takes one field's bits. -/
theorem mirrorLaw : Obligations.MirrorLaw := by
  intro fields h
  have hf : ∀ f ∈ fields.map fun f => Field.put f.1 f.2, FieldOk f := List.forall_mem_map.2 h
  rw [streamBits_packFields_align (by decide) hf, fieldBits_append]
  exact readValues_fieldBits h 0 _

/-! ## The bits of `BU` (spec/20 R81, spec/40 R215) -/

/-- Bit `i` of a byte sequence is bit `i mod 8` of byte `i div 8`; past the end both are 0. -/
theorem streamBits_getD (bs : Bytes) (i : Nat) :
    (streamBits bs).getD i false = (byteAt bs (i / 8)).getLsbD (i % 8) := by
  induction bs generalizing i with
  | nil => simp [byteAt]
  | cons b bs ih =>
    rw [streamBits_cons]
    obtain hi | hi := Nat.lt_or_ge i 8
    · rw [List.getD_append _ _ _ _ hi, byteBits_eq, Nat.div_eq_of_lt hi, Nat.mod_eq_of_lt hi]
      simp [bitsOf, hi, byteAt, BitVec.getLsbD]
    · obtain ⟨j, rfl⟩ := Nat.exists_eq_add_of_le' hi
      rw [List.getD_append_right _ _ _ _ hi, length_byteBits, Nat.add_sub_cancel, ih, Nat.add_div_right _ (by decide),
        Nat.add_mod_right]
      rfl

theorem unreadBits_getD (u : Unpacker) (k : Nat) :
    (unreadBits u).getD k false = (byteAt u.data ((u.pos + k) / 8)).getLsbD ((u.pos + k) % 8) := by
  rw [← streamBits_getD, unreadBits, List.getD_eq_getElem?_getD, List.getElem?_drop, ← List.getD_eq_getElem?_getD]

section
variable {s : State} {n : BitVec 6}

theorem peekValue_insufficient (hn : n.toNat ≤ 32) (h : remainingBits s.bu < n.toNat) :
    peekValue s n = .error .insufficientBits := by
  have hnone : takeBits n.toNat (unreadBits s.bu) = none := takeBits_eq_none.2 (length_unreadBits s.bu ▸ h)
  exact bind_error.2 (.inr ⟨_, countOperand_ok.2 ⟨hn, rfl⟩, by rw [hnone]⟩)

/-- The value of a read, bit by bit. -/
theorem peekValue_fits (hn : n.toNat ≤ 32) (h : n.toNat ≤ remainingBits s.bu) :
    ∃ v, peekValue s n = .ok v ∧ ∀ k, v.testBit k = (decide (k < n.toNat) && (unreadBits s.bu).getD k false) := by
  cases ht : takeBits n.toNat (unreadBits s.bu) with
  | none => exact absurd (length_unreadBits s.bu ▸ takeBits_eq_none.1 ht) (Nat.not_lt.2 h)
  | some r =>
    obtain ⟨v, rest⟩ := r
    obtain ⟨hv, hbits⟩ := takeBits_eq_some.1 ht
    refine ⟨v, peekValue_ok.2 ⟨hn, rest, ht⟩, fun k => ?_⟩
    obtain hk | hk := Nat.lt_or_ge k n.toNat
    · rw [hbits, List.getD_append _ _ _ _ (by simpa using hk)]
      simp [bitsOf, hk]
    · rw [decide_eq_false (Nat.not_lt.2 hk), Bool.false_and]
      exact Nat.testBit_lt_two_pow (hv.trans_le (Nat.pow_le_pow_right (by decide) hk))

end

/-- Settles O22: both commands look at the same value, and its bits are the next ones of `BU`. -/
theorem buReadBits : Obligations.BuReadBits := by
  refine ⟨fun n => ⟨decode_nWord (opc := 0x1A) rfl, decode_nWord (opc := 0x1B) rfl⟩, fun n s hn => ?_,
    fun n s hn hu => ⟨fun hcap => ?_, fun hcap => ?_⟩⟩
  · have hpeek := peekValue_error s hn
    exact ⟨complete_error_bind hpeek, complete_error_bind hpeek⟩
  · have hpeek := peekValue_insufficient (s := s) hn (by rw [remainingBits]; omega)
    exact ⟨complete_error_bind hpeek, complete_error_bind hpeek⟩
  · obtain ⟨v, hpeek, hbits⟩ := peekValue_fits (s := s) hn (by rw [remainingBits]; omega)
    refine ⟨BitVec.ofNat 32 v, fun k hk => ?_, complete_ok_bind hpeek, complete_ok_bind hpeek⟩
    rw [BitVec.getLsbD_ofNat, decide_eq_true hk, Bool.true_and, hbits, unreadBits_getD]

/-! ## The other reader commands (spec/40 R213, R214, R217 to R220) -/

theorem lowWord_eq (n : Nat) : lowWord n = (BitVec.ofNat 64 n).extractLsb' 0 32 := by
  apply BitVec.eq_of_toNat_eq
  simp only [lowWord, BitVec.extractLsb'_toNat, BitVec.toNat_ofNat, Nat.shiftRight_zero]
  omega

theorem highWord_eq (n : Nat) : highWord n = (BitVec.ofNat 64 n).extractLsb' 32 32 := by
  apply BitVec.eq_of_toNat_eq
  simp only [highWord, BitVec.extractLsb'_toNat, BitVec.toNat_ofNat, Nat.shiftRight_eq_div_pow]
  omega

section
variable {s : State}

theorem exec_buPosition : exec .buPosition s = .next (report none { s with
    result := (BitVec.ofNat 64 s.bu.pos).extractLsb' 0 32
    result2 := (BitVec.ofNat 64 s.bu.pos).extractLsb' 32 32 }) := by
  rw [← lowWord_eq, ← highWord_eq]
  rfl

theorem exec_buRemaining : exec .buRemaining s = .next (report none { s with
    result := (BitVec.ofNat 64 (8 * s.bu.data.length - s.bu.pos)).extractLsb' 0 32
    result2 := (BitVec.ofNat 64 (8 * s.bu.data.length - s.bu.pos)).extractLsb' 32 32 }) := by
  rw [← lowWord_eq, ← highWord_eq]
  rfl

end

/-- Settles O23: one check in `BU_LOAD` and in `BU_SKIP_BITS`, none in the others. -/
theorem buCommands : Obligations.BuCommands := by
  refine ⟨by decide, by decide, by decide, by decide, by decide, by decide, fun s => ⟨fun h => ?_, fun h => ?_⟩,
    fun _ => rfl, fun s hu => ⟨fun h => ?_, fun h => ?_⟩, fun _ => rfl, fun _ => exec_buPosition,
    fun _ _ => exec_buRemaining⟩
  · exact complete_error_bind (checkCapacity_error.2 ⟨h, rfl⟩)
  · exact complete_ok_bind (a := ()) (checkCapacity_ok.2 h)
  · have hfew : ¬ s.arg.toNat ≤ remainingBits s.bu := by rw [remainingBits]; omega
    exact complete_error_bind (require_error.2 ⟨hfew, rfl⟩)
  · have henough : s.arg.toNat ≤ remainingBits s.bu := by rw [remainingBits]; omega
    exact complete_ok_bind (a := ()) (require_ok.2 henough)

end Sys2Proof.Machine

/-! The Checksum Engine: Adler32 as a fold over pairs of sums and its delayed reduction (spec/41 R240, R241), CRC32 as
bits shifted into a register (R247, R248), the streaming laws of both (R246, R249), and their six commands. -/

namespace Sys2Proof.Machine

/-! ## Adler32 as a fold over the sums (spec/41 R240) -/

/-- The two sums an Adler32 value stands for, the low half first. -/
def adlerSums (w : Word) : Nat × Nat := ((w.extractLsb' 0 16).toNat, (w.extractLsb' 16 16).toNat)

/-- The Adler32 value of two sums. -/
def packSums (sums : Nat × Nat) : Word := BitVec.ofNat 16 sums.2 ++ BitVec.ofNat 16 sums.1

/-- Each sum fits the half of the value that holds it. -/
def FitHalves (sums : Nat × Nat) : Prop := sums.1 < 2 ^ 16 ∧ sums.2 < 2 ^ 16

theorem packSums_adlerSums (w : Word) : packSums (adlerSums w) = w := by
  rw [packSums, adlerSums, BitVec.ofNat_toNat, BitVec.ofNat_toNat, BitVec.setWidth_eq, BitVec.setWidth_eq]
  exact BitVec.extractLsb'_append_extractLsb'

theorem adlerSums_packSums {sums : Nat × Nat} (h : FitHalves sums) : adlerSums (packSums sums) = sums := by
  obtain ⟨hlow, hhigh⟩ := h
  ext
  · rw [adlerSums, packSums, BitVec.extractLsb'_append_eq_right]
    exact Nat.mod_eq_of_lt hlow
  · rw [adlerSums, packSums, BitVec.extractLsb'_append_eq_left]
    exact Nat.mod_eq_of_lt hhigh

theorem packSums_eq_ofNat {s1 s2 : Nat} (h1 : s1 < 2 ^ 16) :
    packSums (s1, s2) = BitVec.ofNat 32 (s2 * 65536 + s1) := by
  apply BitVec.eq_of_toNat_eq
  rw [packSums, BitVec.toNat_append, BitVec.toNat_ofNat, BitVec.toNat_ofNat, BitVec.toNat_ofNat, Nat.mod_eq_of_lt h1,
    ← Nat.shiftLeft_add_eq_or_of_lt h1, Nat.shiftLeft_eq]
  omega

theorem fitHalves_adlerSums (w : Word) : FitHalves (adlerSums w) := ⟨BitVec.isLt _, BitVec.isLt _⟩

theorem fitHalves_adlerStep (sums : Nat × Nat) (b : Byte) : FitHalves (adlerStep sums b) :=
  ⟨(Nat.mod_lt _ (by decide)).trans (by decide), (Nat.mod_lt _ (by decide)).trans (by decide)⟩

theorem fitHalves_foldl_adlerStep {sums : Nat × Nat} (data : Bytes) (h : FitHalves sums) :
    FitHalves (data.foldl adlerStep sums) := by
  induction data generalizing sums with
  | nil => exact h
  | cons b bs ih => exact ih (fitHalves_adlerStep sums b)

/-- The empty data is no special case: a seed is the value of its own sums. -/
theorem adler32_eq (seed : Word) (data : Bytes) :
    adler32 seed data = packSums (data.foldl adlerStep (adlerSums seed)) := by
  rw [adler32]
  split
  · next h => rw [h, List.foldl_nil, packSums_adlerSums]
  · rfl

theorem adlerSums_adler32 (seed : Word) (data : Bytes) :
    adlerSums (adler32 seed data) = data.foldl adlerStep (adlerSums seed) := by
  rw [adler32_eq, adlerSums_packSums (fitHalves_foldl_adlerStep data (fitHalves_adlerSums seed))]

/-! ## The streaming laws (spec/41 R246, R249) -/

theorem adler32_append (seed : Word) (a b : Bytes) : adler32 (adler32 seed a) b = adler32 seed (a ++ b) := by
  rw [adler32_eq _ b, adlerSums_adler32, ← List.foldl_append, ← adler32_eq]

/-- The inversion at the end of the first part cancels the one at the beginning of the second. -/
theorem crc32_append (seed : Word) (a b : Bytes) : crc32 (crc32 seed a) b = crc32 seed (a ++ b) := by
  rw [crc32, crc32, crc32, xor_cancel_right, List.foldl_append]

/-- Settles O25: the state between the two parts is the one the loop over both passes through. -/
theorem streamingChecksums : Obligations.StreamingChecksums :=
  fun seed a b => ⟨adler32_append seed a b, crc32_append seed a b⟩

/-! ## Delayed reduction (spec/41 R241) -/

/-- Both sums reduced. -/
def reduceSums (sums : Nat × Nat) : Nat × Nat := (sums.1 % 65521, sums.2 % 65521)

theorem adlerStep_eq_reduceSums (sums : Nat × Nat) (b : Byte) : adlerStep sums b = reduceSums (plainStep sums b) := by
  simp only [adlerStep, reduceSums, plainStep, adlerMod, Nat.add_mod_mod, Nat.add_assoc]

/-- A step does not see whether its sums were reduced before. -/
theorem adlerStep_reduceSums (sums : Nat × Nat) (b : Byte) :
    adlerStep (reduceSums sums) b = reduceSums (plainStep sums b) := by
  rw [← adlerStep_eq_reduceSums]
  simp only [adlerStep, reduceSums, adlerMod, Nat.mod_add_mod]

theorem foldl_adlerStep_reduceSums (sums : Nat × Nat) (data : Bytes) :
    data.foldl adlerStep (reduceSums sums) = reduceSums (data.foldl plainStep sums) :=
  List.foldl_hom reduceSums adlerStep_reduceSums

theorem foldl_adlerStep_eq_reduceSums (sums : Nat × Nat) {data : Bytes} (h : data ≠ []) :
    data.foldl adlerStep sums = reduceSums (data.foldl plainStep sums) := by
  cases data with
  | nil => exact absurd rfl h
  | cons b bs => rw [List.foldl_cons, List.foldl_cons, adlerStep_eq_reduceSums, foldl_adlerStep_reduceSums]

theorem foldl_plainStep_fst_le (sums : Nat × Nat) (data : Bytes) :
    (data.foldl plainStep sums).1 ≤ sums.1 + 255 * data.length := by
  induction data generalizing sums with
  | nil => exact Nat.le_refl _
  | cons b bs ih =>
    have hb : b.toNat < 256 := b.isLt
    refine (ih (plainStep sums b)).trans ?_
    simp only [plainStep, List.length_cons]
    omega

/-- The low sum enters the high one once per byte, and the k-th byte from the end k times: doubled, so that the sum of
1 to n needs no division. -/
theorem foldl_plainStep_snd_le (sums : Nat × Nat) (data : Bytes) :
    2 * (data.foldl plainStep sums).2 ≤
      2 * sums.2 + 2 * data.length * sums.1 + 255 * (data.length * (data.length + 1)) := by
  induction data generalizing sums with
  | nil => exact Nat.le_add_right _ _
  | cons b bs ih =>
    have hb : b.toNat ≤ 255 := Nat.le_of_lt_succ b.isLt
    refine (ih (plainStep sums b)).trans ?_
    simp only [plainStep, List.length_cons]
    have hn : (bs.length + 1) * b.toNat ≤ (bs.length + 1) * 255 := Nat.mul_le_mul_left _ hb
    nlinarith only [hn]

/-- Settles O26: reduction commutes with each step, and the sums grow at most as over bytes of 0xFF. -/
theorem delayedReduction : Obligations.DelayedReduction := by
  refine fun s1 s2 data hne => ⟨foldl_adlerStep_eq_reduceSums (s1, s2) hne, fun h1 h2 hlen => ⟨?_, ?_⟩⟩
  · have hfst := foldl_plainStep_fst_le (s1, s2) data
    omega
  · have hsnd : 2 * (data.foldl plainStep (s1, s2)).2 ≤ 2 * s2 + 2 * (data.length * s1) +
        255 * (data.length * (data.length + 1)) := Nat.mul_assoc 2 .. ▸ foldl_plainStep_snd_le (s1, s2) data
    have hlow : data.length * s1 ≤ 5552 * 65535 := Nat.mul_le_mul hlen h1
    have hbytes : data.length * (data.length + 1) ≤ 5552 * 5553 := Nat.mul_le_mul hlen (Nat.succ_le_succ hlen)
    omega

/-! ## CRC32 as bits shifted in (spec/41 R247, R248) -/

theorem crcRounds_eq_iterate (k : Nat) (c : Word) : crcRounds k c = crcRound^[k] c := by
  induction k generalizing c with
  | zero => rfl
  | succ k ih => exact ih (crcRound c)

/-- A round over a register that holds data shifts in the data's lowest bit; the other bits stand above. -/
theorem crcRound_xor (c v : Word) : crcRound (c ^^^ v) = crcShift c (v.toNat.testBit 0) ^^^ (v >>> 1) := by
  have hbit : (c ^^^ v).getLsbD 0 = true ↔ c.getLsbD 0 ≠ v.getLsbD 0 := by rw [BitVec.getLsbD_xor, Bool.xor_iff_ne]
  rw [BitVec.testBit_toNat, crcRound, crcShift, BitVec.ushiftRight_xor_distrib]
  by_cases h : c.getLsbD 0 = v.getLsbD 0
  · rw [if_neg (fun hx => hbit.1 hx h), if_pos h]
  · rw [if_pos (hbit.2 h), if_neg h, ← crcPoly]
    ac_rfl

/-- `k` rounds shift the data's low `k` bits in. -/
theorem crcRounds_xor (k : Nat) (c v : Word) :
    crcRounds k (c ^^^ v) = (bitsOf k v.toNat).foldl crcShift c ^^^ (v >>> k) := by
  induction k generalizing c v with
  | zero => rw [bitsOf_zero, List.foldl_nil, BitVec.ushiftRight_zero, crcRounds]
  | succ k ih =>
    rw [crcRounds, crcRound_xor, ih, bitsOf_succ, List.foldl_cons, BitVec.toNat_ushiftRight, Nat.shiftRight_one,
      ← BitVec.shiftRight_add, Nat.add_comm 1 k]

theorem setWidth_ushiftRight_eight (b : Byte) : b.setWidth 32 >>> 8 = 0#32 := by
  apply BitVec.eq_of_toNat_eq
  have hb : b.toNat < 256 := b.isLt
  simp only [BitVec.toNat_ushiftRight, BitVec.toNat_setWidth, BitVec.toNat_ofNat, Nat.shiftRight_eq_div_pow]
  omega

theorem setWidth_xor_setWidth (c : Word) (b : Byte) : (c ^^^ b.setWidth 32).setWidth 8 = c.setWidth 8 ^^^ b := by
  rw [BitVec.setWidth_xor, BitVec.setWidth_setWidth_of_le _ (by decide), BitVec.setWidth_eq]

theorem crcRounds_setWidth (c : Word) (b : Byte) :
    crcRounds 8 (c ^^^ b.setWidth 32) = (byteBits b).foldl crcShift c := by
  rw [crcRounds_xor, setWidth_ushiftRight_eight, BitVec.xor_zero, byteBits_eq, BitVec.toNat_setWidth,
    Nat.mod_eq_of_lt (b.isLt.trans (by decide))]

/-- A register is its table entry, which takes its low byte in, and its upper bytes moved down. -/
theorem crcRounds_eight (c : Word) : crcRounds 8 c = crcEntry (c.setWidth 8) ^^^ (c >>> 8) := by
  have hlow : bitsOf 8 c.toNat = byteBits (c.setWidth 8) := by
    rw [byteBits_eq]
    refine bitsOf_congr fun i hi => ?_
    rw [BitVec.testBit_toNat, BitVec.testBit_toNat, BitVec.getLsbD_setWidth, decide_eq_true hi, Bool.true_and]
  calc crcRounds 8 c = crcRounds 8 (0#32 ^^^ c) := by rw [BitVec.zero_xor]
    _ = (byteBits (c.setWidth 8)).foldl crcShift 0#32 ^^^ (c >>> 8) := by rw [crcRounds_xor, hlow]
    _ = crcEntry (c.setWidth 8) ^^^ (c >>> 8) := by rw [← crcRounds_setWidth, BitVec.zero_xor, crcEntry]

/-- One table look-up shifts the eight bits of its byte in. -/
theorem crcStep_eq_foldl_crcShift (c : Word) (b : Byte) : crcStep c b = (byteBits b).foldl crcShift c := by
  rw [← crcRounds_setWidth, crcRounds_eight, setWidth_xor_setWidth, BitVec.ushiftRight_xor_distrib,
    setWidth_ushiftRight_eight, BitVec.xor_zero, crcStep]

theorem foldl_crcStep (c : Word) (data : Bytes) : data.foldl crcStep c = (streamBits data).foldl crcShift c := by
  induction data generalizing c with
  | nil => rfl
  | cons b bs ih => rw [List.foldl_cons, ih, crcStep_eq_foldl_crcShift, streamBits_cons, List.foldl_append]

theorem crc32_eq_crcBitwise (seed : Word) (data : Bytes) : crc32 seed data = crcBitwise seed data := by
  have hinv (w : Word) : w ^^^ 0xFFFFFFFF = ~~~w := BitVec.xor_allOnes
  rw [crc32, crcBitwise, hinv, hinv, foldl_crcStep]

/-! ## The functions byte by byte (spec/41 R240, R247, R248) -/

theorem adler32_concat (seed : Word) (data : Bytes) (b : Byte) :
    adler32 seed (data ++ [b]) = packSums (adlerStep (adlerSums (adler32 seed data)) b) := by
  rw [← adler32_append, adler32_eq, List.foldl_cons, List.foldl_nil]

theorem crc32_concat (seed : Word) (data : Bytes) (b : Byte) :
    crc32 seed (data ++ [b]) = crcStep (crc32 seed data ^^^ 0xFFFFFFFF) b ^^^ 0xFFFFFFFF := by
  rw [← crc32_append, crc32, List.foldl_cons, List.foldl_nil]

theorem adler32_nil (seed : Word) : adler32 seed [] = seed := rfl

theorem crc32_nil (seed : Word) : crc32 seed [] = seed := by
  rw [crc32, List.foldl_nil, xor_cancel_right]

theorem crcStep_eq_extractLsb' (c : Word) (b : Byte) :
    crcStep c b = crcEntry ((c ^^^ b.setWidth 32).extractLsb' 0 8) ^^^ (c >>> 8) := by
  rw [crcStep, ← setWidth_xor_setWidth]
  rfl

/-- Settles O24: both functions at one more byte and the CRC bit by bit; the commands check nothing. -/
theorem checksumCommands : Obligations.ChecksumCommands := by
  refine ⟨by decide, by decide, by decide, by decide, by decide, by decide,
    fun seed => ⟨adler32_nil seed, crc32_nil seed⟩, fun seed data b s1 s2 h1 h2 => ?_, fun n => ?_,
    fun seed data b c hc => ?_, crc32_eq_crcBitwise, by decide, by decide +kernel,
    fun _ => ⟨rfl, rfl, rfl, rfl, rfl, rfl⟩⟩
  · have hs1 : s1 < 2 ^ 16 := h1 ▸ (Nat.mod_lt _ (by decide)).trans (by decide)
    rw [adler32_concat, ← packSums_eq_ofNat hs1, h2, h1]
    rfl
  · rw [crcEntry, crcRounds_eq_iterate]
    exact (List.foldl_const crcRound _ (List.range 8)).symm
  · rw [crc32_concat, ← hc, crcStep_eq_extractLsb']

end Sys2Proof.Machine

/-! Huffman tables: their validation and their canonical codes as numbers (spec/42 R271, R272). -/

namespace Sys2Proof.Machine

/-! ## Validation (spec/42 R271) -/

/-- Settles O27: the loop over the lengths compares the Kraft sum with 1, and runs behind the length check. -/
theorem tableValidation : Obligations.TableValidation := by
  intro lengths
  rw [validateLengths, require_bind]
  by_cases h15 : ∀ l ∈ lengths, l ≤ 15
  · have hfits : kraftFits lengths 15 1 1 = true ↔ ¬ 2 ^ 15 < kraftSum lengths := by
      rw [kraftFits_iff h15 rfl, kraftTail_one, Nat.one_mul, Nat.not_lt]
    have hshort : ¬ ∃ l ∈ lengths, 15 < l := fun ⟨l, hl, hlt⟩ => Nat.not_lt.2 (h15 l hl) hlt
    rw [maxCodeLen, if_pos h15, if_neg hshort, require, if_congr hfits rfl rfl, ite_not]
  · have hlong : ∃ l ∈ lengths, 15 < l := by simpa using h15
    rw [maxCodeLen, if_neg h15, if_pos hlong]

/-! ## Canonical codes (spec/42 R272) -/

theorem getD_le {lengths : List Nat} {n s : Nat} (h : ∀ l ∈ lengths, l ≤ n) (hs : s < lengths.length) :
    lengths.getD s 0 ≤ n := by
  rw [List.getD_eq_getElem _ _ hs]
  exact h _ (List.getElem_mem hs)

theorem firstCode_one (lengths : List Nat) : firstCode lengths 1 = 0 := by simp [firstCode]

theorem firstCode_succ (lengths : List Nat) {l : Nat} (hl : 1 ≤ l) :
    firstCode lengths (l + 1) = 2 * (firstCode lengths l + lengths.count l) := by
  rw [firstCode, if_neg (Nat.ne_of_gt hl), lengthCount]

theorem length_assignCodes (lengths next : List Nat) : (assignCodes lengths next).length = lengths.length := by
  induction lengths generalizing next with
  | nil => rfl
  | cons l ls ih =>
    rw [assignCodes]
    split <;> simp [ih]

/-- The counter of a length has been raised by every symbol of that length before. -/
theorem getD_assignCodes {lengths next : List Nat} {s : Nat} (hlen : ∀ l ∈ lengths, l < next.length)
    (hs : s < lengths.length) (hused : lengths.getD s 0 ≠ 0) :
    (assignCodes lengths next).getD s 0 =
      next.getD (lengths.getD s 0) 0 + (lengths.take s).count (lengths.getD s 0) := by
  induction lengths generalizing next s with
  | nil => exact absurd hs (Nat.not_lt_zero s)
  | cons l ls ih =>
    obtain ⟨hl, hls⟩ := List.forall_mem_cons.1 hlen
    rw [assignCodes]
    cases s with
    | zero =>
      rw [List.getD_cons_zero] at hused
      simp [hused]
    | succ s =>
      rw [List.getD_cons_succ] at hused
      have hs' : s < ls.length := Nat.lt_of_succ_lt_succ hs
      simp only [List.getD_cons_succ, List.take_succ_cons, List.count_cons, beq_iff_eq]
      split
      · next h0 =>
        rw [List.getD_cons_succ, ih hls hs' hused, h0, if_neg (Ne.symm hused), Nat.add_zero]
      · rw [List.getD_cons_succ, ih (by simpa using hls) hs' hused]
        by_cases heq : l = ls.getD s 0
        · rw [← heq, List.getD_eq_getElem?_getD, List.getElem?_set_self hl]
          simp
          omega
        · rw [if_neg heq, List.getD_eq_getElem?_getD, List.getElem?_set_ne heq, ← List.getD_eq_getElem?_getD,
            Nat.add_zero]

theorem length_canonicalCodes (lengths : List Nat) : (canonicalCodes lengths).length = lengths.length :=
  length_assignCodes lengths _

theorem canonicalCodes_getD {lengths : List Nat} {s : Nat} (h15 : ∀ l ∈ lengths, l ≤ 15) (hs : s < lengths.length)
    (hused : lengths.getD s 0 ≠ 0) :
    (canonicalCodes lengths).getD s 0 =
      firstCode lengths (lengths.getD s 0) + (lengths.take s).count (lengths.getD s 0) := by
  have hlen : ∀ l ∈ lengths, l < (firstCodes lengths).length := fun l hl => by
    simpa [firstCodes, maxCodeLen] using Nat.lt_succ_of_le (h15 l hl)
  have hlt : lengths.getD s 0 < 16 := Nat.lt_succ_of_le (getD_le h15 hs)
  rw [canonicalCodes, getD_assignCodes hlen hs hused]
  rw [firstCodes, maxCodeLen, List.getD_eq_getElem _ 0 (by simpa using hlt), List.getElem_map, List.getElem_range]

/-- Settles O29: `firstCode` follows its recursion, and the assignment counts the symbols of each length. The model's
function has the obligation's name. -/
theorem canonicalCodes_canonical : Obligations.CanonicalCodes :=
  fun lengths h15 => ⟨firstCode_one lengths, fun _ => firstCode_succ lengths, fun _ => canonicalCodes_getD h15⟩

/-! ## No code of a legal table is the start of another (spec/42 R271, R272) -/

/-- The codes shorter than `l`, in units of `2^-15`, end where the first code of length `l` begins. -/
theorem firstCode_kraft (lengths : List Nat) {l : Nat} (h1 : 1 ≤ l) (h15 : l ≤ 15) :
    firstCode lengths l * 2 ^ (15 - l) + kraftTail lengths l = kraftSum lengths := by
  induction l, h1 using Nat.le_induction with
  | base => rw [firstCode_one, Nat.zero_mul, Nat.zero_add, kraftTail_one]
  | succ l h1 ih =>
    have hpow : 2 ^ (15 - l) = 2 * 2 ^ (15 - (l + 1)) := by
      rw [← Nat.pow_succ', show (15 - (l + 1)).succ = 15 - l by omega]
    rw [← ih (by omega), kraftTail_succ lengths l, firstCode_succ lengths h1, lengthCount, hpow]
    ring

/-- The codes of a length fit in it. -/
theorem firstCode_add_count_le {lengths : List Nat} (hk : kraftSum lengths ≤ 2 ^ 15) {l : Nat} (h1 : 1 ≤ l)
    (h15 : l ≤ 15) : firstCode lengths l + lengths.count l ≤ 2 ^ l := by
  have hsum := firstCode_kraft lengths h1 h15
  have hpow : 2 ^ l * 2 ^ (15 - l) = 2 ^ 15 := by rw [← Nat.pow_add, Nat.add_sub_cancel' h15]
  rw [kraftTail_succ, lengthCount, ← Nat.add_assoc, ← Nat.add_mul] at hsum
  refine Nat.le_of_mul_le_mul_right (c := 2 ^ (15 - l)) ?_ (by positivity)
  omega

/-- The codes of a length, filled up to a longer one, end where the codes of the longer one begin, or before. -/
theorem firstCode_le (lengths : List Nat) {l m : Nat} (h1 : 1 ≤ l) (hlm : l < m) :
    (firstCode lengths l + lengths.count l) * 2 ^ (m - l) ≤ firstCode lengths m := by
  induction m, hlm using Nat.le_induction with
  | base => rw [firstCode_succ lengths h1, show l.succ - l = 1 by omega, Nat.pow_one, Nat.mul_comm]
  | succ m hlm ih =>
    rw [firstCode_succ lengths (by omega), Nat.succ_sub (by omega), Nat.pow_succ, ← Nat.mul_assoc, Nat.mul_comm]
    exact Nat.mul_le_mul_left 2 (ih.trans (Nat.le_add_right _ _))

/-- A symbol is not among those before it that have its length. -/
theorem count_take_lt {lengths : List Nat} {s : Nat} (hs : s < lengths.length) {n : Nat} (hn : s < n) :
    (lengths.take s).count (lengths.getD s 0) < (lengths.take n).count (lengths.getD s 0) := by
  have hsub : (lengths.take (s + 1)).Sublist (lengths.take n) := List.take_sublist_take_left (by omega)
  refine Nat.lt_of_lt_of_le ?_ (hsub.count_le _)
  rw [List.take_succ_eq_append_getElem hs, List.count_append, List.getD_eq_getElem _ _ hs]
  simp

theorem count_take_lt_count {lengths : List Nat} {s : Nat} (hs : s < lengths.length) :
    (lengths.take s).count (lengths.getD s 0) < lengths.count (lengths.getD s 0) := by
  have hlt := count_take_lt hs hs
  rwa [List.take_length] at hlt

/-- No code of a used symbol is the start of another's. -/
theorem eq_of_shiftRight_canonicalCodes {lengths : List Nat} {s t : Nat} (h15 : ∀ l ∈ lengths, l ≤ 15)
    (hs : s < lengths.length) (ht : t < lengths.length) (hs0 : lengths.getD s 0 ≠ 0) (ht0 : lengths.getD t 0 ≠ 0)
    (hle : lengths.getD s 0 ≤ lengths.getD t 0)
    (hcode : (canonicalCodes lengths).getD t 0 >>> (lengths.getD t 0 - lengths.getD s 0) =
      (canonicalCodes lengths).getD s 0) : s = t := by
  rw [canonicalCodes_getD h15 hs hs0, canonicalCodes_getD h15 ht ht0] at hcode
  obtain hlt | heq := Nat.lt_or_eq_of_le hle
  · have hstart := firstCode_le lengths (Nat.one_le_iff_ne_zero.2 hs0) hlt
    have hcount := count_take_lt_count hs
    rw [Nat.shiftRight_eq_div_pow] at hcode
    have hend : lengths.count (lengths.getD s 0) + firstCode lengths (lengths.getD s 0) ≤
        (firstCode lengths (lengths.getD t 0) + (lengths.take t).count (lengths.getD t 0)) /
          2 ^ (lengths.getD t 0 - lengths.getD s 0) := by
      rw [Nat.le_div_iff_mul_le (by positivity), Nat.add_comm]
      exact hstart.trans (Nat.le_add_right _ _)
    omega
  · rw [← heq, Nat.sub_self, Nat.shiftRight_zero, Nat.add_right_inj] at hcode
    obtain hst | hst | hst := Nat.lt_trichotomy s t
    · exact absurd hcode.symm (Nat.ne_of_lt (count_take_lt hs hst))
    · exact hst
    · exact absurd hcode (Nat.ne_of_lt (heq ▸ count_take_lt ht hst))

/-- A code fits its length. -/
theorem canonicalCodes_lt {lengths : List Nat} {s : Nat} (hlegal : LegalTable lengths) (hs : s < lengths.length)
    (hused : lengths.getD s 0 ≠ 0) : (canonicalCodes lengths).getD s 0 < 2 ^ lengths.getD s 0 := by
  obtain ⟨h15, hk⟩ := hlegal
  have hfits := firstCode_add_count_le hk (Nat.one_le_iff_ne_zero.2 hused) (getD_le h15 hs)
  have hcount := count_take_lt_count hs
  rw [canonicalCodes_getD h15 hs hused]
  omega

end Sys2Proof.Machine

/-! Decoding one symbol (spec/42 R273, R274): the decoder as a walk along the bits read, and what it answers when they
hold a code, end inside one, or start none. -/

namespace Sys2Proof.Machine

/-! ## Bits read, most significant first (spec/42 R273) -/

/-- The value of bits read one after the other, the first the most significant (spec/42 R274). -/
def msbValue (bits : List Bool) : Nat := bits.foldl (fun c b => 2 * c + b.toNat) 0

theorem msbValue_concat (bits : List Bool) (b : Bool) : msbValue (bits ++ [b]) = 2 * msbValue bits + b.toNat := by
  rw [msbValue, List.foldl_append]
  rfl

theorem bitsOf_msbValue (bits : List Bool) : (bitsOf bits.length (msbValue bits)).reverse = bits := by
  induction bits using List.reverseRecOn with
  | nil => rfl
  | append_singleton bits b ih =>
    have hdiv : (2 * msbValue bits + b.toNat) / 2 = msbValue bits := by cases b <;> simp [Nat.mul_add_div]
    have hbit : (2 * msbValue bits + b.toNat).testBit 0 = b := by cases b <;> simp [Nat.testBit_zero]
    rw [List.length_append, List.length_singleton, bitsOf_succ, msbValue_concat, hdiv, hbit, List.reverse_cons, ih]

theorem msbValue_reverse_bitsOf {n v : Nat} (hv : v < 2 ^ n) : msbValue (bitsOf n v).reverse = v := by
  induction n generalizing v with
  | zero => simpa [msbValue, eq_comm] using hv
  | succ n ih =>
    have hbit : (v.testBit 0).toNat = v % 2 := by
      obtain h | h := Nat.mod_two_eq_zero_or_one v <;> simp [Nat.testBit_zero, h]
    rw [bitsOf_succ, List.reverse_cons, msbValue_concat, ih (by rw [Nat.pow_succ] at hv; omega), hbit]
    omega

/-- Bits of a value are known by their value. -/
theorem eq_reverse_bitsOf_iff {v : Nat} {read : List Bool} (hv : v < 2 ^ read.length) :
    read = (bitsOf read.length v).reverse ↔ v = msbValue read := by
  constructor
  · intro hread
    rw [← msbValue_reverse_bitsOf hv, ← hread]
  · intro hcode
    rw [hcode, bitsOf_msbValue]

/-! ## Codes as bits -/

/-- The bits of a code, most significant first (spec/42 R273). -/
def Code.bits (e : Code) : List Bool := (bitsOf e.len e.code).reverse

@[simp] theorem Code.length_bits (e : Code) : e.bits.length = e.len := by simp [Code.bits]

/-- The first bits of a code are the code without its low bits. -/
theorem Code.take_bits (e : Code) {l : Nat} (h : l ≤ e.len) :
    e.bits.take l = (bitsOf l (e.code >>> (e.len - l))).reverse := by
  have hsplit : bitsOf e.len e.code = bitsOf (e.len - l) e.code ++ bitsOf l (e.code >>> (e.len - l)) := by
    rw [← bitsOf_add, Nat.sub_add_cancel h]
  rw [Code.bits, hsplit, List.reverse_append, List.take_left' (by simp)]

section
variable {e : Code} (he : e.code < 2 ^ e.len) {read : List Bool}
include he

/-- Bits are the start of a code exactly if their value is the code without its low bits. -/
theorem Code.prefix_bits_iff :
    read <+: e.bits ↔ read.length ≤ e.len ∧ e.code >>> (e.len - read.length) = msbValue read := by
  constructor
  · intro hpre
    have hle : read.length ≤ e.len := e.length_bits ▸ hpre.length_le
    have hlt : e.code >>> (e.len - read.length) < 2 ^ read.length := by
      rw [Nat.shiftRight_eq_div_pow, Nat.div_lt_iff_lt_mul (by positivity), ← Nat.pow_add, Nat.add_sub_cancel' hle]
      exact he
    rw [List.prefix_iff_eq_take, e.take_bits hle, eq_reverse_bitsOf_iff hlt] at hpre
    exact ⟨hle, hpre⟩
  · rintro ⟨hle, hcode⟩
    rw [List.prefix_iff_eq_take, e.take_bits hle, hcode, bitsOf_msbValue]

/-- The test of the decoder for the code that it has read (spec/42 R274). -/
theorem Code.beq_read_iff : (e.len == read.length && e.code == msbValue read) = true ↔ e.bits = read := by
  rw [Bool.and_eq_true, beq_iff_eq, beq_iff_eq]
  constructor
  · rintro ⟨hlen, hcode⟩
    rw [Code.bits, hlen, hcode, bitsOf_msbValue]
  · rintro rfl
    exact ⟨e.length_bits.symm, (msbValue_reverse_bitsOf he).symm⟩

/-- The test of the decoder for a longer code than what it has read (spec/42 R274). -/
theorem isProperStart_iff :
    isProperStart (msbValue read) read.length e = true ↔ read <+: e.bits ∧ e.bits ≠ read := by
  rw [isProperStart, Bool.and_eq_true, decide_eq_true_eq, beq_iff_eq, Code.prefix_bits_iff he]
  constructor
  · rintro ⟨hlt, hcode⟩
    exact ⟨⟨hlt.le, hcode⟩, fun heq => Nat.ne_of_gt hlt (heq ▸ e.length_bits.symm)⟩
  · rintro ⟨⟨hle, hcode⟩, hne⟩
    refine ⟨Nat.lt_of_le_of_ne hle fun hlen => hne ?_, hcode⟩
    exact (List.IsPrefix.eq_of_length ((Code.prefix_bits_iff he).2 ⟨hle, hcode⟩) (by rw [hlen, e.length_bits])).symm

end

/-! ## The walk (spec/42 R274) -/

/-- The decoder after some bits of the input. -/
def decodeAfter (codes : List Code) (read bits : List Bool) : Except Error (Nat × Nat × List Bool) :=
  decodeFrom codes (msbValue read) read.length bits

theorem decodeSymbol_eq (codes : List Code) (bits : List Bool) : decodeSymbol codes bits = decodeAfter codes [] bits :=
  rfl

/-- Codes that fit their lengths, none of them the start of another (spec/42 R274). -/
structure PrefixFree (codes : List Code) : Prop where
  fits : ∀ e ∈ codes, e.code < 2 ^ e.len
  eq_of_prefix : ∀ e ∈ codes, ∀ f ∈ codes, e.bits <+: f.bits → e = f

theorem find?_eq_some_of_unique {α : Type} {p : α → Bool} {as : List α} {a : α} (ha : a ∈ as)
    (h : ∀ b ∈ as, p b = true ↔ b = a) : as.find? p = some a := by
  cases hfind : as.find? p with
  | none => exact absurd ((h a ha).2 rfl) (List.find?_eq_none.1 hfind a ha)
  | some b => rw [(h b (List.mem_of_find?_eq_some hfind)).1 (List.find?_some hfind)]

section
variable {codes : List Code} {e : Code} {read bits more : List Bool} (hc : PrefixFree codes)
include hc

/-- Bits that are a code are decoded. -/
theorem decodeAfter_bits (he : e ∈ codes) : decodeAfter codes e.bits bits = .ok (e.sym, e.len, bits) := by
  have hread : ∀ f ∈ codes, (f.len == e.bits.length && f.code == msbValue e.bits) = true ↔ f = e := fun f hf =>
    (Code.beq_read_iff (hc.fits f hf)).trans
      ⟨fun heq => hc.eq_of_prefix f hf e he (heq ▸ List.prefix_refl _), fun heq => heq ▸ rfl⟩
  unfold decodeAfter decodeFrom
  rw [find?_eq_some_of_unique he hread, Code.length_bits]

/-- No code is the bits read. -/
theorem find?_read_eq_none (hread : ∀ f ∈ codes, f.bits ≠ read) :
    codes.find? (fun f => f.len == read.length && f.code == msbValue read) = none :=
  List.find?_eq_none.2 fun f hf hmatch => hread f hf ((Code.beq_read_iff (hc.fits f hf)).1 hmatch)

/-- Bits that start no code are refused, whatever follows. -/
theorem decodeAfter_no_start (hread : ∀ f ∈ codes, ¬ read <+: f.bits) :
    decodeAfter codes read bits = .error .invalidSymbol := by
  have hfind := find?_read_eq_none hc fun f hf heq => hread f hf (heq ▸ List.prefix_refl _)
  have hany : ¬ codes.any (isProperStart (msbValue read) read.length) = true := fun hany => by
    obtain ⟨f, hf, hstart⟩ := List.any_eq_true.1 hany
    exact hread f hf ((isProperStart_iff (hc.fits f hf)).1 hstart).1
  unfold decodeAfter decodeFrom
  rw [hfind]
  exact if_neg hany

section
variable (hread : ∀ f ∈ codes, f.bits ≠ read) (he : e ∈ codes) (hstart : read <+: e.bits)
include hread he hstart

theorem any_isProperStart : codes.any (isProperStart (msbValue read) read.length) = true :=
  List.any_eq_true.2 ⟨e, he, (isProperStart_iff (hc.fits e he)).2 ⟨hstart, hread e he⟩⟩

/-- Input that ends while the bits read only start a code. -/
theorem decodeAfter_start_nil : decodeAfter codes read [] = .error .insufficientBits := by
  unfold decodeAfter decodeFrom
  rw [find?_read_eq_none hc hread]
  exact if_pos (any_isProperStart hc hread he hstart)

/-- While the bits read only start a code, the next one is read. -/
theorem decodeAfter_start_cons (b : Bool) :
    decodeAfter codes read (b :: bits) = decodeAfter codes (read ++ [b]) bits := by
  rw [decodeAfter, decodeAfter, msbValue_concat, List.length_append, List.length_singleton]
  conv_lhs => unfold decodeFrom
  rw [find?_read_eq_none hc hread]
  exact if_pos (any_isProperStart hc hread he hstart)

end

/-- A proper start of a code is no code. -/
theorem bits_ne_of_prefix (he : e ∈ codes) (hstart : read <+: e.bits) (hne : e.bits ≠ read) :
    ∀ f ∈ codes, f.bits ≠ read := by
  rintro f hf rfl
  exact hne (congrArg Code.bits (hc.eq_of_prefix f hf e he hstart)).symm

/-- The walk along the bits of a code. -/
theorem decodeAfter_append (he : e ∈ codes) (hstart : read ++ more <+: e.bits) :
    decodeAfter codes read (more ++ bits) = decodeAfter codes (read ++ more) bits := by
  induction more generalizing read with
  | nil => rw [List.nil_append, List.append_nil]
  | cons b more ih =>
    have hpre : read <+: e.bits := (List.prefix_append _ _).trans hstart
    have hne : e.bits ≠ read := by
      rintro rfl
      simpa using hstart.length_le
    rw [List.append_cons] at hstart
    rw [List.cons_append, decodeAfter_start_cons hc (bits_ne_of_prefix hc he hpre hne) he hpre, ih hstart,
      ← List.append_cons]

/-- Input that begins with a code. -/
theorem decodeSymbol_bits (he : e ∈ codes) (rest : List Bool) :
    decodeSymbol codes (e.bits ++ rest) = .ok (e.sym, e.len, rest) := by
  rw [decodeSymbol_eq, decodeAfter_append hc he (List.prefix_refl _), List.nil_append, decodeAfter_bits hc he]

/-- Input that ends inside a code. -/
theorem decodeSymbol_insufficient (he : e ∈ codes) {missing : List Bool} (hmissing : missing ≠ [])
    (hbits : e.bits = bits ++ missing) : decodeSymbol codes bits = .error .insufficientBits := by
  have hpre : bits <+: e.bits := hbits ▸ List.prefix_append bits missing
  have hne : e.bits ≠ bits := by simpa [hbits] using hmissing
  have hwalk := decodeAfter_append (bits := []) hc he (read := []) hpre
  rw [List.append_nil, List.nil_append] at hwalk
  rw [decodeSymbol_eq, hwalk]
  exact decodeAfter_start_nil hc (bits_ne_of_prefix hc he hpre hne) he hpre

/-- Input that begins with bits that neither start a code nor hold one: the walk ends at the last bit at which it still
is on a code, if not before. -/
theorem decodeAfter_invalid (hno : ∀ f ∈ codes, ¬ read ++ more <+: f.bits ∧ ¬ f.bits <+: read ++ more) :
    decodeAfter codes read (more ++ bits) = .error .invalidSymbol := by
  induction more generalizing read with
  | nil =>
    rw [List.append_nil] at hno
    exact decodeAfter_no_start hc fun f hf => (hno f hf).1
  | cons b more ih =>
    by_cases hstart : ∃ f ∈ codes, read <+: f.bits
    · obtain ⟨f, hf, hpre⟩ := hstart
      have hread : ∀ f ∈ codes, f.bits ≠ read := fun f hf heq => (hno f hf).2 (heq ▸ List.prefix_append _ _)
      rw [List.append_cons] at hno
      rw [List.cons_append, decodeAfter_start_cons hc hread hf hpre, ih hno]
    · exact decodeAfter_no_start hc fun f hf hpre => hstart ⟨f, hf, hpre⟩

theorem decodeSymbol_invalid {start rest : List Bool}
    (hno : ∀ f ∈ codes, ¬ start <+: f.bits ∧ ¬ f.bits <+: start) :
    decodeSymbol codes (start ++ rest) = .error .invalidSymbol :=
  decodeAfter_invalid (read := []) hc hno

end

/-! ## The codes of a table -/

/-- A symbol with its length and its code. -/
def symbolCode (lengths : List Nat) (s : Nat) : Code := ⟨s, lengths.getD s 0, (canonicalCodes lengths).getD s 0⟩

theorem bits_symbolCode (lengths : List Nat) (s : Nat) : (symbolCode lengths s).bits = codeBits lengths s := rfl

theorem tableCodes_eq (lengths : List Nat) :
    tableCodes lengths = ((List.range lengths.length).map (symbolCode lengths)).filter (fun e => e.len ≠ 0) := by
  have hlen := length_canonicalCodes lengths
  rw [tableCodes]
  congr 1
  refine List.ext_getElem (by simp [hlen]) fun i h1 h2 => ?_
  have hi : i < lengths.length := by simpa using h2
  simp [symbolCode, hi, hlen]

/-- The codes of a table are those of its used symbols (spec/42 R272). -/
theorem mem_tableCodes {lengths : List Nat} {e : Code} :
    e ∈ tableCodes lengths ↔ ∃ s < lengths.length, lengths.getD s 0 ≠ 0 ∧ e = symbolCode lengths s := by
  rw [tableCodes_eq, List.mem_filter, List.mem_map]
  constructor
  · rintro ⟨⟨s, hs, rfl⟩, hused⟩
    exact ⟨s, List.mem_range.1 hs, of_decide_eq_true hused, rfl⟩
  · rintro ⟨s, hs, hused, rfl⟩
    exact ⟨⟨s, List.mem_range.2 hs, rfl⟩, decide_eq_true hused⟩

theorem symbolCode_mem {lengths : List Nat} {s : Nat} (hs : s < lengths.length) (hused : lengths.getD s 0 ≠ 0) :
    symbolCode lengths s ∈ tableCodes lengths := mem_tableCodes.2 ⟨s, hs, hused, rfl⟩

theorem prefixFree_tableCodes {lengths : List Nat} (hlegal : LegalTable lengths) : PrefixFree (tableCodes lengths) := by
  have hfits : ∀ e ∈ tableCodes lengths, e.code < 2 ^ e.len := by
    intro e he
    obtain ⟨s, hs, hused, rfl⟩ := mem_tableCodes.1 he
    exact canonicalCodes_lt hlegal hs hused
  refine ⟨hfits, fun e he f hf hpre => ?_⟩
  obtain ⟨s, hs, hs0, rfl⟩ := mem_tableCodes.1 he
  obtain ⟨hle, hcode⟩ := (Code.prefix_bits_iff (hfits f hf)).1 hpre
  rw [Code.length_bits] at hle hcode
  rw [Code.bits, msbValue_reverse_bitsOf (hfits _ he)] at hcode
  obtain ⟨t, ht, ht0, rfl⟩ := mem_tableCodes.1 hf
  rw [eq_of_shiftRight_canonicalCodes hlegal.1 hs ht hs0 ht0 hle hcode]

/-- Settles O30: the walk along the bits of a code, in a table where no code is the start of another. -/
theorem symbolDecodes : Obligations.SymbolDecodes :=
  fun _ _ rest hlegal hs hused => decodeSymbol_bits (prefixFree_tableCodes hlegal) (symbolCode_mem hs hused) rest

/-- A table without used symbols has no code, and nothing starts one. -/
theorem decodeSymbol_unused {lengths : List Nat} (h : ∀ l ∈ lengths, l = 0) (bits : List Bool) :
    decodeSymbol (tableCodes lengths) bits = .error .invalidSymbol := by
  have hnil : tableCodes lengths = [] := List.eq_nil_iff_forall_not_mem.2 fun e he => by
    obtain ⟨s, hs, hused, -⟩ := mem_tableCodes.1 he
    rw [List.getD_eq_getElem _ _ hs] at hused
    exact hused (h _ (List.getElem_mem hs))
  rw [hnil]
  exact decodeSymbol_invalid (start := []) ⟨by simp, by simp⟩ (by simp)

end Sys2Proof.Machine

/-! The Huffman commands on `HT` (spec/42 R280 to R284) and the fixed tables (R275, R281). -/

namespace Sys2Proof.Machine

/-! ## The code as it is written (spec/42 R273) -/

theorem bitsOf_reverseBits (n c : Nat) : bitsOf n (reverseBits n c) = (bitsOf n c).reverse := by
  induction n generalizing c with
  | zero => rfl
  | succ n ih =>
    have hsum : reverseBits (n + 1) c = reverseBits n (c / 2) ||| (c % 2) <<< n := by
      rw [reverseBits, Nat.or_comm, ← Nat.shiftLeft_add_eq_or_of_lt (reverseBits_lt n (c / 2)), Nat.shiftLeft_eq]
    have hlow : bitsOf 1 (c % 2) = [c.testBit 0] := by simp [bitsOf, Nat.testBit_zero]
    rw [hsum, bitsOf_or_shift (reverseBits_lt n (c / 2)), ih, hlow, bitsOf_succ n c, List.reverse_cons]

theorem bitsOf_wireCode (lengths : List Nat) (sym : Nat) :
    bitsOf (lengths.getD sym 0) (wireCode lengths sym) = codeBits lengths sym := bitsOf_reverseBits _ _

theorem bitsOf_getD {n v : Nat} (hv : v < 2 ^ n) (k : Nat) : (bitsOf n v).getD k false = v.testBit k := by
  obtain hk | hk := Nat.lt_or_ge k n
  · simp [bitsOf, hk]
  · rw [List.getD_eq_default _ _ (by simpa using hk),
      Nat.testBit_lt_two_pow (hv.trans_le (Nat.pow_le_pow_right (by decide) hk))]

/-! ## The operands of the commands (spec/42 R280, R282 to R284) -/

section
variable {s : State} {slot : BitVec 2} {lengths : List Nat}

theorem tableOperand_slot3 (s : State) : tableOperand s 3 = .error .invalidArgument := rfl

theorem tableOperand_empty (hslot : slot ≠ 3) (h : slotContents s slot = .empty) :
    tableOperand s slot = .error .noTable := by
  rw [tableOperand, slotOperand, require_bind, if_pos hslot, h]

theorem tableOperand_table (hslot : slot ≠ 3) (h : slotContents s slot = .table lengths) :
    tableOperand s slot = .ok lengths := tableOperand_ok.2 ⟨hslot, h⟩

theorem symbolOperand_error (h : lengths.length ≤ s.arg.toNat) : symbolOperand lengths s = .error .invalidSymbol :=
  bind_error.2 (.inl (require_error.2 ⟨Nat.not_lt.2 h, rfl⟩))

theorem symbolOperand_fits (h : s.arg.toNat < lengths.length) : symbolOperand lengths s = .ok s.arg.toNat :=
  symbolOperand_ok.2 ⟨h, rfl⟩

end

/-! ## `HUF_BUILD` (spec/42 R280) -/

section
variable {s : State} {slot : BitVec 2} (hslot : slot ≠ 3)
include hslot

theorem exec_hufBuild_capacity (h : slotCapacity slot < s.inp.length) :
    exec (.hufBuild slot) s = .next (report (some .invalidArgument) s) :=
  (complete_ok_bind (a := ()) (slotOperand_ok.2 hslot)).trans
    (complete_error_bind (require_error.2 ⟨Nat.not_le.2 h, rfl⟩))

/-- A table that fits its slot is as good as its lengths are. -/
theorem exec_hufBuild_fits (h : s.inp.length ≤ slotCapacity slot) :
    exec (.hufBuild slot) s = complete s (do
      validateLengths (lengthsOperand s)
      .ok (setSlot s slot (.table (lengthsOperand s)))) :=
  (complete_ok_bind (a := ()) (slotOperand_ok.2 hslot)).trans (complete_ok_bind (a := ()) (require_ok.2 h))

theorem exec_hufBuild_invalid {e : Error} (h : s.inp.length ≤ slotCapacity slot)
    (he : validateLengths (lengthsOperand s) = .error e) :
    exec (.hufBuild slot) s = .next (report (some e) s) :=
  (exec_hufBuild_fits hslot h).trans (complete_error_bind he)

theorem exec_hufBuild_ok (h : s.inp.length ≤ slotCapacity slot) (hok : validateLengths (lengthsOperand s) = .ok ()) :
    exec (.hufBuild slot) s = .next (report none (setSlot s slot (.table (lengthsOperand s)))) :=
  (exec_hufBuild_fits hslot h).trans (complete_ok_bind hok)

end

/-- Settles O28: the three checks of `HUF_BUILD` in their order, on each slot. -/
theorem hufBuild : Obligations.HufBuild := by
  have h0 : (0 : BitVec 2) ≠ 3 := by decide
  have h1 : (1 : BitVec 2) ≠ 3 := by decide
  have h2 : (2 : BitVec 2) ≠ 3 := by decide
  exact ⟨by decide, fun s => ⟨rfl, exec_hufBuild_capacity h0, exec_hufBuild_capacity h1, exec_hufBuild_capacity h2,
    fun e he => ⟨fun h => exec_hufBuild_invalid h0 h he, fun h => exec_hufBuild_invalid h1 h he,
      fun h => exec_hufBuild_invalid h2 h he⟩,
    fun hok => ⟨fun h => exec_hufBuild_ok h0 h hok, fun h => exec_hufBuild_ok h1 h hok,
      fun h => exec_hufBuild_ok h2 h hok⟩⟩⟩

/-! ## `HUF_LOAD_FIXED` (spec/42 R281) -/

/-- The codes of spec/30 R135: four ranges of symbols, in each of which the codes count up. -/
theorem canonicalCodes_fixedLitLengths : canonicalCodes fixedLitLengths =
    List.range' 0x30 144 ++ List.range' 0x190 112 ++ List.range' 0 24 ++ List.range' 0xC0 8 := by decide +kernel

theorem canonicalCodes_fixedDistLengths : canonicalCodes fixedDistLengths = List.range 30 := by decide +kernel

/-- Settles O31: the lengths and the codes of the two tables, range by range. -/
theorem fixedTables : Obligations.FixedTables := by
  have hlit : fixedLitLengths.length = 288 := by simp only [fixedLitLengths, List.length_append, List.length_replicate]
  have hdist : fixedDistLengths.length = 30 := List.length_replicate
  refine ⟨by decide, fun s => ⟨fixedLitLengths, fixedDistLengths, rfl, hlit, hdist, ?_⟩⟩
  rw [canonicalCodes_fixedLitLengths, canonicalCodes_fixedDistLengths]
  refine ⟨?_, ?_, ?_, ?_, ?_⟩ <;> decide +kernel

/-! ## `HUF_ENCODE` (spec/42 R282) -/

section
variable {s : State} {slot : BitVec 2} {lengths : List Nat} (hslot : slot ≠ 3)
  (htable : slotContents s slot = .table lengths)
include hslot htable

theorem exec_hufEncode_invalidSymbol (h : lengths.length ≤ s.arg.toNat ∨ lengths.getD s.arg.toNat 0 = 0) :
    exec (.hufEncode slot) s = .next (report (some .invalidSymbol) s) := by
  refine (complete_ok_bind (tableOperand_table hslot htable)).trans ?_
  obtain hlen | hlen := Nat.lt_or_ge s.arg.toNat lengths.length
  · have hzero : lengths.getD s.arg.toNat 0 = 0 := h.resolve_left (Nat.not_le.2 hlen)
    exact (complete_ok_bind (symbolOperand_fits hlen)).trans
      (complete_error_bind (require_error.2 ⟨not_not.2 hzero, rfl⟩))
  · exact complete_error_bind (symbolOperand_error hlen)

/-- A used symbol is written. -/
theorem exec_hufEncode_used (hlen : s.arg.toNat < lengths.length) (hused : lengths.getD s.arg.toNat 0 ≠ 0) :
    exec (.hufEncode slot) s =
      complete s (writeBits s (wireCode lengths s.arg.toNat) (lengths.getD s.arg.toNat 0)) :=
  (complete_ok_bind (tableOperand_table hslot htable)).trans <|
    (complete_ok_bind (symbolOperand_fits hlen)).trans (complete_ok_bind (a := ()) (require_ok.2 hused))

end

theorem wireCode_lt (lengths : List Nat) (sym : Nat) : wireCode lengths sym < 2 ^ lengths.getD sym 0 :=
  reverseBits_lt _ _

/-- Settles O32: three checks, and then the reversed code is a field that `write_bits` takes whole. -/
theorem hufEncode : Obligations.HufEncode := by
  refine ⟨by decide, fun s => rfl, fun slot s hslot =>
    ⟨fun hempty => complete_error_bind (tableOperand_empty hslot hempty),
    fun lengths htable => ⟨exec_hufEncode_invalidSymbol hslot htable, fun hlegal hlen hused hp => ?_⟩⟩⟩
  have h32 : lengths.getD s.arg.toNat 0 ≤ 32 := (getD_le hlegal.1 hlen).trans (by decide)
  rw [exec_hufEncode_used hslot htable hlen hused, ← bitsOf_wireCode]
  exact ⟨complete_writeBits_full h32 (wireCode_lt _ _) hp, complete_writeBits_fits h32 (wireCode_lt _ _) hp⟩

/-! ## `HUF_DECODE` (spec/42 R283) -/

section
variable {s : State} {slot : BitVec 2} {lengths : List Nat} (hslot : slot ≠ 3)
  (htable : slotContents s slot = .table lengths)
include hslot htable

theorem exec_hufDecode_error {e : Error} (h : decodeSymbol (tableCodes lengths) (unreadBits s.bu) = .error e) :
    exec (.hufDecode slot) s = .next (report (some e) s) :=
  (complete_ok_bind (tableOperand_table hslot htable)).trans (complete_error_bind h)

theorem exec_hufDecode_ok {sym used : Nat} {rest : List Bool}
    (h : decodeSymbol (tableCodes lengths) (unreadBits s.bu) = .ok (sym, used, rest)) :
    exec (.hufDecode slot) s = .next (report none
      { s with result := BitVec.ofNat 32 sym, bu := ⟨s.bu.data, s.bu.pos + used⟩ }) :=
  (complete_ok_bind (tableOperand_table hslot htable)).trans (complete_ok_bind h)

end

/-- Settles O33: the command answers what the decoder does with the unread bits. -/
theorem hufDecode : Obligations.HufDecode := by
  refine ⟨by decide, fun s => rfl, fun slot s hslot =>
    ⟨fun hempty => complete_error_bind (tableOperand_empty hslot hempty),
    fun lengths htable => ⟨fun hzero => exec_hufDecode_error hslot htable (decodeSymbol_unused hzero _),
      fun hlegal => ?_⟩⟩⟩
  have hc := prefixFree_tableCodes hlegal
  refine ⟨fun sym rest hs hused hbits => ?_, fun sym missing hs hused hmissing hbits => ?_,
    fun start rest hbits hno => ?_⟩
  · exact exec_hufDecode_ok hslot htable (hbits ▸ decodeSymbol_bits hc (symbolCode_mem hs hused) rest)
  · exact exec_hufDecode_error hslot htable (decodeSymbol_insufficient hc (symbolCode_mem hs hused) hmissing hbits)
  · have hno' : ∀ e ∈ tableCodes lengths, ¬ start <+: e.bits ∧ ¬ e.bits <+: start := by
      intro e he
      obtain ⟨sym, hs, hused, rfl⟩ := mem_tableCodes.1 he
      exact hno sym hs hused
    exact exec_hufDecode_error hslot htable (hbits ▸ decodeSymbol_invalid hc hno')

/-! ## `HUF_QUERY` (spec/42 R284) -/

section
variable {s : State} {slot : BitVec 2} {lengths : List Nat} (hslot : slot ≠ 3)
  (htable : slotContents s slot = .table lengths)
include hslot htable

theorem exec_hufQuery_invalidSymbol (h : lengths.length ≤ s.arg.toNat) :
    exec (.hufQuery slot) s = .next (report (some .invalidSymbol) s) :=
  (complete_ok_bind (tableOperand_table hslot htable)).trans (complete_error_bind (symbolOperand_error h))

theorem exec_hufQuery_symbol (h : s.arg.toNat < lengths.length) :
    exec (.hufQuery slot) s = complete s (
      if lengths.getD s.arg.toNat 0 = 0 then .ok { s with result := 0, result2 := 0 }
      else .ok { s with result := BitVec.ofNat 32 (wireCode lengths s.arg.toNat),
                        result2 := BitVec.ofNat 32 (lengths.getD s.arg.toNat 0) }) :=
  (complete_ok_bind (tableOperand_table hslot htable)).trans (complete_ok_bind (symbolOperand_fits h))

end

/-- Settles O34: the word returned holds the reversed code, whose bit `k` is the `k`-th bit of the code as sent. -/
theorem hufQuery : Obligations.HufQuery := by
  refine ⟨by decide, fun s => rfl, fun slot s hslot =>
    ⟨fun hempty => complete_error_bind (tableOperand_empty hslot hempty),
    fun lengths htable => ⟨exec_hufQuery_invalidSymbol hslot htable, fun hlen hzero => ?_,
      fun hlegal hlen hused => ⟨BitVec.ofNat 32 (wireCode lengths s.arg.toNat), fun k hk => ?_, ?_⟩⟩⟩⟩
  · rw [exec_hufQuery_symbol hslot htable hlen, if_pos hzero]
    rfl
  · rw [← bitsOf_wireCode, bitsOf_getD (wireCode_lt _ _), BitVec.getLsbD_ofNat, decide_eq_true hk, Bool.true_and]
  · rw [exec_hufQuery_symbol hslot htable hlen, if_neg hused]
    rfl

end Sys2Proof.Machine

/-! Package-merge (spec/42 R301, R302): every builder's lengths are legal (R299), and the reference builder's code is
complete.

The first items of a round's list are the first leaves and the first packages, and a package is two items of the round
before it. Because a leaf comes before a package of its weight, the leaves inside the packages picked are among the
leaves picked beside them: a symbol picked `c` times is picked in the last `c` rounds. So its occurrences, each worth
half as much as the one in the round after it, are worth `1 - 2^-c`, and the Kraft sum follows from the number of items
picked. -/

namespace Sys2Proof.Machine

/-! ## Stable merging (spec/42 R301) -/

/-- Packages in ascending order of weight. -/
def Ascending (items : List Package) : Prop := items.Pairwise fun p q => p.weight ≤ q.weight

theorem insertPackage_perm (p : Package) (items : List Package) : (insertPackage p items).Perm (p :: items) := by
  induction items with
  | nil => exact .refl _
  | cons q qs ih =>
    rw [insertPackage]
    split
    · exact (ih.cons q).trans (.swap p q qs)
    · exact .refl _

theorem ascending_insertPackage {p : Package} {items : List Package} (h : Ascending items) :
    Ascending (insertPackage p items) := by
  induction items with
  | nil => exact List.pairwise_singleton _ _
  | cons q qs ih =>
    obtain ⟨hq, hqs⟩ := List.pairwise_cons.1 h
    rw [insertPackage]
    split
    · next hle =>
      refine List.pairwise_cons.2 ⟨fun r hr => ?_, ih hqs⟩
      obtain rfl | hr := List.mem_cons.1 ((insertPackage_perm p qs).subset hr)
      · exact hle
      · exact hq r hr
    · next hlt =>
      refine List.pairwise_cons.2 ⟨fun r hr => ?_, h⟩
      obtain rfl | hr := List.mem_cons.1 hr
      · omega
      · have := hq r hr
        omega

theorem mergePackages_cons (leaves : List Package) (p : Package) (ps : List Package) :
    mergePackages leaves (p :: ps) = mergePackages (insertPackage p leaves) ps := rfl

theorem mergePackages_perm (leaves packages : List Package) :
    (mergePackages leaves packages).Perm (leaves ++ packages) := by
  induction packages generalizing leaves with
  | nil => rw [List.append_nil]; exact .refl _
  | cons p ps ih =>
    exact (ih _).trans (((insertPackage_perm p leaves).append_right ps).trans List.perm_middle.symm)

theorem ascending_mergePackages {leaves : List Package} (packages : List Package) (h : Ascending leaves) :
    Ascending (mergePackages leaves packages) := by
  induction packages generalizing leaves with
  | nil => exact h
  | cons p ps ih => exact ih (ascending_insertPackage h)

/-- An item that is no heavier than the packages stays in front of them. -/
theorem mergePackages_of_le {x : Package} (leaves : List Package) {packages : List Package}
    (h : ∀ p ∈ packages, x.weight ≤ p.weight) :
    mergePackages (x :: leaves) packages = x :: mergePackages leaves packages := by
  induction packages generalizing leaves with
  | nil => rfl
  | cons p ps ih =>
    obtain ⟨hp, hps⟩ := List.forall_mem_cons.1 h
    rw [mergePackages_cons, insertPackage, if_pos hp, ih _ hps, ← mergePackages_cons]

theorem mergePackages_nil_left {packages : List Package} (h : Ascending packages) :
    mergePackages [] packages = packages := by
  induction packages with
  | nil => rfl
  | cons p ps ih =>
    obtain ⟨hp, hps⟩ := List.pairwise_cons.1 h
    rw [mergePackages_cons, insertPackage, mergePackages_of_le [] hp, ih hps]

/-- A package that is lighter than every leaf comes first. -/
theorem mergePackages_of_lt {x p : Package} (leaves : List Package) {packages : List Package}
    (h : Ascending (p :: packages)) (hlt : p.weight < x.weight) :
    mergePackages (x :: leaves) (p :: packages) = p :: mergePackages (x :: leaves) packages := by
  rw [mergePackages_cons, insertPackage, if_neg (Nat.not_le.2 hlt), mergePackages_of_le _ (List.pairwise_cons.1 h).1]

/-- The first items of a merge are the first leaves and the first packages, and these packages are lighter than the
leaves left out: a leaf comes before a package of its weight. -/
theorem take_mergePackages {leaves packages : List Package} (hl : Ascending leaves) (hp : Ascending packages) {m : Nat}
    (hm : m ≤ leaves.length + packages.length) :
    ∃ a p, a + p = m ∧ a ≤ leaves.length ∧ p ≤ packages.length ∧
      ((mergePackages leaves packages).take m).Perm (leaves.take a ++ packages.take p) ∧
      ∀ q ∈ packages.take p, ∀ x ∈ leaves.drop a, q.weight < x.weight := by
  induction m generalizing leaves packages with
  | zero => exact ⟨0, 0, rfl, Nat.zero_le _, Nat.zero_le _, by simp, by simp⟩
  | succ m ih =>
    match leaves, packages with
    | [], packages =>
      refine ⟨0, m + 1, Nat.zero_add _, Nat.le_refl _, by simpa using hm, ?_, by simp⟩
      rw [mergePackages_nil_left hp]
      exact .refl _
    | x :: xs, [] => exact ⟨m + 1, 0, rfl, hm, Nat.le_refl _, by simp [mergePackages], by simp⟩
    | x :: xs, p :: ps =>
      rw [List.length_cons, List.length_cons] at hm
      obtain ⟨hx, hxs⟩ := List.pairwise_cons.1 hl
      obtain ⟨hps, hps'⟩ := List.pairwise_cons.1 hp
      by_cases hle : x.weight ≤ p.weight
      · obtain ⟨a, b, hab, ha, hb, hperm, hlt⟩ := ih hxs hp (by rw [List.length_cons]; omega)
        refine ⟨a + 1, b, by omega, Nat.succ_le_succ ha, hb, ?_, hlt⟩
        rw [mergePackages_of_le xs (List.forall_mem_cons.2 ⟨hle, fun q hq => hle.trans (hps q hq)⟩)]
        exact hperm.cons x
      · have hpx : p.weight < x.weight := Nat.not_le.1 hle
        obtain ⟨a, b, hab, ha, hb, hperm, hlt⟩ := ih hl hps' (by rw [List.length_cons]; omega)
        refine ⟨a, b + 1, by omega, ha, Nat.succ_le_succ hb, ?_, ?_⟩
        · rw [mergePackages_of_lt xs hp hpx]
          exact (hperm.cons p).trans List.perm_middle.symm
        · refine List.forall_mem_cons.2 ⟨fun y hy => ?_, hlt⟩
          obtain rfl | hy := List.mem_cons.1 (List.drop_subset a (x :: xs) hy)
          · exact hpx
          · exact hpx.trans_le (hx y hy)

/-! ## Pairing (spec/42 R301) -/

/-- The symbols of some items, with their multiplicity. -/
def symbolsOf (items : List Package) : List Nat := items.flatMap fun p => p.symbols

theorem symbolsOf_append (xs ys : List Package) : symbolsOf (xs ++ ys) = symbolsOf xs ++ symbolsOf ys :=
  List.flatMap_append

theorem pairPackages_cons_cons (a b : Package) (rest : List Package) :
    pairPackages (a :: b :: rest) = ⟨a.weight + b.weight, a.symbols ++ b.symbols⟩ :: pairPackages rest := rfl

theorem length_pairPackages (items : List Package) : (pairPackages items).length = items.length / 2 := by
  induction items using List.twoStepInduction with
  | cons_cons a b rest ih _ => simp only [pairPackages_cons_cons, List.length_cons, ih]; omega
  | nil => rfl
  | singleton => simp [pairPackages]

theorem mem_pairPackages {items : List Package} {q : Package} (h : q ∈ pairPackages items) :
    ∃ c ∈ items, ∃ d ∈ items, q.weight = c.weight + d.weight := by
  induction items using List.twoStepInduction with
  | cons_cons a b rest ih _ =>
    obtain rfl | h := List.mem_cons.1 h
    · exact ⟨a, by simp, b, by simp, rfl⟩
    · obtain ⟨c, hc, d, hd, hq⟩ := ih h
      exact ⟨c, by simp [hc], d, by simp [hd], hq⟩
  | nil => cases h
  | singleton => cases h

theorem ascending_pairPackages {items : List Package} (h : Ascending items) : Ascending (pairPackages items) := by
  induction items using List.twoStepInduction with
  | cons_cons a b rest ih _ =>
    obtain ⟨ha, hrest⟩ := List.pairwise_cons.1 h
    obtain ⟨hb, hrest⟩ := List.pairwise_cons.1 hrest
    refine List.pairwise_cons.2 ⟨fun q hq => ?_, ih hrest⟩
    obtain ⟨c, hc, d, hd, hq⟩ := mem_pairPackages hq
    rw [hq]
    exact Nat.add_le_add (ha c (List.mem_cons_of_mem b hc)) (hb d hd)
  | nil => exact .nil
  | singleton => exact .nil

/-- The first packages stand for the first items. -/
theorem take_pairPackages (items : List Package) (p : Nat) :
    (pairPackages items).take p = pairPackages (items.take (2 * p)) := by
  induction items using List.twoStepInduction generalizing p with
  | cons_cons a b rest ih _ =>
    cases p with
    | zero => rfl
    | succ p => rw [pairPackages_cons_cons, List.take_succ_cons, ih]; rfl
  | nil => simp [pairPackages]
  | singleton x => cases p <;> simp [pairPackages, Nat.mul_succ]

/-- Packages hold the symbols of the items paired, if none is left over. -/
theorem symbolsOf_pairPackages {items : List Package} (h : items.length % 2 = 0) :
    symbolsOf (pairPackages items) = symbolsOf items := by
  induction items using List.twoStepInduction with
  | cons_cons a b rest ih _ =>
    rw [List.length_cons, List.length_cons] at h
    have hrest : symbolsOf (pairPackages rest) = symbolsOf rest := ih (by omega)
    simp only [symbolsOf, pairPackages_cons_cons, List.flatMap_cons, List.append_assoc] at hrest ⊢
    rw [hrest]
  | nil => rfl
  | singleton => simp at h

/-- A package is at least as heavy as the items in it. -/
theorem exists_le_pairPackages {items : List Package} (h : items.length % 2 = 0) {x : Package} (hx : x ∈ items) :
    ∃ q ∈ pairPackages items, x.weight ≤ q.weight := by
  induction items using List.twoStepInduction with
  | cons_cons a b rest ih _ =>
    rw [List.length_cons, List.length_cons] at h
    obtain rfl | hx := List.mem_cons.1 hx
    · exact ⟨_, List.mem_cons_self, Nat.le_add_right _ _⟩
    obtain rfl | hx := List.mem_cons.1 hx
    · exact ⟨_, List.mem_cons_self, Nat.le_add_left _ _⟩
    · obtain ⟨q, hq, hle⟩ := ih (by omega) hx
      exact ⟨q, List.mem_cons_of_mem _ hq, hle⟩
  | nil => cases hx
  | singleton => simp at h

/-! ## What a round's first items hold -/

/-- The leaf of a symbol (spec/42 R301). -/
def leafOf (w : Nat → Nat) (s : Nat) : Package := ⟨w s, [s]⟩

theorem symbolsOf_map_leafOf (w : Nat → Nat) (syms : List Nat) : symbolsOf (syms.map (leafOf w)) = syms := by
  simp [symbolsOf, List.flatMap_map, leafOf]

/-- What items picked from one round hold: symbols of the code, each at most `k` times and among the leaves picked, and
together as many parts of the Kraft sum as there are items. -/
structure Picked (w : Nat → Nat) (syms : List Nat) (k : Nat) (items : List Package) : Prop where
  mem : ∀ s ∈ symbolsOf items, s ∈ syms
  leaf_mem : ∀ s ∈ symbolsOf items, leafOf w s ∈ items
  count_le : ∀ s, (symbolsOf items).count s ≤ k
  kraft : (syms.map fun s => 2 ^ (15 - (symbolsOf items).count s)).sum + items.length * 2 ^ 14 = syms.length * 2 ^ 15

/-- The leaves inside packages that are lighter than the leaves left out are among the leaves picked: each of them is no
heavier than its package. -/
theorem Picked.mem_take {w : Nat → Nat} {syms : List Nat} {k a : Nat} {inner : List Package}
    (hinner : Picked w syms k inner) (heven : inner.length % 2 = 0)
    (hlight : ∀ q ∈ pairPackages inner, ∀ x ∈ (syms.map (leafOf w)).drop a, q.weight < x.weight) :
    ∀ s ∈ symbolsOf inner, s ∈ syms.take a := by
  intro s hs
  have hmem : s ∈ syms.take a ++ syms.drop a := (List.take_append_drop a syms).symm ▸ hinner.mem s hs
  refine (List.mem_append.1 hmem).resolve_right fun hdrop => ?_
  obtain ⟨q, hq, hle⟩ := exists_le_pairPackages heven (hinner.leaf_mem s hs)
  have hleft : leafOf w s ∈ (syms.map (leafOf w)).drop a := List.map_drop ▸ List.mem_map_of_mem hdrop
  exact Nat.not_lt.2 hle (hlight q hq (leafOf w s) hleft)

theorem picked_nil (w : Nat → Nat) (syms : List Nat) : Picked w syms 0 [] := by
  refine ⟨by simp [symbolsOf], by simp [symbolsOf], by simp [symbolsOf], by simp [symbolsOf]⟩

/-- Each symbol up to `a` gets an occurrence more, which is worth half as much as the one before; none gets another. -/
theorem two_mul_sum_two_pow {syms : List Nat} {a : Nat} {f g : Nat → Nat} (hg : ∀ s, g s ≤ 14)
    (htake : ∀ s ∈ syms.take a, f s = 1 + g s) (hdrop : ∀ s ∈ syms.drop a, f s = 0 ∧ g s = 0) :
    2 * (syms.map fun s => 2 ^ (15 - f s)).sum =
      (syms.map fun s => 2 ^ (15 - g s)).sum + (syms.length - a) * 2 ^ 15 := by
  have hhalf : ((syms.take a).map fun s => 2 ^ (15 - g s)).sum =
      2 * ((syms.take a).map fun s => 2 ^ (15 - f s)).sum := by
    rw [← List.sum_map_mul_left]
    congr 1
    refine List.map_congr_left fun s hs => ?_
    have := hg s
    rw [htake s hs, ← Nat.pow_succ', show (15 - (1 + g s)).succ = 15 - g s by omega]
  have hrest {h : Nat → Nat} (h0 : ∀ s ∈ syms.drop a, h s = 0) :
      ((syms.drop a).map fun s => 2 ^ (15 - h s)).sum = (syms.length - a) * 2 ^ 15 := by
    rw [← List.length_drop, ← smul_eq_mul, ← List.sum_replicate, ← List.map_const']
    congr 1
    exact List.map_congr_left fun s hs => by rw [h0 s hs]
  have hsplit (h : Nat → Nat) : (syms.map h).sum = ((syms.take a).map h).sum + ((syms.drop a).map h).sum := by
    rw [← List.sum_append, ← List.map_append, List.take_append_drop]
  rw [hsplit, hsplit, hhalf, hrest fun s hs => (hdrop s hs).1, hrest fun s hs => (hdrop s hs).2]
  ring

section
variable {w : Nat → Nat} {syms : List Nat} (hsyms : syms.Nodup)
include hsyms

/-- Leaves picked beside packages of items picked before, whose symbols are all among these leaves. -/
theorem picked_leaves_packages {a k : Nat} {inner packages items : List Package} (ha : a ≤ syms.length) (hk : k ≤ 14)
    (hinner : Picked w syms k inner) (hsub : ∀ s ∈ symbolsOf inner, s ∈ syms.take a)
    (hpackages : symbolsOf packages = symbolsOf inner) (hlen : inner.length = 2 * packages.length)
    (hitems : items.Perm ((syms.take a).map (leafOf w) ++ packages)) : Picked w syms (k + 1) items := by
  have hsymbols : (symbolsOf items).Perm (syms.take a ++ symbolsOf inner) := by
    have hperm := hitems.flatMap_right fun p => p.symbols
    rwa [← symbolsOf, ← symbolsOf, symbolsOf_append, symbolsOf_map_leafOf, hpackages] at hperm
  have hcount (s : Nat) : (symbolsOf items).count s = (syms.take a).count s + (symbolsOf inner).count s := by
    rw [hsymbols.count_eq, List.count_append]
  have htake : ∀ s ∈ symbolsOf items, s ∈ syms.take a := fun s hs =>
    (List.mem_append.1 (hsymbols.subset hs)).elim id (hsub s)
  have hnodup : (syms.take a).Nodup := hsyms.sublist (List.take_sublist a syms)
  refine ⟨fun s hs => List.take_subset a syms (htake s hs), fun s hs => ?_, fun s => ?_, ?_⟩
  · exact hitems.symm.subset (List.mem_append_left _ (List.mem_map_of_mem (htake s hs)))
  · have hone := List.nodup_iff_count_le_one.1 hnodup s
    have := hinner.count_le s
    rw [hcount]
    omega
  · have hout : ∀ s ∈ syms.drop a, s ∉ syms.take a := fun s hs ht =>
      List.disjoint_take_drop hsyms (Nat.le_refl a) ht hs
    have hsum := two_mul_sum_two_pow (a := a) (fun s => (hinner.count_le s).trans hk)
      (fun s hs => by rw [hcount, List.count_eq_one_of_mem hnodup hs])
      (fun s hs => ⟨List.count_eq_zero_of_not_mem fun h => hout s hs (htake s h),
        List.count_eq_zero_of_not_mem fun h => hout s hs (hsub s h)⟩)
    have hkraft := hinner.kraft
    have hlength := hitems.length_eq
    rw [List.length_append, List.length_map, List.length_take_of_le ha] at hlength
    omega

end

/-! ## The rounds (spec/42 R301) -/

theorem length_packageRounds_succ (leaves : List Package) (k : Nat) :
    (packageRounds leaves (k + 1)).length = leaves.length + (packageRounds leaves k).length / 2 := by
  rw [packageRounds, (mergePackages_perm _ _).length_eq, List.length_append, length_pairPackages]

/-- After `k` of `L - 1` rounds the list is at most `2 ^ (L - k)` items short of two for each leaf. -/
theorem le_length_packageRounds {leaves : List Package} {L k : Nat} (h : leaves.length ≤ 2 ^ L) (hk : k < L) :
    2 * leaves.length ≤ (packageRounds leaves k).length + 2 ^ (L - k) := by
  induction k with
  | zero => rw [packageRounds, Nat.sub_zero]; omega
  | succ k ih =>
    have hprev := ih (by omega)
    have hpow : 2 ^ (L - k) = 2 * 2 ^ (L - (k + 1)) := by
      rw [← Nat.pow_succ', show (L - (k + 1)).succ = L - k by omega]
    rw [length_packageRounds_succ]
    omega

/-- The items whose symbols are counted (spec/42 R301). -/
def pickedItems (w : Nat → Nat) (syms : List Nat) (maxLen : Nat) : List Package :=
  (packageRounds (syms.map (leafOf w)) (maxLen - 1)).take (2 * (syms.length - 1))

section
variable {w : Nat → Nat} {syms : List Nat} (hsyms : syms.Nodup) (hasc : Ascending (syms.map (leafOf w)))
include hasc

theorem ascending_packageRounds (k : Nat) : Ascending (packageRounds (syms.map (leafOf w)) k) := by
  cases k with
  | zero => exact hasc
  | succ k => exact ascending_mergePackages _ hasc

include hsyms

/-- The first items of any round are as `Picked` says. -/
theorem picked_take_packageRounds {k : Nat} (hk : k ≤ 14) {m : Nat}
    (hm : m ≤ (packageRounds (syms.map (leafOf w)) k).length) :
    Picked w syms (k + 1) ((packageRounds (syms.map (leafOf w)) k).take m) := by
  induction k generalizing m with
  | zero =>
    rw [packageRounds, List.length_map] at hm
    refine picked_leaves_packages (packages := []) hsyms hm (Nat.zero_le _) (picked_nil w syms) (by simp [symbolsOf])
      rfl rfl ?_
    rw [packageRounds, List.map_take, List.append_nil]
  | succ k ih =>
    rw [length_packageRounds_succ, List.length_map] at hm
    have hpairs := ascending_pairPackages (ascending_packageRounds hasc k)
    obtain ⟨a, p, -, ha, hp, hperm, hlight⟩ := take_mergePackages hasc hpairs
      (m := m) (by rw [List.length_map, length_pairPackages]; exact hm)
    rw [length_pairPackages] at hp
    have hinner := ih (by omega) (m := 2 * p) (by omega)
    have hlen : ((packageRounds (syms.map (leafOf w)) k).take (2 * p)).length = 2 * p :=
      List.length_take_of_le (by omega)
    have heven : ((packageRounds (syms.map (leafOf w)) k).take (2 * p)).length % 2 = 0 := by omega
    rw [take_pairPackages] at hperm hlight
    rw [List.length_map] at ha
    exact picked_leaves_packages hsyms ha (by omega) hinner (hinner.mem_take heven hlight)
      (symbolsOf_pairPackages heven) (by rw [length_pairPackages]; omega) (by rw [List.map_take]; exact hperm)

/-- There are enough items for package-merge to pick from. -/
theorem picked_pickedItems {L : Nat} (h1 : 1 ≤ L) (h15 : L ≤ 15) (hlen : syms.length ≤ 2 ^ L) :
    Picked w syms L (pickedItems w syms L) ∧ (pickedItems w syms L).length = 2 * (syms.length - 1) := by
  have hlong := le_length_packageRounds (leaves := syms.map (leafOf w)) (k := L - 1)
    (by rwa [List.length_map]) (by omega)
  rw [List.length_map, show L - (L - 1) = 1 by omega] at hlong
  have hm : 2 * (syms.length - 1) ≤ (packageRounds (syms.map (leafOf w)) (L - 1)).length := by omega
  have hpicked := picked_take_packageRounds hsyms hasc (k := L - 1) (by omega) hm
  rw [Nat.sub_add_cancel h1] at hpicked
  exact ⟨hpicked, List.length_take_of_le hm⟩

end

/-! ## Lengths from multiplicities -/

/-- What R299 demands of the lengths for a frequency list. -/
structure FitsFreqs (freqs : List Nat) (maxLen : Nat) (lengths : List Nat) : Prop where
  length_eq : lengths.length = freqs.length
  legal : LegalTable lengths
  le_max : ∀ l ∈ lengths, l ≤ maxLen
  used : ∀ s < freqs.length, freqs.getD s 0 ≠ 0 → lengths.getD s 0 ≠ 0

theorem sum_map_range {syms : List Nat} {n : Nat} {f : Nat → Nat} (hsyms : syms.Nodup) (hlt : ∀ s ∈ syms, s < n)
    (hzero : ∀ s, s ∉ syms → f s = 0) : ((List.range n).map f).sum = (syms.map f).sum := by
  rw [← List.sum_toFinset _ List.nodup_range, ← List.sum_toFinset _ hsyms]
  refine (Finset.sum_subset (fun s hs => ?_) fun s _ hs => hzero s ?_).symm
  · simpa using hlt s (by simpa using hs)
  · simpa using hs

section
variable {freqs syms : List Nat} {f : Nat → Nat} {maxLen : Nat}
  (hsyms : syms.Nodup) (hlt : ∀ s ∈ syms, s < freqs.length) (hf : ∀ s, f s ≠ 0 ↔ s ∈ syms)
  (hsum : (syms.map fun s => 2 ^ (15 - f s)).sum = 2 ^ 15)
include hsyms hlt hf hsum

theorem kraftSum_map_range : kraftSum ((List.range freqs.length).map f) = 2 ^ 15 := by
  have hzero : ∀ s, s ∉ syms → ((fun l => if l = 0 then 0 else 2 ^ (15 - l)) ∘ f) s = 0 := fun s hs =>
    if_pos (not_not.1 fun h => hs ((hf s).1 h))
  rw [kraftSum, List.map_map, sum_map_range hsyms hlt hzero, ← hsum]
  congr 1
  exact List.map_congr_left fun s hs => if_neg ((hf s).2 hs)

theorem fitsFreqs_map_range (hmax : ∀ s, f s ≤ maxLen) (h15 : maxLen ≤ 15)
    (hused : ∀ s ∈ usedSymbols freqs, s ∈ syms) : FitsFreqs freqs maxLen ((List.range freqs.length).map f) := by
  have hle : ∀ l ∈ (List.range freqs.length).map f, l ≤ maxLen := fun l hl => by
    obtain ⟨s, -, rfl⟩ := List.mem_map.1 hl
    exact hmax s
  refine ⟨by simp, ⟨fun l hl => (hle l hl).trans h15, (kraftSum_map_range hsyms hlt hf hsum).le⟩, hle,
    fun s hs h0 => ?_⟩
  have hmem : s ∈ syms := hused s (List.mem_filter.2 ⟨List.mem_range.2 hs, decide_eq_true (Nat.pos_of_ne_zero h0)⟩)
  rw [List.getD_eq_getElem _ _ (by simpa using hs), List.getElem_map, List.getElem_range]
  exact (hf s).2 hmem

end

/-! ## The reference builder (spec/42 R301, R302) -/

theorem nodup_usedSymbols (freqs : List Nat) : (usedSymbols freqs).Nodup := List.nodup_range.filter _

theorem lt_of_mem_usedSymbols {freqs : List Nat} {s : Nat} (h : s ∈ usedSymbols freqs) : s < freqs.length :=
  List.mem_range.1 (List.mem_of_mem_filter h)

/-- The leaves are those of the used symbols, in some order. -/
theorem exists_sortedLeaves (freqs : List Nat) :
    ∃ syms : List Nat, syms.Perm (usedSymbols freqs) ∧
      sortedLeaves freqs = syms.map (leafOf fun s => freqs.getD s 0) := by
  have hperm : (sortedLeaves freqs).Perm ((usedSymbols freqs).map (leafOf fun s => freqs.getD s 0)) :=
    mergePackages_perm _ _
  obtain ⟨syms, heq, hsyms⟩ := (congrFun₂ (List.eq_map_comp_perm _) _ _).mpr hperm
  exact ⟨syms, hsyms, heq⟩

/-- One of several positive terms is less than their sum. -/
theorem lt_of_sum_eq {syms : List Nat} {f : Nat → Nat} {n s : Nat} (hs : s ∈ syms) (h2 : 2 ≤ syms.length)
    (hpos : ∀ s, 0 < f s) (hsum : (syms.map f).sum = n) : f s < n := by
  obtain ⟨pre, post, rfl⟩ := List.append_of_mem hs
  have hone (xs : List Nat) : xs.length ≤ (xs.map f).sum := by
    have := List.length_le_sum_of_one_le (xs.map f) (List.forall_mem_map.2 fun x _ => hpos x)
    rwa [List.length_map] at this
  have hpre := hone pre
  have hpost := hone post
  simp only [List.map_append, List.map_cons, List.sum_append, List.sum_cons, List.length_append,
    List.length_cons] at hsum h2
  omega

/-- The symbols that get length 1 where fewer than two are used (spec/42 R302). -/
def twoSymbols (freqs : List Nat) : List Nat :=
  usedSymbols freqs ++
    ((List.range freqs.length).filter fun s => freqs.getD s 0 = 0).take (2 - (usedSymbols freqs).length)

theorem twoSymbolLengths_eq (freqs : List Nat) :
    twoSymbolLengths freqs = (List.range freqs.length).map fun s => if s ∈ twoSymbols freqs then 1 else 0 := rfl

theorem nodup_twoSymbols (freqs : List Nat) : (twoSymbols freqs).Nodup := by
  refine List.nodup_append'.2 ⟨nodup_usedSymbols freqs, (List.nodup_range.filter _).sublist (List.take_sublist _ _),
    fun s hs ht => ?_⟩
  have hpos := of_decide_eq_true (List.mem_filter.1 hs).2
  have hzero := of_decide_eq_true (List.mem_filter.1 (List.take_subset _ _ ht)).2
  exact Nat.ne_of_gt hpos hzero

theorem lt_of_mem_twoSymbols {freqs : List Nat} {s : Nat} (h : s ∈ twoSymbols freqs) : s < freqs.length := by
  obtain h | h := List.mem_append.1 h
  · exact lt_of_mem_usedSymbols h
  · exact List.mem_range.1 (List.mem_of_mem_filter (List.take_subset _ _ h))

/-- Every symbol is used or not. -/
theorem length_usedSymbols_add (freqs : List Nat) :
    (usedSymbols freqs).length + ((List.range freqs.length).filter fun s => freqs.getD s 0 = 0).length =
      freqs.length := by
  have hperm := (List.filter_append_perm (fun s => decide (0 < freqs.getD s 0)) (List.range freqs.length)).length_eq
  rw [List.length_append, List.length_range] at hperm
  have hunused : (fun s => decide (freqs.getD s 0 = 0)) = fun s => !decide (0 < freqs.getD s 0) := by
    funext s
    rw [← decide_not]
    exact decide_eq_decide.2 (by omega)
  rw [usedSymbols, hunused, hperm]

theorem length_twoSymbols {freqs : List Nat} (h2 : 2 ≤ freqs.length) (hfew : (usedSymbols freqs).length < 2) :
    (twoSymbols freqs).length = 2 := by
  have := length_usedSymbols_add freqs
  rw [twoSymbols, List.length_append, List.length_take]
  omega

section
variable {freqs : List Nat} {maxLen : Nat} (h15 : maxLen ≤ 15)
include h15

theorem twoSymbolLengths_spec (h2 : 2 ≤ freqs.length) (h1 : 1 ≤ maxLen) (hfew : (usedSymbols freqs).length < 2) :
    FitsFreqs freqs maxLen (twoSymbolLengths freqs) ∧ kraftSum (twoSymbolLengths freqs) = 2 ^ 15 := by
  have hf : ∀ s, (if s ∈ twoSymbols freqs then 1 else 0) ≠ 0 ↔ s ∈ twoSymbols freqs := by simp
  have hsum : ((twoSymbols freqs).map fun s => 2 ^ (15 - if s ∈ twoSymbols freqs then 1 else 0)).sum = 2 ^ 15 := by
    have hhalf : (twoSymbols freqs).map (fun s => 2 ^ (15 - if s ∈ twoSymbols freqs then 1 else 0)) =
        (twoSymbols freqs).map fun _ => 2 ^ 14 := List.map_congr_left fun s hs => by rw [if_pos hs]
    rw [hhalf, List.map_const', List.sum_replicate, length_twoSymbols h2 hfew]
    rfl
  have hmax : ∀ s, (if s ∈ twoSymbols freqs then 1 else 0) ≤ maxLen := fun s => by split <;> omega
  rw [twoSymbolLengths_eq]
  exact ⟨fitsFreqs_map_range (nodup_twoSymbols freqs) (fun _ => lt_of_mem_twoSymbols) hf hsum hmax h15
      fun _ hs => List.mem_append_left _ hs,
    kraftSum_map_range (nodup_twoSymbols freqs) (fun _ => lt_of_mem_twoSymbols) hf hsum⟩

variable (hlen : freqs.length ≤ 2 ^ maxLen)
include hlen

theorem packageMerge_spec_of_two_le (h1 : 1 ≤ maxLen) (hmany : 2 ≤ (usedSymbols freqs).length) :
    FitsFreqs freqs maxLen (packageMerge freqs maxLen) ∧ kraftSum (packageMerge freqs maxLen) = 2 ^ 15 := by
  obtain ⟨syms, hperm, hleaves⟩ := exists_sortedLeaves freqs
  have hsyms : syms.Nodup := hperm.nodup_iff.2 (nodup_usedSymbols freqs)
  have hlt : ∀ s ∈ syms, s < freqs.length := fun s hs => lt_of_mem_usedSymbols (hperm.subset hs)
  have hasc : Ascending (syms.map (leafOf fun s => freqs.getD s 0)) := hleaves ▸ ascending_mergePackages _ .nil
  have hlength := length_usedSymbols_add freqs
  rw [← hperm.length_eq] at hmany hlength
  obtain ⟨hpicked, hcount⟩ := picked_pickedItems hsyms hasc h1 h15 (by omega)
  have hmerge : packageMerge freqs maxLen = (List.range freqs.length).map fun s =>
      (symbolsOf (pickedItems (fun s => freqs.getD s 0) syms maxLen)).count s := by
    rw [packageMerge, ← hperm.length_eq, if_neg (Nat.not_lt.2 hmany), hleaves]
    rfl
  rw [hmerge]
  generalize pickedItems (fun s => freqs.getD s 0) syms maxLen = items at hpicked hcount
  have hsum : (syms.map fun s => 2 ^ (15 - (symbolsOf items).count s)).sum = 2 ^ 15 := by
    have hkraft := hpicked.kraft
    rw [hcount] at hkraft
    omega
  have hf : ∀ s, (symbolsOf items).count s ≠ 0 ↔ s ∈ syms := fun s => by
    refine ⟨fun h => hpicked.mem s (List.count_pos_iff.1 (Nat.pos_of_ne_zero h)), fun hs h => ?_⟩
    have hless := lt_of_sum_eq hs hmany (fun s => by positivity) hsum
    rw [h] at hless
    exact Nat.lt_irrefl _ hless
  exact ⟨fitsFreqs_map_range hsyms hlt hf hsum hpicked.count_le h15 fun s hs => hperm.symm.subset hs,
    kraftSum_map_range hsyms hlt hf hsum⟩

theorem packageMerge_spec (h2 : 2 ≤ freqs.length) :
    FitsFreqs freqs maxLen (packageMerge freqs maxLen) ∧ kraftSum (packageMerge freqs maxLen) = 2 ^ 15 := by
  have h1 : 1 ≤ maxLen := Nat.one_le_iff_ne_zero.2 fun h => by rw [h, Nat.pow_zero] at hlen; omega
  obtain hfew | hmany := Nat.lt_or_ge (usedSymbols freqs).length 2
  · rw [packageMerge, if_pos hfew]
    exact twoSymbolLengths_spec h15 h2 h1 hfew
  · exact packageMerge_spec_of_two_le h15 hlen h1 hmany

end

/-! ## Any builder (spec/42 R299) -/

theorem fitsFreqs_of_legalLengths {freqs lengths : List Nat} {maxLen : Nat} (h15 : maxLen ≤ 15)
    (h : legalLengths freqs maxLen lengths = true) : FitsFreqs freqs maxLen lengths := by
  simp only [legalLengths, Bool.and_eq_true, decide_eq_true_eq, List.all_eq_true, Bool.or_eq_true] at h
  obtain ⟨⟨⟨hlen, hmax⟩, hfits⟩, hused⟩ := h
  have hle : ∀ l ∈ lengths, l ≤ 15 := fun l hl => (hmax l hl).trans h15
  have hlegal : LegalTable lengths :=
    (validateLengths_ok (u := ())).1 (bind_ok.2 ⟨(), require_ok.2 hle, require_ok.2 hfits⟩)
  exact ⟨hlen, hlegal, hmax, fun s hs h0 => Nat.ne_of_gt ((hused s (List.mem_range.2 hs)).resolve_left h0)⟩

theorem fitsFreqs_chooseLengths {freqs : List Nat} {maxLen : Nat} (h15 : maxLen ≤ 15) (h2 : 2 ≤ freqs.length)
    (hlen : freqs.length ≤ 2 ^ maxLen) (b : CodeLengthBuilder) :
    FitsFreqs freqs maxLen (chooseLengths b freqs maxLen) := by
  have hmerge := (packageMerge_spec h15 hlen h2).1
  cases b with
  | packageMerge => exact hmerge
  | builder id =>
    by_cases h : legalLengths freqs maxLen (Config.builderLengths id freqs maxLen) = true
    · rw [chooseLengths, if_pos h]
      exact fitsFreqs_of_legalLengths h15 h
    · rw [chooseLengths, if_neg h]
      exact hmerge

/-- Settles O35: what another builder proposes is checked, and package-merge gives a complete code. -/
theorem chosenLengths : Obligations.ChosenLengths := by
  refine ⟨fun freqs maxLen h15 h2 hlen => ⟨fun b => ?_, (packageMerge_spec h15 hlen h2).2⟩, ?_, ?_, ?_, ?_, ?_⟩
  · obtain ⟨hlength, hlegal, hmax, hused⟩ := fitsFreqs_chooseLengths h15 h2 hlen b
    exact ⟨hlength, hlegal, hmax, hused⟩
  all_goals decide +kernel

end Sys2Proof.Machine

/-! The matches of the LZ77 parse are what spec/43 R322 to R325 say, and the parse law (R327): replaying the tokens
copies the data. -/

namespace Sys2Proof.Machine

/-! ## Bytes at a position -/

theorem byteAt_drop (bs : Bytes) (o i : Nat) : byteAt (bs.drop o) i = byteAt bs (o + i) := by
  simp [byteAt, List.getD_eq_getElem?_getD]

theorem byteAt_take {n i : Nat} (h : i < n) (bs : Bytes) : byteAt (bs.take n) i = byteAt bs i := by
  simp [byteAt, List.getD_eq_getElem?_getD, h]

theorem take_append_byteAt {bs : Bytes} {p : Nat} (h : p < bs.length) :
    bs.take p ++ [byteAt bs p] = bs.take (p + 1) := by
  rw [byteAt, List.getD_eq_getElem _ _ h, List.take_append_getElem]

/-! ## The length of a match (spec/43 R323) -/

/-- The common start reaches as far as the bytes agree. -/
theorem le_commonLength_iff {cap k : Nat} {a b : Bytes} (ha : cap ≤ a.length) (hb : cap ≤ b.length) :
    k ≤ commonLength cap a b ↔ k ≤ cap ∧ ∀ i < k, byteAt a i = byteAt b i := by
  induction cap generalizing k a b with
  | zero =>
    simp only [commonLength, Nat.le_zero_eq]
    exact ⟨fun h => ⟨h, by simp [h]⟩, And.left⟩
  | succ cap ih =>
    match a, b, k with
    | x :: xs, y :: ys, 0 => simp
    | x :: xs, y :: ys, k + 1 =>
      have ih := ih (k := k) (Nat.le_of_succ_le_succ ha) (Nat.le_of_succ_le_succ hb)
      have hfirst : (∀ i < k + 1, byteAt (x :: xs) i = byteAt (y :: ys) i) ↔
          x = y ∧ ∀ i < k, byteAt xs i = byteAt ys i := Nat.forall_lt_succ_left
      rw [hfirst, commonLength]
      by_cases hxy : x = y
      · simp [hxy, ih]
      · simp [hxy]

/-- The engine's length of a candidate is the spec's. -/
theorem isMatchLength_iff {data : Bytes} {p e c k : Nat} (he : e ≤ data.length) (hc : c < p) :
    IsMatchLength data p e c k ↔ commonLength (min maxMatch (e - p)) (data.drop c) (data.drop p) = k := by
  have hle (k : Nat) := le_commonLength_iff (k := k) (cap := min maxMatch (e - p)) (a := data.drop c) (b := data.drop p)
    (by rw [List.length_drop]; omega) (by rw [List.length_drop]; omega)
  simp only [byteAt_drop] at hle
  generalize commonLength _ _ _ = n at hle ⊢
  constructor
  · rintro ⟨hk, heq, hne⟩
    have hkn : k ≤ n := (hle k).2 ⟨hk, heq⟩
    refine hkn.antisymm' (Nat.le_of_not_lt fun hlt => ?_)
    obtain ⟨hcap, hsucc⟩ := (hle (k + 1)).1 hlt
    exact hne hcap (hsucc k (Nat.lt_succ_self k))
  · rintro rfl
    obtain ⟨hk, heq⟩ := (hle n).1 le_rfl
    refine ⟨hk, heq, fun hlt hbyte => ?_⟩
    have hsucc : n + 1 ≤ n := (hle (n + 1)).2 ⟨hlt, Nat.forall_lt_succ_right.2 ⟨heq, hbyte⟩⟩
    exact Nat.not_succ_le_self n hsucc

theorem IsCandidate.lt {data : Bytes} {p e c : Nat} (h : IsCandidate data p e c) : c < p := h.2.1

theorem IsCandidate.three_le {data : Bytes} {p e c k : Nat} (hc : IsCandidate data p e c)
    (hk : IsMatchLength data p e c k) : 3 ≤ k := by
  obtain ⟨-, -, he, htri⟩ := hc
  obtain ⟨-, -, hne⟩ := hk
  by_contra hlt
  exact hne (by omega) (htri k (by omega))

/-! ## The candidates (spec/43 R322) -/

theorem positionsFrom_eq_map (c n : Nat) (bytes : Bytes) :
    positionsFrom c n bytes = (List.range n).map fun i => (c + i, bytes.drop i) := by
  induction n generalizing c bytes with
  | zero => rfl
  | succ n ih =>
    rw [positionsFrom, ih, List.range_succ_eq_map, List.map_cons, List.map_map]
    simp [Function.comp_def, Nat.add_comm, Nat.add_left_comm]

/-- The window's positions, each with the bytes that begin there. -/
theorem mem_positionsFrom_window {data : Bytes} {p lo : Nat} {x : Nat × Bytes} :
    x ∈ positionsFrom lo (p - lo) (data.drop lo) ↔ lo ≤ x.1 ∧ x.1 < p ∧ x.2 = data.drop x.1 := by
  simp only [positionsFrom_eq_map, List.mem_map, List.mem_range, List.drop_drop]
  constructor
  · rintro ⟨i, hi, rfl⟩
    exact ⟨Nat.le_add_right lo i, by omega, rfl⟩
  · rintro ⟨hlo, hp, hbytes⟩
    have hpos : lo + (x.1 - lo) = x.1 := Nat.add_sub_cancel' hlo
    exact ⟨x.1 - lo, by omega, Prod.ext hpos (by rw [hpos, hbytes])⟩

/-- The trigram of a position is that of the lookahead. -/
theorem trigram_iff {data : Bytes} {p c : Nat} (hp : p + 3 ≤ data.length) (hc : c < p) :
    commonLength minMatch (data.drop c) (data.drop p) = minMatch ↔
      ∀ i < 3, byteAt data (c + i) = byteAt data (p + i) := by
  have hle := le_commonLength_iff (k := minMatch) (cap := minMatch) (a := data.drop c) (b := data.drop p)
    (by rw [List.length_drop, minMatch]; omega) (by rw [List.length_drop, minMatch]; omega)
  simp only [byteAt_drop, le_rfl, true_and] at hle
  rw [← (commonLength_le minMatch _ _).ge_iff_eq]
  exact hle

/-- The engine's candidates are the spec's, each with the bytes that begin there. -/
theorem mem_windowCandidates_iff {data : Bytes} {p e : Nat} (he : e ≤ data.length) {x : Nat × Bytes} :
    x ∈ windowCandidates data p e ↔ IsCandidate data p e x.1 ∧ x.2 = data.drop x.1 := by
  have hwindow : x ∈ windowCandidates data p e ↔
      p + 3 ≤ e ∧ (p - 32768 ≤ x.1 ∧ x.1 < p ∧ x.2 = data.drop x.1) ∧
        commonLength minMatch x.2 (data.drop p) = minMatch := by
    unfold windowCandidates
    dsimp only
    split
    · rename_i hpe
      rw [List.mem_filter, mem_positionsFrom_window, beq_iff_eq]
      exact (and_iff_right hpe).symm
    · rename_i hpe
      exact ⟨fun h => absurd h List.not_mem_nil, fun h => absurd h.1 hpe⟩
  rw [hwindow]
  constructor
  · rintro ⟨hpe, ⟨hlo, hc, hbytes⟩, htri⟩
    rw [hbytes] at htri
    exact ⟨⟨hlo, hc, hpe, (trigram_iff (hpe.trans he) hc).1 htri⟩, hbytes⟩
  · rintro ⟨⟨hlo, hc, hpe, htri⟩, hbytes⟩
    refine ⟨hpe, ⟨hlo, hc, hbytes⟩, ?_⟩
    rw [hbytes]
    exact (trigram_iff (hpe.trans he) hc).2 htri

/-- The engine sees the candidates in ascending order. -/
theorem windowCandidates_ascending (data : Bytes) (p e : Nat) :
    (windowCandidates data p e).Pairwise fun x y => x.1 < y.1 := by
  unfold windowCandidates
  dsimp only
  split
  · refine List.Pairwise.filter _ ?_
    rw [positionsFrom_eq_map]
    exact List.pairwise_map.2 (List.pairwise_lt_range.imp fun h => Nat.add_lt_add_left h _)
  · exact .nil

/-! ## The choice among the candidates (spec/43 R324)

Matches are ranked in the lexicographic order of length and position. -/

/-- A candidate replaces the best one so far exactly if it ranks higher, as it comes later. -/
theorem bestOf_cons (cap : Nat) (ahead : Bytes) {best : Option (Nat × Nat)} (x : Nat × Bytes)
    (cs : List (Nat × Bytes)) (hbest : ∀ a ∈ best, a.2 < x.1) :
    ∃ b, bestOf cap ahead best (x :: cs) = bestOf cap ahead (some b) cs ∧ b.2 ≤ x.1 ∧
      toLex (commonLength cap x.2 ahead, x.1) ≤ toLex b ∧ ∀ a ∈ best, toLex a ≤ toLex b := by
  match best with
  | none => exact ⟨(commonLength cap x.2 ahead, x.1), rfl, le_rfl, le_rfl, by simp⟩
  | some a =>
    have ha : a.2 < x.1 := hbest a rfl
    by_cases hle : a.1 ≤ commonLength cap x.2 ahead
    · refine ⟨(commonLength cap x.2 ahead, x.1), if_pos hle, le_rfl, le_rfl, ?_⟩
      rintro _ ⟨⟩
      exact Prod.Lex.toLex_le_toLex'.2 ⟨hle, fun _ => ha.le⟩
    · refine ⟨a, if_neg hle, ha.le, ?_, ?_⟩
      · exact Prod.Lex.toLex_le_toLex.2 (.inl (Nat.not_le.1 hle))
      · rintro _ ⟨⟩
        exact le_rfl

/-- Among candidates in ascending order none ranks higher than the one chosen. -/
theorem bestOf_max {cap : Nat} {ahead : Bytes} {best : Option (Nat × Nat)} {cs : List (Nat × Bytes)} {r : Nat × Nat}
    (hcs : cs.Pairwise fun x y => x.1 < y.1) (hbest : ∀ a ∈ best, ∀ x ∈ cs, a.2 < x.1)
    (h : bestOf cap ahead best cs = some r) :
    (∀ a ∈ best, toLex a ≤ toLex r) ∧ ∀ x ∈ cs, toLex (commonLength cap x.2 ahead, x.1) ≤ toLex r := by
  induction cs generalizing best with
  | nil =>
    obtain rfl : best = some r := h
    simp
  | cons x xs ih =>
    obtain ⟨hx, hxs⟩ := List.pairwise_cons.1 hcs
    obtain ⟨b, hb, hpos, hxb, hab⟩ := bestOf_cons cap ahead x xs fun a ha => hbest a ha x List.mem_cons_self
    rw [hb] at h
    obtain ⟨hbr, hrest⟩ := ih hxs (by rintro _ ⟨⟩ y hy; exact hpos.trans_lt (hx y hy)) h
    have hbr : toLex b ≤ toLex r := hbr b rfl
    exact ⟨fun a ha => (hab a ha).trans hbr, List.forall_mem_cons.2 ⟨hxb.trans hbr, hrest⟩⟩

/-- There is a choice as soon as there is a candidate. -/
theorem bestOf_eq_none {cap : Nat} {ahead : Bytes} {best : Option (Nat × Nat)} {cs : List (Nat × Bytes)}
    (h : bestOf cap ahead best cs = none) : best = none ∧ cs = [] := by
  fun_induction bestOf cap ahead best cs with
  | case1 => exact ⟨h, rfl⟩
  | case2 _ _ _ _ ih => cases (ih h).1
  | case3 _ _ _ _ _ _ _ ih => cases (ih h).1
  | case4 _ _ _ _ _ _ _ ih => cases (ih h).1

/-- `Best(D, p, e)` (R324): the length and the position of the candidate an engine chooses, whether rejected or not. -/
def bestMatch (m : MatchCandidates) (data : Bytes) (p e : Nat) : Option (Nat × Nat) :=
  bestOf (min maxMatch (e - p)) (data.drop p) none (admitted m data p (windowCandidates data p e))

/-- A match is the best one, unless that is rejected (R325). -/
theorem matchAt_eq (m : MatchCandidates) (data : Bytes) (p e : Nat) :
    matchAt m data p e = (bestMatch m data p e).bind fun (k, c) =>
      if k = 3 ∧ 8192 ≤ p - c then none else some (k, p - c) := by
  rw [matchAt, ← bestMatch]
  cases bestMatch m data p e <;> rfl

theorem matchAt_eq_some_iff {m : MatchCandidates} {data : Bytes} {p e k d : Nat} :
    matchAt m data p e = some (k, d) ↔
      ∃ c, bestMatch m data p e = some (k, c) ∧ ¬ (k = 3 ∧ 8192 ≤ p - c) ∧ p - c = d := by
  rw [matchAt_eq, Option.bind_eq_some_iff, Prod.exists]
  constructor
  · rintro ⟨k', c, hbest, h⟩
    obtain ⟨hfar, h⟩ := Option.ite_none_left_eq_some.1 h
    cases h
    exact ⟨c, hbest, hfar, rfl⟩
  · rintro ⟨c, hbest, hfar, rfl⟩
    exact ⟨k, c, hbest, if_neg hfar⟩

theorem matchAt_eq_none_iff {m : MatchCandidates} {data : Bytes} {p e : Nat} :
    matchAt m data p e = none ↔
      ∀ k c, bestMatch m data p e = some (k, c) → k = 3 ∧ 8192 ≤ p - c := by
  simp only [matchAt_eq, Option.bind_eq_none_iff, Prod.forall, ite_eq_left_iff, reduceCtorEq, imp_false, not_not]

section
variable {m : MatchCandidates} {data : Bytes} {p e k c : Nat} (he : e ≤ data.length)
include he

/-- What an engine chooses is a candidate, with its length. -/
theorem bestMatch_isMatch (h : bestMatch m data p e = some (k, c)) :
    IsCandidate data p e c ∧ IsMatchLength data p e c k := by
  obtain hnone | ⟨x, hx, rfl, hk⟩ := bestOf_some h
  · cases hnone
  · obtain ⟨hcand, hbytes⟩ := (mem_windowCandidates_iff he).1 (admitted_subset _ _ _ _ hx)
    rw [hbytes] at hk
    exact ⟨hcand, (isMatchLength_iff he hcand.lt).2 hk⟩

/-- The reference engine chooses the longest match, among equals the nearest. -/
theorem bestMatch_exhaustive_max (h : bestMatch .exhaustive data p e = some (k, c)) {c' k' : Nat}
    (hc' : IsCandidate data p e c') (hk' : IsMatchLength data p e c' k') : k' ≤ k ∧ (k' = k → c' ≤ c) := by
  obtain ⟨-, hmax⟩ := bestOf_max (windowCandidates_ascending data p e) (by simp) h
  have hle := hmax (c', data.drop c') ((mem_windowCandidates_iff he).2 ⟨hc', rfl⟩)
  rw [(isMatchLength_iff he hc'.lt).1 hk'] at hle
  exact Prod.Lex.toLex_le_toLex'.1 hle

/-- The reference engine chooses nothing only without a candidate. -/
theorem bestMatch_exhaustive_ne_none (hc : IsCandidate data p e c) :
    bestMatch .exhaustive data p e ≠ none := by
  intro h
  obtain ⟨-, hnil⟩ := bestOf_eq_none h
  have hmem : (c, data.drop c) ∈ windowCandidates data p e := (mem_windowCandidates_iff he).2 ⟨hc, rfl⟩
  exact List.ne_nil_of_mem hmem hnil

/-- A match of any engine is a candidate at its distance, with its length. -/
theorem matchAt_isMatch {d : Nat} (h : matchAt m data p e = some (k, d)) :
    d ≤ p ∧ IsCandidate data p e (p - d) ∧ IsMatchLength data p e (p - d) k := by
  obtain ⟨c, hbest, -, rfl⟩ := matchAt_eq_some_iff.1 h
  obtain ⟨hcand, hlen⟩ := bestMatch_isMatch he hbest
  rw [Nat.sub_sub_self hcand.lt.le]
  exact ⟨Nat.sub_le p c, hcand, hlen⟩

end

/-- Settles O37: the reference engine's choice is the greatest in the order of length and position, and a rejected one
bounds every other candidate from above. -/
theorem longestNearestMatch : Obligations.LongestNearestMatch := by
  intro data p e _ he
  refine ⟨fun k d h => ?_, fun h c k hc hk => ?_⟩
  · obtain ⟨hd, hcand, hlen⟩ := matchAt_isMatch he h
    obtain ⟨c, hbest, hfar, rfl⟩ := matchAt_eq_some_iff.1 h
    have hlt := (bestMatch_isMatch he hbest).1.lt
    refine ⟨hd, hcand, hlen, hfar, fun c' k' hc' hk' => ?_⟩
    rw [Nat.sub_sub_self hlt.le]
    exact bestMatch_exhaustive_max he hbest hc' hk'
  · obtain ⟨⟨k', c'⟩, hbest⟩ := Option.ne_none_iff_exists'.1 (bestMatch_exhaustive_ne_none he hc)
    obtain ⟨rfl, hfar⟩ := matchAt_eq_none_iff.1 h k' c' hbest
    obtain ⟨hle, hnear⟩ := bestMatch_exhaustive_max he hbest hc hk
    have hk3 : k = 3 := hle.antisymm (hc.three_le hk)
    have hcc := hnear hk3
    exact ⟨hk3, by omega⟩

/-! ## The parse law (spec/43 R327) -/

/-- Copying from where the bytes ahead occur appends the bytes ahead. -/
theorem repeatBack_take {data : Bytes} {p d k : Nat} (hd : 1 ≤ d) (hdp : d ≤ p) (hk : p + k ≤ data.length)
    (h : ∀ i < k, byteAt data (p - d + i) = byteAt data (p + i)) :
    repeatBack d k (data.take p) = data.take (p + k) := by
  induction k generalizing p with
  | zero => rfl
  | succ k ih =>
    have hbyte : byteAt (data.take p) ((data.take p).length - d) = byteAt data p := by
      rw [List.length_take_of_le (by omega), byteAt_take (by omega)]
      exact h 0 (by omega)
    rw [repeatBack, hbyte, take_append_byteAt (by omega), ih (by omega) (by omega) fun i hi => ?_, Nat.add_right_comm,
      Nat.add_assoc]
    rw [show p + 1 - d + i = p - d + (i + 1) by omega, h (i + 1) (by omega), Nat.add_right_comm, Nat.add_assoc]

/-- The tokens of a parse from `p` on extend the history up to the lookahead bound. -/
theorem replay_tokenizeFrom (m : MatchCandidates) {data : Bytes} {e : Nat} (he : e ≤ data.length) {fuel p : Nat}
    (hp : p ≤ e) (hfuel : e - p ≤ fuel) :
    replay (data.take p) (tokenizeFrom m data e fuel p) = some (data.take e) := by
  induction fuel generalizing p with
  | zero =>
    obtain rfl : p = e := by omega
    rfl
  | succ fuel ih =>
    unfold tokenizeFrom
    split
    · rename_i hlt
      split
      · rw [replay, take_append_byteAt (hlt.trans_le he)]
        exact ih hlt (by omega)
      · rename_i k d hm
        obtain ⟨hd, hcand, hlen⟩ := matchAt_isMatch he hm
        have h3 := hcand.three_le hlen
        have hback := hcand.lt
        obtain ⟨hk, heq, -⟩ := hlen
        have hlength : (data.take p).length = p := List.length_take_of_le (hp.trans he)
        rw [replay, hlength, if_pos (by omega), repeatBack_take (by omega) hd (by omega) heq]
        exact ih (by omega) (by omega)
    · obtain rfl : p = e := by omega
      rfl

/-- Settles O36, by induction on the parse: a literal appends the next byte, a match the next bytes. -/
theorem parseLaw : Obligations.ParseLaw := fun m _ _ _ hs he =>
  ⟨replay_tokenizeFrom m he hs le_rfl, fun _ => tokenizeFrom_legal _⟩

end Sys2Proof.Machine

/-! The symbols of lengths and distances (spec/44 R359; spec/30 R131, R133): a value's symbol is the one of its row, and
its extra bits say how far the value lies in it. -/

namespace Sys2Proof.Machine

/-! ## The row of a value -/

/-- Below an ascending list's end, the bases that a value reaches are the first ones. -/
theorem lt_length_filter_le_iff {bases : List Nat} (hasc : bases.Pairwise (· < ·)) {v i : Nat} (hi : i < bases.length) :
    i < (bases.filter (fun b => b ≤ v)).length ↔ bases.getD i 0 ≤ v := by
  induction bases generalizing i with
  | nil => exact absurd hi (Nat.not_lt_zero i)
  | cons b bs ih =>
    obtain ⟨hb, hbs⟩ := List.pairwise_cons.1 hasc
    by_cases hv : b ≤ v
    · rw [List.filter_cons_of_pos (by simpa using hv), List.length_cons]
      cases i with
      | zero => simpa using hv
      | succ i => simpa using ih hbs (Nat.lt_of_succ_lt_succ hi)
    · have hnone : (b :: bs).filter (fun b => b ≤ v) = [] := by
        rw [List.filter_eq_nil_iff, List.forall_mem_cons]
        exact ⟨by simpa using hv, fun c hc => by simpa using (Nat.not_le.1 hv).trans (hb c hc)⟩
      have hge : b ≤ (b :: bs).getD i 0 := by
        cases i with
        | zero => exact Nat.le_refl b
        | succ i =>
          rw [List.getD_eq_getElem _ _ hi]
          exact (hb _ (List.getElem_mem (Nat.lt_of_succ_lt_succ hi))).le
      rw [hnone, List.length_nil]
      omega

theorem rowOf_lt {bases : List Nat} (hpos : 0 < bases.length) (v : Nat) : rowOf bases v < bases.length := by
  have := List.length_filter_le (fun b => decide (b ≤ v)) bases
  rw [rowOf]
  omega

section
variable {bases : List Nat} {top v : Nat} (hasc : bases.Pairwise (· < ·))
include hasc

theorem getD_rowOf_le (hpos : 0 < bases.length) (hlow : bases.getD 0 0 ≤ v) : bases.getD (rowOf bases v) 0 ≤ v := by
  have hfirst := (lt_length_filter_le_iff hasc hpos).2 hlow
  refine (lt_length_filter_le_iff hasc (rowOf_lt hpos v)).1 ?_
  rw [rowOf]
  omega

/-- The base after the row of a value, or the end of the last row, is above the value. -/
theorem lt_getD_rowOf_succ (htop : v < top) : v < bases.getD (rowOf bases v + 1) top := by
  obtain hlt | hge := Nat.lt_or_ge (rowOf bases v + 1) bases.length
  · have hnext := (lt_length_filter_le_iff hasc (v := v) hlt).not.1 (by rw [rowOf]; omega)
    rw [List.getD_eq_getElem _ _ hlt] at hnext ⊢
    exact Nat.not_le.1 hnext
  · rwa [List.getD_eq_default _ _ hge]

end

/-- Among rows of which each ends before the next ones begin, the search finds the one a value lies in. -/
theorem find?_inRow {row : Nat → Nat × Nat} {n r v : Nat}
    (hrows : ∀ i < n, ∀ j < i, (row j).1 + 2 ^ (row j).2 ≤ (row i).1) (hr : r < n) (hv : InRow (row r) v) :
    (List.range n).find? (fun i => InRow (row i) v) = some r := by
  refine find?_eq_some_of_unique (List.mem_range.2 hr) fun i hi => ⟨fun hin => ?_, fun h => h ▸ decide_eq_true hv⟩
  obtain ⟨hlow, hhigh⟩ := hv
  obtain ⟨hlow', hhigh'⟩ := of_decide_eq_true hin
  obtain hir | hir | hir := Nat.lt_trichotomy i r
  · have := hrows r hr i hir
    omega
  · exact hir
  · have := hrows i (List.mem_range.1 hi) r hir
    omega

/-! ## Lengths (spec/30 R131) -/

/-- The rows of the 29 length symbols: each ends where the next one begins, or behind that. -/
theorem lengthRow_table : ∀ i < 29, lengthRow (257 + i) = (lengthBases.getD i 0, lengthExtras.getD i 0) ∧
    lengthBases.getD (i + 1) 259 ≤ lengthBases.getD i 0 + 2 ^ lengthExtras.getD i 0 := by decide

/-- No two of the rows of 257 to 284 meet. -/
theorem lengthRow_disjoint : ∀ i < 28, ∀ j < i,
    (lengthRow (257 + j)).1 + 2 ^ (lengthRow (257 + j)).2 ≤ (lengthRow (257 + i)).1 := by decide

/-- The symbol that stands for a length, its row, and the extra bits as the encoder counts them. -/
structure IsLengthCode (k : Nat) (x : ExtraCode) : Prop where
  ge : 257 ≤ x.code
  le : x.code ≤ 285
  width_eq : x.width = (lengthRow x.code).2
  value_eq : x.value = k - (lengthRow x.code).1
  inRow : InRow (lengthRow x.code) k

theorem isLengthCode_lenCode {k : Nat} (h3 : 3 ≤ k) (h258 : k ≤ 258) : IsLengthCode k (lenCode k) := by
  have hasc : lengthBases.Pairwise (· < ·) := by decide
  have hlt : rowOf lengthBases k < 29 := rowOf_lt (by decide) k
  have hle := getD_rowOf_le hasc (by decide) h3
  have hnext := lt_getD_rowOf_succ hasc (top := 259) (Nat.lt_succ_of_le h258)
  obtain ⟨hrow, hend⟩ := lengthRow_table _ hlt
  refine ⟨Nat.le_add_right _ _, Nat.add_le_add_left (Nat.le_of_lt_succ hlt) 257, ?_, ?_, ?_⟩
  all_goals simp only [lenCode, hrow]
  exact ⟨hle, hnext.trans_le hend⟩

theorem lengthSymbol_eq {k : Nat} (h3 : 3 ≤ k) (h258 : k ≤ 258) : lengthSymbol k = (lenCode k).code := by
  by_cases h : k = 258
  · subst h
    decide
  · obtain ⟨hge, hle, -, -, hin⟩ := isLengthCode_lenCode h3 h258
    obtain ⟨r, hr⟩ := Nat.exists_eq_add_of_le hge
    rw [hr] at hin hle ⊢
    have hr28 : r < 28 := by
      refine Nat.lt_of_le_of_ne (by omega) fun h28 => h ?_
      have hrow : InRow (258, 0) k := by rwa [h28] at hin
      exact Nat.le_antisymm h258 hrow.1
    rw [lengthSymbol, if_neg h, find?_inRow lengthRow_disjoint hr28 hin]
    rfl

/-! ## Distances (spec/30 R133) -/

theorem distRow_table : ∀ c < 30, distRow c = (distBases.getD c 0, distExtras.getD c 0) ∧
    distBases.getD (c + 1) 32769 ≤ distBases.getD c 0 + 2 ^ distExtras.getD c 0 := by decide

theorem distRow_disjoint : ∀ c < 30, ∀ b < c, (distRow b).1 + 2 ^ (distRow b).2 ≤ (distRow c).1 := by decide

/-- The symbol that stands for a distance, its row, and the extra bits as the encoder counts them. -/
structure IsDistCode (d : Nat) (y : ExtraCode) : Prop where
  lt : y.code < 30
  width_eq : y.width = (distRow y.code).2
  value_eq : y.value = d - (distRow y.code).1
  inRow : InRow (distRow y.code) d

theorem isDistCode_distCode {d : Nat} (h1 : 1 ≤ d) (hmax : d ≤ 32768) : IsDistCode d (distCode d) := by
  have hasc : distBases.Pairwise (· < ·) := by decide
  have hlt : rowOf distBases d < 30 := rowOf_lt (by decide) d
  have hle := getD_rowOf_le hasc (by decide) h1
  have hnext := lt_getD_rowOf_succ hasc (top := 32769) (Nat.lt_succ_of_le hmax)
  obtain ⟨hrow, hend⟩ := distRow_table _ hlt
  refine ⟨hlt, ?_, ?_, ?_⟩
  all_goals simp only [distCode, hrow]
  exact ⟨hle, hnext.trans_le hend⟩

theorem distSymbol_eq {d : Nat} (h1 : 1 ≤ d) (hmax : d ≤ 32768) : distSymbol d = (distCode d).code := by
  obtain ⟨hlt, -, -, hin⟩ := isDistCode_distCode h1 hmax
  rw [distSymbol, find?_inRow distRow_disjoint hlt hin]
  rfl

end Sys2Proof.Machine

/-! The counts and the runs of a dynamic header (spec/42 R300, R303 to R305): the encoder's recursions give what the
rules define, and the code-length symbols stand for the lengths they were made of. -/

namespace Sys2Proof.Machine

/-! ## Frequencies (spec/42 R300) -/

theorem tally_eq (n : Nat) (syms : List Nat) : tally n syms = frequencies n syms := by
  simp only [tally, frequencies, List.count_eq_length_filter]

theorem length_tally (n : Nat) (syms : List Nat) : (tally n syms).length = n := by simp [tally]

theorem tally_getD_ne_zero {n s : Nat} {syms : List Nat} (hs : s < n) (h : s ∈ syms) : (tally n syms).getD s 0 ≠ 0 := by
  have hget : (tally n syms).getD s 0 = syms.count s := by simp [tally, hs]
  rw [hget]
  exact Nat.ne_of_gt (List.count_pos_iff.2 h)

/-! ## One past the last value that is not 0 (spec/42 R303, R305) -/

theorem usedCount_le (ls : List Nat) : usedCount ls ≤ ls.length := by
  induction ls with
  | nil => exact Nat.le_refl 0
  | cons l ls ih =>
    rw [usedCount, List.length_cons]
    split
    · split <;> omega
    · omega

theorem usedCount_concat (ls : List Nat) (l : Nat) :
    usedCount (ls ++ [l]) = if l = 0 then usedCount ls else ls.length + 1 := by
  induction ls with
  | nil => simp [usedCount]
  | cons x ls ih =>
    rw [List.cons_append, usedCount, ih]
    by_cases hl : l = 0
    · simp only [hl, if_true, usedCount]
    · simp [hl]

theorem usedCount_eq (ls : List Nat) : usedCount ls = lengthsUsed ls := by
  induction ls using List.reverseRecOn with
  | nil => rfl
  | append_singleton ls l ih =>
    rw [usedCount_concat, lengthsUsed, List.reverse_append, List.reverse_singleton, List.singleton_append,
      List.dropWhile_cons]
    by_cases hl : l = 0
    · simp [hl, ih, lengthsUsed]
    · simp [hl]

/-- Behind the last used length there are only zeros. -/
theorem drop_eq_replicate_zero {ls : List Nat} {n : Nat} (hn : usedCount ls ≤ n) :
    ls.drop n = List.replicate (ls.length - n) 0 := by
  induction ls generalizing n with
  | nil => simp
  | cons l ls ih =>
    rw [usedCount] at hn
    cases n with
    | zero =>
      have hk : usedCount ls = 0 := by
        by_contra hk
        rw [if_neg hk] at hn
        omega
      have hl : l = 0 := by
        by_contra hl
        rw [if_pos hk, if_neg hl] at hn
        omega
      have hrest := ih (n := 0) (Nat.le_of_eq hk)
      rw [List.drop_zero] at hrest
      rw [List.drop_zero, hl, hrest]
      simp [List.replicate_succ]
    | succ n =>
      have hk : usedCount ls ≤ n := by
        split at hn <;> omega
      rw [List.drop_succ_cons, ih hk, List.length_cons, Nat.add_sub_add_right]

/-! ## Maximal runs (spec/42 R304) -/

theorem runsOf_cons (v : Nat) (rest : List Nat) :
    runsOf (v :: rest) = (v, (rest.takeWhile (· == v)).length + 1) :: runsOf (rest.dropWhile (· == v)) := by
  induction rest generalizing v with
  | nil => rfl
  | cons w rest ih =>
    rw [runsOf, ih w]
    by_cases h : v = w
    · subst h
      simp
    · have hne : (w == v) = false := by simpa using Ne.symm h
      simp [h, hne, ih w]

theorem runsOf_eq {fuel : Nat} {ls : List Nat} (h : ls.length ≤ fuel) : runsOf ls = maximalRuns fuel ls := by
  induction fuel generalizing ls with
  | zero =>
    rw [List.eq_nil_of_length_eq_zero (Nat.le_zero.1 h)]
    rfl
  | succ fuel ih =>
    cases ls with
    | nil => rfl
    | cons v rest =>
      have hrest : (rest.dropWhile (· == v)).length ≤ fuel :=
        (List.length_dropWhile_le _ _).trans (Nat.le_of_succ_le_succ h)
      rw [runsOf_cons, maximalRuns, ih hrest]

/-- The runs make up the sequence. -/
theorem flatMap_runsOf (ls : List Nat) : (runsOf ls).flatMap (fun run => List.replicate run.2 run.1) = ls := by
  induction ls with
  | nil => rfl
  | cons v rest ih =>
    rw [runsOf]
    split
    · rename_i w c more hruns
      rw [hruns, List.flatMap_cons] at ih
      split
      · rename_i hvw
        rw [List.flatMap_cons, List.replicate_succ, List.cons_append, hvw, ih]
      · rw [List.flatMap_cons, List.flatMap_cons, ih]
        rfl
    · rename_i hruns
      rw [hruns] at ih
      rw [← ih]
      rfl

/-- A run is not empty, and its value is one of the sequence. -/
theorem mem_runsOf {ls : List Nat} {run : Nat × Nat} (h : run ∈ runsOf ls) : 1 ≤ run.2 ∧ run.1 ∈ ls := by
  induction ls with
  | nil => cases h
  | cons v rest ih =>
    have hrest : run ∈ runsOf rest → 1 ≤ run.2 ∧ run.1 ∈ v :: rest := fun hr =>
      ⟨(ih hr).1, List.mem_cons_of_mem v (ih hr).2⟩
    have hfirst : ∀ c, 1 ≤ c → run = (v, c) → 1 ≤ run.2 ∧ run.1 ∈ v :: rest := by
      rintro c hc rfl
      exact ⟨hc, List.mem_cons_self⟩
    rw [runsOf] at h
    split at h
    · rename_i w c more hruns
      rw [hruns] at hrest
      split at h
      · exact (List.mem_cons.1 h).elim (hfirst _ (Nat.le_add_left 1 c)) fun hm => hrest (List.mem_cons_of_mem _ hm)
      · exact (List.mem_cons.1 h).elim (hfirst 1 le_rfl) hrest
    · exact hfirst 1 le_rfl (List.mem_singleton.1 h)

/-! ## The symbols of a run (spec/42 R304) -/

/-- A code-length symbol of the encoder from its number, the width and the value of its extra bits. -/
def clenSymbolOf (x : Nat × Nat × Nat) : ClenSymbol := ⟨x.1, x.2.2, x.2.1⟩

theorem codeZeroRun_eq {fuel c : Nat} (h : c ≤ fuel) : codeZeroRun fuel c = (codedRun 0 c).map clenSymbolOf := by
  induction fuel generalizing c with
  | zero =>
    obtain rfl := Nat.le_zero.1 h
    rfl
  | succ fuel ih =>
    rw [codeZeroRun]
    by_cases h138 : 138 ≤ c
    · have hdiv : c / 138 = (c - 138) / 138 + 1 := by omega
      have hmod : c % 138 = (c - 138) % 138 := by omega
      rw [if_pos (by omega), Nat.min_eq_right h138, ih (by omega), codedRun, codedRun, if_pos rfl, if_pos rfl, hdiv,
        hmod, List.replicate_succ]
      rfl
    · have hdiv : c / 138 = 0 := by omega
      have hmod : c % 138 = c := by omega
      have hnil : codeZeroRun fuel 0 = [] := by cases fuel <;> rfl
      rw [codedRun, if_pos rfl, hdiv, hmod, Nat.min_eq_left (by omega), Nat.sub_self, hnil, List.replicate_zero,
        List.nil_append]
      split
      · rfl
      · split
        · rfl
        · rw [List.map_replicate]
          rfl

theorem codedRun_of_ne_zero {v : Nat} (hv : v ≠ 0) (c : Nat) :
    codedRun v (c + 1) = (v, 0, 0) :: (List.replicate (c / 6) (16, 2, 3) ++
      if 3 ≤ c % 6 then [(16, 2, c % 6 - 3)] else List.replicate (c % 6) (v, 0, 0)) := by
  rw [codedRun, if_neg hv]
  rfl

theorem codeRepeats_eq {v fuel c : Nat} (hv : v ≠ 0) (h : c ≤ fuel) :
    codeRepeats v fuel c = (codedRun v (c + 1)).tail.map clenSymbolOf := by
  rw [codedRun_of_ne_zero hv, List.tail_cons]
  induction fuel generalizing c with
  | zero =>
    obtain rfl := Nat.le_zero.1 h
    rfl
  | succ fuel ih =>
    rw [codeRepeats]
    by_cases h6 : 6 ≤ c
    · have hdiv : c / 6 = (c - 6) / 6 + 1 := by omega
      have hmod : c % 6 = (c - 6) % 6 := by omega
      rw [if_pos (by omega), Nat.min_eq_right h6, ih (by omega), hdiv, hmod, List.replicate_succ]
      rfl
    · have hdiv : c / 6 = 0 := by omega
      have hmod : c % 6 = c := by omega
      have hnil : codeRepeats v fuel 0 = [] := by cases fuel <;> rfl
      rw [hdiv, hmod, Nat.min_eq_left (by omega), Nat.sub_self, hnil, List.replicate_zero, List.nil_append]
      split
      · rfl
      · rw [List.map_replicate]
        rfl

theorem codeRun_eq {run : Nat × Nat} (h : 1 ≤ run.2) : codeRun run = (codedRun run.1 run.2).map clenSymbolOf := by
  obtain ⟨v, c⟩ := run
  obtain ⟨c, rfl⟩ := Nat.exists_eq_add_of_le' h
  rw [codeRun]
  split
  · rename_i hv
    obtain rfl : v = 0 := hv
    exact codeZeroRun_eq le_rfl
  · rename_i hv
    rw [Nat.add_sub_cancel, codeRepeats_eq hv (Nat.le_succ c), codedRun_of_ne_zero hv]
    rfl

/-- The code-length symbols of a sequence (R304). -/
theorem codeLengthSymbols_eq (ls : List Nat) :
    codeLengthSymbols ls =
      ((maximalRuns ls.length ls).flatMap fun run => codedRun run.1 run.2).map clenSymbolOf := by
  rw [codeLengthSymbols, ← runsOf_eq le_rfl, List.map_flatMap]
  exact List.flatMap_congr fun run hrun => codeRun_eq (mem_runsOf hrun).1

/-! ## What the symbols stand for (spec/45 R408) -/

/-- Code-length symbols, read after the lengths `seq`, make `out` of them. -/
inductive Expands : List Nat → List ClenSymbol → List Nat → Prop
  | nil (seq : List Nat) : Expands seq [] seq
  | plain {seq out : List Nat} {v : Nat} {es : List ClenSymbol} (hv : v < 16) (h : Expands (seq ++ [v]) es out) :
    Expands seq (plainClen v :: es) out
  | rep {seq out : List Nat} {sym width extra count len : Nat} {es : List ClenSymbol}
    (hrep : IsRepeat seq sym width extra count len) (hx : extra < 2 ^ width)
    (h : Expands (seq ++ List.replicate count len) es out) : Expands seq (⟨sym, extra, width⟩ :: es) out

section
variable {seq out : List Nat} {es : List ClenSymbol}

theorem Expands.replicate_plain {v : Nat} (hv : v < 16) (c : Nat) (h : Expands (seq ++ List.replicate c v) es out) :
    Expands seq (List.replicate c (plainClen v) ++ es) out := by
  induction c generalizing seq with
  | zero => simpa using h
  | succ c ih =>
    refine .plain hv (ih ?_)
    rwa [List.append_assoc, List.singleton_append, ← List.replicate_succ]

theorem expands_codeZeroRun {fuel c : Nat} (hc : c ≤ fuel) (h : Expands (seq ++ List.replicate c 0) es out) :
    Expands seq (codeZeroRun fuel c ++ es) out := by
  induction fuel generalizing c seq with
  | zero =>
    obtain rfl := Nat.le_zero.1 hc
    simpa [codeZeroRun] using h
  | succ fuel ih =>
    rw [codeZeroRun]
    split
    · have hcount : min c 138 = 11 + (min c 138 - 11) := by omega
      refine .rep (.inr (.inr ⟨rfl, rfl, hcount, rfl⟩)) (by omega) (ih (by omega) ?_)
      rwa [List.append_assoc, ← List.replicate_add, Nat.add_sub_cancel' (Nat.min_le_left c 138)]
    · split
      · exact .rep (.inr (.inl ⟨rfl, rfl, (Nat.add_sub_cancel' (by omega)).symm, rfl⟩)) (by omega) h
      · exact Expands.replicate_plain (by decide) c h

theorem expands_codeRepeats {v fuel c : Nat} (hv : v < 16) (hlast : seq.getLast? = some v) (hc : c ≤ fuel)
    (h : Expands (seq ++ List.replicate c v) es out) : Expands seq (codeRepeats v fuel c ++ es) out := by
  induction fuel generalizing c seq with
  | zero =>
    obtain rfl := Nat.le_zero.1 hc
    simpa [codeRepeats] using h
  | succ fuel ih =>
    rw [codeRepeats]
    split
    · have hcount : min c 6 = 3 + (min c 6 - 3) := by omega
      refine .rep (.inl ⟨rfl, rfl, hcount, hlast⟩) (by omega) (ih ?_ (by omega) ?_)
      · rw [List.getLast?_append_of_ne_nil _ (by simp; omega), List.getLast?_replicate, if_neg (by omega)]
      · rwa [List.append_assoc, ← List.replicate_add, Nat.add_sub_cancel' (Nat.min_le_left c 6)]
    · exact Expands.replicate_plain hv c h

theorem expands_codeRun {run : Nat × Nat} (hv : run.1 < 16) (hc : 1 ≤ run.2)
    (h : Expands (seq ++ List.replicate run.2 run.1) es out) : Expands seq (codeRun run ++ es) out := by
  rw [codeRun]
  split
  · rename_i h0
    rw [h0] at h
    exact expands_codeZeroRun le_rfl h
  · refine .plain hv (expands_codeRepeats hv (by simp) (Nat.sub_le _ 1) ?_)
    rwa [List.append_assoc, List.singleton_append, ← List.replicate_succ, Nat.sub_add_cancel hc]

theorem expands_flatMap_codeRun {runs : List (Nat × Nat)} (hruns : ∀ run ∈ runs, 1 ≤ run.2 ∧ run.1 < 16) :
    Expands seq (runs.flatMap codeRun) (seq ++ runs.flatMap fun run => List.replicate run.2 run.1) := by
  induction runs generalizing seq with
  | nil => simpa using Expands.nil seq
  | cons run runs ih =>
    obtain ⟨⟨hc, hv⟩, hrest⟩ := List.forall_mem_cons.1 hruns
    rw [List.flatMap_cons, List.flatMap_cons, ← List.append_assoc]
    exact expands_codeRun hv hc (ih hrest)

end

/-- The code-length symbols of a sequence give it back. -/
theorem expands_codeLengthSymbols {ls : List Nat} (h : ∀ l ∈ ls, l ≤ 15) : Expands [] (codeLengthSymbols ls) ls := by
  have hruns := expands_flatMap_codeRun (seq := []) fun run (hrun : run ∈ runsOf ls) =>
    ⟨(mem_runsOf hrun).1, Nat.lt_succ_of_le (h _ (mem_runsOf hrun).2)⟩
  rwa [List.nil_append, flatMap_runsOf] at hruns

/-- A code-length symbol is one of the 19, and its extra bits fit their width. -/
theorem Expands.mem {seq out : List Nat} {es : List ClenSymbol} (h : Expands seq es out) :
    ∀ e ∈ es, e.sym < 19 ∧ e.extraBits ≤ 7 ∧ e.extra < 2 ^ e.extraBits := by
  induction h with
  | nil => simp
  | plain hv _ ih => exact List.forall_mem_cons.2 ⟨⟨Nat.lt_trans hv (by decide), Nat.zero_le 7, Nat.one_pos⟩, ih⟩
  | rep hrep hx _ ih =>
    refine List.forall_mem_cons.2 ⟨?_, ih⟩
    obtain ⟨rfl, rfl, -⟩ | ⟨rfl, rfl, -⟩ | ⟨rfl, rfl, -⟩ := hrep <;> exact ⟨by simp, by simp, hx⟩

end Sys2Proof.Machine

/-! The encoder's fields as bits (spec/42 R306, spec/44 R357 to R362): every field is one that the writer takes whole,
and a symbol stream's and a header's fields are the bits that the rules give them. -/

namespace Sys2Proof.Machine

/-! ## Fields as the bits of a position -/

/-- The writer takes the fields whole, and these are the bits it writes for them at each position. -/
structure EmitsAt (fs : List Field) (bits : Nat → List Bool) : Prop where
  ok : ∀ f ∈ fs, FieldOk f
  bits_eq : ∀ pos, fieldBits pos fs = bits pos

/-- Fields that are the same bits at every position. -/
abbrev Emits (fs : List Field) (bits : List Bool) : Prop := EmitsAt fs fun _ => bits

theorem EmitsAt.append {fs gs : List Field} {f g : Nat → List Bool} (hf : EmitsAt fs f) (hg : EmitsAt gs g) :
    EmitsAt (fs ++ gs) fun pos => f pos ++ g (pos + (f pos).length) :=
  ⟨List.forall_mem_append.2 ⟨hf.ok, hg.ok⟩, fun pos => by rw [fieldBits_append, hf.bits_eq, hg.bits_eq]⟩

theorem EmitsAt.congr {fs : List Field} {f g : Nat → List Bool} (hf : EmitsAt fs f) (h : ∀ pos, f pos = g pos) :
    EmitsAt fs g := ⟨hf.ok, fun pos => (hf.bits_eq pos).trans (h pos)⟩

theorem emits_nil : Emits [] [] := ⟨by simp, fun _ => rfl⟩

theorem emits_put {n v : Nat} (hn : n ≤ 32) (hv : v < 2 ^ n) : Emits [.put v n] (bitsOf n v) :=
  ⟨List.forall_mem_singleton.2 ⟨hn, hv⟩, fun _ => List.append_nil _⟩

theorem Emits.append {fs gs : List Field} {a b : List Bool} (hf : Emits fs a) (hg : Emits gs b) :
    Emits (fs ++ gs) (a ++ b) := EmitsAt.append hf hg

theorem Emits.flatMap {α : Type} {xs : List α} {f : α → List Field} {g : α → List Bool}
    (h : ∀ x ∈ xs, Emits (f x) (g x)) : Emits (xs.flatMap f) (xs.flatMap g) := by
  induction xs with
  | nil => exact emits_nil
  | cons x xs ih =>
    obtain ⟨hx, hxs⟩ := List.forall_mem_cons.1 h
    exact hx.append (ih hxs)

theorem Emits.map {α : Type} {xs : List α} {f : α → Field} {g : α → List Bool} (h : ∀ x ∈ xs, Emits [f x] (g x)) :
    Emits (xs.map f) (xs.flatMap g) := by
  rw [List.map_eq_flatMap]
  exact Emits.flatMap h

theorem emits_byteFields (bytes : Bytes) : Emits (byteFields bytes) (streamBits bytes) :=
  ⟨byteFields_ok bytes, fun pos => fieldBits_byteFields pos bytes⟩

/-! ## Symbols (spec/44 R357, spec/42 R307) -/

theorem getD_le_of_forall {lengths : List Nat} {n : Nat} (h : ∀ l ∈ lengths, l ≤ n) (sym : Nat) :
    lengths.getD sym 0 ≤ n := by
  obtain hlt | hge := Nat.lt_or_ge sym lengths.length
  · exact getD_le h hlt
  · rw [List.getD_eq_default _ _ hge]
    exact Nat.zero_le n

theorem emits_codeField {lengths : List Nat} (h : ∀ l ∈ lengths, l ≤ 15) (sym : Nat) :
    Emits [codeField lengths (canonicalCodes lengths) sym] (codeBits lengths sym) := by
  rw [← bitsOf_wireCode]
  exact emits_put ((getD_le_of_forall h sym).trans (by decide)) (reverseBits_lt _ _)

theorem length_codeBits (lengths : List Nat) (sym : Nat) : (codeBits lengths sym).length = lengths.getD sym 0 := by
  simp [codeBits]

/-! A legal match has a length and a distance that are in the rows (spec/43 R327). -/

section
variable {k d : Nat} (h : legalToken (.copy k d) = true)
include h

theorem ranges_of_legalToken : 3 ≤ k ∧ k ≤ 258 ∧ 1 ≤ d ∧ d ≤ 32768 := by
  obtain ⟨h3, h258, h1, hmax, -⟩ := of_decide_eq_true h
  exact ⟨h3, h258, h1, hmax⟩

theorem isLengthCode_of_legalToken : IsLengthCode k (lenCode k) := by
  obtain ⟨h3, h258, -, -⟩ := ranges_of_legalToken h
  exact isLengthCode_lenCode h3 h258

theorem lengthSymbol_of_legalToken : lengthSymbol k = (lenCode k).code := by
  obtain ⟨h3, h258, -, -⟩ := ranges_of_legalToken h
  exact lengthSymbol_eq h3 h258

theorem isDistCode_of_legalToken : IsDistCode d (distCode d) := by
  obtain ⟨-, -, h1, hmax⟩ := ranges_of_legalToken h
  exact isDistCode_distCode h1 hmax

theorem distSymbol_of_legalToken : distSymbol d = (distCode d).code := by
  obtain ⟨-, -, h1, hmax⟩ := ranges_of_legalToken h
  exact distSymbol_eq h1 hmax

end

theorem tokenSymbols_eq {x : LZSymbol} (h : legalToken x = true) : tokenSymbols x = (litSymbol x, distSymbols x) := by
  cases x with
  | literal b => rfl
  | copy k d =>
    rw [tokenSymbols, lengthSymbol_of_legalToken h, distSymbol_of_legalToken h]
    rfl

section
variable {tokens : List LZSymbol} (hlegal : ∀ x ∈ tokens, legalToken x = true)
include hlegal

/-- The lit/len symbols of tokens and the end of the block are among the 286. -/
theorem litSymbol_lt : ∀ sym ∈ tokens.map litSymbol ++ [256], sym < 286 := by
  refine List.forall_mem_append.2 ⟨List.forall_mem_map.2 fun x hx => ?_, List.forall_mem_singleton.2 (by decide)⟩
  cases x with
  | literal v => exact v.isLt.trans (by decide)
  | copy k d => exact Nat.lt_succ_of_le (isLengthCode_of_legalToken (hlegal _ hx)).le

theorem distSymbol_lt : ∀ c ∈ tokens.flatMap distSymbols, c < 30 := by
  refine List.forall_mem_flatMap.2 fun x hx => ?_
  cases x with
  | literal v => exact fun c hc => nomatch hc
  | copy k d => exact List.forall_mem_singleton.2 (isDistCode_of_legalToken (hlegal _ hx)).lt

end

/-- The extra bits of a row are at most 13. -/
theorem lengthRow_width_le : ∀ i < 29, (lengthRow (257 + i)).2 ≤ 13 := by decide
theorem distRow_width_le : ∀ c < 30, (distRow c).2 ≤ 13 := by decide

theorem emits_lengthExtra {k : Nat} {x : ExtraCode} (h : IsLengthCode k x) :
    Emits [.put x.value x.width] (bitsOf (lengthRow x.code).2 (k - (lengthRow x.code).1)) := by
  obtain ⟨hge, hle, hwidth, hvalue, hin⟩ := h
  obtain ⟨i, hi⟩ := Nat.exists_eq_add_of_le hge
  rw [hwidth, hvalue]
  exact emits_put (hi ▸ (lengthRow_width_le i (by omega)).trans (by decide)) (by omega)

theorem emits_distExtra {d : Nat} {y : ExtraCode} (h : IsDistCode d y) :
    Emits [.put y.value y.width] (bitsOf (distRow y.code).2 (d - (distRow y.code).1)) := by
  obtain ⟨hlt, hwidth, hvalue, hin⟩ := h
  rw [hwidth, hvalue]
  exact emits_put ((distRow_width_le _ hlt).trans (by decide)) (by omega)

section
variable {ll dl : List Nat} (hll : ∀ l ∈ ll, l ≤ 15) (hdl : ∀ l ∈ dl, l ≤ 15)

section
include hll hdl

theorem emits_tokenFields {x : LZSymbol} (hx : legalToken x = true) :
    Emits (tokenFields ll (canonicalCodes ll) dl (canonicalCodes dl) x) (tokenBits ll dl x) := by
  cases x with
  | literal b => exact emits_codeField hll b.toNat
  | copy k d =>
    have hlength := emits_lengthExtra (isLengthCode_of_legalToken hx)
    have hdistance := emits_distExtra (isDistCode_of_legalToken hx)
    rw [tokenBits, lengthSymbol_of_legalToken hx, distSymbol_of_legalToken hx]
    exact (((emits_codeField hll _).append hlength).append (emits_codeField hdl _)).append hdistance

theorem emits_symbolFields {tokens : List LZSymbol} (h : ∀ x ∈ tokens, legalToken x = true) :
    Emits (symbolFields tokens ll dl) (symbolStream tokens ll dl) :=
  (Emits.flatMap fun x hx => emits_tokenFields hll hdl (h x hx)).append (emits_codeField hll 256)

end

theorem tokenCost_eq {x : LZSymbol} (hx : legalToken x = true) : tokenCost ll dl x = (tokenBits ll dl x).length := by
  cases x with
  | literal b => exact (length_codeBits ll b.toNat).symm
  | copy k d =>
    rw [tokenBits, lengthSymbol_of_legalToken hx, distSymbol_of_legalToken hx, tokenCost,
      (isLengthCode_of_legalToken hx).width_eq, (isDistCode_of_legalToken hx).width_eq]
    simp only [List.length_append, length_codeBits, length_bitsOf]

theorem symbolsCost_eq {tokens : List LZSymbol} (h : ∀ x ∈ tokens, legalToken x = true) :
    symbolsCost tokens ll dl = (symbolStream tokens ll dl).length := by
  rw [symbolsCost, symbolStream, List.length_append, List.length_flatMap, length_codeBits,
    List.map_congr_left fun x hx => tokenCost_eq (h x hx)]

end

/-! ## The header of a dynamic block (spec/42 R300 to R307) -/

section
variable (b : CodeLengthBuilder) (tokens : List LZSymbol)

theorem fits_litLengths : FitsFreqs (tally 286 (tokens.map litSymbol ++ [256])) 15 (dynamicPlan b tokens).litLengths :=
  fitsFreqs_chooseLengths le_rfl (by rw [length_tally]; decide) (by rw [length_tally]; decide) b

theorem fits_distLengths : FitsFreqs (tally 30 (tokens.flatMap distSymbols)) 15 (dynamicPlan b tokens).distLengths :=
  fitsFreqs_chooseLengths le_rfl (by rw [length_tally]; decide) (by rw [length_tally]; decide) b

theorem fits_clenLengths :
    FitsFreqs (tally 19 ((dynamicPlan b tokens).symbols.map fun e => e.sym)) 7 (dynamicPlan b tokens).clenLengths :=
  fitsFreqs_chooseLengths (by decide) (by rw [length_tally]; decide) (by rw [length_tally]; decide) b

theorem length_litLengths : (dynamicPlan b tokens).litLengths.length = 286 :=
  (fits_litLengths b tokens).length_eq.trans (length_tally _ _)

theorem length_distLengths : (dynamicPlan b tokens).distLengths.length = 30 :=
  (fits_distLengths b tokens).length_eq.trans (length_tally _ _)

theorem length_clenLengths : (dynamicPlan b tokens).clenLengths.length = 19 :=
  (fits_clenLengths b tokens).length_eq.trans (length_tally _ _)

/-- The code-length code lengths of a plan in the order of spec/30 R139. -/
def orderedClens (p : DynamicPlan) : List Nat := clenOrder.map fun s => p.clenLengths.getD s 0

theorem length_orderedClens (p : DynamicPlan) : (orderedClens p).length = 19 := List.length_map _

theorem length_flatMap_orderedClens (p : DynamicPlan) {n : Nat} (hn : n ≤ 19) :
    (((orderedClens p).take n).flatMap (bitsOf 3)).length = 3 * n := by
  simp only [List.length_flatMap, length_bitsOf, List.map_const', List.sum_replicate, List.length_take,
    length_orderedClens, Nat.min_eq_left hn, smul_eq_mul, Nat.mul_comm]

theorem nlit_bounds : 257 ≤ (dynamicPlan b tokens).nlit ∧ (dynamicPlan b tokens).nlit ≤ 286 :=
  ⟨le_max_left _ _, max_le (by decide) ((usedCount_le _).trans_eq (length_litLengths b tokens))⟩

theorem ndist_bounds : 1 ≤ (dynamicPlan b tokens).ndist ∧ (dynamicPlan b tokens).ndist ≤ 30 :=
  ⟨le_max_left _ _, max_le (by decide) ((usedCount_le _).trans_eq (length_distLengths b tokens))⟩

theorem nclen_bounds : 4 ≤ (dynamicPlan b tokens).nclen ∧ (dynamicPlan b tokens).nclen ≤ 19 :=
  ⟨le_max_left _ _, max_le (by decide) ((usedCount_le _).trans_eq (length_orderedClens (dynamicPlan b tokens)))⟩

/-! No used length is cut off. -/

theorem usedCount_le_nlit : usedCount (dynamicPlan b tokens).litLengths ≤ (dynamicPlan b tokens).nlit :=
  le_max_right _ _

theorem usedCount_le_ndist : usedCount (dynamicPlan b tokens).distLengths ≤ (dynamicPlan b tokens).ndist :=
  le_max_right _ _

theorem usedCount_le_nclen : usedCount (orderedClens (dynamicPlan b tokens)) ≤ (dynamicPlan b tokens).nclen :=
  le_max_right _ _

/-- The code-length symbols of a plan give its two tables, as far as they are sent. -/
theorem expands_symbols : Expands [] (dynamicPlan b tokens).symbols
    ((dynamicPlan b tokens).litLengths.take (dynamicPlan b tokens).nlit ++
      (dynamicPlan b tokens).distLengths.take (dynamicPlan b tokens).ndist) := by
  refine expands_codeLengthSymbols fun l hl => ?_
  obtain hl | hl := List.mem_append.1 hl
  · exact (fits_litLengths b tokens).le_max l (List.mem_of_mem_take hl)
  · exact (fits_distLengths b tokens).le_max l (List.mem_of_mem_take hl)

/-- A code-length symbol with its extra bits. -/
def clenBits (lengths : List Nat) (e : ClenSymbol) : List Bool := codeBits lengths e.sym ++ bitsOf e.extraBits e.extra

/-- The header of a dynamic block (R306). -/
def headerBits (p : DynamicPlan) : List Bool :=
  bitsOf 5 (p.nlit - 257) ++ bitsOf 5 (p.ndist - 1) ++ bitsOf 4 (p.nclen - 4) ++
  ((orderedClens p).take p.nclen).flatMap (bitsOf 3) ++ p.symbols.flatMap (clenBits p.clenLengths)

theorem emits_headerFields : Emits (headerFields (dynamicPlan b tokens)) (headerBits (dynamicPlan b tokens)) := by
  obtain ⟨-, hlit⟩ := nlit_bounds b tokens
  obtain ⟨-, hdist⟩ := ndist_bounds b tokens
  obtain ⟨-, hclen⟩ := nclen_bounds b tokens
  have hmem := (expands_symbols b tokens).mem
  have hmax := (fits_clenLengths b tokens).le_max
  generalize dynamicPlan b tokens = p at *
  rw [headerFields, headerBits, orderedClens, ← List.map_take, List.flatMap_map]
  have hcounts : Emits [.put (p.nlit - 257) 5, .put (p.ndist - 1) 5, .put (p.nclen - 4) 4]
      (bitsOf 5 (p.nlit - 257) ++ bitsOf 5 (p.ndist - 1) ++ bitsOf 4 (p.nclen - 4)) :=
    ((emits_put (by decide) (by omega)).append (emits_put (by decide) (by omega))).append
      (emits_put (by decide) (by omega))
  refine (hcounts.append (.map fun s _ => ?_)).append (.flatMap fun e he => ?_)
  · exact emits_put (by decide) (Nat.lt_succ_of_le (getD_le_of_forall hmax s))
  · obtain ⟨-, hwidth, hextra⟩ := hmem e he
    exact (emits_codeField (fun l hl => (hmax l hl).trans (by decide)) e.sym).append
      (emits_put (hwidth.trans (by decide)) hextra)

theorem dynamicCost_eq (h : ∀ x ∈ tokens, legalToken x = true) : dynamicCost (dynamicPlan b tokens) tokens =
    3 + (headerBits (dynamicPlan b tokens) ++
      symbolStream tokens (dynamicPlan b tokens).litLengths (dynamicPlan b tokens).distLengths).length := by
  obtain ⟨-, hclen⟩ := nclen_bounds b tokens
  generalize dynamicPlan b tokens = p at *
  have hsymbols : (p.symbols.flatMap (clenBits p.clenLengths)).length =
      (p.symbols.map fun e => p.clenLengths.getD e.sym 0 + e.extraBits).sum := by
    simp only [List.length_flatMap, clenBits, List.length_append, length_codeBits, length_bitsOf]
  simp only [dynamicCost, symbolsCost_eq h, headerBits, List.length_append, length_bitsOf,
    length_flatMap_orderedClens p hclen, hsymbols]
  omega

/-- A dynamic block after its 3 header bits. -/
theorem dynamicBits_eq (h : ∀ x ∈ tokens, legalToken x = true) : dynamicBits (chooseLengths b) tokens =
    headerBits (dynamicPlan b tokens) ++
      symbolStream tokens (dynamicPlan b tokens).litLengths (dynamicPlan b tokens).distLengths := by
  have hlit : tokens.map (fun x => (tokenSymbols x).1) = tokens.map litSymbol :=
    List.map_congr_left fun x hx => by rw [tokenSymbols_eq (h x hx)]
  have hdist : tokens.flatMap (fun x => (tokenSymbols x).2) = tokens.flatMap distSymbols :=
    List.flatMap_congr fun x hx => by rw [tokenSymbols_eq (h x hx)]
  simp only [dynamicBits, hlit, hdist, headerBits, orderedClens, dynamicPlan, codeLengthSymbols_eq, tally_eq,
    usedCount_eq, List.map_map, List.flatMap_map]
  rfl

end

end Sys2Proof.Machine

/-! The blocks of the encoder as bits (spec/44 R352 to R363): each block is the one the rules choose, the body is the
blocks one after the other and zero bits up to the byte boundary. -/

namespace Sys2Proof.Machine

/-! ## Stored blocks (spec/44 R360; spec/30 R122) -/

theorem xor_eq_sub {n : Nat} (h : n ≤ 65535) : n ^^^ 0xFFFF = 65535 - n := by
  have hnot : (BitVec.ofNat 16 n ^^^ BitVec.allOnes 16).toNat = (~~~ BitVec.ofNat 16 n).toNat := by
    rw [BitVec.xor_allOnes]
  rw [BitVec.toNat_xor, BitVec.toNat_not, BitVec.toNat_ofNat, Nat.mod_eq_of_lt (Nat.lt_succ_of_le h)] at hnot
  exact hnot

/-- A stored block, written `pos` bits into the stream. -/
def storedBits (chunk : Bytes) (final : Bool) (pos : Nat) : List Bool :=
  [final, false, false] ++ List.replicate ((8 - (pos + 3) % 8) % 8) false ++ bitsOf 16 chunk.length ++
  bitsOf 16 (65535 - chunk.length) ++ streamBits chunk

theorem emitsAt_align : EmitsAt [.align] fun pos => List.replicate ((8 - pos % 8) % 8) false :=
  ⟨List.forall_mem_singleton.2 trivial, fun _ => List.append_nil _⟩

theorem emitsAt_storedFields {chunk : Bytes} (h : chunk.length ≤ 65535) (final : Bool) :
    EmitsAt (storedFields chunk final) (storedBits chunk final) := by
  have hheader : Emits [.put (finalBit final) 1, .put 0 2] [final, false, false] := by
    cases final
    · exact (emits_put (by decide) (by decide)).append (emits_put (by decide) (by decide))
    · exact (emits_put (by decide) (by decide)).append (emits_put (by decide) (by decide))
  have hlengths : Emits [.put chunk.length 16, .put (chunk.length ^^^ 0xFFFF) 16]
      (bitsOf 16 chunk.length ++ bitsOf 16 (65535 - chunk.length)) := by
    rw [xor_eq_sub h]
    exact (emits_put (by decide) (by omega)).append (emits_put (by decide) (by omega))
  have hall := (((EmitsAt.append hheader emitsAt_align).append hlengths).append (emits_byteFields chunk))
  refine hall.congr fun pos => ?_
  simp only [storedBits, List.append_assoc]
  rfl

theorem streamBits_u16le (x : Half) : streamBits (u16le x) = bitsOf 16 x.toNat := by
  have hhalves : bitsOf 16 x.toNat = bitsOf 8 x.toNat ++ bitsOf 8 (x.toNat >>> 8) := bitsOf_add 8 8 x.toNat
  rw [hhalves, u16le, streamBits_cons, streamBits_cons, streamBits_nil, List.append_nil, byteBits_eq, byteBits_eq]
  have hbyte (k : Nat) : bitsOf 8 (x.extractLsb' k 8).toNat = bitsOf 8 (x.toNat >>> k) := bitsOf_congr fun i hi => by
    rw [BitVec.extractLsb'_toNat, Nat.testBit_mod_two_pow, decide_eq_true hi, Bool.true_and]
  rw [hbyte, hbyte, Nat.shiftRight_zero]

/-- A stored block at a byte boundary is whole bytes. -/
theorem storedBits_eq {chunk : Bytes} (h : chunk.length ≤ 65535) (final : Bool) {pos : Nat} (hpos : pos % 8 = 0) :
    storedBits chunk final pos = streamBits (storedBlock chunk final) := by
  have hlen : (len16 chunk).toNat = chunk.length := Nat.mod_eq_of_lt (Nat.lt_succ_of_le h)
  have hfirst : streamBits [if final then 1 else 0] =
      [final, false, false] ++ List.replicate ((8 - (pos + 3) % 8) % 8) false := by
    rw [show (8 - (pos + 3) % 8) % 8 = 5 by omega]
    cases final <;> rfl
  rw [storedBlock, streamBits_append, streamBits_append, streamBits_append, hfirst, streamBits_u16le, streamBits_u16le,
    BitVec.toNat_not, hlen]
  rfl

/-! ## The choice of a block (spec/44 R361, R362) -/

theorem chooseKind_eq (f d n : Nat) : chooseKind (3 + f) (3 + d) n =
    if 8 * n ≤ 3 + min f d then .stored else if d < f then .dynamic else .fixed := by
  have hmin : (if 3 + d < 3 + f then 3 + d else 3 + f) = 3 + min f d := by
    split <;> omega
  rw [chooseKind, hmin]
  simp only [Nat.add_lt_add_iff_left]

theorem length_slice {data : Bytes} {s e : Nat} (he : e ≤ data.length) : (slice data s (e - s)).length = e - s := by
  rw [slice, List.length_take, List.length_drop]
  omega

theorem legalTable_of_slotOk {cap : Nat} {lengths : List Nat} (h : slotOk cap (.table lengths) = true) :
    LegalTable lengths := by
  rw [slotOk, decide_eq_true_eq] at h
  exact h.2

/-- The three header bits of a block (spec/30 R120, R121). -/
theorem emits_blockHeader (final : Bool) :
    Emits [.put (finalBit final + 2) 3] [final, true, false] ∧
    Emits [.put (finalBit final + 4) 3] [final, false, true] := by
  cases final <;> exact ⟨emits_put (by decide) (by decide), emits_put (by decide) (by decide)⟩

section
variable {tokens : List LZSymbol} (h : ∀ x ∈ tokens, legalToken x = true)
include h

theorem emits_fixedBlock (final : Bool) :
    Emits (.put (finalBit final + 2) 3 :: symbolFields tokens fixedLitLengths fixedDistLengths)
      ([final, true, false] ++ fixedBits tokens) :=
  Emits.append (emits_blockHeader final).1 (emits_symbolFields (legalTable_of_slotOk slotOk_fixedLit).1
    (legalTable_of_slotOk slotOk_fixedDist).1 h)

theorem emits_dynamicBlock (b : CodeLengthBuilder) (final : Bool) :
    Emits (.put (finalBit final + 4) 3 :: headerFields (dynamicPlan b tokens) ++
        symbolFields tokens (dynamicPlan b tokens).litLengths (dynamicPlan b tokens).distLengths)
      ([final, false, true] ++ dynamicBits (chooseLengths b) tokens) := by
  rw [dynamicBits_eq b tokens h, ← List.append_assoc]
  exact (Emits.append (emits_blockHeader final).2 (emits_headerFields b tokens)).append
    (emits_symbolFields (fits_litLengths b tokens).le_max (fits_distLengths b tokens).le_max h)

theorem fixedCost_eq : fixedCost tokens = 3 + (fixedBits tokens).length := by
  rw [fixedCost, symbolsCost_eq h]
  rfl

end

section
variable {c : LevelChoice} {data : Bytes} {s e : Nat}

theorem emitsAt_blockFields (he : e ≤ data.length) (hlen : e - s ≤ 65535) :
    EmitsAt (blockFields c data s e (decide (e = data.length))) (blockBits c data s e) := by
  have hlegal : ∀ x ∈ tokenize c.candidates data s e, legalToken x = true := tokenizeFrom_legal
  have hfixed := fixedCost_eq hlegal
  have hdynamic := dynamicCost_eq c.builder _ hlegal
  rw [← dynamicBits_eq c.builder _ hlegal] at hdynamic
  unfold blockFields
  dsimp only
  rw [hfixed, hdynamic, chooseKind_eq]
  split_ifs with hbig hless
  · refine (emitsAt_storedFields ((length_slice he).trans_le hlen) _).congr fun pos => ?_
    rw [blockBits, if_pos hbig, storedBits, length_slice he]
  · refine (emits_dynamicBlock hlegal c.builder _).congr fun pos => ?_
    rw [blockBits, if_neg hbig, if_pos hless]
  · refine (emits_fixedBlock hlegal _).congr fun pos => ?_
    rw [blockBits, if_neg hbig, if_neg hless]

end

end Sys2Proof.Machine

/-! The body of the encoder's stream (spec/44 R352, R353, R363), and from it the command `DEFLATE`, the stored layout of
level 0 and the size bound (R369). -/

namespace Sys2Proof.Machine

/-! ## Chunks (spec/44 R353) -/

/-- How many chunks `n` bytes make. -/
def chunkCount (n : Nat) : Nat := (n + 65534) / 65535

/-- Where chunk `j` ends. -/
def chunkEnd (n j : Nat) : Nat := min (65535 * (j + 1)) n

theorem chunkEnd_le (n j : Nat) : chunkEnd n j ≤ n := Nat.min_le_right _ _

theorem chunkEnd_sub_le (n j : Nat) : chunkEnd n j - 65535 * j ≤ 65535 := by
  rw [chunkEnd]
  omega

theorem splitChunks_eq (n : Nat) :
    splitChunks n = (List.range (chunkCount n)).map fun j => (65535 * j, chunkEnd n j) := by
  have hcount : (n + blockChunk - 1) / blockChunk = chunkCount n := by
    rw [blockChunk, chunkCount, Nat.add_sub_assoc (by decide)]
  rw [splitChunks, hcount]
  simp only [chunkEnd, blockChunk]

section
variable (p : Params) (data : Bytes) (level : Nat)

/-- The bits of the chunk `data[s..e)`, written `pos` bits into the stream (R352). -/
def chunkBits (s e pos : Nat) : List Bool :=
  if level = 0 then storedBits (slice data s (e - s)) (decide (e = data.length)) pos
  else blockBits (levelChoice p level) data s e pos

/-- The fields of the first `m` chunks. -/
def bodyFields (m : Nat) : List Field :=
  (List.range m).flatMap fun j => chunkFields p data level (65535 * j) (chunkEnd data.length j)
    (decide (chunkEnd data.length j = data.length))

/-- Their bits. -/
def bodyBits (m : Nat) : List Bool :=
  (List.range m).foldl (fun bits j => bits ++
    chunkBits p data level (65535 * j) (chunkEnd data.length j) bits.length) []

theorem bodyBits_succ (m : Nat) : bodyBits p data level (m + 1) = bodyBits p data level m ++
    chunkBits p data level (65535 * m) (chunkEnd data.length m) (bodyBits p data level m).length := by
  rw [bodyBits, List.range_succ, List.foldl_append]
  rfl

theorem emitsAt_chunkFields {s e : Nat} (he : e ≤ data.length) (hlen : e - s ≤ 65535) :
    EmitsAt (chunkFields p data level s e (decide (e = data.length))) (chunkBits p data level s e) := by
  by_cases h0 : level = 0
  · rw [chunkFields, if_pos h0]
    refine (emitsAt_storedFields ((length_slice he).trans_le hlen) _).congr fun pos => ?_
    rw [chunkBits, if_pos h0]
  · rw [chunkFields, if_neg h0]
    refine (emitsAt_blockFields he hlen).congr fun pos => ?_
    rw [chunkBits, if_neg h0]

theorem bodyFields_spec (m : Nat) : (∀ f ∈ bodyFields p data level m, FieldOk f) ∧
    fieldBits 0 (bodyFields p data level m) = bodyBits p data level m := by
  induction m with
  | zero => exact ⟨by simp [bodyFields], rfl⟩
  | succ m ih =>
    obtain ⟨hok, hbits⟩ := ih
    have hchunk := emitsAt_chunkFields p data level (chunkEnd_le data.length m) (chunkEnd_sub_le data.length m)
    rw [bodyFields, List.range_succ, List.flatMap_append, List.flatMap_singleton, ← bodyFields]
    refine ⟨List.forall_mem_append.2 ⟨hok, hchunk.ok⟩, ?_⟩
    rw [fieldBits_append, hbits, hchunk.bits_eq, bodyBits_succ, Nat.zero_add]

/-- The body is the blocks of all chunks and zero bits up to the byte boundary. -/
theorem streamBits_deflateBody (hdata : data ≠ []) : streamBits (deflateBody p data level) =
    bodyBits p data level (chunkCount data.length) ++
      List.replicate ((8 - (bodyBits p data level (chunkCount data.length)).length % 8) % 8) false := by
  obtain ⟨hok, hbits⟩ := bodyFields_spec p data level (chunkCount data.length)
  have hbody : deflateBody p data level =
      (packFields Pending.empty (bodyFields p data level (chunkCount data.length) ++ [.align])).1 := by
    rw [deflateBody, if_neg hdata, splitChunks_eq, List.flatMap_map]
    rfl
  have hstream := streamBits_packFields_align (p := Pending.empty) (by decide) hok
  rw [hbody, hstream, Pending.empty, bitsOf_zero, List.nil_append, fieldBits_append, hbits, emitsAt_align.bits_eq,
    Nat.zero_add]

end

theorem compressedBits_eq (p : Params) (data : Bytes) {level : Nat} (h : level ≠ 0) :
    compressedBits (levelChoice p level) data = bodyBits p data level (chunkCount data.length) := by
  simp only [bodyBits, chunkBits, if_neg h]
  rfl

/-! ## The command (spec/44 R350, R351, R356, R364 to R366) -/

theorem levelOperand_fits {l : BitVec 4} (h : l.toNat ≤ 9) : levelOperand l = .ok l.toNat :=
  levelOperand_ok.2 ⟨h, rfl⟩

section
variable {l : BitVec 4} {wrap : Bool} {s : State} {stream : Bytes} (hl : l.toNat ≤ 9)
  (hstream : deflateStream s.params s.inp l.toNat wrap = stream)
include hl hstream

theorem exec_deflate_capacity (hcap : s.params.maxStreamBytes < s.out.length + stream.length) :
    exec (.deflate l wrap) s = .next (report (some .capacityExceeded) s) := by
  subst hstream
  exact (complete_ok_bind (levelOperand_fits hl)).trans (complete_error_bind (appendOut_error.2 ⟨hcap, rfl⟩))

theorem exec_deflate_fits (hcap : s.out.length + stream.length ≤ s.params.maxStreamBytes) :
    exec (.deflate l wrap) s = complete s (do
      let n ← countWord stream.length
      .ok { s with out := s.out ++ stream, result := n }) := by
  subst hstream
  exact (complete_ok_bind (levelOperand_fits hl)).trans (complete_ok_bind (appendOut_ok.2 ⟨hcap, rfl⟩))

end

/-- Settles O39: the command's checks in their order, and at levels 1 to 9 the blocks of the body one by one. -/
theorem deflateCommand : Obligations.DeflateCommand := by
  refine ⟨by decide, fun l wrap s hl => complete_error_bind (levelOperand_error hl), ?_, fun p l => ⟨rfl, rfl⟩, ?_⟩
  · intro l wrap s stream hl hstream
    have hs : deflateStream s.params s.inp l.toNat wrap = stream := hstream.symm
    refine ⟨exec_deflate_capacity hl hs, fun hcap hfit => ?_, fun hcap hlong => ?_⟩
    · rw [exec_deflate_fits hl hs hcap, complete_ok_bind (countWord_fits hfit)]
      rfl
    · rw [exec_deflate_fits hl hs hcap, complete_error_bind (countWord_error hlong)]
  · rintro p data l c hdata h1 - rfl
    have hbody := streamBits_deflateBody p data l hdata
    rw [← compressedBits_eq p data (Nat.one_le_iff_ne_zero.1 h1)] at hbody
    exact ⟨_, Nat.mod_lt _ (by decide), hbody⟩

end Sys2Proof.Machine

/-! The bytes of the encoder's stream: the stored layout of level 0 (spec/44 R355, R360) and the size bound (R369). -/

namespace Sys2Proof.Machine

/-! ## The stored layout of level 0 (spec/44 R355, R360, R363) -/

theorem byteBits_inj {a b : Byte} (h : byteBits a = byteBits b) : a = b := by
  have ha := takeBits_bitsOf 8 a.toNat [] a.isLt
  rw [← byteBits_eq, h, byteBits_eq, takeBits_bitsOf 8 b.toNat [] b.isLt, Option.some.injEq, Prod.mk.injEq] at ha
  exact (BitVec.eq_of_toNat_eq ha.1).symm

/-- A byte sequence is known by its bits. -/
theorem streamBits_inj {a b : Bytes} (h : streamBits a = streamBits b) : a = b := by
  induction a generalizing b with
  | nil =>
    have hlen := congrArg List.length h
    rw [length_streamBits, length_streamBits, List.length_nil] at hlen
    exact (List.eq_nil_of_length_eq_zero (by omega)).symm
  | cons x a ih =>
    cases b with
    | nil => cases h
    | cons y b =>
      obtain ⟨hxy, hab⟩ := List.append_inj h rfl
      rw [byteBits_inj hxy, ih hab]

/-- The stored block of chunk `j` (spec/30 R122). -/
def storedChunk (data : Bytes) (j : Nat) : Bytes :=
  storedBlock ((data.drop (65535 * j)).take 65535) (decide (data.length ≤ 65535 * (j + 1)))

theorem slice_chunk (data : Bytes) (j : Nat) :
    slice data (65535 * j) (chunkEnd data.length j - 65535 * j) = (data.drop (65535 * j)).take 65535 := by
  have hmin : chunkEnd data.length j - 65535 * j = min 65535 (data.drop (65535 * j)).length := by
    rw [chunkEnd, List.length_drop]
    omega
  rw [slice, hmin, ← List.take_eq_take_min]

theorem chunkEnd_eq_iff (n j : Nat) : chunkEnd n j = n ↔ n ≤ 65535 * (j + 1) := min_eq_right_iff

theorem chunkBits_zero (p : Params) (data : Bytes) (j : Nat) {pos : Nat} (hpos : pos % 8 = 0) :
    chunkBits p data 0 (65535 * j) (chunkEnd data.length j) pos = streamBits (storedChunk data j) := by
  have hlen := length_slice (s := 65535 * j) (chunkEnd_le data.length j)
  rw [chunkBits, if_pos rfl, storedBits_eq (hlen.trans_le (chunkEnd_sub_le _ j)) _ hpos, slice_chunk, storedChunk]
  simp only [chunkEnd_eq_iff]

theorem bodyBits_zero (p : Params) (data : Bytes) (m : Nat) :
    bodyBits p data 0 m = streamBits ((List.range m).flatMap (storedChunk data)) := by
  induction m with
  | zero => rfl
  | succ m ih =>
    rw [bodyBits_succ, ih, chunkBits_zero p data m (by rw [length_streamBits]; exact Nat.mul_mod_right 8 _),
      ← streamBits_append, List.range_succ, List.flatMap_append, List.flatMap_singleton]

/-- Settles O40: at a byte boundary a stored block is whole bytes, so every block of the body begins at one. -/
theorem storedLayout : Obligations.StoredLayout := by
  intro p data hdata
  have hbody := streamBits_deflateBody p data 0 hdata
  have haligned : (8 - (bodyBits p data 0 (chunkCount data.length)).length % 8) % 8 = 0 := by
    rw [bodyBits_zero, length_streamBits, Nat.mul_mod_right]
  rw [haligned, List.replicate_zero, List.append_nil, bodyBits_zero] at hbody
  exact streamBits_inj hbody

/-! ## The size bound (spec/44 R369) -/

/-- How many bytes `n` bits begin. -/
def bytesOf (n : Nat) : Nat := (n + 7) / 8

/-- A stored block takes at most 5 bytes more than its chunk. -/
theorem bytesOf_storedBits (chunk : Bytes) (final : Bool) (pos : Nat) :
    bytesOf (pos + (storedBits chunk final pos).length) ≤ bytesOf pos + chunk.length + 5 := by
  simp only [storedBits, List.length_append, List.length_cons, List.length_nil, List.length_replicate, length_bitsOf,
    length_streamBits, bytesOf]
  omega

section
variable (p : Params) (data : Bytes) (level : Nat)

/-- A block that is not stored takes fewer bits than its chunk has. -/
theorem bytesOf_blockBits (c : LevelChoice) {s e : Nat} (he : e ≤ data.length) (pos : Nat) :
    bytesOf (pos + (blockBits c data s e pos).length) ≤ bytesOf pos + (e - s) + 5 := by
  have hstored := bytesOf_storedBits (slice data s (e - s)) (decide (e = data.length)) pos
  rw [length_slice he, storedBits, length_slice he] at hstored
  have hcompressed {a b c : Bool} {bits : List Bool} (h : 3 + bits.length < 8 * (e - s)) :
      bytesOf (pos + ([a, b, c] ++ bits).length) ≤ bytesOf pos + (e - s) + 5 := by
    rw [List.length_append, List.length_cons, List.length_cons, List.length_singleton, bytesOf, bytesOf]
    omega
  rw [blockBits]
  split_ifs with hbig hless
  · exact hstored
  · exact hcompressed (by omega)
  · exact hcompressed (by omega)

theorem bytesOf_chunkBits {s e : Nat} (he : e ≤ data.length) (pos : Nat) :
    bytesOf (pos + (chunkBits p data level s e pos).length) ≤ bytesOf pos + (e - s) + 5 := by
  rw [chunkBits]
  split
  · have hstored := bytesOf_storedBits (slice data s (e - s)) (decide (e = data.length)) pos
    rwa [length_slice he] at hstored
  · exact bytesOf_blockBits data (levelChoice p level) he pos

theorem bytesOf_bodyBits (m : Nat) (hm : 65535 * m ≤ data.length + 65534) :
    bytesOf (bodyBits p data level m).length ≤ min (65535 * m) data.length + 5 * m := by
  induction m with
  | zero => simp [bodyBits, bytesOf]
  | succ m ih =>
    have hprev := ih (by omega)
    have hstep := bytesOf_chunkBits p data level (s := 65535 * m) (chunkEnd_le data.length m)
      (bodyBits p data level m).length
    rw [bodyBits_succ, List.length_append]
    have hend : chunkEnd data.length m = min (65535 * (m + 1)) data.length := rfl
    omega

theorem length_deflateBody {data : Bytes} (hdata : data ≠ []) :
    (deflateBody p data level).length = bytesOf (bodyBits p data level (chunkCount data.length)).length := by
  have hlen := congrArg List.length (streamBits_deflateBody p data level hdata)
  rw [length_streamBits, List.length_append, List.length_replicate] at hlen
  rw [bytesOf]
  omega

end

/-- Settles O41: no block takes more than 5 bytes more than its chunk, wherever it begins. -/
theorem sizeBound : Obligations.SizeBound := by
  intro p data level hdata
  refine ⟨?_, ?_⟩
  · have hcount : 65535 * chunkCount data.length ≤ data.length + 65534 := Nat.mul_div_le _ _
    have hbound := bytesOf_bodyBits p data level _ hcount
    rw [← length_deflateBody p level hdata, chunkCount] at hbound
    rw [deflateStream, if_neg Bool.false_ne_true]
    omega
  · rw [deflateStream, deflateStream, if_pos rfl, if_neg Bool.false_ne_true]
    simp only [List.length_append, List.length_cons, List.length_nil, u32be]
    omega

end Sys2Proof.Machine

/-! The decoder on the bits of a block's body (spec/45 R406, R410 to R413): a stored chunk, and the symbol stream of
tokens, whose replay it is. -/

namespace Sys2Proof.Machine

/-! ## Whole bytes (spec/45 R406, R414) -/

theorem alignDecoder_padding (pos : Nat) (rest : List Bool) (rout : Bytes) :
    alignDecoder ⟨List.replicate ((8 - pos % 8) % 8) false ++ rest, pos, rout⟩ =
      ⟨rest, pos + (8 - pos % 8) % 8, rout⟩ := by
  rw [alignDecoder]
  simp only [List.drop_left' (List.length_replicate (a := false))]

theorem takeBytes_streamBits (bytes : Bytes) (rest : List Bool) :
    takeBytes bytes.length (streamBits bytes ++ rest) = some (bytes, rest) := by
  induction bytes with
  | nil => rfl
  | cons b bs ih =>
    rw [streamBits_cons, List.append_assoc, List.length_cons, takeBytes, byteBits_eq, takeBits_bitsOf 8 _ _ b.isLt]
    dsimp only
    rw [ih]
    dsimp only
    rw [BitVec.ofNat_toNat, BitVec.setWidth_eq]

/-- A stored body after its 3 header bits: its chunk is the output. -/
theorem decodeStored_bits {chunk : Bytes} (h : chunk.length ≤ 65535) (pos : Nat) (rest : List Bool) (rout : Bytes) :
    decodeStored ⟨List.replicate ((8 - pos % 8) % 8) false ++ (bitsOf 16 chunk.length ++
        (bitsOf 16 (65535 - chunk.length) ++ (streamBits chunk ++ rest))), pos, rout⟩ =
      .ok ⟨rest, pos + (8 - pos % 8) % 8 + 16 + 16 + 8 * chunk.length, chunk.reverse ++ rout⟩ := by
  have hnlen : chunk.length = (65535 - chunk.length) ^^^ 0xFFFF := by
    rw [xor_eq_sub (Nat.sub_le _ _), Nat.sub_sub_self h]
  rw [decodeStored, alignDecoder_padding, needRead_bits (Nat.lt_succ_of_le h) rfl]
  dsimp only [bind, Except.bind]
  rw [needRead_bits (v := 65535 - chunk.length) (by omega) rfl]
  dsimp only
  rw [demand, if_pos hnlen]
  dsimp only
  rw [takeBytes_streamBits]

/-! ## Symbols (spec/42 R274) -/

/-- Bits that begin an input decode to a symbol, which takes just them. -/
structure Decodes (codes : List Code) (sym : Nat) (bits : List Bool) : Prop where
  ne_nil : bits ≠ []
  eq_ok : ∀ rest, decodeSymbol codes (bits ++ rest) = .ok (sym, bits.length, rest)

theorem decodes_codeBits {lengths : List Nat} {sym : Nat} (hlegal : LegalTable lengths)
    (hused : lengths.getD sym 0 ≠ 0) : Decodes (tableCodes lengths) sym (codeBits lengths sym) := by
  have hs : sym < lengths.length := by
    by_contra hge
    exact hused (List.getD_eq_default _ _ (Nat.not_lt.1 hge))
  refine ⟨fun hnil => hused ?_, fun rest => ?_⟩
  · rw [← length_codeBits, hnil, List.length_nil]
  · rw [symbolDecodes lengths sym rest hlegal hs hused, length_codeBits]

theorem needSymbol_bits {ph : Phase} {codes : List Code} {sym : Nat} {bits : List Bool} (h : Decodes codes sym bits)
    (rest : List Bool) (pos : Nat) (rout : Bytes) :
    needSymbol ph codes ⟨bits ++ rest, pos, rout⟩ = .ok (sym, ⟨rest, pos + bits.length, rout⟩) :=
  needSymbol_ok (h.eq_ok rest)

/-! ## Matches (spec/45 R412, R413) -/

/-- The decoder keeps its output latest byte first. -/
theorem copyBack_reverse {d : Nat} (k : Nat) {out : Bytes} (h1 : 1 ≤ d) (hd : d ≤ out.length) :
    copyBack d k out.reverse = (repeatBack d k out).reverse := by
  induction k generalizing out with
  | zero => rfl
  | succ k ih =>
    have hbyte : out.reverse.getD (d - 1) 0 = byteAt out (out.length - d) := by
      rw [byteAt, List.getD_eq_getElem _ _ (by rw [List.length_reverse]; omega), List.getElem_reverse,
        List.getD_eq_getElem _ _ (by omega)]
      congr 1
      omega
    rw [copyBack, repeatBack, hbyte, ← List.reverse_concat, ih]
    rw [List.length_append]
    omega

theorem lengthRow_eq {sym : Nat} (hge : 257 ≤ sym) (hle : sym ≤ 285) :
    lengthRow sym = (lengthBases.getD (sym - 257) 0, lengthExtras.getD (sym - 257) 0) := by
  have hrow := (lengthRow_table (sym - 257) (by omega)).1
  rwa [Nat.add_sub_cancel' hge] at hrow

theorem distRow_eq {c : Nat} (h : c < 30) : distRow c = (distBases.getD c 0, distExtras.getD c 0) :=
  (distRow_table c h).1

/-- The bits of a match behind its length symbol. -/
theorem decodeMatch_bits {dt : List Code} {sym c k d : Nat} {code : List Bool} (hge : 257 ≤ sym) (hle : sym ≤ 285)
    (hk : InRow (lengthRow sym) k) (hc : c < 30) (hd : InRow (distRow c) d) (hcode : Decodes dt c code)
    (rest : List Bool) (pos : Nat) {rout : Bytes} (hback : d ≤ rout.length) :
    decodeMatch sym dt ⟨bitsOf (lengthRow sym).2 (k - (lengthRow sym).1) ++
        (code ++ (bitsOf (distRow c).2 (d - (distRow c).1) ++ rest)), pos, rout⟩ =
      .ok ⟨rest, pos + (lengthRow sym).2 + code.length + (distRow c).2, copyBack d k rout⟩ := by
  rw [lengthRow_eq hge hle] at hk ⊢
  rw [distRow_eq hc] at hd ⊢
  obtain ⟨hk1, hk2⟩ := hk
  obtain ⟨hd1, hd2⟩ := hd
  dsimp only at hk1 hk2 hd1 hd2 ⊢
  rw [decodeMatch, demand_bind, if_pos hle, needRead_bits (by omega) rfl]
  dsimp only [bind, Except.bind]
  rw [needSymbol_bits hcode]
  dsimp only
  rw [demand, if_pos (Nat.le_of_lt_succ hc)]
  dsimp only
  rw [needRead_bits (by omega) rfl]
  dsimp only
  rw [Nat.add_sub_cancel' hd1, Nat.add_sub_cancel' hk1, demand, if_pos hback]

theorem replay_cons {out after : Bytes} {x : LZSymbol} {tokens : List LZSymbol}
    (h : replay out (x :: tokens) = some after) :
    ∃ mid, replay out [x] = some mid ∧ replay mid tokens = some after := by
  cases x with
  | literal b => exact ⟨_, rfl, h⟩
  | copy k d =>
    rw [replay] at h
    split at h
    · rename_i hback
      exact ⟨_, if_pos hback, h⟩
    · cases h

section
variable {lt dt : List Code} {ll dl : List Nat}

/-- The bits of one token are the token replayed. -/
theorem decodeSymbols_token {x : LZSymbol} (hx : legalToken x = true)
    (hlit : Decodes lt (litSymbol x) (codeBits ll (litSymbol x)))
    (hdist : ∀ c ∈ distSymbols x, Decodes dt c (codeBits dl c)) {out mid : Bytes} (hreplay : replay out [x] = some mid)
    (fuel : Nat) (rest : List Bool) (pos : Nat) :
    decodeSymbols lt dt (fuel + 1) ⟨tokenBits ll dl x ++ rest, pos, out.reverse⟩ =
      decodeSymbols lt dt fuel ⟨rest, pos + (tokenBits ll dl x).length, mid.reverse⟩ := by
  cases x with
  | literal b =>
    obtain rfl : out ++ [b] = mid := Option.some.inj hreplay
    have hlt : b.toNat < 256 := b.isLt
    have hlit : Decodes lt b.toNat (codeBits ll b.toNat) := hlit
    rw [tokenBits, decodeSymbols, needSymbol_bits hlit]
    dsimp only [bind, Except.bind]
    rw [if_pos hlt, BitVec.ofNat_toNat, BitVec.setWidth_eq, List.reverse_concat]
    rfl
  | copy k d =>
    have hlen := isLengthCode_of_legalToken hx
    have hdis := isDistCode_of_legalToken hx
    obtain ⟨⟨h1, hback⟩, hmid⟩ := Option.ite_none_right_eq_some.1 hreplay
    obtain rfl : repeatBack d k out = mid := Option.some.inj hmid
    have hge := hlen.ge
    have hlit : Decodes lt (lenCode k).code (codeBits ll (lenCode k).code) := hlit
    have hdist : Decodes dt (distCode d).code (codeBits dl (distCode d).code) := hdist _ (List.mem_singleton_self _)
    rw [tokenBits, lengthSymbol_of_legalToken hx, distSymbol_of_legalToken hx, List.append_assoc,
      List.append_assoc, List.append_assoc, decodeSymbols, needSymbol_bits hlit]
    dsimp only [bind, Except.bind]
    rw [if_neg (by omega), if_neg (by omega),
      decodeMatch_bits hge hlen.le hlen.inRow hdis.lt hdis.inRow hdist _ _ (by rwa [List.length_reverse])]
    dsimp only
    rw [copyBack_reverse k h1 hback]
    simp only [List.length_append, length_bitsOf, Nat.add_assoc]

/-- The symbol stream of tokens is the tokens replayed. -/
theorem decodeSymbols_stream {tokens : List LZSymbol} (hlegal : ∀ x ∈ tokens, legalToken x = true)
    (hlit : ∀ sym ∈ tokens.map litSymbol ++ [256], Decodes lt sym (codeBits ll sym))
    (hdist : ∀ c ∈ tokens.flatMap distSymbols, Decodes dt c (codeBits dl c))
    {out after : Bytes} (hreplay : replay out tokens = some after) {fuel : Nat} (hfuel : tokens.length < fuel)
    (rest : List Bool) (pos : Nat) :
    decodeSymbols lt dt fuel ⟨symbolStream tokens ll dl ++ rest, pos, out.reverse⟩ =
      .ok ⟨rest, pos + (symbolStream tokens ll dl).length, after.reverse⟩ := by
  obtain ⟨fuel, rfl⟩ := Nat.exists_eq_add_of_lt hfuel
  induction tokens generalizing out pos with
  | nil =>
    have hend : Decodes lt 256 (codeBits ll 256) := hlit 256 (List.mem_singleton_self _)
    have hstream : symbolStream [] ll dl = codeBits ll 256 := rfl
    obtain rfl : out = after := Option.some.inj hreplay
    rw [hstream, decodeSymbols, needSymbol_bits hend]
    rfl
  | cons x tokens ih =>
    obtain ⟨hx, htokens⟩ := List.forall_mem_cons.1 hlegal
    rw [List.map_cons, List.cons_append] at hlit
    obtain ⟨hxlit, hlits⟩ := List.forall_mem_cons.1 hlit
    rw [List.flatMap_cons] at hdist
    obtain ⟨hxdist, hdists⟩ := List.forall_mem_append.1 hdist
    obtain ⟨mid, hmid, hafter⟩ := replay_cons hreplay
    have hstream : symbolStream (x :: tokens) ll dl = tokenBits ll dl x ++ symbolStream tokens ll dl := by
      rw [symbolStream, List.flatMap_cons, List.append_assoc]
      rfl
    have hsucc : (x :: tokens).length + fuel + 1 = tokens.length + fuel + 1 + 1 := by
      rw [List.length_cons]
      omega
    rw [hstream, List.append_assoc, hsucc, decodeSymbols_token hx hxlit hxdist hmid,
      ih htokens hlits hdists hafter, List.length_append, Nat.add_assoc]
    omega

theorem one_le_length_tokenBits {x : LZSymbol} (hx : legalToken x = true)
    (hlit : Decodes lt (litSymbol x) (codeBits ll (litSymbol x))) : 1 ≤ (tokenBits ll dl x).length := by
  have hpos := List.length_pos_iff.2 hlit.ne_nil
  rw [length_codeBits] at hpos
  rw [← tokenCost_eq hx]
  cases x with
  | literal b => exact hpos
  | copy k d =>
    rw [litSymbol] at hpos
    rw [tokenCost]
    omega

/-- There is a bit for each token at least. -/
theorem length_le_symbolStream {tokens : List LZSymbol} (hlegal : ∀ x ∈ tokens, legalToken x = true)
    (hlit : ∀ sym ∈ tokens.map litSymbol ++ [256], Decodes lt sym (codeBits ll sym)) :
    tokens.length ≤ (symbolStream tokens ll dl).length := by
  have hsum := List.length_le_sum_of_one_le (tokens.map fun x => (tokenBits ll dl x).length) <|
    List.forall_mem_map.2 fun x hx =>
      one_le_length_tokenBits (hlegal x hx) (hlit _ (List.mem_append_left _ (List.mem_map_of_mem hx)))
  rw [List.length_map] at hsum
  rw [symbolStream, List.length_append, List.length_flatMap]
  omega

end

end Sys2Proof.Machine

/-! The decoder on the header of a dynamic block (spec/45 R408): it builds the tables the encoder coded with, cut off
behind their last used symbol. -/

namespace Sys2Proof.Machine

/-! ## Tables without their unused end (spec/42 R303) -/

section
variable {lengths : List Nat} {n : Nat} (hn : usedCount lengths ≤ n)
include hn

/-- The lengths cut off are zeros. -/
theorem take_append_zeros : lengths.take n ++ List.replicate (lengths.length - n) 0 = lengths := by
  rw [← drop_eq_replicate_zero hn, List.take_append_drop]

theorem getD_take_usedCount (sym : Nat) : (lengths.take n).getD sym 0 = lengths.getD sym 0 := by
  conv_rhs => rw [← take_append_zeros hn]
  obtain hlt | hge := Nat.lt_or_ge sym (lengths.take n).length
  · rw [List.getD_append _ _ _ _ hlt]
  · rw [List.getD_eq_default _ _ hge, List.getD_append_right _ _ _ _ hge]
    simp [List.getD_eq_getElem?_getD]

theorem firstCode_take (l : Nat) : firstCode (lengths.take n) l = firstCode lengths l := by
  induction l with
  | zero => rfl
  | succ l ih =>
    rw [firstCode, firstCode, ih]
    by_cases hl : l = 0
    · rw [if_pos hl, if_pos hl]
    · have hcount : lengthCount (lengths.take n) l = lengthCount lengths l := by
        conv_rhs => rw [← take_append_zeros hn]
        rw [lengthCount, lengthCount, List.count_append, List.count_replicate, if_neg (by simpa using Ne.symm hl),
          Nat.add_zero]
      rw [if_neg hl, if_neg hl, hcount]

theorem legalTable_take (hlegal : LegalTable lengths) : LegalTable (lengths.take n) := by
  obtain ⟨h15, hkraft⟩ := hlegal
  refine ⟨fun l hl => h15 l (List.mem_of_mem_take hl), ?_⟩
  rw [← take_append_zeros hn] at hkraft
  simpa [kraftSum] using hkraft

/-- A used symbol keeps its code. -/
theorem codeBits_take (h15 : ∀ l ∈ lengths, l ≤ 15) {sym : Nat} (hused : lengths.getD sym 0 ≠ 0) :
    codeBits (lengths.take n) sym = codeBits lengths sym := by
  have hget := getD_take_usedCount hn sym
  have hlt : sym < (lengths.take n).length := by
    by_contra hge
    rw [List.getD_eq_default _ _ (Nat.not_lt.1 hge)] at hget
    exact hused hget.symm
  have hlt' := hlt
  rw [List.length_take] at hlt'
  have hcode : (canonicalCodes (lengths.take n)).getD sym 0 = (canonicalCodes lengths).getD sym 0 := by
    rw [canonicalCodes_getD (fun l hl => h15 l (List.mem_of_mem_take hl)) hlt (hget ▸ hused),
      canonicalCodes_getD h15 (by omega) hused, hget, firstCode_take hn, List.take_take, Nat.min_eq_left (by omega)]
  rw [codeBits, codeBits, hget, hcode]

theorem decodes_take (hlegal : LegalTable lengths) {sym : Nat} (hused : lengths.getD sym 0 ≠ 0) :
    Decodes (tableCodes (lengths.take n)) sym (codeBits lengths sym) := by
  rw [← codeBits_take hn hlegal.1 hused]
  exact decodes_codeBits (legalTable_take hn hlegal) ((getD_take_usedCount hn sym).trans_ne hused)

end

theorem buildCodes_ok {lengths : List Nat} (h : LegalTable lengths) :
    buildCodes lengths = .ok (tableCodes lengths) := by
  rw [buildCodes, (validateLengths_ok (u := ())).2 h]

/-! ## The code-length code (spec/30 R139) -/

theorem clenOrder_idxOf : ∀ sym < 19, clenOrder.idxOf sym < 19 ∧ clenOrder.getD (clenOrder.idxOf sym) 0 = sym := by
  decide

/-- The values sent make the table they were taken from. -/
theorem clenTable_orderedClens {p : DynamicPlan} (hlen : p.clenLengths.length = 19) {n : Nat}
    (hn : usedCount (orderedClens p) ≤ n) : clenTable ((orderedClens p).take n) = p.clenLengths := by
  refine List.ext_getElem (by rw [hlen]; simp [clenTable]) fun sym h1 h2 => ?_
  have hsym : sym < 19 := hlen ▸ h2
  obtain ⟨hidx, hget⟩ := clenOrder_idxOf sym hsym
  have hvalue : (clenTable ((orderedClens p).take n))[sym] =
      ((orderedClens p).take n).getD (clenOrder.idxOf sym) 0 := by
    simp only [clenTable, List.getElem_map, List.getElem_range]
    rfl
  have hidx' : clenOrder.idxOf sym < clenOrder.length := hidx
  rw [List.getD_eq_getElem _ _ hidx'] at hget
  refine hvalue.trans ?_
  rw [getD_take_usedCount hn, orderedClens, List.getD_eq_getElem _ _ (by rwa [List.length_map]),
    List.getElem_map, hget, List.getD_eq_getElem _ _ h2]

/-! ## The coded lengths (spec/45 R408) -/

theorem Expands.length_le {seq out : List Nat} {es : List ClenSymbol} (h : Expands seq es out) :
    seq.length ≤ out.length := by
  induction h with
  | nil => exact le_rfl
  | plain _ _ ih => exact (Nat.le_succ _).trans (by simpa using ih)
  | rep _ _ _ ih =>
    rw [List.length_append] at ih
    omega

/-- A repeat adds the lengths that it stands for. -/
theorem clenValues_rep {seq : List Nat} {sym width extra count len : Nat}
    (hrep : IsRepeat seq sym width extra count len) (hx : extra < 2 ^ width)
    (rest : List Bool) (pos : Nat) (rout : Bytes) :
    clenValues sym seq ⟨bitsOf width extra ++ rest, pos, rout⟩ =
      .ok (List.replicate count len, ⟨rest, pos + width, rout⟩) := by
  obtain ⟨rfl, rfl, rfl, hlast⟩ | ⟨rfl, rfl, rfl, rfl⟩ | ⟨rfl, rfl, rfl, rfl⟩ := hrep
  · rw [clenValues, if_neg (by decide), if_pos rfl, hlast]
    dsimp only
    rw [needRead_bits hx rfl]
    rfl
  · rw [clenValues, if_neg (by decide), if_neg (by decide), if_pos rfl, needRead_bits hx rfl]
    rfl
  · rw [clenValues, if_neg (by decide), if_neg (by decide), if_neg (by decide), needRead_bits hx rfl]
    rfl

section
variable {ct : List Code} {cl seq vs : List Nat} {total : Nat}

/-- One code-length symbol whose lengths still fit. -/
theorem readLengths_step {e : ClenSymbol} (hcode : Decodes ct e.sym (codeBits cl e.sym))
    (hvalues : ∀ rest pos rout, clenValues e.sym seq ⟨bitsOf e.extraBits e.extra ++ rest, pos, rout⟩ =
      .ok (vs, ⟨rest, pos + e.extraBits, rout⟩))
    (hlt : seq.length < total) (hle : (seq ++ vs).length ≤ total) (fuel : Nat) (rest : List Bool) (pos : Nat)
    (rout : Bytes) :
    readLengths ct total (fuel + 1) seq ⟨clenBits cl e ++ rest, pos, rout⟩ =
      readLengths ct total fuel (seq ++ vs) ⟨rest, pos + (clenBits cl e).length, rout⟩ := by
  rw [clenBits, List.append_assoc, readLengths, if_neg (Nat.not_le.2 hlt), needSymbol_bits hcode]
  dsimp only [bind, Except.bind]
  rw [hvalues]
  dsimp only
  rw [demand, if_pos hle, List.length_append, length_bitsOf, Nat.add_assoc]

/-- The code-length symbols are read as the lengths they stand for. -/
theorem readLengths_expands {es : List ClenSymbol} {out : List Nat} (h : Expands seq es out)
    (hcode : ∀ e ∈ es, Decodes ct e.sym (codeBits cl e.sym)) {fuel : Nat} (hfuel : out.length ≤ seq.length + fuel)
    (rest : List Bool) (pos : Nat) (rout : Bytes) :
    readLengths ct out.length fuel seq ⟨es.flatMap (clenBits cl) ++ rest, pos, rout⟩ =
      .ok (out, ⟨rest, pos + (es.flatMap (clenBits cl)).length, rout⟩) := by
  induction h generalizing fuel pos with
  | nil seq =>
    cases fuel with
    | zero => rfl
    | succ fuel => exact if_pos le_rfl
  | @plain seq out v es hv hrest ih =>
    obtain ⟨he, hes⟩ := List.forall_mem_cons.1 hcode
    have hle := hrest.length_le
    have hlen : (seq ++ [v]).length = seq.length + 1 := List.length_append
    have hvalues (rest : List Bool) (pos : Nat) (rout : Bytes) :
        clenValues v seq ⟨bitsOf 0 0 ++ rest, pos, rout⟩ = .ok ([v], ⟨rest, pos + 0, rout⟩) := if_pos hv
    obtain ⟨fuel, rfl⟩ : ∃ f, fuel = f + 1 := Nat.exists_eq_add_of_le' (by omega)
    rw [List.flatMap_cons, List.append_assoc, readLengths_step he hvalues (by omega) hle, ih hes (by omega),
      List.length_append, Nat.add_assoc]
  | @rep seq out sym width extra count len es hrep hx hrest ih =>
    obtain ⟨he, hes⟩ := List.forall_mem_cons.1 hcode
    have hle := hrest.length_le
    have hcount : 1 ≤ count := by
      obtain ⟨-, -, rfl, -⟩ | ⟨-, -, rfl, -⟩ | ⟨-, -, rfl, -⟩ := hrep <;> omega
    have hlen : (seq ++ List.replicate count len).length = seq.length + count := by simp
    obtain ⟨fuel, rfl⟩ : ∃ f, fuel = f + 1 := Nat.exists_eq_add_of_le' (by omega)
    rw [List.flatMap_cons, List.append_assoc, readLengths_step he (clenValues_rep hrep hx) (by omega) hle,
      ih hes (by omega), List.length_append, Nat.add_assoc]

end

/-! ## The whole header -/

theorem readClens_orderedClens {p : DynamicPlan} (hlen : p.clenLengths.length = 19)
    (hmax : ∀ l ∈ p.clenLengths, l ≤ 7) {n : Nat} (hused : usedCount (orderedClens p) ≤ n) (hn : n ≤ 19)
    (rest : List Bool) (pos : Nat) (rout : Bytes) :
    readClens (clenOrder.take n) (List.replicate 19 0)
        ⟨((orderedClens p).take n).flatMap (bitsOf 3) ++ rest, pos, rout⟩ =
      .ok (p.clenLengths, ⟨rest, pos + 3 * n, rout⟩) := by
  have hvalues : ((orderedClens p).take n).length = n := by
    rw [List.length_take, length_orderedClens, Nat.min_eq_left hn]
  have horder : (clenOrder.take n).length = n := List.length_take_of_le hn
  have hlt : ∀ v ∈ (orderedClens p).take n, v < 8 := fun v hv => by
    obtain ⟨s, -, rfl⟩ := List.mem_map.1 (List.mem_of_mem_take hv)
    exact Nat.lt_succ_of_le (getD_le_of_forall hmax s)
  have hplaced := placed_clens (hvalues.trans_le hn)
  rw [hvalues, clenTable_orderedClens hlen hused] at hplaced
  rw [readClens_ok (hvalues.trans horder.symm) hlt rfl, hplaced, horder]

section
variable (b : CodeLengthBuilder) (tokens : List LZSymbol)

/-- The symbols of the tokens, and the end of the block, have a code. -/
theorem litLengths_used (hlegal : ∀ x ∈ tokens, legalToken x = true) :
    ∀ sym ∈ tokens.map litSymbol ++ [256], (dynamicPlan b tokens).litLengths.getD sym 0 ≠ 0 := fun sym hsym =>
  (fits_litLengths b tokens).used sym (by rw [length_tally]; exact litSymbol_lt hlegal sym hsym)
    (tally_getD_ne_zero (litSymbol_lt hlegal sym hsym) hsym)

theorem distLengths_used (hlegal : ∀ x ∈ tokens, legalToken x = true) :
    ∀ c ∈ tokens.flatMap distSymbols, (dynamicPlan b tokens).distLengths.getD c 0 ≠ 0 := fun c hc =>
  (fits_distLengths b tokens).used c (by rw [length_tally]; exact distSymbol_lt hlegal c hc)
    (tally_getD_ne_zero (distSymbol_lt hlegal c hc) hc)

theorem clenLengths_used :
    ∀ e ∈ (dynamicPlan b tokens).symbols, (dynamicPlan b tokens).clenLengths.getD e.sym 0 ≠ 0 := by
  intro e he
  obtain ⟨hlt, -⟩ := (expands_symbols b tokens).mem e he
  exact (fits_clenLengths b tokens).used e.sym (by rwa [length_tally])
    (tally_getD_ne_zero hlt (List.mem_map_of_mem he))

/-- The decoder builds the tables that the encoder codes the tokens with. -/
theorem readTables_headerBits (hlegal : ∀ x ∈ tokens, legalToken x = true) (rest : List Bool) (pos : Nat)
    (rout : Bytes) :
    readTables ⟨headerBits (dynamicPlan b tokens) ++ rest, pos, rout⟩ =
      .ok ((tableCodes ((dynamicPlan b tokens).litLengths.take (dynamicPlan b tokens).nlit),
        tableCodes ((dynamicPlan b tokens).distLengths.take (dynamicPlan b tokens).ndist)),
        ⟨rest, pos + (headerBits (dynamicPlan b tokens)).length, rout⟩) := by
  obtain ⟨hlit1, hlit2⟩ := nlit_bounds b tokens
  obtain ⟨hdist1, hdist2⟩ := ndist_bounds b tokens
  obtain ⟨hclen1, hclen2⟩ := nclen_bounds b tokens
  have hlittake : ((dynamicPlan b tokens).litLengths.take (dynamicPlan b tokens).nlit).length = _ :=
    List.length_take_of_le (length_litLengths b tokens ▸ hlit2)
  have hdisttake : ((dynamicPlan b tokens).distLengths.take (dynamicPlan b tokens).ndist).length = _ :=
    List.length_take_of_le (length_distLengths b tokens ▸ hdist2)
  have hend := litLengths_used b tokens hlegal 256 (List.mem_append_right _ (List.mem_singleton_self _))
  have hcodes : ∀ e ∈ (dynamicPlan b tokens).symbols, Decodes (tableCodes (dynamicPlan b tokens).clenLengths) e.sym
      (codeBits (dynamicPlan b tokens).clenLengths e.sym) := fun e he =>
    decodes_codeBits (fits_clenLengths b tokens).legal (clenLengths_used b tokens e he)
  have hread := readLengths_expands (expands_symbols b tokens) hcodes (Nat.le_add_left _ _) rest
  rw [List.length_append, hlittake, hdisttake] at hread
  simp only [headerBits, List.append_assoc]
  rw [readTables, needRead_bits (by omega) rfl]
  dsimp only [bind, Except.bind]
  rw [needRead_bits (by omega) rfl]
  dsimp only
  rw [needRead_bits (by omega) rfl]
  dsimp only
  rw [Nat.sub_add_cancel hlit1, Nat.sub_add_cancel hdist1, Nat.sub_add_cancel hclen1, demand, if_pos ⟨hlit2, hdist2⟩]
  dsimp only
  rw [readClens_orderedClens (length_clenLengths b tokens) (fits_clenLengths b tokens).le_max
    (usedCount_le_nclen b tokens) hclen2]
  dsimp only
  rw [buildCodes_ok (fits_clenLengths b tokens).legal]
  dsimp only
  rw [hread]
  dsimp only
  rw [List.take_left' hlittake, List.drop_left' hlittake, getD_take_usedCount (usedCount_le_nlit b tokens),
    demand, if_pos hend]
  dsimp only
  rw [buildCodes_ok (legalTable_take (usedCount_le_nlit b tokens) (fits_litLengths b tokens).legal)]
  dsimp only
  rw [buildCodes_ok (legalTable_take (usedCount_le_ndist b tokens) (fits_distLengths b tokens).legal)]
  dsimp only
  simp only [List.length_append, length_bitsOf, length_flatMap_orderedClens _ hclen2, Nat.add_assoc]

end

end Sys2Proof.Machine

/-! The decoder on the encoder's stream (spec/44 R368): block by block it gives the chunks back, and it consumes every
byte. -/

namespace Sys2Proof.Machine

/-! ## The two fixed tables (spec/45 R407) -/

theorem legalTable_decoderDist : LegalTable decoderDistLengths := by decide

/-- Codes of 5 bits alone count up from 0. -/
theorem canonicalCodes_replicate_five {n c : Nat} (hc : c < n) :
    (canonicalCodes (List.replicate n 5)).getD c 0 = c := by
  have hget : (List.replicate n 5).getD c 0 = 5 := List.getD_replicate _ hc
  have hfirst : firstCode (List.replicate n 5) 5 = 0 := by
    simp [firstCode, lengthCount, List.count_replicate]
  have h15 : ∀ l ∈ List.replicate n 5, l ≤ 15 := fun l hl => by simp [(List.mem_replicate.1 hl).2]
  rw [canonicalCodes_getD h15 (by simpa using hc) (hget.trans_ne (by decide)), hget, hfirst, List.take_replicate,
    List.count_replicate_self]
  omega

/-- The decoder's 32 distance codes begin with the encoder's 30. -/
theorem codeBits_decoderDist {c : Nat} (hc : c < 30) :
    codeBits decoderDistLengths c = codeBits fixedDistLengths c := by
  have hc' : c < 32 := hc.trans (by decide)
  rw [codeBits, codeBits, decoderDistLengths, fixedDistLengths, canonicalCodes_replicate_five hc,
    canonicalCodes_replicate_five hc', List.getD_replicate _ hc, List.getD_replicate _ hc']

theorem fixedBits_eq (tokens : List LZSymbol) :
    fixedBits tokens = symbolStream tokens fixedLitLengths fixedDistLengths := rfl

theorem decodes_fixedLit {sym : Nat} (h : sym < 286) :
    Decodes (tableCodes fixedLitLengths) sym (codeBits fixedLitLengths sym) := by
  have hne : ∀ l ∈ fixedLitLengths, l ≠ 0 := fun l hl => by
    simp only [fixedLitLengths, List.mem_append, List.mem_replicate] at hl
    omega
  have hlt : sym < fixedLitLengths.length := by
    simp only [fixedLitLengths, List.length_append, List.length_replicate]
    omega
  refine decodes_codeBits (legalTable_of_slotOk slotOk_fixedLit) ?_
  rw [List.getD_eq_getElem _ _ hlt]
  exact hne _ (List.getElem_mem hlt)

theorem decodes_fixedDist {c : Nat} (h : c < 30) :
    Decodes (tableCodes decoderDistLengths) c (codeBits fixedDistLengths c) := by
  have hused : decoderDistLengths.getD c 0 = 5 := List.getD_replicate _ (h.trans (by decide))
  rw [← codeBits_decoderDist h]
  exact decodes_codeBits legalTable_decoderDist (hused.trans_ne (by decide))

/-! ## Bodies of blocks (spec/45 R400) -/

section
variable {tokens : List LZSymbol} (hlegal : ∀ x ∈ tokens, legalToken x = true) {out after : Bytes}
  (hreplay : replay out tokens = some after) (rest : List Bool) (pos : Nat)
include hlegal hreplay

theorem decodeBody_fixedBits :
    decodeBody 1 ⟨fixedBits tokens ++ rest, pos, out.reverse⟩ =
      .ok ⟨rest, pos + (fixedBits tokens).length, after.reverse⟩ := by
  have hlit : ∀ sym ∈ tokens.map litSymbol ++ [256],
      Decodes (tableCodes fixedLitLengths) sym (codeBits fixedLitLengths sym) :=
    fun sym hsym => decodes_fixedLit (litSymbol_lt hlegal sym hsym)
  have hdist : ∀ c ∈ tokens.flatMap distSymbols,
      Decodes (tableCodes decoderDistLengths) c (codeBits fixedDistLengths c) :=
    fun c hc => decodes_fixedDist (distSymbol_lt hlegal c hc)
  have hlen := length_le_symbolStream (dl := fixedDistLengths) hlegal hlit
  rw [fixedBits_eq, decodeBody, if_neg (by decide), if_pos rfl]
  refine decodeSymbols_stream hlegal hlit hdist hreplay ?_ rest pos
  rw [List.length_append]
  omega

theorem decodeBody_dynamicBits (b : CodeLengthBuilder) :
    decodeBody 2 ⟨dynamicBits (chooseLengths b) tokens ++ rest, pos, out.reverse⟩ =
      .ok ⟨rest, pos + (dynamicBits (chooseLengths b) tokens).length, after.reverse⟩ := by
  have hlit : ∀ sym ∈ tokens.map litSymbol ++ [256], Decodes
      (tableCodes ((dynamicPlan b tokens).litLengths.take (dynamicPlan b tokens).nlit)) sym
      (codeBits (dynamicPlan b tokens).litLengths sym) := fun sym hsym =>
    decodes_take (usedCount_le_nlit b tokens) (fits_litLengths b tokens).legal
      (litLengths_used b tokens hlegal sym hsym)
  have hdist : ∀ c ∈ tokens.flatMap distSymbols, Decodes
      (tableCodes ((dynamicPlan b tokens).distLengths.take (dynamicPlan b tokens).ndist)) c
      (codeBits (dynamicPlan b tokens).distLengths c) := fun c hc =>
    decodes_take (usedCount_le_ndist b tokens) (fits_distLengths b tokens).legal (distLengths_used b tokens hlegal c hc)
  have hlen := length_le_symbolStream (dl := (dynamicPlan b tokens).distLengths) hlegal hlit
  rw [dynamicBits_eq b tokens hlegal, List.append_assoc, decodeBody, if_neg (by decide), if_neg (by decide), if_pos rfl,
    readTables_headerBits b tokens hlegal]
  dsimp only [bind, Except.bind]
  rw [decodeSymbols_stream hlegal hlit hdist hreplay (by rw [List.length_append]; omega), List.length_append,
    Nat.add_assoc]

end

/-! ## One block (spec/45 R400, R405) -/

/-- The three header bits, and a body that decodes. -/
theorem decodeBlocks_cons {final b0 b1 : Bool} {btype : Nat} (hbits : bitsOf 2 btype = [b0, b1]) (hlt : btype < 4)
    {body : List Bool} {pos : Nat} {rout : Bytes} {d : Decoder} (fuel : Nat)
    (hbody : decodeBody btype ⟨body, pos + 3, rout⟩ = .ok d) :
    decodeBlocks (fuel + 1) ⟨[final, b0, b1] ++ body, pos, rout⟩ = if final then .ok d else decodeBlocks fuel d := by
  have hheader : [final, b0, b1] ++ body = bitsOf 1 final.toNat ++ (bitsOf 2 btype ++ body) := by
    rw [hbits]
    cases final <;> rfl
  rw [hheader, decodeBlocks, needRead_bits final.toNat_lt rfl]
  dsimp only [bind, Except.bind]
  rw [needRead_bits hlt rfl]
  dsimp only
  rw [Nat.add_assoc, hbody]
  cases final <;> rfl

/-- At a position, the block loop takes the bits for one block, which makes `after` of the output `before`. -/
def DecodesBlock (bits : List Bool) (final : Bool) (pos : Nat) (before after : Bytes) : Prop :=
  ∀ (fuel : Nat) (rest : List Bool), decodeBlocks (fuel + 1) ⟨bits ++ rest, pos, before.reverse⟩ =
    if final then .ok ⟨rest, pos + bits.length, after.reverse⟩
    else decodeBlocks fuel ⟨rest, pos + bits.length, after.reverse⟩

theorem decodesBlock_of_body {final b0 b1 : Bool} {btype : Nat} (hbits : bitsOf 2 btype = [b0, b1]) (hlt : btype < 4)
    {body : List Bool} {before after : Bytes} (hbody : ∀ rest pos,
      decodeBody btype ⟨body ++ rest, pos, before.reverse⟩ = .ok ⟨rest, pos + body.length, after.reverse⟩) (pos : Nat) :
    DecodesBlock ([final, b0, b1] ++ body) final pos before after := by
  intro fuel rest
  have hlen : pos + ([final, b0, b1] ++ body).length = pos + 3 + body.length := by
    rw [List.length_append, Nat.add_assoc]
    rfl
  rw [List.append_assoc, decodeBlocks_cons hbits hlt fuel (hbody rest (pos + 3)), hlen]

theorem decodesBlock_storedBits {chunk : Bytes} (h : chunk.length ≤ 65535) (final : Bool) (pos : Nat) (before : Bytes) :
    DecodesBlock (storedBits chunk final pos) final pos before (before ++ chunk) := by
  intro fuel rest
  have hpos : pos + (storedBits chunk final pos).length =
      pos + 3 + (8 - (pos + 3) % 8) % 8 + 16 + 16 + 8 * chunk.length := by
    simp only [storedBits, List.length_append, List.length_cons, List.length_nil, List.length_replicate, length_bitsOf,
      length_streamBits]
    omega
  rw [hpos, storedBits, List.reverse_append]
  simp only [List.append_assoc]
  exact decodeBlocks_cons (btype := 0) rfl (by decide) fuel (decodeStored_bits h (pos + 3) rest before.reverse)

theorem take_append_slice {data : Bytes} {s e : Nat} (hse : s ≤ e) :
    data.take s ++ slice data s (e - s) = data.take e := by
  rw [slice, ← List.take_add, Nat.add_sub_cancel' hse]

section
variable {data : Bytes} {s e : Nat} (hse : s ≤ e) (he : e ≤ data.length) (hlen : e - s ≤ 65535) (pos : Nat)
include hse he hlen

theorem decodesBlock_storedChunk (final : Bool) :
    DecodesBlock (storedBits (slice data s (e - s)) final pos) final pos (data.take s) (data.take e) := by
  rw [← take_append_slice hse]
  exact decodesBlock_storedBits ((length_slice he).trans_le hlen) final pos _

theorem decodesBlock_blockBits (c : LevelChoice) :
    DecodesBlock (blockBits c data s e pos) (decide (e = data.length)) pos (data.take s) (data.take e) := by
  have hlegal : ∀ x ∈ tokenize c.candidates data s e, legalToken x = true := tokenizeFrom_legal
  have hreplay : replay (data.take s) (tokenize c.candidates data s e) = some (data.take e) :=
    replay_tokenizeFrom c.candidates he hse le_rfl
  have hstored := decodesBlock_storedChunk hse he hlen pos (decide (e = data.length))
  rw [storedBits, length_slice he] at hstored
  rw [blockBits]
  split_ifs with hbig hless
  · exact hstored
  · exact decodesBlock_of_body (btype := 2) rfl (by decide)
      (fun rest pos => decodeBody_dynamicBits hlegal hreplay rest pos c.builder) pos
  · exact decodesBlock_of_body (btype := 1) rfl (by decide) (decodeBody_fixedBits hlegal hreplay) pos

/-- The block of a chunk appends the chunk to what was decoded before. -/
theorem decodesBlock_chunkBits (p : Params) (level : Nat) :
    DecodesBlock (chunkBits p data level s e pos) (decide (e = data.length)) pos (data.take s) (data.take e) := by
  rw [chunkBits]
  split
  · exact decodesBlock_storedChunk hse he hlen pos _
  · exact decodesBlock_blockBits hse he hlen pos (levelChoice p level)

end

/-! ## The body (spec/45 R400, R414) -/

theorem EmitsAt.congr_pos {fs : List Field} {f : Nat → List Bool} (h : EmitsAt fs f) {m n : Nat} (hmn : m % 8 = n % 8) :
    f m = f n := by
  rw [← h.bits_eq, ← h.bits_eq, fieldBits_congr fs hmn]

section
variable (p : Params) {data : Bytes} (level : Nat) {pos : Nat} (hpos : pos % 8 = 0)
include hpos

/-- Chunk `m` behind the blocks before it, in a stream that begins at a byte boundary. -/
theorem decodesBlock_chunk {m : Nat} (hm : 65535 * m ≤ data.length) :
    DecodesBlock
      (chunkBits p data level (65535 * m) (chunkEnd data.length m) (bodyBits p data level m).length)
      (decide (chunkEnd data.length m = data.length)) (pos + (bodyBits p data level m).length)
      (data.take (65535 * m)) (data.take (chunkEnd data.length m)) := by
  have hchunk := emitsAt_chunkFields p data level (chunkEnd_le data.length m) (chunkEnd_sub_le data.length m)
  rw [hchunk.congr_pos (n := pos + (bodyBits p data level m).length) (by omega)]
  exact decodesBlock_chunkBits (by rw [chunkEnd]; omega) (chunkEnd_le _ m) (chunkEnd_sub_le _ m) _ p level

/-- The blocks of the first chunks, when none of them is the last. -/
theorem decodeBlocks_bodyBits {m : Nat} (hm : 65535 * m < data.length) (fuel : Nat) (rest : List Bool) :
    decodeBlocks (fuel + m) ⟨bodyBits p data level m ++ rest, pos, []⟩ =
      decodeBlocks fuel ⟨rest, pos + (bodyBits p data level m).length, (data.take (65535 * m)).reverse⟩ := by
  induction m generalizing fuel rest with
  | zero => rfl
  | succ m ih =>
    have hend : chunkEnd data.length m = 65535 * (m + 1) := Nat.min_eq_left hm.le
    have hblock := decodesBlock_chunk p level hpos (data := data) (m := m) (by omega)
    rw [bodyBits_succ, List.append_assoc, ← Nat.add_assoc, Nat.add_right_comm, ih (by omega), hblock, hend,
      if_neg (by simpa using hm.ne), List.length_append, Nat.add_assoc]

/-- All blocks: the last one is final. -/
theorem decodeBlocks_allBits (hdata : data ≠ []) {fuel : Nat} (hfuel : chunkCount data.length ≤ fuel)
    (rest : List Bool) :
    decodeBlocks fuel ⟨bodyBits p data level (chunkCount data.length) ++ rest, pos, []⟩ =
      .ok ⟨rest, pos + (bodyBits p data level (chunkCount data.length)).length, data.reverse⟩ := by
  have hlen := List.length_pos_iff.2 hdata
  obtain ⟨m, hcount⟩ : ∃ m, chunkCount data.length = m + 1 := Nat.exists_eq_add_of_le' (by rw [chunkCount]; omega)
  have hbounds := hcount
  rw [chunkCount] at hbounds
  have hend : chunkEnd data.length m = data.length := Nat.min_eq_right (by omega)
  have hblock := decodesBlock_chunk p level hpos (data := data) (m := m) (by omega)
  rw [hcount] at hfuel ⊢
  obtain ⟨fuel, rfl⟩ := Nat.exists_eq_add_of_le' hfuel
  rw [bodyBits_succ, List.append_assoc, ← Nat.add_assoc, Nat.add_right_comm,
    decodeBlocks_bodyBits p level hpos (by omega), hblock, hend, if_pos (decide_eq_true rfl), List.take_length,
    List.length_append, Nat.add_assoc]

end

/-- Every block has its three header bits. -/
theorem le_length_bodyBits (p : Params) (data : Bytes) (level m : Nat) : m ≤ (bodyBits p data level m).length := by
  have hchunk (s e pos : Nat) : 1 ≤ (chunkBits p data level s e pos).length := by
    rw [chunkBits, blockBits]
    split_ifs <;> simp [storedBits]
  induction m with
  | zero => exact Nat.zero_le _
  | succ m ih =>
    have := hchunk (65535 * m) (chunkEnd data.length m) (bodyBits p data level m).length
    rw [bodyBits_succ, List.length_append]
    omega

theorem codeBits_endOfBlock : codeBits fixedLitLengths 256 = List.replicate 7 false := by
  have hcode : (canonicalCodes fixedLitLengths).getD 256 0 = 0 := by
    rw [canonicalCodes_fixedLitLengths]
    rfl
  rw [codeBits, hcode]
  rfl

theorem fixedBits_nil : fixedBits [] = List.replicate 7 false := by
  rw [fixedBits_eq, symbolStream, List.flatMap_nil, List.nil_append, codeBits_endOfBlock]

/-- The canonical empty stream (spec/44 R356): a fixed block of no tokens, and padding. -/
theorem streamBits_empty :
    streamBits [0x03, 0x00] = ([true, true, false] ++ List.replicate 7 false) ++ List.replicate 6 false := rfl

/-- The blocks of a whole body, and the padding behind them. -/
theorem decodeBlocks_deflateBody (p : Params) (data : Bytes) (level : Nat) {pos : Nat} (hpos : pos % 8 = 0) {fuel : Nat}
    (hfuel : 8 * (deflateBody p data level).length < fuel) (rest : List Bool) :
    ∃ d, decodeBlocks fuel ⟨streamBits (deflateBody p data level) ++ rest, pos, []⟩ = .ok d ∧
      alignDecoder d = ⟨rest, pos + 8 * (deflateBody p data level).length, data.reverse⟩ := by
  by_cases hdata : data = []
  · subst hdata
    have hbody : deflateBody p [] level = [0x03, 0x00] := if_pos rfl
    have hblock := decodesBlock_of_body (final := true) (btype := 1) rfl (by decide)
      (decodeBody_fixedBits (tokens := []) (out := []) (by simp) rfl) pos
    rw [fixedBits_nil] at hblock
    have hpad : (8 - (pos + 10) % 8) % 8 = 6 := by omega
    have halign := alignDecoder_padding (pos + 10) rest []
    rw [hpad] at halign
    rw [hbody] at hfuel ⊢
    obtain ⟨fuel, rfl⟩ := Nat.exists_eq_add_of_lt hfuel
    rw [streamBits_empty, List.append_assoc]
    exact ⟨_, hblock _ _, halign⟩
  · have hbits := streamBits_deflateBody p data level hdata
    have hcount := le_length_bodyBits p data level (chunkCount data.length)
    have hlen := congrArg List.length hbits
    rw [length_streamBits, List.length_append, List.length_replicate] at hlen
    have halign := alignDecoder_padding (pos + (bodyBits p data level (chunkCount data.length)).length) rest
      data.reverse
    have hmod : (pos + (bodyBits p data level (chunkCount data.length)).length) % 8 =
        (bodyBits p data level (chunkCount data.length)).length % 8 := by omega
    rw [hmod, Nat.add_assoc, ← hlen] at halign
    rw [hbits, List.append_assoc]
    exact ⟨_, decodeBlocks_allBits p level hpos hdata (by omega) _, halign⟩

/-! ## The stream (spec/45 R400, R421) -/

theorem inflate_of_ok {bytes : Bytes} {wrap : Bool} {d : Decoder}
    (h : decodeStream wrap ⟨streamBits bytes, 0, []⟩ = .ok d) :
    inflate bytes wrap = .done d.rout.reverse (d.pos / 8) := by
  rw [inflate, h]

theorem decodeTrailer_bits (pos : Nat) (rest : List Bool) (rout : Bytes) :
    decodeTrailer ⟨streamBits (u32be (adler32 1 rout.reverse)) ++ rest, pos, rout⟩ = .ok ⟨rest, pos + 32, rout⟩ := by
  have htake : takeBytes 4 (streamBits (u32be (adler32 1 rout.reverse)) ++ rest) =
      some (u32be (adler32 1 rout.reverse), rest) := takeBytes_streamBits (u32be (adler32 1 rout.reverse)) rest
  rw [decodeTrailer, htake]
  dsimp only
  rw [demand_bind, if_pos rfl]

section
variable (p : Params) (data : Bytes) (level : Nat)

theorem inflate_raw : inflate (deflateBody p data level) false = .done data (deflateBody p data level).length := by
  obtain ⟨d, hblocks, halign⟩ := decodeBlocks_deflateBody p data level (pos := 0) rfl
    (fuel := (streamBits (deflateBody p data level)).length + 1) (by rw [length_streamBits]; omega) []
  rw [List.append_nil] at hblocks
  rw [Nat.zero_add] at halign
  have hstream : decodeStream false ⟨streamBits (deflateBody p data level), 0, []⟩ =
      .ok ⟨[], 8 * (deflateBody p data level).length, data.reverse⟩ := by
    rw [decodeStream, if_neg Bool.false_ne_true]
    dsimp only [bind, Except.bind]
    rw [hblocks]
    dsimp only
    rw [if_neg Bool.false_ne_true, halign]
  rw [inflate_of_ok hstream, List.reverse_reverse, Nat.mul_div_cancel_left _ (by decide)]

theorem inflate_zlib : inflate ([0x78, 0x9C] ++ deflateBody p data level ++ u32be (adler32 1 data)) true =
    .done data ([0x78, 0x9C] ++ deflateBody p data level ++ u32be (adler32 1 data)).length := by
  have htrailer := decodeTrailer_bits (16 + 8 * (deflateBody p data level).length) [] data.reverse
  rw [List.reverse_reverse, List.append_nil] at htrailer
  obtain ⟨d, hblocks, halign⟩ := decodeBlocks_deflateBody p data level (pos := 16) rfl
    (fuel := (streamBits (deflateBody p data level) ++ streamBits (u32be (adler32 1 data))).length + 1)
    (by rw [List.length_append, length_streamBits]; omega) (streamBits (u32be (adler32 1 data)))
  have hstream : decodeStream true
      ⟨streamBits ([0x78, 0x9C] ++ deflateBody p data level ++ u32be (adler32 1 data)), 0, []⟩ =
        .ok ⟨[], 16 + 8 * (deflateBody p data level).length + 32, data.reverse⟩ := by
    rw [streamBits_append, streamBits_append, List.append_assoc, decodeStream, if_pos rfl, decodeZlibHeader_default]
    dsimp only [bind, Except.bind]
    rw [hblocks]
    dsimp only
    rw [if_pos rfl, halign, htrailer]
  have hlen : (16 + 8 * (deflateBody p data level).length + 32) / 8 =
      ([0x78, 0x9C] ++ deflateBody p data level ++ u32be (adler32 1 data)).length := by
    rw [List.length_append, List.length_append, u32be]
    simp only [List.length_cons, List.length_nil]
    omega
  rw [inflate_of_ok hstream, List.reverse_reverse, hlen]

end

/-- Settles O42: the blocks give the chunks back, and the trailer is the checksum of what they give. -/
theorem roundTrip : Obligations.RoundTrip := by
  intro p data level wrap _
  cases wrap with
  | false =>
    rw [deflateStream, if_neg Bool.false_ne_true]
    exact inflate_raw p data level
  | true =>
    rw [deflateStream, if_pos rfl]
    exact inflate_zlib p data level

end Sys2Proof.Machine

/-! How the decoder reads (spec/45 R416): a read that finds its bits finds them in a longer stream too, and one that
runs out of bits has output nothing more. Everything the decoder does but for the zlib header is composed of such reads;
so it does the same in a longer stream, and a whole number of bytes further on. -/

namespace Sys2Proof.Machine

/-! ## Reads in a longer stream -/

theorem takeBytes_eq_some {n : Nat} {bytes : Bytes} {bits rest : List Bool} :
    takeBytes n bits = some (bytes, rest) ↔ bytes.length = n ∧ bits = streamBits bytes ++ rest := by
  refine ⟨fun h => ?_, fun ⟨hn, hb⟩ => hn ▸ hb ▸ takeBytes_streamBits bytes rest⟩
  induction n generalizing bits bytes with
  | zero =>
    cases h
    exact ⟨rfl, rfl⟩
  | succ n ih =>
    rw [takeBytes] at h
    split at h
    · cases h
    · rename_i v after hv
      obtain ⟨hlt, rfl⟩ := takeBits_eq_some.1 hv
      split at h
      · cases h
      · rename_i bs r hbs
        cases h
        obtain ⟨hlen, rfl⟩ := ih hbs
        refine ⟨congrArg Nat.succ hlen, ?_⟩
        rw [streamBits_cons, byteBits_eq, BitVec.toNat_ofNat, Nat.mod_eq_of_lt hlt, List.append_assoc]

theorem takeBytes_append {n : Nat} {bytes : Bytes} {bits rest : List Bool} (h : takeBytes n bits = some (bytes, rest))
    (x : List Bool) : takeBytes n (bits ++ x) = some (bytes, rest ++ x) := by
  obtain ⟨hn, rfl⟩ := takeBytes_eq_some.1 h
  exact takeBytes_eq_some.2 ⟨hn, List.append_assoc ..⟩

theorem takeBytes_eq_none {n : Nat} {bits : List Bool} : takeBytes n bits = none ↔ bits.length < 8 * n := by
  induction n generalizing bits with
  | zero => simp [takeBytes]
  | succ n ih =>
    rw [takeBytes]
    split
    · rename_i hv
      have := takeBits_eq_none.1 hv
      simp only [true_iff]
      omega
    · rename_i v after hv
      obtain ⟨-, rfl⟩ := takeBits_eq_some.1 hv
      rw [List.length_append, length_bitsOf]
      split
      · rename_i hbs
        have := ih.1 hbs
        simp only [true_iff]
        omega
      · rename_i bs r hbs
        obtain ⟨hlen, rfl⟩ := takeBytes_eq_some.1 hbs
        rw [List.length_append, length_streamBits]
        simp only [reduceCtorEq, false_iff]
        omega

section
variable {codes : List Code} {c l : Nat} {bits : List Bool}

/-- A symbol takes the bits it is decoded from. -/
theorem decodeFrom_append {sym used : Nat} {rest : List Bool}
    (h : decodeFrom codes c l bits = .ok (sym, used, rest)) : ∃ read, bits = read ++ rest ∧ used = l + read.length ∧
      ∀ x, decodeFrom codes c l (bits ++ x) = .ok (sym, used, rest ++ x) := by
  induction bits generalizing c l with
  | nil =>
    rw [decodeFrom] at h
    split at h
    · rename_i e he
      cases h
      exact ⟨[], rfl, rfl, fun x => by rw [decodeFrom.eq_def, he]⟩
    · split at h <;> cases h
  | cons b bits ih =>
    rw [decodeFrom] at h
    split at h
    · rename_i e he
      cases h
      exact ⟨[], rfl, rfl, fun x => by rw [decodeFrom.eq_def, he]⟩
    · rename_i hnone
      split at h
      · rename_i hstart
        obtain ⟨read, rfl, hused, happ⟩ := ih h
        refine ⟨b :: read, rfl, by rw [hused, List.length_cons]; omega, fun x => ?_⟩
        rw [List.cons_append, decodeFrom, hnone]
        exact (if_pos hstart).trans (happ x)
      · cases h

theorem decodeFrom_invalid_append (h : decodeFrom codes c l bits = .error .invalidSymbol) (x : List Bool) :
    decodeFrom codes c l (bits ++ x) = .error .invalidSymbol := by
  induction bits generalizing c l with
  | nil =>
    rw [decodeFrom] at h
    split at h
    · cases h
    · rename_i hnone
      split at h
      · cases h
      · rename_i hstart
        rw [decodeFrom.eq_def, hnone]
        exact if_neg hstart
  | cons b bits ih =>
    rw [decodeFrom] at h
    split at h
    · cases h
    · rename_i hnone
      rw [List.cons_append, decodeFrom, hnone]
      split at h
      · rename_i hstart
        exact (if_pos hstart).trans (ih h)
      · rename_i hstart
        exact if_neg hstart

end

/-! ## Decoders along one stream -/

/-- The decoder as it is in a longer stream, `k` bytes further on. -/
def Decoder.within (k : Nat) (more : Bytes) (d : Decoder) : Decoder :=
  ⟨d.bits ++ streamBits more, d.pos + 8 * k, d.rout⟩

/-- The stream holds whole bytes. -/
def Decoder.Whole (d : Decoder) : Prop := 8 ∣ d.pos + d.bits.length

/-- A decoder after some reads: bits consumed, output appended. -/
structure Decoder.Reaches (d t : Decoder) : Prop where
  bits : ∃ read, d.bits = read ++ t.bits ∧ t.pos = d.pos + read.length
  output : d.rout.reverse <+: t.rout.reverse

namespace Decoder

variable {d t u : Decoder} {k : Nat} {more : Bytes}

theorem Reaches.refl (d : Decoder) : d.Reaches d := ⟨⟨[], rfl, rfl⟩, List.prefix_rfl⟩

theorem Reaches.trans (h : d.Reaches t) (h' : t.Reaches u) : d.Reaches u := by
  obtain ⟨⟨a, ha, hpos⟩, hout⟩ := h
  obtain ⟨⟨b, hb, hpos'⟩, hout'⟩ := h'
  exact ⟨⟨a ++ b, by rw [ha, hb, List.append_assoc], by rw [hpos', hpos, List.length_append, Nat.add_assoc]⟩,
    hout.trans hout'⟩

theorem Reaches.pos_add_length (h : d.Reaches t) : t.pos + t.bits.length = d.pos + d.bits.length := by
  obtain ⟨⟨read, hbits, hpos⟩, -⟩ := h
  rw [hbits, hpos, List.length_append, Nat.add_assoc]

theorem Reaches.whole (h : d.Reaches t) (hd : d.Whole) : t.Whole := by
  rwa [Whole, h.pos_add_length]

theorem whole_within : (d.within k more).Whole ↔ d.Whole := by
  simp only [Whole, within, List.length_append, length_streamBits]
  omega

end Decoder

/-- How a result carries the decoder that reads on. -/
structure Carrier (α : Type) where
  decoder : α → Decoder
  map : (Decoder → Decoder) → α → α
  decoder_map : ∀ f a, decoder (map f a) = f (decoder a)

/-- A decoder alone. -/
def Carrier.alone : Carrier Decoder := ⟨id, fun f => f, fun _ _ => rfl⟩

/-- A decoder beside the value read. -/
def Carrier.beside (β : Type) : Carrier (β × Decoder) := ⟨Prod.snd, fun f => Prod.map id f, fun _ _ => rfl⟩

/-! ## What a read can do, and what it does in a longer stream -/

/-- A read ends at a decoder further on, or stops with the output so far, or fails. It waits in a phase other than
`Idle`, and does not raise the error of the zlib header (spec/45 R401, R418). -/
def RunsOn {α : Type} (C : Carrier α) (d : Decoder) : Except Stop α → Prop
  | .ok a => d.Reaches (C.decoder a)
  | .error (.more out ph) => d.rout.reverse <+: out ∧ ph ≠ .idle
  | .error (.fail e) => e ≠ .badZlibHeader

/-- The output of an outcome, if it has one, begins with `out`. -/
def OutputFrom {α : Type} (C : Carrier α) (out : Bytes) : Except Stop α → Prop
  | .ok a => out <+: (C.decoder a).rout.reverse
  | .error (.more out' _) => out <+: out'
  | .error (.fail _) => True

/-- What a read comes to in a longer stream, by what it came to before (spec/45 R416). -/
def Resumes {α : Type} (C : Carrier α) (k : Nat) (more : Bytes) (r' : Except Stop α) : Except Stop α → Prop
  | .ok a => r' = .ok (C.map (Decoder.within k more) a)
  | .error (.fail e) => r' = .error (.fail e)
  | .error (.more out ph) => (more = [] → r' = .error (.more out ph)) ∧ OutputFrom C out r'

/-- Reads that are the same but for their fuel: `f` in a stream, `f'` in a longer one. -/
structure Reads (k : Nat) (more : Bytes) {α β : Type} (A : Carrier α) (B : Carrier β) (f f' : α → Except Stop β) :
    Prop where
  runsOn : ∀ a, (A.decoder a).Whole → RunsOn B (A.decoder a) (f' a)
  resumes : ∀ a, (A.decoder a).Whole → Resumes B k more (f' (A.map (Decoder.within k more) a)) (f a)

section
variable {α β γ : Type} {A : Carrier α} {B : Carrier β} {C : Carrier γ} {d t : Decoder} {k : Nat} {more : Bytes}

theorem RunsOn.outputFrom {r : Except Stop α} (h : RunsOn A d r) : OutputFrom A d.rout.reverse r := by
  match r, h with
  | .ok _, h => exact h.output
  | .error (.more _ _), h => exact h.1
  | .error (.fail _), _ => trivial

theorem OutputFrom.trans {out out' : Bytes} {r : Except Stop α} (hout : out <+: out') (h : OutputFrom A out' r) :
    OutputFrom A out r := by
  match r, h with
  | .ok _, h => exact hout.trans h
  | .error (.more _ _), h => exact hout.trans h
  | .error (.fail _), _ => trivial

theorem RunsOn.of_reaches {r : Except Stop α} (hd : d.Reaches t) (h : RunsOn A t r) : RunsOn A d r := by
  match r, h with
  | .ok _, h => exact hd.trans h
  | .error (.more _ _), h => exact ⟨hd.output.trans h.1, h.2⟩
  | .error (.fail _), h => exact h

theorem RunsOn.bind {r : Except Stop α} {g : α → Except Stop β} (hr : RunsOn A d r) (hd : d.Whole)
    (hg : ∀ a, (A.decoder a).Whole → RunsOn B (A.decoder a) (g a)) : RunsOn B d (r >>= g) := by
  match r, hr with
  | .ok a, hr => exact (hg a (hr.whole hd)).of_reaches hr
  | .error (.more _ _), hr => exact hr
  | .error (.fail _), hr => exact hr

/-- What follows a read appends to its output. -/
theorem OutputFrom.bind {out : Bytes} {r : Except Stop α} {g : α → Except Stop β} (hr : RunsOn A d r) (hd : d.Whole)
    (hout : OutputFrom A out r) (hg : ∀ a, (A.decoder a).Whole → RunsOn B (A.decoder a) (g a)) :
    OutputFrom B out (r >>= g) := by
  match r, hr, hout with
  | .ok a, hr, hout => exact (hg a (hr.whole hd)).outputFrom.trans hout
  | .error (.more _ _), _, hout => exact hout
  | .error (.fail _), _, _ => trivial

/-- One read after the other. -/
theorem Reads.bind {f f' : α → Except Stop β} {g g' : β → Except Stop γ} (hf : Reads k more A B f f')
    (hg : Reads k more B C g g') : Reads k more A C (fun a => f a >>= g) (fun a => f' a >>= g') := by
  refine ⟨fun a ha => (hf.runsOn a ha).bind ha hg.runsOn, fun a ha => ?_⟩
  have hwhole : (A.decoder (A.map (Decoder.within k more) a)).Whole := by
    rw [A.decoder_map]
    exact Decoder.whole_within.2 ha
  have hres := hf.resumes a ha
  have hruns := hf.runsOn _ hwhole
  match h : f a, hres with
  | .ok b, hres =>
    rw [show f' (A.map (Decoder.within k more) a) = .ok (B.map (Decoder.within k more) b) from hres] at hruns ⊢
    have hb := hruns.whole hwhole
    rw [B.decoder_map] at hb
    exact hg.resumes b (Decoder.whole_within.1 hb)
  | .error (.fail e), hres =>
    rw [show f' (A.map (Decoder.within k more) a) = .error (.fail e) from hres]
    rfl
  | .error (.more out ph), hres =>
    refine ⟨fun hmore => ?_, OutputFrom.bind hruns hwhole hres.2 hg.runsOn⟩
    rw [hres.1 hmore]
    rfl

end

/-! ## The single reads (spec/45 R400, R416) -/

section
variable {β : Type} {ph : Phase}

/-- What a single read comes to: too few bits, whatever the position; or a value or a failure that depends only on the
bits taken. -/
inductive Takes (ph : Phase) (f : Decoder → Except Stop (β × Decoder)) (bits : List Bool) : Prop
  | short (h : ∀ pos rout, f ⟨bits, pos, rout⟩ = outOfInput ph ⟨bits, pos, rout⟩)
  | value (v : β) (read rest : List Bool) (hbits : bits = read ++ rest)
      (h : ∀ x pos rout, f ⟨bits ++ x, pos, rout⟩ = .ok (v, ⟨rest ++ x, pos + read.length, rout⟩))
  | failure (e : Error) (he : e ≠ .badZlibHeader) (h : ∀ x pos rout, f ⟨bits ++ x, pos, rout⟩ = hardError e)

variable {f : Decoder → Except Stop (β × Decoder)} (hph : ph ≠ .idle) (hf : ∀ bits, Takes ph f bits)
include hph hf

theorem runsOn_of_takes (d : Decoder) : RunsOn (.beside β) d (f d) := by
  cases hf d.bits with
  | short h =>
    rw [show f d = _ from h d.pos d.rout]
    exact ⟨List.prefix_rfl, hph⟩
  | value v read rest hbits h =>
    have hd : f d = .ok (v, ⟨rest, d.pos + read.length, d.rout⟩) := by simpa using h [] d.pos d.rout
    rw [hd]
    exact ⟨⟨read, hbits, rfl⟩, List.prefix_rfl⟩
  | failure e he h =>
    have hd : f d = hardError e := by simpa using h [] d.pos d.rout
    rw [hd]
    exact he

theorem reads_of_takes {k : Nat} {more : Bytes} : Reads k more .alone (.beside β) f f := by
  refine ⟨fun d _ => runsOn_of_takes hph hf d, fun d _ => ?_⟩
  have hruns := runsOn_of_takes hph hf (d.within k more)
  change Resumes _ _ _ (f (d.within k more)) _
  cases hf d.bits with
  | short h =>
    rw [show f d = _ from h d.pos d.rout]
    refine ⟨?_, hruns.outputFrom⟩
    rintro rfl
    rw [Decoder.within, streamBits_nil, List.append_nil, h]
    rfl
  | value v read rest hbits h =>
    have hd : f d = .ok (v, ⟨rest, d.pos + read.length, d.rout⟩) := by simpa using h [] d.pos d.rout
    rw [hd, Decoder.within, h, Nat.add_right_comm]
    rfl
  | failure e he h =>
    have hd : f d = hardError e := by simpa using h [] d.pos d.rout
    rw [hd, Decoder.within, h]
    rfl

end

section
variable {k : Nat} {more : Bytes} {ph : Phase} (hph : ph ≠ .idle)

theorem takes_needRead (ph : Phase) (n : Nat) (bits : List Bool) : Takes ph (needRead ph n) bits := by
  cases h : takeBits n bits with
  | none => exact .short fun pos rout => by rw [needRead, h]
  | some r =>
    obtain ⟨v, rest⟩ := r
    obtain ⟨hv, rfl⟩ := takeBits_eq_some.1 h
    refine .value v _ rest rfl fun x pos rout => ?_
    rw [List.append_assoc, needRead_bits hv rfl, length_bitsOf]

theorem takes_needSymbol (ph : Phase) (codes : List Code) (bits : List Bool) : Takes ph (needSymbol ph codes) bits := by
  match h : decodeSymbol codes bits with
  | .ok (sym, used, rest) =>
    obtain ⟨read, hbits, hused, happ⟩ := decodeFrom_append h
    rw [Nat.zero_add] at hused
    exact .value sym read rest hbits fun x pos rout => hused ▸ needSymbol_ok (happ x)
  | .error e =>
    obtain rfl | rfl := decodeFrom_error h
    · exact .short fun pos rout => needSymbol_short h
    · exact .failure _ (by decide) fun x pos rout => needSymbol_invalid (decodeFrom_invalid_append h x)

/-- The next `n` whole bytes in a phase (spec/45 R406, R421). -/
def needBytes (ph : Phase) (n : Nat) (d : Decoder) : Except Stop (Bytes × Decoder) :=
  match takeBytes n d.bits with
  | none => outOfInput ph d
  | some (bytes, rest) => .ok (bytes, ⟨rest, d.pos + 8 * n, d.rout⟩)

theorem takes_needBytes (ph : Phase) (n : Nat) (bits : List Bool) : Takes ph (needBytes ph n) bits := by
  cases h : takeBytes n bits with
  | none => exact .short fun pos rout => by rw [needBytes, h]
  | some r =>
    obtain ⟨bytes, rest⟩ := r
    obtain ⟨hn, hbits⟩ := takeBytes_eq_some.1 h
    refine .value bytes (streamBits bytes) rest hbits fun x pos rout => ?_
    rw [needBytes, takeBytes_append h, length_streamBits, hn]

include hph

theorem reads_needRead (n : Nat) : Reads k more .alone (.beside Nat) (needRead ph n) (needRead ph n) :=
  reads_of_takes hph (takes_needRead ph n)

theorem reads_needSymbol (codes : List Code) :
    Reads k more .alone (.beside Nat) (needSymbol ph codes) (needSymbol ph codes) :=
  reads_of_takes hph (takes_needSymbol ph codes)

theorem reads_needBytes (n : Nat) : Reads k more .alone (.beside Bytes) (needBytes ph n) (needBytes ph n) :=
  reads_of_takes hph (takes_needBytes ph n)

end

/-! ## Reads composed (spec/45 R400) -/

section
variable {k : Nat} {more : Bytes} {α β γ : Type} {A : Carrier α} {B : Carrier β}

/-- What follows a read, for each value read. -/
theorem Reads.of_value {g g' : γ × Decoder → Except Stop β}
    (h : ∀ v, Reads k more .alone B (fun d => g (v, d)) (fun d => g' (v, d))) :
    Reads k more (.beside γ) B g g' :=
  ⟨fun a ha => (h a.1).runsOn a.2 ha, fun a ha => (h a.1).resumes a.2 ha⟩

theorem reads_value (v : γ) : Reads k more .alone (.beside γ) (fun d => .ok (v, d)) (fun d => .ok (v, d)) :=
  ⟨fun d _ => .refl d, fun _ _ => rfl⟩

theorem reads_ok : Reads k more .alone .alone (fun d => .ok d) (fun d => .ok d) := ⟨fun d _ => .refl d, fun _ _ => rfl⟩

/-- Output appended, latest byte first. -/
theorem reads_append {g : Bytes → Bytes} (hg : ∀ rout, rout <:+ g rout) :
    Reads k more .alone .alone (fun d => .ok ⟨d.bits, d.pos, g d.rout⟩) (fun d => .ok ⟨d.bits, d.pos, g d.rout⟩) :=
  ⟨fun d _ => ⟨⟨[], rfl, rfl⟩, List.reverse_prefix.2 (hg d.rout)⟩, fun _ _ => rfl⟩

theorem reads_hardError {e : Error} (he : e ≠ .badZlibHeader) :
    Reads k more A B (fun _ => hardError e) (fun _ => hardError e) := ⟨fun _ _ => he, fun _ _ => rfl⟩

theorem reads_ite {c : Prop} [Decidable c] {f f' g g' : α → Except Stop β} (hf : c → Reads k more A B f f')
    (hg : ¬ c → Reads k more A B g g') :
    Reads k more A B (fun a => if c then f a else g a) (fun a => if c then f' a else g' a) := by
  by_cases h : c
  · simpa only [if_pos h] using hf h
  · simpa only [if_neg h] using hg h

/-- A check of the output so far. -/
theorem reads_check {c : Bytes → Prop} [DecidablePred c] {e : Error} (he : e ≠ .badZlibHeader)
    {f f' : Unit → Decoder → Except Stop β} (h : Reads k more .alone B (f ()) (f' ())) :
    Reads k more .alone B (fun d => demand (c d.rout) e >>= fun u => f u d)
      (fun d => demand (c d.rout) e >>= fun u => f' u d) := by
  refine ⟨fun d hd => ?_, fun d hd => ?_⟩
  · simp only [demand_bind]
    split
    · exact h.runsOn d hd
    · exact he
  · change Resumes B k more (demand (c d.rout) e >>= fun u => f' u (d.within k more)) _
    simp only [demand_bind]
    split
    · exact h.resumes d hd
    · rfl

/-- A check that has nothing to do with the decoder. -/
theorem reads_demand {c : Prop} [Decidable c] {e : Error} (he : e ≠ .badZlibHeader)
    {f f' : Unit → Decoder → Except Stop β} (h : Reads k more .alone B (f ()) (f' ())) :
    Reads k more .alone B (fun d => demand c e >>= fun u => f u d) (fun d => demand c e >>= fun u => f' u d) :=
  reads_check (c := fun _ => c) he h

/-- A table is built, or refused. -/
theorem reads_buildCodes {lengths : List Nat} {f f' : List Code → Decoder → Except Stop β}
    (h : ∀ codes, Reads k more .alone B (f codes) (f' codes)) :
    Reads k more .alone B (fun d => buildCodes lengths >>= fun codes => f codes d)
      (fun d => buildCodes lengths >>= fun codes => f' codes d) := by
  unfold buildCodes
  split
  · exact h _
  · rename_i e he
    have hne : e ≠ .badZlibHeader := by
      obtain rfl | rfl := validateLengths_error he <;> decide
    exact ⟨fun _ _ => hne, fun _ _ => rfl⟩

theorem reads_alignDecoder :
    Reads k more .alone .alone (fun d => .ok (alignDecoder d)) (fun d => .ok (alignDecoder d)) := by
  have hle {d : Decoder} (hd : d.Whole) : (8 - d.pos % 8) % 8 ≤ d.bits.length := by
    rw [Decoder.Whole] at hd
    omega
  refine ⟨fun d (hd : d.Whole) => ⟨⟨d.bits.take _, (List.take_append_drop _ _).symm, ?_⟩, List.prefix_rfl⟩,
    fun d (hd : d.Whole) => ?_⟩
  · exact congrArg (d.pos + ·) (List.length_take_of_le (hle hd)).symm
  · have hpos : (8 - (d.pos + 8 * k) % 8) % 8 = (8 - d.pos % 8) % 8 := by omega
    refine congrArg Except.ok ?_
    change alignDecoder (d.within k more) = (alignDecoder d).within k more
    simp only [alignDecoder, Decoder.within, hpos, List.drop_append_of_le_length (hle hd), Nat.add_right_comm]

/-- Loops with fuel: what runs out of fuel has run out of input. In a longer stream a loop may have more fuel. -/
theorem reads_fuel {ph : Phase} (hph : ph ≠ .idle) {F : Nat → Decoder → Except Stop Decoder}
    (hzero : ∀ d, F 0 d = outOfInput ph d)
    (hsucc : ∀ m n, Reads k more .alone .alone (F m) (F n) → Reads k more .alone .alone (F (m + 1)) (F (n + 1)))
    {m n : Nat} (hmn : m ≤ n) (hmore : more = [] → m = n) : Reads k more .alone .alone (F m) (F n) := by
  have hdiag (n : Nat) : Reads k more .alone .alone (F n) (F n) := by
    induction n with
    | zero =>
      refine ⟨fun d _ => hzero d ▸ ⟨List.prefix_rfl, hph⟩, fun d _ => ?_⟩
      change Resumes _ _ _ (F 0 (d.within k more)) _
      rw [hzero, hzero]
      exact ⟨fun _ => rfl, List.prefix_rfl⟩
    | succ n ih => exact hsucc n n ih
  induction m generalizing n with
  | zero =>
    refine ⟨(hdiag n).runsOn, fun d hd => ?_⟩
    have hruns := (hdiag n).runsOn (d.within k more) (Decoder.whole_within.2 hd)
    change Resumes _ _ _ (F n (d.within k more)) _
    rw [hzero]
    refine ⟨fun hnil => ?_, hruns.outputFrom⟩
    rw [← hmore hnil, hzero]
    rfl
  | succ m ih =>
    obtain ⟨n, rfl⟩ := Nat.exists_eq_add_of_le' (Nat.le_of_add_left_le hmn)
    exact hsucc m n (ih (Nat.le_of_succ_le_succ hmn) fun hnil => Nat.succ.inj (hmore hnil))

/-- A loop with one more round of fuel than there are bits. -/
theorem reads_loop {ph : Phase} (hph : ph ≠ .idle) {F : Nat → Decoder → Except Stop Decoder}
    (hzero : ∀ d, F 0 d = outOfInput ph d)
    (hsucc : ∀ m n, Reads k more .alone .alone (F m) (F n) → Reads k more .alone .alone (F (m + 1)) (F (n + 1))) :
    Reads k more .alone .alone (fun d => F (d.bits.length + 1) d) (fun d => F (d.bits.length + 1) d) := by
  refine ⟨fun d hd => (reads_fuel hph hzero hsucc le_rfl fun _ => rfl).runsOn d hd, fun d hd => ?_⟩
  refine (reads_fuel hph hzero hsucc ?_ ?_).resumes d hd
  · exact Nat.succ_le_succ (by simp [Carrier.alone, Decoder.within])
  · rintro rfl
    simp [Carrier.alone, Decoder.within]

end

/-! ## The decoder's functions (spec/45 R400 to R414, R421) -/

/-! The functions with the reader's moves, and the whole bytes it takes, as steps of their own. -/

theorem decodeStored_eq (d : Decoder) : decodeStored d = (do
    let d ← .ok (alignDecoder d)
    let (len, d) ← needRead .stored 16 d
    let (nlen, d) ← needRead .stored 16 d
    demand (len = nlen ^^^ 0xFFFF) .storedLengthMismatch
    let (bytes, d) ← needBytes .stored len d
    .ok ⟨d.bits, d.pos, bytes.reverse ++ d.rout⟩) := by
  unfold decodeStored
  refine bind_congr fun a => bind_congr fun b => bind_congr fun _ => ?_
  unfold needBytes
  cases takeBytes a.1 b.2.bits <;> rfl

theorem decodeTrailer_eq (d : Decoder) : decodeTrailer d = (do
    let (bytes, d) ← needBytes .trailer 4 d
    demand (bytes = u32be (adler32 1 d.rout.reverse)) .adler32Mismatch
    .ok d) := by
  unfold decodeTrailer needBytes
  cases takeBytes 4 d.bits <;> rfl

theorem decodeStream_false (d : Decoder) : decodeStream false d = (do
    let d ← decodeBlocks (d.bits.length + 1) d
    .ok (alignDecoder d)) := rfl

theorem decodeStream_true (d : Decoder) : decodeStream true d = (do
    let d ← decodeZlibHeader d
    let d ← decodeStream false d
    decodeTrailer d) := by
  rw [decodeStream, if_pos rfl]
  refine bind_congr fun d => ?_
  rw [decodeStream_false, bind_assoc]
  rfl

section
variable {k : Nat} {more : Bytes}

theorem reads_decodeStored : Reads k more .alone .alone decodeStored decodeStored := by
  rw [funext decodeStored_eq]
  refine reads_alignDecoder.bind <| (reads_needRead (by decide) 16).bind <| .of_value fun len =>
    (reads_needRead (by decide) 16).bind <| .of_value fun nlen => reads_demand (by decide) <|
    (reads_needBytes (by decide) len).bind <| .of_value fun bytes => ?_
  exact reads_append (g := (bytes.reverse ++ ·)) fun _ => List.suffix_append ..

theorem suffix_copyBack (dist n : Nat) (rout : Bytes) : rout <:+ copyBack dist n rout := by
  induction n generalizing rout with
  | zero => exact List.suffix_rfl
  | succ n ih => exact (List.suffix_cons ..).trans (ih _)

theorem reads_decodeMatch (sym : Nat) (dt : List Code) :
    Reads k more .alone .alone (decodeMatch sym dt) (decodeMatch sym dt) := by
  refine reads_demand (by decide) <| (reads_needRead (by decide) _).bind <| .of_value fun lx =>
    (reads_needSymbol (by decide) dt).bind <| .of_value fun dsym => reads_demand (by decide) <|
    (reads_needRead (by decide) _).bind <| .of_value fun dx =>
    reads_check (c := fun rout => _ ≤ rout.length) (by decide) ?_
  exact reads_append (g := copyBack _ _) (suffix_copyBack _ _)

theorem reads_decodeSymbols (lt dt : List Code) :
    Reads k more .alone .alone (fun d => decodeSymbols lt dt (d.bits.length + 1) d)
      (fun d => decodeSymbols lt dt (d.bits.length + 1) d) := by
  refine reads_loop (ph := .decodeSymbols) (by decide) (fun _ => rfl) fun m n h => ?_
  refine (reads_needSymbol (by decide) lt).bind <| .of_value fun sym => reads_ite (fun _ => ?_) fun _ =>
    reads_ite (fun _ => reads_ok) fun _ => (reads_decodeMatch sym dt).bind h
  exact (reads_append (g := (BitVec.ofNat 8 sym :: ·)) fun _ => List.suffix_cons ..).bind h

theorem reads_readClens (order cl : List Nat) :
    Reads k more .alone (.beside (List Nat)) (readClens order cl) (readClens order cl) := by
  induction order generalizing cl with
  | nil => exact reads_value cl
  | cons sym order ih => exact (reads_needRead (by decide) 3).bind (.of_value fun v => ih _)

theorem reads_clenValues (sym : Nat) (seq : List Nat) :
    Reads k more .alone (.beside (List Nat)) (clenValues sym seq) (clenValues sym seq) := by
  refine reads_ite (fun _ => reads_value _) fun _ => reads_ite (fun _ => ?_) fun _ =>
    reads_ite (fun _ => ?_) fun _ => ?_
  · split
    · exact reads_hardError (by decide)
    · exact (reads_needRead (by decide) 2).bind (.of_value fun x => reads_value _)
  · exact (reads_needRead (by decide) 3).bind (.of_value fun x => reads_value _)
  · exact (reads_needRead (by decide) 7).bind (.of_value fun x => reads_value _)

theorem reads_readLengths (ct : List Code) (total fuel : Nat) (seq : List Nat) :
    Reads k more .alone (.beside (List Nat)) (readLengths ct total fuel seq) (readLengths ct total fuel seq) := by
  induction fuel generalizing seq with
  | zero => exact reads_value seq
  | succ fuel ih =>
    exact reads_ite (fun _ => reads_value seq) fun _ => (reads_needSymbol (by decide) ct).bind <| .of_value fun sym =>
      (reads_clenValues sym seq).bind <| .of_value fun vs => reads_demand (by decide) (ih (seq ++ vs))

theorem reads_readTables : Reads k more .alone (.beside (List Code × List Code)) readTables readTables :=
  (reads_needRead (by decide) 5).bind <| .of_value fun hlit => (reads_needRead (by decide) 5).bind <|
    .of_value fun hdist => (reads_needRead (by decide) 4).bind <| .of_value fun hclen => reads_demand (by decide) <|
    (reads_readClens _ _).bind <| .of_value fun cl => reads_buildCodes fun ct => (reads_readLengths ct _ _ _).bind <|
    .of_value fun seq => reads_demand (by decide) <| reads_buildCodes fun lt => reads_buildCodes fun dt =>
    reads_value (lt, dt)

theorem reads_decodeBody (btype : Nat) : Reads k more .alone .alone (decodeBody btype) (decodeBody btype) :=
  reads_ite (fun _ => reads_decodeStored) fun _ => reads_ite (fun _ => reads_decodeSymbols _ _) fun _ =>
    reads_ite (fun _ => reads_readTables.bind (.of_value fun _ => reads_decodeSymbols _ _)) fun _ =>
      reads_hardError (by decide)

theorem reads_decodeBlocks : Reads k more .alone .alone (fun d => decodeBlocks (d.bits.length + 1) d)
    (fun d => decodeBlocks (d.bits.length + 1) d) := by
  refine reads_loop (ph := .readBlockHeader) (by decide) (fun _ => rfl) fun m n h => ?_
  exact (reads_needRead (by decide) 1).bind <| .of_value fun final => (reads_needRead (by decide) 2).bind <|
    .of_value fun btype => (reads_decodeBody btype).bind (reads_ite (fun _ => reads_ok) fun _ => h)

/-- A raw stream. -/
theorem reads_rawStream : Reads k more .alone .alone (decodeStream false) (decodeStream false) :=
  reads_decodeBlocks.bind reads_alignDecoder

theorem reads_decodeTrailer : Reads k more .alone .alone decodeTrailer decodeTrailer := by
  rw [funext decodeTrailer_eq]
  exact (reads_needBytes (by decide) 4).bind <| .of_value fun bytes =>
    reads_check (c := fun rout => bytes = u32be (adler32 1 rout.reverse)) (by decide) reads_ok

/-- A zlib stream behind its header. -/
theorem reads_wrappedStream : Reads k more .alone .alone (fun d => decodeStream false d >>= decodeTrailer)
    (fun d => decodeStream false d >>= decodeTrailer) :=
  reads_rawStream.bind reads_decodeTrailer

end

end Sys2Proof.Machine

/-! The zlib wrapper, and what more input does to a stream (spec/45 R401, R402, R416, R417, R421). -/

namespace Sys2Proof.Machine

/-! ## The outcome of a stream (spec/45 R400) -/

/-- The outcome that the end of a run is reported as. -/
def streamOutcome : Except Stop Decoder → InflateOutcome
  | .ok d => .done d.rout.reverse (d.pos / 8)
  | .error (.more out ph) => .more out ph
  | .error (.fail e) => .fail e

/-- The decoder before the first bit. -/
def streamStart (bytes : Bytes) : Decoder := ⟨streamBits bytes, 0, []⟩

theorem inflate_eq (bytes : Bytes) (wrap : Bool) :
    inflate bytes wrap = streamOutcome (decodeStream wrap (streamStart bytes)) := by
  rw [inflate, streamStart]
  cases decodeStream wrap ⟨streamBits bytes, 0, []⟩ with
  | ok d => rfl
  | error stop => cases stop <;> rfl

theorem whole_streamStart (bytes : Bytes) : (streamStart bytes).Whole :=
  ⟨bytes.length, by simp [streamStart]⟩

theorem streamStart_append (bytes more : Bytes) : streamStart (bytes ++ more) = (streamStart bytes).within 0 more := by
  simp [streamStart, Decoder.within]

/-! ## The zlib header (spec/45 R401, R402) -/

/-- The four conditions on `CMF` and `FLG`. -/
abbrev ZlibHeaderOk (cmf flg : Byte) : Prop :=
  cmf.toNat % 16 = 8 ∧ cmf.toNat / 16 ≤ 7 ∧ (cmf.toNat * 256 + flg.toNat) % 31 = 0 ∧ flg.getLsbD 5 = false

/-- The decoder behind a zlib header. -/
def behindHeader (body : Bytes) : Decoder := (streamStart body).within 2 []

theorem whole_behindHeader (body : Bytes) : (behindHeader body).Whole :=
  Decoder.whole_within.2 (whole_streamStart body)

theorem behindHeader_append (body more : Bytes) :
    behindHeader (body ++ more) = (behindHeader body).within 0 more := by
  simp [behindHeader, streamStart, Decoder.within]

theorem getLsbD_five (flg : Byte) : flg.toNat / 32 % 2 = 0 ↔ flg.getLsbD 5 = false := by
  rw [BitVec.getLsbD, Nat.testBit_eq_decide_div_mod_eq]
  simp only [decide_eq_false_iff_not]
  omega

theorem decodeZlibHeader_cons (cmf flg : Byte) (body : Bytes) :
    decodeZlibHeader (streamStart (cmf :: flg :: body)) =
      if ZlibHeaderOk cmf flg then .ok (behindHeader body) else .error (.fail .badZlibHeader) := by
  have hcmf : (streamStart (cmf :: flg :: body)).bits =
      bitsOf 8 cmf.toNat ++ (bitsOf 8 flg.toNat ++ streamBits body) := by
    rw [← byteBits_eq, ← byteBits_eq]
    rfl
  rw [decodeZlibHeader, needRead_bits cmf.isLt hcmf]
  dsimp only [bind, Except.bind]
  rw [needRead_bits flg.isLt rfl]
  dsimp only
  simp only [demand, getLsbD_five]
  by_cases h : ZlibHeaderOk cmf flg
  · rw [if_pos h, if_pos h]
    simp [behindHeader, streamStart, Decoder.within]
  · rw [if_neg h, if_neg h]
    rfl

theorem decodeZlibHeader_short {bytes : Bytes} (h : bytes.length < 2) :
    decodeZlibHeader (streamStart bytes) = .error (.more [] .zlibHeader) := by
  match bytes with
  | [] => rfl
  | [cmf] =>
    rw [decodeZlibHeader, needRead_bits (v := cmf.toNat) (rest := []) cmf.isLt (by rw [← byteBits_eq]; rfl)]
    rfl

theorem inflate_zlib_good {cmf flg : Byte} (h : ZlibHeaderOk cmf flg) (body : Bytes) :
    inflate (cmf :: flg :: body) true = streamOutcome (decodeStream false (behindHeader body) >>= decodeTrailer) := by
  rw [inflate_eq, decodeStream_true, decodeZlibHeader_cons, if_pos h]
  rfl

theorem inflate_zlib_bad {cmf flg : Byte} (h : ¬ ZlibHeaderOk cmf flg) (body : Bytes) :
    inflate (cmf :: flg :: body) true = .fail .badZlibHeader := by
  rw [inflate_eq, decodeStream_true, decodeZlibHeader_cons, if_neg h]
  rfl

theorem inflate_zlib_short {bytes : Bytes} (h : bytes.length < 2) : inflate bytes true = .more [] .zlibHeader := by
  rw [inflate_eq, decodeStream_true, decodeZlibHeader_short h]
  rfl

/-! ## More input (spec/45 R416, R417) -/

/-- What an outcome of `size` bytes says about the outcome `o'` with more bytes. -/
def KeptBy (size : Nat) (o' : InflateOutcome) : InflateOutcome → Prop
  | .done out used => used ≤ size ∧ o' = .done out used
  | .fail e => o' = .fail e
  | .more out ph => ph ≠ .idle ∧ (∀ out' used, o' = .done out' used → out <+: out') ∧
      ∀ out' ph', o' = .more out' ph' → out <+: out'

theorem keptBy_of_reads {f : Decoder → Except Stop Decoder} {more : Bytes} (hf : Reads 0 more .alone .alone f f)
    {d : Decoder} (hd : d.Whole) {size : Nat} (hsize : (d.pos + d.bits.length) / 8 ≤ size) :
    KeptBy size (streamOutcome (f (d.within 0 more))) (streamOutcome (f d)) := by
  have hruns := hf.runsOn d hd
  have hres := hf.resumes d hd
  change RunsOn .alone d (f d) at hruns
  change Resumes .alone 0 more (f (d.within 0 more)) (f d) at hres
  match h : f d, hruns, hres with
  | .ok t, hruns, hres =>
    have hlen := Decoder.Reaches.pos_add_length hruns
    change t.pos + t.bits.length = _ at hlen
    exact ⟨by omega, congrArg streamOutcome hres⟩
  | .error (.fail e), _, hres => exact congrArg streamOutcome hres
  | .error (.more out ph), hruns, hres =>
    refine ⟨hruns.2, ?_⟩
    match f (d.within 0 more), hres.2 with
    | .ok t, hout => exact ⟨fun _ _ heq => (by cases heq; exact hout), nofun⟩
    | .error (.more out' ph'), hout => exact ⟨nofun, fun _ _ heq => (by cases heq; exact hout)⟩
    | .error (.fail e), _ => exact ⟨nofun, nofun⟩

theorem keptBy_short {bytes : Bytes} (h : bytes.length < 2) (size : Nat) (o' : InflateOutcome) :
    KeptBy size o' (inflate bytes true) := by
  rw [inflate_zlib_short h]
  exact ⟨by decide, fun _ _ _ => List.nil_prefix, fun _ _ _ => List.nil_prefix⟩

theorem inflate_keptBy (bytes more : Bytes) (wrap : Bool) :
    KeptBy bytes.length (inflate (bytes ++ more) wrap) (inflate bytes wrap) := by
  cases wrap with
  | false =>
    rw [inflate_eq, inflate_eq, streamStart_append]
    exact keptBy_of_reads reads_rawStream (whole_streamStart bytes) (by simp [streamStart])
  | true =>
    match bytes with
    | [] => exact keptBy_short (bytes := []) Nat.two_pos ..
    | [cmf] => exact keptBy_short (bytes := [cmf]) Nat.one_lt_two ..
    | cmf :: flg :: body =>
      rw [List.cons_append, List.cons_append]
      by_cases h : ZlibHeaderOk cmf flg
      · rw [inflate_zlib_good h, inflate_zlib_good h, behindHeader_append]
        refine keptBy_of_reads reads_wrappedStream (whole_behindHeader body) ?_
        simp [behindHeader, streamStart, Decoder.within]
        omega
      · rw [inflate_zlib_bad h, inflate_zlib_bad h]
        rfl

section
variable {bytes more out out' : Bytes} {wrap : Bool}

theorem inflate_append_done {used : Nat} (h : inflate bytes wrap = .done out used) (more : Bytes) :
    used ≤ bytes.length ∧ inflate (bytes ++ more) wrap = .done out used := by
  have hkept := inflate_keptBy bytes more wrap
  rwa [h] at hkept

theorem inflate_append_fail {e : Error} (h : inflate bytes wrap = .fail e) (more : Bytes) :
    inflate (bytes ++ more) wrap = .fail e := by
  have hkept := inflate_keptBy bytes more wrap
  rwa [h] at hkept

theorem inflate_append_more {ph : Phase} (h : inflate bytes wrap = .more out ph) (more : Bytes) :
    ph ≠ .idle ∧ (∀ out' used, inflate (bytes ++ more) wrap = .done out' used → out <+: out') ∧
      ∀ out' ph', inflate (bytes ++ more) wrap = .more out' ph' → out <+: out' := by
  have hkept := inflate_keptBy bytes more wrap
  rwa [h] at hkept

end

/-- Settles O45: every read that found its bits finds them again, and one that ran out had output nothing more. -/
theorem moreInput : Obligations.MoreInput := fun _ more _ =>
  ⟨fun _ _ h => inflate_append_done h more, fun _ h => inflate_append_fail h more,
    fun _ _ h => (inflate_append_more h more).2⟩

end Sys2Proof.Machine

/-! The commands of the decoder (spec/45 R423 to R425) and the streaming law (R426). -/

namespace Sys2Proof.Machine

/-! ## `INFLATE_START` and `INFLATE_FEED` (spec/45 R423, R424) -/

section
variable {s : State}

theorem requireStarted_idle (h : s.inf.phase = .idle) : requireStarted s = .error .wrongMode :=
  require_error.2 ⟨not_not.2 h, rfl⟩

theorem requireStarted_started (h : s.inf.phase ≠ .idle) : requireStarted s = .ok () := requireStarted_ok.2 h

theorem execInflateRun_idle (h : s.inf.phase = .idle) : execInflateRun s = .next (report (some .wrongMode) s) := by
  rw [execInflateRun, requireStarted_idle h]
  rfl

theorem execInflateFeed_capacity (hph : s.inf.phase ≠ .idle)
    (hcap : s.params.maxStreamBytes < s.inf.input.length + s.inp.length) :
    execInflateFeed s = .next (report (some .capacityExceeded) s) :=
  (complete_ok_bind (requireStarted_started hph)).trans (complete_error_bind (checkCapacity_error.2 ⟨hcap, rfl⟩))

end

/-- Settles O43: a stream begun has no input yet, and feeding checks the phase and then the capacity. -/
theorem inflateStartAndFeed : Obligations.InflateStartAndFeed :=
  ⟨by decide, by decide, by decide, fun _ => ⟨rfl, rfl⟩, fun _ h => complete_error_bind (requireStarted_idle h),
    fun _ hph => ⟨execInflateFeed_capacity hph, execInflateFeed_fits hph⟩⟩

/-! ## `INFLATE_RUN` (spec/45 R425) -/

section
variable {s : State} {out : Bytes}

/-- What `OUT` gets of a run, and where the decoder then stands. -/
def State.committed (s : State) (out : Bytes) (ph : Phase) : State :=
  { s with out := s.out ++ out.drop s.inf.emitted, inf := { s.inf with emitted := out.length, phase := ph } }

theorem commitRun_fits (hout : out.length ≤ s.params.maxStreamBytes)
    (hcap : s.out.length + (out.length - s.inf.emitted) ≤ s.params.maxStreamBytes) (ph : Phase) :
    commitRun s out ph = .ok (s.committed out ph) := commitRun_ok.2 ⟨hout, hcap, rfl⟩

theorem commitRun_full (hcap : s.params.maxStreamBytes < s.out.length + (out.length - s.inf.emitted)) (ph : Phase) :
    commitRun s out ph = .error .capacityExceeded := by
  cases h : commitRun s out ph with
  | ok t => exact absurd (commitRun_ok.1 h).2.1 (Nat.not_le.2 hcap)
  | error e =>
    obtain h | ⟨_, -, h⟩ := bind_error.1 h
    · rw [(checkCapacity_error.1 h).2]
    · obtain h | ⟨_, -, h⟩ := bind_error.1 h
      · rw [(appendOut_error.1 h).2]
      · cases h

variable (hph : s.inf.phase ≠ .idle)
include hph

theorem execInflateRun_sticky {e : Error} (herr : s.inf.err = some e) :
    execInflateRun s = .next (report (some e) s) := by
  rw [execInflateRun, requireStarted_started hph]
  simp only [herr]
  rfl

variable (herr : s.inf.err = none)
include herr

theorem execInflateRun_eq_of_done {used : Nat} (h : inflate s.inf.input s.inf.wrap = .done out used) :
    execInflateRun s = complete s (do
      let t ← commitRun s out .done
      let appended ← countWord (out.length - s.inf.emitted)
      let position ← countWord used
      .ok { t with result := appended, result2 := position }) := by
  rw [execInflateRun, requireStarted_started hph]
  simp only [herr, h]

theorem execInflateRun_capacity
    (h : (∃ ph, inflate s.inf.input s.inf.wrap = .more out ph) ∨
      ∃ used, inflate s.inf.input s.inf.wrap = .done out used)
    (hcap : s.params.maxStreamBytes < s.out.length + (out.length - s.inf.emitted)) :
    execInflateRun s = .next (report (some .capacityExceeded) s) := by
  obtain ⟨ph, h⟩ | ⟨used, h⟩ := h
  · rw [execInflateRun, requireStarted_started hph]
    simp only [herr, h, commitRun_full hcap]
    rfl
  · rw [execInflateRun_eq_of_done hph herr h]
    exact complete_error_bind (commitRun_full hcap _)

variable (hout : out.length ≤ s.params.maxStreamBytes)
  (hcap : s.out.length + (out.length - s.inf.emitted) ≤ s.params.maxStreamBytes)
include hout hcap

theorem execInflateRun_needsMore {ph : Phase} (h : inflate s.inf.input s.inf.wrap = .more out ph) :
    execInflateRun s = .next (report (some .needsMoreInput) (s.committed out ph)) := by
  rw [execInflateRun, requireStarted_started hph]
  simp only [herr, h, commitRun_fits hout hcap]

variable {used : Nat} (h : inflate s.inf.input s.inf.wrap = .done out used)
include h

theorem execInflateRun_done (hnew : out.length - s.inf.emitted < 2 ^ 32) (hused : used < 2 ^ 32) :
    execInflateRun s = .next (report none { s.committed out .done with
      result := BitVec.ofNat 32 (out.length - s.inf.emitted), result2 := BitVec.ofNat 32 used }) := by
  rw [execInflateRun_eq_of_done hph herr h, complete_ok_bind (commitRun_fits hout hcap _),
    complete_ok_bind (countWord_fits hnew), complete_ok_bind (countWord_fits hused)]
  rfl

theorem execInflateRun_count (hlarge : 2 ^ 32 ≤ out.length - s.inf.emitted ∨ 2 ^ 32 ≤ used) :
    execInflateRun s = .next (report (some .invalidArgument) s) := by
  rw [execInflateRun_eq_of_done hph herr h, complete_ok_bind (commitRun_fits hout hcap _)]
  obtain hnew | hnew := Nat.lt_or_ge (out.length - s.inf.emitted) (2 ^ 32)
  · have hused := hlarge.resolve_left (Nat.not_le.2 hnew)
    exact (complete_ok_bind (countWord_fits hnew)).trans (complete_error_bind (countWord_error hused))
  · exact complete_error_bind (countWord_error hnew)

end

/-- Settles O44: the checks of `INFLATE_RUN` in their order, and then the outcome of decoding what was fed. -/
theorem inflateRun : Obligations.InflateRun :=
  ⟨by decide, fun _ => execInflateRun_idle, fun _ hph => ⟨fun _ => execInflateRun_sticky hph, fun herr =>
    ⟨fun _ => execInflateRun_fail hph herr, fun _ _ h hout hcap => execInflateRun_needsMore hph herr hout hcap h,
      fun _ _ h hout hcap => ⟨execInflateRun_done hph herr hout hcap h, execInflateRun_count hph herr hout hcap h⟩,
      fun _ => execInflateRun_capacity hph herr⟩⟩⟩

/-! ## The streaming law (spec/45 R426) -/

/-- The output of a stream that does not fail, as far as it is decoded, and the phase it ends in; the two counts of a
finished one fit their registers. -/
inductive Outputs (bytes : Bytes) (wrap : Bool) (out : Bytes) : Phase → Prop
  | done {used : Nat} (h : inflate bytes wrap = .done out used) (hlen : out.length < 2 ^ 32) (hused : used < 2 ^ 32) :
    Outputs bytes wrap out .done
  | more {ph : Phase} (h : inflate bytes wrap = .more out ph) : Outputs bytes wrap out ph

section
variable {bytes more out out' : Bytes} {wrap : Bool} {ph ph' : Phase}

theorem Outputs.ne_idle (h : Outputs bytes wrap out ph) : ph ≠ .idle := by
  cases h with
  | done => decide
  | more h => exact (inflate_append_more h []).1

/-- The output of the start of a stream is the start of its output. -/
theorem Outputs.isPrefix (h : Outputs bytes wrap out ph) (h' : Outputs (bytes ++ more) wrap out' ph') :
    out <+: out' := by
  cases h with
  | done h =>
    have happ := (inflate_append_done h more).2
    cases h' with
    | done h' => cases happ.symm.trans h'; exact List.prefix_rfl
    | more h' => cases happ.symm.trans h'
  | more h =>
    obtain ⟨-, hdone, hmore⟩ := inflate_append_more h more
    cases h' with
    | done h' => exact hdone _ _ h'
    | more h' => exact hmore _ _ h'

/-- The start of a stream that does not fail does not fail. -/
theorem Outputs.of_append (h' : Outputs (bytes ++ more) wrap out' ph') : ∃ out ph, Outputs bytes wrap out ph := by
  match h : inflate bytes wrap with
  | .done out used =>
    have happ := (inflate_append_done h more).2
    cases h' with
    | done h' hlen hused => cases happ.symm.trans h'; exact ⟨_, _, .done h hlen hused⟩
    | more h' => cases happ.symm.trans h'
  | .fail e =>
    have happ := inflate_append_fail h more
    cases h' with
    | done h' => cases happ.symm.trans h'
    | more h' => cases happ.symm.trans h'
  | .more out ph => exact ⟨_, _, .more h⟩

end

/-- A run on a stream that does not fail commits its output. -/
theorem execInflateRun_outputs {s : State} {out : Bytes} {ph : Phase} (hph : s.inf.phase ≠ .idle)
    (herr : s.inf.err = none) (h : Outputs s.inf.input s.inf.wrap out ph) (hout : out.length ≤ s.params.maxStreamBytes)
    (hcap : s.out.length + (out.length - s.inf.emitted) ≤ s.params.maxStreamBytes) :
    ∃ e r r', execInflateRun s = .next (report e { s.committed out ph with result := r, result2 := r' }) := by
  cases h with
  | done h hlen hused =>
    exact ⟨_, _, _, execInflateRun_done hph herr hout hcap h (Nat.lt_of_le_of_lt (Nat.sub_le ..) hlen) hused⟩
  | more h => exact ⟨_, s.result, s.result2, execInflateRun_needsMore hph herr hout hcap h⟩

/-- A decoder that was fed `input` and whose output so far is `out`, behind what `OUT` held before. -/
structure Streaming (before : Bytes) (cap : Nat) (wrap : Bool) (input out : Bytes) (ph : Phase) (s : State) : Prop where
  ne_idle : ph ≠ .idle
  inf : s.inf = ⟨wrap, input, out.length, none, ph⟩
  out : s.out = before ++ out
  cap : s.params.maxStreamBytes = cap

section
variable {before : Bytes} {cap : Nat} {wrap : Bool} {input out out' : Bytes} {ph ph' : Phase} {s : State}

/-- A feed and a run go on to the output of the longer stream. -/
theorem feedAndRun_next {chunk : Bytes} (hs : Streaming before cap wrap input out ph s)
    (h : Outputs (input ++ chunk) wrap out' ph') (hpre : out <+: out') (hin : (input ++ chunk).length ≤ cap)
    (hcap : before.length + out'.length ≤ cap) :
    ∃ t, feedAndRun chunk s = .next t ∧ Streaming before cap wrap (input ++ chunk) out' ph' t := by
  obtain ⟨hph, hinf, hout, rfl⟩ := hs
  obtain ⟨new, rfl⟩ := hpre
  have hfeed : exec .inflateFeed { s with inp := chunk } = .next (report none { s with
      inp := chunk, inf := ⟨wrap, input ++ chunk, out.length, none, ph⟩ }) := by
    refine (execInflateFeed_fits (by rwa [hinf]) ?_).trans (by rw [hinf])
    rwa [hinf, ← List.length_append]
  have hnew : s.out.length + ((out ++ new).length - out.length) ≤ s.params.maxStreamBytes := by
    rw [hout, List.length_append]
    rw [List.length_append] at hcap ⊢
    omega
  have hdrop : s.out ++ (out ++ new).drop out.length = before ++ (out ++ new) := by
    rw [List.drop_left, hout, List.append_assoc]
  obtain ⟨e, r, r', hrun⟩ := execInflateRun_outputs (s := report none { s with
      inp := chunk, inf := ⟨wrap, input ++ chunk, out.length, none, ph⟩ }) hph rfl h (le_of_add_le_right hcap) hnew
  exact ⟨_, (congrArg (andThen · (exec .inflateRun)) hfeed).trans hrun, h.ne_idle, rfl, hdrop, rfl⟩

/-- However the rest of the stream is split, the decoder ends with the whole stream's output. -/
theorem feedAll_next {chunks : List Bytes} (hne : chunks ≠ []) (hs : Streaming before cap wrap input out ph s)
    (hpre : ∀ more out' ph', Outputs (input ++ more) wrap out' ph' → out <+: out')
    (h : Outputs (input ++ chunks.flatten) wrap out' ph') (hin : (input ++ chunks.flatten).length ≤ cap)
    (hcap : before.length + out'.length ≤ cap) :
    ∃ t, feedAll chunks s = .next t ∧ Streaming before cap wrap (input ++ chunks.flatten) out' ph' t := by
  induction chunks generalizing input out ph s with
  | nil => exact absurd rfl hne
  | cons chunk rest ih =>
    rw [List.flatten_cons, ← List.append_assoc] at h hin ⊢
    cases rest with
    | nil =>
      rw [List.flatten_nil, List.append_nil] at h hin ⊢
      obtain ⟨t, ht, hst⟩ := feedAndRun_next hs h (hpre _ _ _ h) hin hcap
      exact ⟨t, congrArg (andThen · (feedAll [])) ht, hst⟩
    | cons next rest =>
      obtain ⟨mid, phm, hmid⟩ := h.of_append
      have hmidlen := (hmid.isPrefix h).length_le
      obtain ⟨t, ht, hst⟩ := feedAndRun_next hs hmid (hpre _ _ _ hmid)
        (le_trans (by rw [List.length_append (as := input ++ chunk)]; omega) hin) (by omega)
      obtain ⟨u, hu, hsu⟩ := ih (List.cons_ne_nil _ _) hst (fun _ _ _ => hmid.isPrefix) h hin
      exact ⟨u, (congrArg (andThen · (feedAll (next :: rest))) ht).trans hu, hsu⟩

end

/-- Settles O46: after each feed and run the output so far is that of the bytes fed, and the last run ends as the one
run on the whole stream does. -/
theorem streamingLaw : Obligations.StreamingLaw := by
  intro s wrap chunks hne hinput hemitted herr hph hwrap hlen out hout hcap
  obtain ⟨ph, h⟩ : ∃ ph, Outputs chunks.flatten wrap out ph := by
    obtain ⟨used, h, hlen, hused⟩ | ⟨ph, h⟩ := hout
    · exact ⟨_, .done h hlen hused⟩
    · exact ⟨_, .more h⟩
  have hs : Streaming s.out s.params.maxStreamBytes wrap [] [] s.inf.phase s := by
    refine ⟨hph, ?_, (List.append_nil _).symm, rfl⟩
    calc s.inf = ⟨s.inf.wrap, s.inf.input, s.inf.emitted, s.inf.err, s.inf.phase⟩ := rfl
      _ = ⟨wrap, [], 0, none, s.inf.phase⟩ := by rw [hwrap, hinput, hemitted, herr]
  obtain ⟨t, ht, hst⟩ := feedAll_next hne hs (fun _ _ _ _ => List.nil_prefix) h hlen hcap
  obtain ⟨u, hu, hsu⟩ := feedAndRun_next hs h List.nil_prefix hlen hcap
  exact ⟨t, u, ht, hu, hst.out.trans hsu.out.symm, hst.inf.trans hsu.inf.symm, hst.out⟩

end Sys2Proof.Machine

/-! The zlib wrapper around a raw stream (spec/45 R400, R421): behind the header's two bytes the raw stream decodes as
it does alone, and the trailer begins at the byte behind its end. -/

namespace Sys2Proof.Machine

theorem streamBits_drop (bytes : Bytes) (n : Nat) : (streamBits bytes).drop (8 * n) = streamBits (bytes.drop n) := by
  obtain h | h := Nat.le_total n bytes.length
  · conv_lhs => rw [← List.take_append_drop n bytes, streamBits_append]
    exact List.drop_left' (by rw [length_streamBits, List.length_take_of_le h])
  · rw [List.drop_eq_nil_of_le h, List.drop_eq_nil_of_le (by rw [length_streamBits]; omega), streamBits_nil]

/-! ## The raw stream behind a header -/

section
variable {r : Except Stop Decoder}

theorem streamOutcome_eq_fail {e : Error} : streamOutcome r = .fail e ↔ r = .error (.fail e) := by
  match r with
  | .ok _ | .error (.more _ _) | .error (.fail _) => simp [streamOutcome]

theorem streamOutcome_eq_more {out : Bytes} {ph : Phase} :
    streamOutcome r = .more out ph ↔ r = .error (.more out ph) := by
  match r with
  | .ok _ | .error (.more _ _) | .error (.fail _) => simp [streamOutcome]

end

/-- Whole bytes further on, and with nothing more behind, a read comes to the same. -/
theorem Resumes.eq_map {k : Nat} {r r' : Except Stop Decoder} (h : Resumes .alone k [] r' r) :
    r' = r.map (Decoder.within k []) := by
  match r, h with
  | .ok _, h => exact h
  | .error (.fail _), h => exact h
  | .error (.more _ _), h => exact h.1 rfl

theorem inflate_behindHeader {cmf flg : Byte} (h : ZlibHeaderOk cmf flg) (body : Bytes) :
    inflate (cmf :: flg :: body) true =
      streamOutcome ((decodeStream false (streamStart body)).map (Decoder.within 2 []) >>= decodeTrailer) := by
  have hres := reads_rawStream.resumes (k := 2) (more := []) (streamStart body) (whole_streamStart body)
  rw [inflate_zlib_good h, ← hres.eq_map]
  rfl

/-- A raw stream that is complete: the bytes behind it are those not used. -/
theorem decodeStream_of_done {body out : Bytes} {used : Nat} (h : inflate body false = .done out used) :
    decodeStream false (streamStart body) = .ok ⟨streamBits (body.drop used), 8 * used, out.reverse⟩ := by
  have hruns := reads_rawStream.runsOn (k := 0) (more := []) (streamStart body) (whole_streamStart body)
  rw [inflate_eq] at h
  match hd : decodeStream false (streamStart body), h, hruns with
  | .ok t, h, hruns =>
    obtain ⟨⟨read, hbits, hpos⟩, -⟩ : (streamStart body).Reaches t := hruns
    change streamBits body = read ++ t.bits at hbits
    have halign : t.pos % 8 = 0 := by
      rw [decodeStream_false] at hd
      obtain ⟨t0, -, ht⟩ := bind_ok.1 hd
      cases ht
      simp only [alignDecoder]
      omega
    cases h
    have hread : read.length = 8 * (t.pos / 8) := by
      rw [Nat.mul_div_cancel' (Nat.dvd_of_mod_eq_zero halign), hpos, streamStart, Nat.zero_add]
    rw [List.reverse_reverse, ← streamBits_drop, hbits, List.drop_left' hread,
      Nat.mul_div_cancel' (Nat.dvd_of_mod_eq_zero halign)]
  | .error (.more _ _), h, _ => cases h
  | .error (.fail _), h, _ => cases h

/-! ## The trailer (spec/45 R421) -/

theorem decodeTrailer_short {d : Decoder} (h : d.bits.length < 32) :
    decodeTrailer d = .error (.more d.rout.reverse .trailer) := by
  rw [decodeTrailer, takeBytes_eq_none.2 h]
  rfl

theorem decodeTrailer_bytes {d : Decoder} {bytes : Bytes} {rest : List Bool} (hlen : bytes.length = 4)
    (h : d.bits = streamBits bytes ++ rest) : decodeTrailer d =
      if bytes = u32be (adler32 1 d.rout.reverse) then .ok ⟨rest, d.pos + 32, d.rout⟩
      else .error (.fail .adler32Mismatch) := by
  rw [decodeTrailer, takeBytes_eq_some.2 ⟨hlen, h⟩]
  exact demand_bind _

section
variable {body out : Bytes} {used : Nat}

/-- A good header, and then a raw stream that is complete. -/
theorem inflate_trailer {cmf flg : Byte} (h : ZlibHeaderOk cmf flg) (hbody : inflate body false = .done out used) :
    inflate (cmf :: flg :: body) true =
      streamOutcome (decodeTrailer ⟨streamBits (body.drop used), 8 * used + 16, out.reverse⟩) := by
  rw [inflate_behindHeader h, decodeStream_of_done hbody]
  simp [Except.map, Decoder.within, bind, Except.bind]

theorem streamOutcome_trailer_short (h : body.length < used + 4) (pos : Nat) :
    streamOutcome (decodeTrailer ⟨streamBits (body.drop used), pos, out.reverse⟩) = .more out .trailer := by
  have hshort : (streamBits (body.drop used)).length < 32 := by
    rw [length_streamBits, List.length_drop]
    omega
  rw [decodeTrailer_short hshort, streamOutcome, List.reverse_reverse]

theorem streamOutcome_trailer (h : used + 4 ≤ body.length) (pos : Nat) :
    streamOutcome (decodeTrailer ⟨streamBits (body.drop used), pos, out.reverse⟩) =
      if slice body used 4 = u32be (adler32 1 out) then .done out ((pos + 32) / 8) else .fail .adler32Mismatch := by
  have hbits : streamBits (body.drop used) =
      streamBits (slice body used 4) ++ streamBits ((body.drop used).drop 4) := by
    rw [slice, ← streamBits_append, List.take_append_drop]
  have hlen : (slice body used 4).length = 4 := by
    rw [slice, List.length_take_of_le]
    rw [List.length_drop]
    omega
  rw [decodeTrailer_bytes hlen hbits, List.reverse_reverse]
  split
  · rw [streamOutcome, List.reverse_reverse]
  · rfl

end

/-- Settles O60: two bytes further on the decoder reads the same, and then its trailer. -/
theorem wrapperAndTrailer : Obligations.WrapperAndTrailer := by
  intro cmf flg body h8 h7 h31 hdict
  have h : ZlibHeaderOk cmf flg := ⟨h8, h7, h31, hdict⟩
  refine ⟨fun e he => ?_, fun out ph hmore => ?_, fun out used hdone => ⟨fun hlen => ?_, fun hlen =>
    ⟨fun heq => ?_, fun hne => ?_⟩⟩⟩
  · rw [inflate_eq, streamOutcome_eq_fail] at he
    rw [inflate_behindHeader h, he]
    rfl
  · rw [inflate_eq, streamOutcome_eq_more] at hmore
    rw [inflate_behindHeader h, hmore]
    rfl
  · rw [inflate_trailer h hdone, streamOutcome_trailer_short hlen]
  · rw [inflate_trailer h hdone, streamOutcome_trailer hlen, if_pos heq]
    congr 1
    omega
  · rw [inflate_trailer h hdone, streamOutcome_trailer hlen, if_neg hne]

end Sys2Proof.Machine

/-! The symbols of a compressed block (spec/45 R407, R410 to R413): what each symbol does to the decoder, and where one
stops it. -/

namespace Sys2Proof.Machine

/-! ## The copy (spec/45 R413) -/

/-- The byte `i` further on in a period that has just got its next byte. -/
theorem byteAt_period {d : Nat} {out : Bytes} (h1 : 1 ≤ d) (hd : d ≤ out.length) (i : Nat) :
    byteAt (out ++ [byteAt out (out.length - d)]) (out.length + 1 - d + i % d) =
      byteAt out (out.length - d + (i + 1) % d) := by
  have hlt := Nat.mod_lt i h1
  obtain hlast | hlast := Nat.lt_or_ge (i % d + 1) d
  · have hmod : (i + 1) % d = i % d + 1 := by
      rw [Nat.add_mod_eq_add_mod_right 1 (Nat.mod_mod i d).symm, Nat.mod_eq_of_lt hlast]
    rw [hmod, byteAt, byteAt, List.getD_append _ _ _ _ (by omega)]
    congr 1
    omega
  · have hmod : (i + 1) % d = 0 := by
      rw [Nat.add_mod_eq_add_mod_right 1 (Nat.mod_mod i d).symm, show i % d + 1 = d by omega, Nat.mod_self]
    rw [hmod, show out.length + 1 - d + i % d = out.length + 0 by omega, byteAt_append_right]
    rfl

/-- The copy repeats the last `d` bytes. -/
theorem repeatBack_eq {d : Nat} (k : Nat) {out : Bytes} (h1 : 1 ≤ d) (hd : d ≤ out.length) :
    repeatBack d k out = out ++ (List.range k).map fun i => byteAt out (out.length - d + i % d) := by
  induction k generalizing out with
  | zero => simp [repeatBack]
  | succ k ih =>
    have hlen : (out ++ [byteAt out (out.length - d)]).length = out.length + 1 := by simp
    rw [repeatBack, ih (by omega), hlen, List.append_assoc, List.range_succ_eq_map, List.map_cons, List.map_map]
    simp only [byteAt_period h1 hd, Nat.zero_mod, Nat.add_zero]
    rfl

/-! ## One match (spec/45 R412) -/

/-- A match behind its length. -/
def decodeDistance (k : Nat) (dt : List Code) (d : Decoder) : Except Stop Decoder := do
  let (dsym, d) ← needSymbol .decodeSymbols dt d
  demand (dsym ≤ 29) .invalidSymbol
  let (dx, d) ← needRead .decodeSymbols (distExtras.getD dsym 0) d
  let dist := distBases.getD dsym 0 + dx
  demand (dist ≤ d.rout.length) .invalidDistance
  .ok ⟨d.bits, d.pos, copyBack dist k d.rout⟩

theorem decodeMatch_beyond {sym : Nat} (h : 285 < sym) (dt : List Code) (d : Decoder) :
    decodeMatch sym dt d = .error (.fail .invalidSymbol) := by
  rw [decodeMatch, demand_bind, if_neg (Nat.not_le.2 h)]

section
variable {sym base width : Nat} (hge : 257 ≤ sym) (hle : sym ≤ 285) (hrow : lengthRow sym = (base, width))
include hge hle hrow

theorem decodeMatch_eq (dt : List Code) (d : Decoder) : decodeMatch sym dt d = (do
    let (lx, d) ← needRead .decodeSymbols width d
    decodeDistance (base + lx) dt d) := by
  obtain ⟨rfl, rfl⟩ := Prod.mk.inj ((lengthRow_eq hge hle).symm.trans hrow)
  rw [decodeMatch, demand_bind, if_pos hle]
  rfl

theorem decodeMatch_short {d : Decoder} (h : d.bits.length < width) (dt : List Code) :
    decodeMatch sym dt d = .error (.more d.rout.reverse .decodeSymbols) := by
  rw [decodeMatch_eq hge hle hrow, needRead_short h]
  rfl

theorem decodeMatch_length {d : Decoder} {lx : Nat} {bits : List Bool} (hlx : lx < 2 ^ width)
    (h : d.bits = bitsOf width lx ++ bits) (dt : List Code) :
    decodeMatch sym dt d = decodeDistance (base + lx) dt ⟨bits, d.pos + width, d.rout⟩ := by
  rw [decodeMatch_eq hge hle hrow, needRead_bits hlx h]
  rfl

end

section
variable {k : Nat} {d : Decoder}

theorem decodeDistance_short {dt : List Code} (h : decodeSymbol dt d.bits = .error .insufficientBits) :
    decodeDistance k dt d = .error (.more d.rout.reverse .decodeSymbols) := by
  rw [decodeDistance, needSymbol_short h]
  rfl

theorem decodeDistance_invalid {dt : List Code} (h : decodeSymbol dt d.bits = .error .invalidSymbol) :
    decodeDistance k dt d = .error (.fail .invalidSymbol) := by
  rw [decodeDistance, needSymbol_invalid h]
  rfl

variable {dt : List Code} {c : Nat} {code rest : List Bool} (hc : Decodes dt c code) (h : d.bits = code ++ rest)
include hc h

/-- A code that decodes, at a decoder that is about to read it. -/
theorem needSymbol_decodes (ph : Phase) : needSymbol ph dt d = .ok (c, ⟨rest, d.pos + code.length, d.rout⟩) :=
  needSymbol_ok (by rw [h, hc.eq_ok])

theorem decodeDistance_beyond (hbeyond : 29 < c) : decodeDistance k dt d = .error (.fail .invalidSymbol) := by
  rw [decodeDistance, needSymbol_decodes hc h]
  refine (demand_bind _).trans (if_neg (Nat.not_le.2 hbeyond))

variable (hle : c ≤ 29) {base width : Nat} (hrow : distRow c = (base, width))
include hle hrow

theorem decodeDistance_eq : decodeDistance k dt d = (do
    let (dx, d) ← needRead .decodeSymbols width ⟨rest, d.pos + code.length, d.rout⟩
    demand (base + dx ≤ d.rout.length) .invalidDistance
    .ok ⟨d.bits, d.pos, copyBack (base + dx) k d.rout⟩) := by
  obtain ⟨rfl, rfl⟩ := Prod.mk.inj ((distRow_eq (Nat.lt_succ_of_le hle)).symm.trans hrow)
  rw [decodeDistance, needSymbol_decodes hc h]
  exact (demand_bind _).trans (if_pos hle)

theorem decodeDistance_extra_short (hshort : rest.length < width) :
    decodeDistance k dt d = .error (.more d.rout.reverse .decodeSymbols) := by
  rw [decodeDistance_eq hc h hle hrow, needRead_short hshort]
  rfl

variable {dx : Nat} {after : List Bool} (hdx : dx < 2 ^ width) (hrest : rest = bitsOf width dx ++ after)
include hdx hrest

theorem decodeDistance_copy : decodeDistance k dt d =
    if base + dx ≤ d.rout.length then .ok ⟨after, d.pos + code.length + width, copyBack (base + dx) k d.rout⟩
    else .error (.fail .invalidDistance) := by
  rw [decodeDistance_eq hc h hle hrow, needRead_bits hdx hrest]
  exact demand_bind _

end

theorem distRow_base_pos {c base width : Nat} (hrow : distRow c = (base, width)) : 1 ≤ base := by
  rw [distRow] at hrow
  split at hrow <;> cases hrow <;> omega

/-! ## The loop (spec/45 R410, R411) -/

section
variable {lt dt : List Code} {fuel : Nat} {d : Decoder}

theorem decodeSymbols_short (h : decodeSymbol lt d.bits = .error .insufficientBits) :
    decodeSymbols lt dt (fuel + 1) d = .error (.more d.rout.reverse .decodeSymbols) := by
  rw [decodeSymbols, needSymbol_short h]
  rfl

theorem decodeSymbols_invalid (h : decodeSymbol lt d.bits = .error .invalidSymbol) :
    decodeSymbols lt dt (fuel + 1) d = .error (.fail .invalidSymbol) := by
  rw [decodeSymbols, needSymbol_invalid h]
  rfl

variable {sym : Nat} {code rest : List Bool} (hc : Decodes lt sym code) (h : d.bits = code ++ rest)
include hc h

theorem decodeSymbols_literal (hlit : sym < 256) : decodeSymbols lt dt (fuel + 1) d =
    decodeSymbols lt dt fuel ⟨rest, d.pos + code.length, BitVec.ofNat 8 sym :: d.rout⟩ := by
  rw [decodeSymbols, needSymbol_decodes hc h]
  exact if_pos hlit

theorem decodeSymbols_end (hend : sym = 256) :
    decodeSymbols lt dt (fuel + 1) d = .ok ⟨rest, d.pos + code.length, d.rout⟩ := by
  rw [decodeSymbols, needSymbol_decodes hc h]
  exact (if_neg (by omega)).trans (if_pos hend)

theorem decodeSymbols_match (hmatch : 256 < sym) : decodeSymbols lt dt (fuel + 1) d =
    decodeMatch sym dt ⟨rest, d.pos + code.length, d.rout⟩ >>= decodeSymbols lt dt fuel := by
  rw [decodeSymbols, needSymbol_decodes hc h]
  exact (if_neg (by omega)).trans (if_neg (by omega))

end

/-- Settles O47: each symbol by its value, and a match field by field. -/
theorem backReferenceCopy : Obligations.BackReferenceCopy := by
  refine ⟨fun dist k out h1 hd => ?_, fun _ => rfl, fun ll dt fuel d hll => ⟨decodeSymbols_short, decodeSymbols_invalid,
    fun sym rest hsym hused hbits => ?_⟩, fun _ dt d h => decodeMatch_beyond h dt d,
    fun sym base width dl d hge hle hrow hdl => ⟨fun h => decodeMatch_short hge hle hrow h _,
      fun lx bits hlx hbits => ?_⟩⟩
  · rw [copyBack_reverse k h1 hd, List.reverse_reverse]
    exact ⟨repeatBack_eq k h1 hd, rfl⟩
  · have hc := decodes_codeBits hll hused
    rw [← length_codeBits ll sym]
    refine ⟨decodeSymbols_literal hc hbits, decodeSymbols_end hc hbits, fun hmatch => ?_⟩
    rw [decodeSymbols_match hc hbits hmatch]
    refine ⟨fun stop hstop => ?_, fun t ht => ?_⟩
    · rw [hstop]
      rfl
    · rw [ht]
      rfl
  · rw [decodeMatch_length hge hle hrow hlx hbits]
    refine ⟨fun h => decodeDistance_short h, fun h => decodeDistance_invalid h,
      fun dsym dbase dwidth rest hdsym hdused hcode hdrow => ?_⟩
    have hc := decodes_codeBits hdl hdused
    rw [← length_codeBits dl dsym]
    refine ⟨decodeDistance_beyond hc hcode, fun hdle => ⟨decodeDistance_extra_short hc hcode hdle hdrow,
      fun dx after hdx hrest => ?_⟩⟩
    rw [decodeDistance_copy hc hcode hdle hdrow hdx hrest]
    refine ⟨fun hfar => if_neg (Nat.not_le.2 hfar), fun hback => (if_pos hback).trans ?_⟩
    have hbase := distRow_base_pos hdrow
    rw [← copyBack_reverse (base + lx) (by omega) (by rwa [List.length_reverse]), List.reverse_reverse]

end Sys2Proof.Machine

/-! The checks of the decoder's headers (spec/45 R400 to R408): the zlib header, the header of a block, the two lengths
of a stored block, and the tables of a dynamic block. -/

namespace Sys2Proof.Machine

/-! ## The zlib header (spec/45 R401, R402) -/

/-- Nothing behind the header raises its error. -/
theorem inflate_badZlibHeader_iff (cmf flg : Byte) (body : Bytes) :
    inflate (cmf :: flg :: body) true = .fail .badZlibHeader ↔ ¬ ZlibHeaderOk cmf flg := by
  refine ⟨fun hfail h => ?_, fun h => inflate_zlib_bad h body⟩
  rw [inflate_zlib_good h, streamOutcome_eq_fail] at hfail
  have hruns := reads_wrappedStream.runsOn (k := 0) (more := []) (behindHeader body) (whole_behindHeader body)
  rw [hfail] at hruns
  exact hruns rfl

/-! ## Reads that have bits enough, and those that have not -/

theorem needRead_long (ph : Phase) {n : Nat} {d : Decoder} (h : n ≤ d.bits.length) :
    ∃ v rest, rest.length + n = d.bits.length ∧ needRead ph n d = .ok (v, ⟨rest, d.pos + n, d.rout⟩) := by
  cases htake : takeBits n d.bits with
  | none => exact absurd (takeBits_eq_none.1 htake) (Nat.not_lt.2 h)
  | some r =>
    obtain ⟨v, rest⟩ := r
    obtain ⟨hv, hbits⟩ := takeBits_eq_some.1 htake
    exact ⟨v, rest, by rw [hbits, List.length_append, length_bitsOf, Nat.add_comm], needRead_bits hv hbits⟩

/-- A read that asks for more input, or one behind it that does. -/
theorem needRead_bind_short {β : Type} {ph : Phase} {n : Nat} {d : Decoder} {g : Nat × Decoder → Except Stop β}
    (h : ∀ v rest pos, rest.length + n = d.bits.length →
      g (v, ⟨rest, pos, d.rout⟩) = .error (.more d.rout.reverse ph)) :
    (needRead ph n d >>= g) = .error (.more d.rout.reverse ph) := by
  obtain hlt | hle := Nat.lt_or_ge d.bits.length n
  · rw [needRead_short hlt]
    rfl
  · obtain ⟨v, rest, hlen, hread⟩ := needRead_long ph hle
    rw [hread]
    exact h v rest _ hlen

/-! ## The header of a block (spec/45 R403, R405) -/

theorem decodeBlocks_short {fuel : Nat} {d : Decoder} (h : d.bits.length < 3) :
    decodeBlocks (fuel + 1) d = .error (.more d.rout.reverse .readBlockHeader) :=
  needRead_bind_short fun _ _ _ hlen => by
    dsimp only
    rw [needRead_short (by dsimp only; omega)]
    rfl

theorem decodeBlocks_step {fuel : Nat} {d : Decoder} {final b0 b1 : Bool} {rest : List Bool}
    (h : d.bits = final :: b0 :: b1 :: rest) : decodeBlocks (fuel + 1) d =
      decodeBody (b0.toNat + 2 * b1.toNat) ⟨rest, d.pos + 3, d.rout⟩ >>= fun t =>
        if final then .ok t else decodeBlocks fuel t := by
  have htype : needRead .readBlockHeader 2 ⟨b0 :: b1 :: rest, d.pos + 1, d.rout⟩ =
      .ok (b0.toNat + 2 * b1.toNat, ⟨rest, d.pos + 3, d.rout⟩) := by
    simp [needRead, takeBits]
  have hfinal : needRead .readBlockHeader 1 d = .ok (final.toNat, ⟨b0 :: b1 :: rest, d.pos + 1, d.rout⟩) := by
    simp [needRead, takeBits, h]
  rw [decodeBlocks, hfinal]
  dsimp only [bind, Except.bind]
  rw [htype]
  cases final <;> rfl

theorem decodeBlocks_reserved {fuel : Nat} {d : Decoder} {final : Bool} {rest : List Bool}
    (h : d.bits = final :: true :: true :: rest) :
    decodeBlocks (fuel + 1) d = .error (.fail .invalidBlockType) := by
  rw [decodeBlocks_step h]
  rfl

/-! ## A raw stream from its blocks (spec/45 R400, R414) -/

section
variable {bytes : Bytes}

theorem inflate_raw_eq (bytes : Bytes) : inflate bytes false =
    streamOutcome (decodeBlocks (8 * bytes.length + 1) (streamStart bytes) >>= fun t => .ok (alignDecoder t)) := by
  rw [inflate_eq, decodeStream_false, streamStart, length_streamBits]

theorem inflate_raw_of_error {stop : Stop} (h : decodeBlocks (8 * bytes.length + 1) (streamStart bytes) = .error stop) :
    inflate bytes false = streamOutcome (.error stop) := by
  rw [inflate_raw_eq, h]
  rfl

theorem inflate_raw_of_ok {t : Decoder} (h : decodeBlocks (8 * bytes.length + 1) (streamStart bytes) = .ok t) :
    inflate bytes false = .done t.rout.reverse ((t.pos + 7) / 8) := by
  have hpos : (t.pos + (8 - t.pos % 8) % 8) / 8 = (t.pos + 7) / 8 := by omega
  rw [inflate_raw_eq, h, ← hpos]
  rfl

end

/-- The first byte of a raw stream: its first bit is `BFINAL`, the next two are `BTYPE`. -/
theorem decodeBlocks_firstByte (fuel : Nat) (b : Byte) (rest : Bytes) :
    decodeBlocks (fuel + 1) (streamStart (b :: rest)) =
      decodeBody (b.extractLsb' 1 2).toNat ⟨(byteBits b).drop 3 ++ streamBits rest, 3, []⟩ >>= fun t =>
        if b.getLsbD 0 then .ok t else decodeBlocks fuel t := by
  have htype : ∀ b : Byte, (b.getLsbD 1).toNat + 2 * (b.getLsbD 2).toNat = (b.extractLsb' 1 2).toNat := by decide
  rw [← htype]
  exact decodeBlocks_step rfl

theorem inflate_reserved {b : Byte} (h : b.extractLsb' 1 2 = 3) (rest : Bytes) :
    inflate (b :: rest) false = .fail .invalidBlockType := by
  refine inflate_raw_of_error (stop := .fail .invalidBlockType) ?_
  rw [decodeBlocks_firstByte, h]
  rfl

/-! ## Stored blocks (spec/45 R406) -/

theorem eq_xor_iff {len nlen : Half} : len.toNat = nlen.toNat ^^^ 0xFFFF ↔ len = ~~~ nlen := by
  have hlt := nlen.isLt
  rw [xor_eq_sub (Nat.le_of_lt_succ hlt), ← BitVec.toNat_inj, BitVec.toNat_not]

section
variable {d : Decoder} {len nlen : Half} {rest : List Bool}
  (h : (alignDecoder d).bits = bitsOf 16 len.toNat ++ bitsOf 16 nlen.toNat ++ rest)
include h

theorem decodeStored_header : decodeStored d = if len = ~~~ nlen then (do
      let (bytes, d) ← needBytes .stored len.toNat ⟨rest, (alignDecoder d).pos + 32, d.rout⟩
      .ok ⟨d.bits, d.pos, bytes.reverse ++ d.rout⟩)
    else .error (.fail .storedLengthMismatch) := by
  rw [List.append_assoc] at h
  rw [decodeStored_eq]
  dsimp only [bind, Except.bind]
  rw [needRead_bits len.isLt h]
  dsimp only
  rw [needRead_bits nlen.isLt rfl]
  exact (demand_bind _).trans (if_congr eq_xor_iff rfl rfl)

theorem decodeStored_mismatch (hne : len ≠ ~~~ nlen) : decodeStored d = .error (.fail .storedLengthMismatch) := by
  rw [decodeStored_header h, if_neg hne]

theorem decodeStored_short (heq : len = ~~~ nlen) (hshort : rest.length < 8 * len.toNat) :
    decodeStored d = .error (.more d.rout.reverse .stored) := by
  rw [decodeStored_header h, if_pos heq, needBytes, takeBytes_eq_none.2 hshort]
  rfl

theorem decodeStored_copy (heq : len = ~~~ nlen) {data : Bytes} {after : List Bool}
    (hrest : rest = streamBits data ++ after) (hlen : data.length = len.toNat) :
    decodeStored d = .ok ⟨after, (alignDecoder d).pos + 32 + 8 * len.toNat, data.reverse ++ d.rout⟩ := by
  rw [decodeStored_header h, if_pos heq, needBytes, takeBytes_eq_some.2 ⟨hlen, hrest⟩]
  rfl

end

section
variable {b : Byte} (hb : b.extractLsb' 1 2 = 0) (len nlen : Half) (rest : Bytes)

/-- A stored block as the first one: five bits of padding, and the two lengths. -/
theorem alignDecoder_storedHeader (b : Byte) :
    (alignDecoder ⟨(byteBits b).drop 3 ++ streamBits (u16le len ++ u16le nlen ++ rest), 3, []⟩).bits =
      bitsOf 16 len.toNat ++ bitsOf 16 nlen.toNat ++ streamBits rest := by
  rw [← streamBits_u16le, ← streamBits_u16le, ← streamBits_append, ← streamBits_append]
  rfl

include hb

theorem decodeBlocks_stored (fuel : Nat) :
    decodeBlocks (fuel + 1) (streamStart ([b] ++ u16le len ++ u16le nlen ++ rest)) =
      decodeStored ⟨(byteBits b).drop 3 ++ streamBits (u16le len ++ u16le nlen ++ rest), 3, []⟩ >>= fun t =>
        if b.getLsbD 0 then .ok t else decodeBlocks fuel t := by
  have hfirst := decodeBlocks_firstByte fuel b (u16le len ++ u16le nlen ++ rest)
  rw [hb] at hfirst
  exact hfirst

variable {len nlen rest}

theorem inflate_stored_mismatch (hne : len ≠ ~~~ nlen) :
    inflate ([b] ++ u16le len ++ u16le nlen ++ rest) false = .fail .storedLengthMismatch := by
  refine inflate_raw_of_error (stop := .fail .storedLengthMismatch) ?_
  rw [decodeBlocks_stored hb, decodeStored_mismatch (alignDecoder_storedHeader len nlen rest b) hne]
  rfl

theorem inflate_stored_short (heq : len = ~~~ nlen) (hlen : rest.length < len.toNat) :
    inflate ([b] ++ u16le len ++ u16le nlen ++ rest) false = .more [] .stored := by
  refine inflate_raw_of_error (stop := .more [] .stored) ?_
  rw [decodeBlocks_stored hb, decodeStored_short (alignDecoder_storedHeader len nlen rest b) heq
    (by rw [length_streamBits]; omega)]
  rfl

theorem inflate_stored_final (heq : len = ~~~ nlen) (hlen : len.toNat ≤ rest.length) (hfinal : b.getLsbD 0 = true) :
    inflate ([b] ++ u16le len ++ u16le nlen ++ rest) false = .done (rest.take len.toNat) (5 + len.toNat) := by
  have hbits : streamBits rest = streamBits (rest.take len.toNat) ++ streamBits (rest.drop len.toNat) := by
    rw [← streamBits_append, List.take_append_drop]
  have hblocks (fuel : Nat) := decodeBlocks_stored hb len nlen rest fuel
  rw [decodeStored_copy (alignDecoder_storedHeader len nlen rest b) heq hbits (List.length_take_of_le hlen)] at hblocks
  have hpos : (8 + 32 + 8 * len.toNat + 7) / 8 = 5 + len.toNat := by omega
  rw [inflate_raw_of_ok ((hblocks _).trans (if_pos hfinal)), ← hpos]
  simp [alignDecoder]

end

/-! ## The counts and the tables of a dynamic block (spec/45 R408) -/

theorem decodeBody_dynamic (d : Decoder) : decodeBody 2 d = (do
    let (tables, d) ← readTables d
    decodeSymbols tables.1 tables.2 (d.bits.length + 1) d) := rfl

/-- The two tables of a sequence of code lengths. -/
def splitTables (nlit : Nat) (seq : List Nat) : Except Stop (List Code × List Code) := do
  demand ((seq.take nlit).getD 256 0 ≠ 0) .invalidCodeLength
  let lt ← buildCodes (seq.take nlit)
  let dt ← buildCodes (seq.drop nlit)
  .ok (lt, dt)

/-- The table header behind its three counts. -/
def tablesBehindCounts (nlit ndist nclen : Nat) (d : Decoder) :
    Except Stop ((List Code × List Code) × Decoder) := do
  let (cl, d) ← readClens (clenOrder.take nclen) (List.replicate 19 0) d
  let ct ← buildCodes cl
  let (seq, d) ← readLengths ct (nlit + ndist) (nlit + ndist) [] d
  let tables ← splitTables nlit seq
  .ok (tables, d)

theorem readTables_eq (d : Decoder) : readTables d = (do
    let (hlit, d) ← needRead .dynamicTable 5 d
    let (hdist, d) ← needRead .dynamicTable 5 d
    let (hclen, d) ← needRead .dynamicTable 4 d
    demand (hlit + 257 ≤ 286 ∧ hdist + 1 ≤ 30) .invalidCodeLength
    tablesBehindCounts (hlit + 257) (hdist + 1) (hclen + 4) d) := by
  simp only [readTables, tablesBehindCounts, splitTables, bind_assoc]
  rfl

theorem readTables_short {d : Decoder} (h : d.bits.length < 14) :
    readTables d = .error (.more d.rout.reverse .dynamicTable) := by
  rw [readTables_eq]
  refine needRead_bind_short fun _ _ _ h1 => needRead_bind_short (d := ⟨_, _, d.rout⟩) fun _ _ _ h2 => ?_
  dsimp only at h2 ⊢
  rw [needRead_short (by dsimp only; omega)]
  rfl

theorem readTables_counts {d : Decoder} {hlit hdist hclen : Nat} {rest : List Bool} (h1 : hlit < 32) (h2 : hdist < 32)
    (h3 : hclen < 16) (h : d.bits = bitsOf 5 hlit ++ bitsOf 5 hdist ++ bitsOf 4 hclen ++ rest) :
    readTables d = if hlit + 257 ≤ 286 ∧ hdist + 1 ≤ 30 then
        tablesBehindCounts (hlit + 257) (hdist + 1) (hclen + 4) ⟨rest, d.pos + 14, d.rout⟩
      else .error (.fail .invalidCodeLength) := by
  rw [List.append_assoc, List.append_assoc] at h
  rw [readTables_eq, needRead_bits h1 h]
  dsimp only [bind, Except.bind]
  rw [needRead_bits h2 rfl]
  dsimp only
  rw [needRead_bits h3 rfl]
  exact demand_bind _

/-! ## Tables that are over-subscribed -/

theorem buildCodes_overflow {lengths : List Nat} (h15 : ∀ l ∈ lengths, l ≤ 15) (h : ¬ LegalTable lengths) :
    buildCodes lengths = .error (.fail .overflow) := by
  have hkraft : ¬ kraftFits lengths maxCodeLen 1 1 = true := fun hfits =>
    h ((validateLengths_ok (u := ())).1 (bind_ok.2 ⟨(), require_ok.2 h15, require_ok.2 hfits⟩))
  have hvalidate : validateLengths lengths = .error .overflow :=
    bind_error.2 (.inr ⟨(), require_ok.2 h15, require_error.2 ⟨hkraft, rfl⟩⟩)
  rw [buildCodes, hvalidate]
  rfl

section
variable {nlit : Nat} {seq : List Nat}

theorem splitTables_no_end (h : (seq.take nlit).getD 256 0 = 0) :
    splitTables nlit seq = .error (.fail .invalidCodeLength) :=
  (demand_bind _).trans (if_neg (not_not.2 h))

variable (hend : (seq.take nlit).getD 256 0 ≠ 0)
include hend

theorem splitTables_ok (hlit : LegalTable (seq.take nlit)) (hdist : LegalTable (seq.drop nlit)) :
    splitTables nlit seq = .ok (tableCodes (seq.take nlit), tableCodes (seq.drop nlit)) := by
  rw [splitTables, demand_bind, if_pos hend, buildCodes_ok hlit, buildCodes_ok hdist]
  rfl

theorem splitTables_overflow (h15 : ∀ l ∈ seq, l ≤ 15)
    (h : ¬ LegalTable (seq.take nlit) ∨ ¬ LegalTable (seq.drop nlit)) :
    splitTables nlit seq = .error (.fail .overflow) := by
  rw [splitTables, demand_bind, if_pos hend]
  by_cases hlit : LegalTable (seq.take nlit)
  · have hdist := h.resolve_left (not_not.2 hlit)
    rw [buildCodes_ok hlit, buildCodes_overflow (fun l hl => h15 l (List.mem_of_mem_drop hl)) hdist]
    rfl
  · rw [buildCodes_overflow (fun l hl => h15 l (List.mem_of_mem_take hl)) hlit]
    rfl

end

/-! ## The code-length code, and what follows it -/

section
variable {nlit ndist nclen : Nat} {d : Decoder}

theorem length_take_clenOrder (h : nclen ≤ 19) : (clenOrder.take nclen).length = nclen := List.length_take_of_le h

theorem tablesBehindCounts_short (hn : nclen ≤ 19) (h : d.bits.length < 3 * nclen) :
    tablesBehindCounts nlit ndist nclen d = .error (.more d.rout.reverse .dynamicTable) := by
  rw [tablesBehindCounts, readClens_short (by rwa [length_take_clenOrder hn])]
  rfl

variable {values : List Nat} {after : List Bool} (hlen : values.length = nclen) (hn : nclen ≤ 19)
  (hvalues : ∀ v ∈ values, v < 8) (h : d.bits = values.flatMap (bitsOf 3) ++ after)
include hlen hn hvalues h

theorem tablesBehindCounts_clens : tablesBehindCounts nlit ndist nclen d = (do
    let ct ← buildCodes (clenTable values)
    let (seq, d) ← readLengths ct (nlit + ndist) (nlit + ndist) [] ⟨after, d.pos + 3 * nclen, d.rout⟩
    let tables ← splitTables nlit seq
    .ok (tables, d)) := by
  have horder := length_take_clenOrder hn
  have hplaced := placed_clens (hlen.trans_le hn)
  rw [hlen] at hplaced
  rw [tablesBehindCounts, readClens_ok (hlen.trans horder.symm) hvalues h, hplaced, horder]
  rfl

omit hlen hn h in
theorem clenTable_le : ∀ l ∈ clenTable values, l ≤ 15 := by
  intro l hl
  obtain ⟨sym, -, rfl⟩ := List.mem_map.1 hl
  exact getD_le_of_forall (fun v hv => (Nat.le_of_lt (hvalues v hv)).trans (by decide)) _

theorem tablesBehindCounts_overflow (hlegal : ¬ LegalTable (clenTable values)) :
    tablesBehindCounts nlit ndist nclen d = .error (.fail .overflow) := by
  rw [tablesBehindCounts_clens hlen hn hvalues h, buildCodes_overflow (clenTable_le hvalues) hlegal]
  rfl

variable (hlegal : LegalTable (clenTable values))
include hlegal

theorem tablesBehindCounts_stop {stop : Stop} (hread : readLengths (tableCodes (clenTable values)) (nlit + ndist)
      (nlit + ndist) [] ⟨after, d.pos + 3 * nclen, d.rout⟩ = .error stop) :
    tablesBehindCounts nlit ndist nclen d = .error stop := by
  rw [tablesBehindCounts_clens hlen hn hvalues h, buildCodes_ok hlegal]
  dsimp only [bind, Except.bind]
  rw [hread]

theorem tablesBehindCounts_lengths {seq : List Nat} {t : Decoder} (hread : readLengths (tableCodes (clenTable values))
      (nlit + ndist) (nlit + ndist) [] ⟨after, d.pos + 3 * nclen, d.rout⟩ = .ok (seq, t)) :
    tablesBehindCounts nlit ndist nclen d = (do
      let tables ← splitTables nlit seq
      .ok (tables, t)) := by
  rw [tablesBehindCounts_clens hlen hn hvalues h, buildCodes_ok hlegal]
  dsimp only [bind, Except.bind]
  rw [hread]

end

/-! ## The sequence of code lengths (spec/45 R408) -/

section
variable {ct : List Code} {total fuel : Nat} {seq : List Nat} {d : Decoder}

theorem readLengths_full (h : total ≤ seq.length) : readLengths ct total fuel seq d = .ok (seq, d) := by
  cases fuel with
  | zero => rfl
  | succ fuel => exact if_pos h

variable (hlt : seq.length < total)
include hlt

theorem readLengths_short (h : decodeSymbol ct d.bits = .error .insufficientBits) :
    readLengths ct total (fuel + 1) seq d = .error (.more d.rout.reverse .dynamicTable) := by
  rw [readLengths, if_neg (Nat.not_le.2 hlt), needSymbol_short h]
  rfl

theorem readLengths_invalid (h : decodeSymbol ct d.bits = .error .invalidSymbol) :
    readLengths ct total (fuel + 1) seq d = .error (.fail .invalidSymbol) := by
  rw [readLengths, if_neg (Nat.not_le.2 hlt), needSymbol_invalid h]
  rfl

variable {sym : Nat} {code rest : List Bool} (hc : Decodes ct sym code) (h : d.bits = code ++ rest)
include hc h

/-- One symbol, by the lengths it adds. -/
theorem readLengths_symbol : readLengths ct total (fuel + 1) seq d = (do
    let (vs, d) ← clenValues sym seq ⟨rest, d.pos + code.length, d.rout⟩
    if seq.length + vs.length ≤ total then readLengths ct total fuel (seq ++ vs) d
    else .error (.fail .invalidCodeLength)) := by
  rw [readLengths, if_neg (Nat.not_le.2 hlt), needSymbol_decodes hc h]
  refine bind_congr (x := clenValues sym seq ⟨rest, d.pos + code.length, d.rout⟩) fun r => ?_
  exact (demand_bind _).trans (if_congr (by rw [List.length_append]) rfl rfl)

theorem readLengths_plain (hsym : sym < 16) : readLengths ct total (fuel + 1) seq d =
    readLengths ct total fuel (seq ++ [sym]) ⟨rest, d.pos + code.length, d.rout⟩ := by
  rw [readLengths_symbol hlt hc h, clenValues, if_pos hsym]
  exact if_pos hlt

theorem readLengths_no_previous (hsym : sym = 16) (hseq : seq = []) :
    readLengths ct total (fuel + 1) seq d = .error (.fail .invalidCodeLength) := by
  subst hsym hseq
  rw [readLengths_symbol hlt hc h]
  rfl

section
variable {width extra count len : Nat} (hrep : IsRepeat seq sym width extra count len)
include hrep

omit hlt hc h in
theorem clenValues_short {d : Decoder} (hshort : d.bits.length < width) :
    clenValues sym seq d = .error (.more d.rout.reverse .dynamicTable) := by
  obtain ⟨rfl, rfl, -, hlast⟩ | ⟨rfl, rfl, -⟩ | ⟨rfl, rfl, -⟩ := hrep
  · rw [clenValues, if_neg (by decide), if_pos rfl, hlast]
    dsimp only
    rw [needRead_short hshort]
    rfl
  · rw [clenValues, if_neg (by decide), if_neg (by decide), if_pos rfl, needRead_short hshort]
    rfl
  · rw [clenValues, if_neg (by decide), if_neg (by decide), if_neg (by decide), needRead_short hshort]
    rfl

theorem readLengths_extra_short (hshort : rest.length < width) :
    readLengths ct total (fuel + 1) seq d = .error (.more d.rout.reverse .dynamicTable) := by
  rw [readLengths_symbol hlt hc h, clenValues_short hrep hshort]
  rfl

theorem readLengths_repeat (hextra : extra < 2 ^ width) {after : List Bool}
    (hrest : rest = bitsOf width extra ++ after) :
    readLengths ct total (fuel + 1) seq d = if seq.length + count ≤ total then
        readLengths ct total fuel (seq ++ List.replicate count len) ⟨after, d.pos + code.length + width, d.rout⟩
      else .error (.fail .invalidCodeLength) := by
  rw [readLengths_symbol hlt hc h, hrest, clenValues_rep hrep hextra]
  exact if_congr (by rw [List.length_replicate]) rfl rfl

end

end

/-- Settles O48: each header is read field by field, and each check comes where its field has been read. -/
theorem headerChecks : Obligations.HeaderChecks := by
  refine ⟨fun cmf flg rest => ?_, fun b rest hb => inflate_reserved hb rest,
    fun fuel d final rest => decodeBlocks_reserved,
    fun d len nlen rest h => ⟨decodeStored_mismatch h, decodeStored_short h,
      fun heq data after => decodeStored_copy h heq⟩,
    fun b len nlen rest hb => ⟨inflate_stored_mismatch hb, inflate_stored_short hb, inflate_stored_final hb⟩,
    fun bytes => ⟨fun e => inflate_raw_of_error, fun out ph => inflate_raw_of_error, fun t => inflate_raw_of_ok⟩,
    fun fuel d => ⟨decodeBlocks_short, fun final b0 b1 rest h => ⟨fun stop hstop => ?_, fun t ht => ?_⟩⟩,
    fun d => ⟨fun stop hstop => ?_, fun lt dt t ht => ?_⟩, fun d => ⟨readTables_short,
      fun hlit hdist hclen rest h1 h2 h3 h => ⟨fun hbad => ?_, fun hnlit hndist => ?_⟩⟩,
    fun cl total fuel seq d hcl => ⟨readLengths_full, fun hlt => ⟨readLengths_short hlt, readLengths_invalid hlt,
      fun sym rest hsym hused hbits => ?_⟩⟩⟩
  · rw [inflate_badZlibHeader_iff]
    simp only [ZlibHeaderOk, not_and_or, Nat.not_le, Bool.not_eq_false, ne_eq, gt_iff_lt]
  · rw [decodeBlocks_step h, hstop]
    rfl
  · rw [decodeBlocks_step h, ht]
    rfl
  · rw [decodeBody_dynamic, hstop]
    rfl
  · rw [decodeBody_dynamic, ht]
    rfl
  · rw [readTables_counts h1 h2 h3 h, if_neg (by omega)]
  · have hn : hclen + 4 ≤ 19 := by omega
    rw [readTables_counts h1 h2 h3 h, if_pos ⟨hnlit, hndist⟩]
    refine ⟨fun hshort => tablesBehindCounts_short hn hshort, fun values cl after hlen hvalues hcl hrest => ?_⟩
    subst hcl
    refine ⟨tablesBehindCounts_overflow hlen hn hvalues hrest, fun hlegal total start htotal hstart => ?_⟩
    subst htotal hstart
    refine ⟨fun stop hstop => tablesBehindCounts_stop hlen hn hvalues hrest hlegal hstop,
      fun seq ll dl t hread hll hdl => ?_⟩
    subst hll hdl
    obtain ⟨hseq, h15⟩ := readLengths_ok hread (Nat.le_add_left _ _) (Nat.zero_le _) (List.forall_mem_nil _)
    rw [tablesBehindCounts_lengths hlen hn hvalues hrest hlegal hread]
    refine ⟨List.length_take_of_le (by omega), by rw [List.length_drop]; omega, fun hend => ?_, fun hend =>
      ⟨fun hbad => ?_, fun hlit hdist => ?_⟩⟩
    · rw [splitTables_no_end hend]
      rfl
    · rw [splitTables_overflow hend h15 hbad]
      rfl
    · rw [splitTables_ok hend hlit hdist]
      rfl
  · have hc := decodes_codeBits hcl hused
    rw [← length_codeBits cl sym]
    refine ⟨readLengths_plain hlt hc hbits, readLengths_no_previous hlt hc hbits,
      fun width extra count len hrep hextra => ⟨readLengths_extra_short hlt hc hbits hrep, fun after hrest => ?_⟩⟩
    rw [readLengths_repeat hlt hc hbits hrep hextra hrest]
    exact ⟨fun hover => if_neg (Nat.not_le.2 hover), fun hfits => if_pos hfits⟩

end Sys2Proof.Machine

/-! The zip codec's modes (spec/46 R450): which mode a command is legal in, which one it leaves; and locating the EOCD
(R461, R462). -/

namespace Sys2Proof.Machine

/-! ## The commands' outcomes -/

/-- A command that reports no error is one whose checks all passed (spec/60 R532). -/
theorem complete_succeeded {s t : State} {r : Except Error State} (h : complete s r = .next t)
    (h0 : errField t.status = 0) : ∃ u, r = .ok u ∧ t = report none u := by
  obtain hok | ⟨e, -, rfl⟩ := complete_next.1 h
  · exact hok
  · rw [errField_report] at h0
    exact absurd h0 (errorCode_ne_zero e)

/-- A command that reports an error is one of whose checks failed, and it is rolled back (spec/60 R533). -/
theorem complete_failed {s t : State} {r : Except Error State} (h : complete s r = .next t)
    (h0 : errField t.status ≠ 0) : ∃ e, t = report (some e) s := by
  obtain ⟨u, -, rfl⟩ | ⟨e, -, ht⟩ := complete_next.1 h
  · exact absurd (errField_report none u) h0
  · exact ⟨e, ht⟩

theorem requireReader_error {s : State} (h : s.zip.mode ≠ .reader) : requireReader s = .error .wrongMode :=
  require_error.2 ⟨h, rfl⟩

theorem requireWriter_error {s : State} (h : s.zip.mode ≠ .writer) : requireWriter s = .error .wrongMode :=
  require_error.2 ⟨h, rfl⟩

/-! ## Adding an entry (spec/46 R482, R484) -/

/-- What the two adding commands share behind their operands' checks. -/
def addNamed (s : State) (nm : Bytes) (mode : Half) (attr : Word) (method : Half) (data payload : Bytes) :
    Except Error State := do
  addChecks s nm
  addEntry s nm mode attr method data payload

theorem exec_zipAddFile (level : BitVec 4) (store : Bool) (s : State) :
    exec (.zipAddFile level store) s = complete s (do
      requireWriter s
      let mode ← unixModeOperand s
      let l ← levelOperand level
      addNamed s s.name mode 0 (if store then 0 else 8) s.inp
        (if store then s.inp else deflateBody s.params s.inp l)) := by
  cases store <;> rfl

theorem exec_zipAddDir (s : State) :
    exec .zipAddDir s = complete s (do
      requireWriter s
      let mode ← unixModeOperand s
      addNamed s (directoryName s.name) mode 0x10 0 [] []) := rfl

/-! ## The mode a command leaves (spec/46 R450) -/

section
variable {i : Instr} {s t : State}

/-- A command in a mode that is not its own fails at its first check. -/
theorem exec_illegal_mode (h : legalMode i s.zip.mode = false) : exec i s = .next (report (some .wrongMode) s) := by
  cases i with
  | zipOpenRead | zipCreate | zipOpenAppend =>
    exact complete_error_bind (requireNotWriter_error.2 ⟨by simpa [legalMode] using h, rfl⟩)
  | zipEntryInfo | zipEntryName | zipExtract =>
    exact complete_error_bind (requireReader_error (by simpa [legalMode] using h))
  | zipAddFile | zipAddDir | zipFinalize =>
    exact complete_error_bind (requireWriter_error (by simpa [legalMode] using h))
  | _ => cases h

/-- A success leaves the mode that the command's effects leave. -/
theorem mode_of_complete {r : Except Error State} {m : ZipMode} (h : complete s r = .next t)
    (h0 : errField t.status = 0) (hr : ∀ u, r = .ok u → u.zip.mode = m) : t.zip.mode = m := by
  obtain ⟨u, hu, rfl⟩ := complete_succeeded h h0
  exact hr u hu

/-- An instruction that does not write `ZIP` leaves its mode. -/
theorem mode_of_frame (h : exec i s = .next t) (hi : .zip ∉ mayWrite i) : t.zip.mode = s.zip.mode :=
  congrArg Zip.mode (sameItem_of_writes (exec_ends h).writes hi)

theorem zip_notMem_slotItem (slot : BitVec 2) : .zip ∉ slotItem slot := by
  unfold slotItem
  split_ifs <;> decide

theorem mode_of_openArchive {kept : Word → Bytes} {mode : ZipMode} (h : openArchive kept mode s = .ok t) :
    t.zip.mode = mode := by
  simp only [openArchive, bind_ok] at h
  obtain ⟨-, -, ⟨index, off⟩, -, -, -, n, -, h⟩ := h
  cases h
  rfl

theorem mode_of_addNamed {nm : Bytes} {mode : Half} {attr : Word} {method : Half} {data payload : Bytes}
    (h : addNamed s nm mode attr method data payload = .ok t) : t.zip.mode = s.zip.mode := by
  obtain ⟨-, -, h⟩ := bind_ok.1 h
  obtain ⟨-, e, -, -, rfl⟩ := addEntry_ok.1 h
  rfl

theorem mode_of_finalizeArchive (h : finalizeArchive s = .ok t) : t.zip.mode = .closed := by
  obtain ⟨-, -, -, img, -, -, -, rfl⟩ := finalizeArchive_ok.1 h
  rfl

end

/-! ## `ZIP_CLOSE` (spec/46 R489) -/

section
variable {s t : State}

theorem exec_zipClose_not_writer (hm : s.zip.mode ≠ .writer) :
    exec .zipClose s = .next (report none { s with zip := Zip.reset }) := if_neg hm

theorem exec_zipClose_finalized (hm : s.zip.mode = .writer) (h : finalizeArchive s = .ok t) :
    exec .zipClose s = .next (report none { t with zip := Zip.reset }) := by
  change execZipClose s = _
  rw [execZipClose, if_pos hm, h]
  rfl

theorem exec_zipClose_not_finalized {e : Error} (hm : s.zip.mode = .writer) (h : finalizeArchive s = .error e) :
    exec .zipClose s = .next (report (some e) { s with zip := Zip.reset }) := by
  change execZipClose s = _
  rw [execZipClose, if_pos hm, h]

/-- Whatever becomes of a writer's archive, no archive is left. -/
theorem mode_of_zipClose (h : exec .zipClose s = .next t) : t.zip.mode = .idle := by
  by_cases hm : s.zip.mode = .writer
  · cases hf : finalizeArchive s with
    | ok u => cases (exec_zipClose_finalized hm hf).symm.trans h; rfl
    | error e => cases (exec_zipClose_not_finalized hm hf).symm.trans h; rfl
  · cases (exec_zipClose_not_writer hm).symm.trans h; rfl

end

/-- The mode after a success. Only an instruction that writes `ZIP` can change it. -/
theorem mode_of_success {i : Instr} {s t : State} (hc : isCommand i = true) (h : exec i s = .next t)
    (h0 : errField t.status = 0) : t.zip.mode = nextMode i s.zip.mode := by
  cases i with
  | coreReset => cases (exec_coreReset s).symm.trans h; rfl
  | zipOpenRead =>
    rw [exec_zipOpenRead] at h
    exact mode_of_complete h h0 fun _ => mode_of_openArchive
  | zipOpenAppend =>
    rw [exec_zipOpenAppend] at h
    exact mode_of_complete h h0 fun _ => mode_of_openArchive
  | zipCreate =>
    refine mode_of_complete h h0 fun u hu => ?_
    obtain ⟨-, -, hu⟩ := bind_ok.1 hu
    cases hu
    rfl
  | zipAddFile level store =>
    rw [exec_zipAddFile] at h
    refine mode_of_complete h h0 fun u hu => ?_
    simp only [bind_ok] at hu
    obtain ⟨-, -, mode, -, l, -, hu⟩ := hu
    exact mode_of_addNamed hu
  | zipAddDir =>
    rw [exec_zipAddDir] at h
    refine mode_of_complete h h0 fun u hu => ?_
    simp only [bind_ok] at hu
    obtain ⟨-, -, mode, -, hu⟩ := hu
    exact mode_of_addNamed hu
  | zipFinalize => exact mode_of_complete h h0 fun _ => mode_of_finalizeArchive
  | zipClose => exact mode_of_zipClose h
  | zipLocalHeader r | zipCentralHeader r | zipEocd r => cases hc
  | hufBuild slot => exact mode_of_frame h (zip_notMem_slotItem slot)
  | _ => exact mode_of_frame h (by simp [mayWrite])

/-- Settles O49: a command checks its mode first, and only a write to `ZIP` changes the mode. -/
theorem zipModes : Obligations.ZipModes :=
  ⟨fun _ _ => exec_illegal_mode, fun _ _ _ => mode_of_success⟩

/-! ## Locating the EOCD (spec/46 R461, R462) -/

theorem u32At_drop (bs : Bytes) (o i : Nat) : u32At (bs.drop o) i = u32At bs (o + i) := by
  simp only [u32At, byteAt_drop, Nat.add_assoc]

theorem u32At_tail (bs : Bytes) (i : Nat) : u32At bs.tail i = u32At bs (i + 1) := by
  rw [← List.drop_one, u32At_drop, Nat.add_comm]

/-- The scan finds nothing only where none of its positions has the signature. -/
theorem lastSignature_none {n p : Nat} {bytes : Bytes} (h : lastSignature p n bytes = none) :
    ∀ k < n, u32At bytes k ≠ eocdSig := by
  induction n generalizing p bytes with
  | zero => exact fun k hk => absurd hk (Nat.not_lt_zero k)
  | succ n ih =>
    rw [lastSignature] at h
    split at h
    · cases h
    · rename_i htail
      rintro (_ | k) hk
      · exact fun hsig => by simp [hsig] at h
      · rw [← u32At_tail]
        exact ih htail k (Nat.lt_of_succ_lt_succ hk)

/-- What the scan finds is the last of its positions with the signature (spec/90 C2). -/
theorem lastSignature_some {n p q : Nat} {bytes : Bytes} (h : lastSignature p n bytes = some q) :
    ∃ k < n, q = p + k ∧ u32At bytes k = eocdSig ∧ ∀ j, k < j → j < n → u32At bytes j ≠ eocdSig := by
  induction n generalizing p bytes with
  | zero => cases h
  | succ n ih =>
    rw [lastSignature] at h
    split at h
    · rename_i htail
      cases h
      obtain ⟨k, hk, rfl, hsig, hlast⟩ := ih htail
      simp only [u32At_tail] at hsig hlast
      refine ⟨k + 1, Nat.succ_lt_succ hk, by omega, hsig, ?_⟩
      rintro (_ | j) hj hn
      · exact absurd hj (Nat.not_lt_zero _)
      · exact hlast j (Nat.lt_of_succ_lt_succ hj) (Nat.lt_of_succ_lt_succ hn)
    · rename_i htail
      have hnone := lastSignature_none htail
      simp only [u32At_tail] at hnone
      split at h
      · rename_i hsig
        cases h
        refine ⟨0, Nat.zero_lt_succ n, rfl, hsig, ?_⟩
        rintro (_ | j) hj hn
        · exact absurd hj (Nat.not_lt_zero _)
        · exact hnone j (Nat.lt_of_succ_lt_succ hn)
      · cases h

/-- A position where the EOCD may be: its record fits, and it is in reach of the image's end. -/
def EocdCandidate (img : Bytes) (p : Nat) : Prop :=
  p + 22 ≤ img.length ∧ img.length ≤ p + 65557 ∧ u32At img p = eocdSig

/-- The located EOCD is the last there is in reach. -/
theorem locateEocd_sound {img : Bytes} {p : Nat} (h : locateEocd img = .ok p) :
    EocdCandidate img p ∧ ∀ q, p < q → q + 22 ≤ img.length → u32At img q ≠ eocdSig := by
  unfold locateEocd at h
  split at h
  · cases h
  · dsimp only at h
    split at h
    · rename_i hshort q hq
      cases h
      obtain ⟨k, hk, rfl, hsig, hlast⟩ := lastSignature_some hq
      simp only [u32At_drop] at hsig hlast
      simp only [eocdReach] at *
      refine ⟨⟨by omega, by omega, hsig⟩, fun q hq hfit => ?_⟩
      obtain ⟨j, rfl⟩ : ∃ j, q = img.length - 22 - 65535 + j := ⟨q - (img.length - 22 - 65535), by omega⟩
      exact hlast j (by omega) (by omega)
    · cases h

/-- Where none is located, none is in reach. -/
theorem locateEocd_complete {img : Bytes} {e : Error} (h : locateEocd img = .error e) :
    e = .eocdNotFound ∧ ∀ p, ¬ EocdCandidate img p := by
  unfold locateEocd at h
  split at h
  · rename_i hshort
    cases h
    exact ⟨rfl, fun p ⟨hfit, _⟩ => by omega⟩
  · dsimp only at h
    split at h
    · cases h
    · rename_i hshort hnone
      cases h
      refine ⟨rfl, fun p ⟨hfit, hreach, hsig⟩ => ?_⟩
      have hscan := lastSignature_none hnone (p - (img.length - 22 - eocdReach))
      simp only [u32At_drop, eocdReach] at hscan
      rw [Nat.add_sub_cancel' (by omega)] at hscan
      exact hscan (by omega) hsig

theorem locateEocd_ok_iff {img : Bytes} {p : Nat} :
    locateEocd img = .ok p ↔ EocdCandidate img p ∧ ∀ q, p < q → q + 22 ≤ img.length → u32At img q ≠ eocdSig := by
  refine ⟨locateEocd_sound, fun ⟨hp, hlast⟩ => ?_⟩
  cases h : locateEocd img with
  | error e => exact absurd hp ((locateEocd_complete h).2 p)
  | ok q =>
    obtain ⟨hq, hlast'⟩ := locateEocd_sound h
    obtain hlt | rfl | hlt := Nat.lt_trichotomy p q
    · exact absurd hq.2.2 (hlast q hlt hq.1)
    · rfl
    · exact absurd hp.2.2 (hlast' p hlt hp.1)

/-- Settles O50: the scan keeps its last hit, and its positions are those in reach. -/
theorem locateEocd_last : Obligations.LocateEocd := by
  refine ⟨fun img p => locateEocd_ok_iff.trans ?_, fun img e h => (locateEocd_complete h).1, by decide, fun s =>
    ⟨fun p hp hfit => ?_, fun p hp hlarge => ?_, fun e he => complete_error_bind he⟩⟩
  · simp only [EocdCandidate, and_assoc]
    rfl
  · exact (complete_ok_bind hp).trans (complete_ok_bind (countWord_fits hfit))
  · exact (complete_ok_bind hp).trans (complete_error_bind (countWord_error hlarge))

end Sys2Proof.Machine

/-! The commands that read an archive (spec/46 R471 to R475): an entry's fields and name, and its data, which are verified
before they are written. -/

namespace Sys2Proof.Machine

/-! ## The entry a reading command names (spec/46 R471 to R473) -/

section
variable {s : State} (f : Entry → Except Error State)

theorem complete_entry_out_of_range (hm : s.zip.mode = .reader) (h : s.zip.index.length ≤ s.arg.toNat) :
    complete s (do requireReader s; let e ← entryOperand s; f e) =
      .next (report (some .entryIndexOutOfRange) s) := by
  have he : entryOperand s = .error .entryIndexOutOfRange := by
    rw [entryOperand, List.getElem?_eq_none h]
  rw [complete_ok_bind (requireReader_ok (u := ()).2 hm), complete_error_bind he]

theorem complete_entry {e : Entry} (hm : s.zip.mode = .reader) (he : s.zip.index[s.arg.toNat]? = some e) :
    complete s (do requireReader s; let e ← entryOperand s; f e) = complete s (f e) := by
  rw [complete_ok_bind (requireReader_ok (u := ()).2 hm), complete_ok_bind (entryOperand_ok.2 he)]

end

/-! ## `ZIP_ENTRY_INFO` and `ZIP_ENTRY_NAME` (spec/46 R471, R472) -/

/-- The DOS stamp of the selector 4: the date above the time. -/
theorem dosStamp_eq (date time : Half) : date ++ time = time.setWidth 32 ||| date.setWidth 32 <<< 16 := by
  have happ : (date ++ time).setWidth 32 = _ := BitVec.setWidth_append_eq_shiftLeft_setWidth_or
  rw [BitVec.setWidth_eq] at happ
  rw [happ, BitVec.or_comm]

/-- The flags of the selector 7: the directory's bit below the link's. -/
theorem entryFlags_eq (isDir isSymlink : Bool) : BitVec.ofNat 32 (isDir.toNat + 2 * isSymlink.toNat) =
    (BitVec.ofBool isDir).setWidth 32 ||| (BitVec.ofBool isSymlink).setWidth 32 <<< 1 := by
  cases isDir <;> cases isSymlink <;> rfl

theorem entryField_error (e : Entry) {n : BitVec 6} (h : 8 < n.toNat) :
    entryField e n = .error .invalidArgument := by
  obtain ⟨k, hk⟩ : ∃ k, n.toNat = k + 9 := ⟨n.toNat - 9, by omega⟩
  rw [entryField, hk]
  rfl

section
variable {s : State} {e : Entry}

theorem exec_zipEntryInfo {n : BitVec 6} {v : Word} (hm : s.zip.mode = .reader)
    (he : s.zip.index[s.arg.toNat]? = some e) (hv : entryField e n = .ok v) :
    exec (.zipEntryInfo n) s = .next (report none { s with result := v }) :=
  (complete_entry _ hm he).trans (complete_ok_bind hv)

theorem exec_zipEntryInfo_error {n : BitVec 6} {x : Error} (hm : s.zip.mode = .reader)
    (he : s.zip.index[s.arg.toNat]? = some e) (hv : entryField e n = .error x) :
    exec (.zipEntryInfo n) s = .next (report (some x) s) :=
  (complete_entry _ hm he).trans (complete_error_bind hv)

end

/-- Settles O52: both commands look for the entry first. -/
theorem zipEntryQueries : Obligations.ZipEntryQueries := by
  refine ⟨fun n => decode_nWord (opc := 0x52) rfl, by decide, fun s hm => ⟨fun n hout =>
    ⟨complete_entry_out_of_range _ hm hout, complete_entry_out_of_range _ hm hout⟩, fun e he => ?_⟩⟩
  have hinfo {n : BitVec 6} {v : Word} := exec_zipEntryInfo (n := n) (v := v) hm he
  have hname : exec .zipEntryName s = complete s (do
      let t ← appendOut s e.name
      let n ← countWord e.name.length
      .ok { t with result := n }) := complete_entry _ hm he
  rw [hname]
  refine ⟨fun n hn => exec_zipEntryInfo_error hm he (entryField_error e hn), hinfo rfl, hinfo rfl, hinfo rfl,
    hinfo rfl, hinfo (congrArg _ (dosStamp_eq _ _)), hinfo rfl, hinfo rfl, hinfo (congrArg _ (entryFlags_eq _ _)),
    fun hfit => hinfo (countWord_fits hfit), fun hlarge => exec_zipEntryInfo_error hm he (countWord_error hlarge),
    fun hfull => complete_error_bind (appendOut_error.2 ⟨hfull, rfl⟩), fun hroom hfit => ?_, fun hroom hlarge => ?_⟩
  · rw [complete_ok_bind (appendOut_ok.2 ⟨hroom, rfl⟩)]
    exact complete_ok_bind (countWord_fits hfit)
  · rw [complete_ok_bind (appendOut_ok.2 ⟨hroom, rfl⟩)]
    exact complete_error_bind (countWord_error hlarge)

/-! ## Extraction (spec/46 R473, R474) -/

section
variable {img : Bytes} {e : Entry} {off start : Nat}

/-- The checks of an extraction in their order. -/
theorem extractEntry_eq (hoff : off = e.offset.toNat)
    (hstart : start = off + 30 + (u16At img (off + 26)).toNat + (u16At img (off + 28)).toNat) :
    extractEntry img e =
      if off + 30 ≤ img.length then
        if u32At img off = 0x04034B50 then
          if start + e.csize.toNat ≤ img.length then do
            let data ← decodePayload e.method (slice img start e.csize.toNat)
            validateEntry e data
            .ok data
          else .error .corrupt
        else .error .badSignature
      else .error .corrupt := by
  subst hstart hoff
  simp only [extractEntry, require_bind]
  rfl

section
variable {method : Half} {raw : Bytes}

theorem decodePayload_unsupported (h0 : method ≠ 0) (h8 : method ≠ 8) :
    decodePayload method raw = .error .unsupportedMethod := by rw [decodePayload, if_neg h0, if_neg h8]

theorem decodePayload_fail {x : Error} (h8 : method = 8) (h : inflate raw false = .fail x) :
    decodePayload method raw = .error x := by
  subst h8
  exact (if_neg (by decide)).trans ((if_pos rfl).trans (by rw [h]))

/-- A stream that the payload ends in the middle of. -/
theorem decodePayload_more {out : Bytes} {ph : Phase} (h8 : method = 8) (h : inflate raw false = .more out ph) :
    decodePayload method raw = .error .corrupt := by
  subst h8
  exact (if_neg (by decide)).trans ((if_pos rfl).trans (by rw [h]))

theorem decodePayload_data {data : Bytes}
    (h : (method = 0 ∧ data = raw) ∨ (method = 8 ∧ ∃ used, inflate raw false = .done data used)) :
    decodePayload method raw = .ok data := by
  obtain ⟨rfl, rfl⟩ | ⟨rfl, used, h⟩ := h
  · rfl
  · exact (if_neg (by decide)).trans ((if_pos rfl).trans (by rw [h]))

end

section
variable {data : Bytes}

theorem validateEntry_size (h : data.length ≠ e.usize.toNat) : validateEntry e data = .error .sizeMismatch :=
  bind_error.2 (.inl (require_error.2 ⟨h, rfl⟩))

theorem validateEntry_crc (hsize : data.length = e.usize.toNat) (h : crc32 0 data ≠ e.crc) :
    validateEntry e data = .error .crc32Mismatch :=
  bind_error.2 (.inr ⟨(), require_ok.2 hsize, require_error.2 ⟨h, rfl⟩⟩)

theorem validateEntry_ok {u : Unit} :
    validateEntry e data = .ok u ↔ data.length = e.usize.toNat ∧ crc32 0 data = e.crc := by
  simp only [validateEntry, bind_ok, require_ok, exists_const]

theorem validateEntry_of_extractEntry (h : extractEntry img e = .ok data) :
    data.length = e.usize.toNat ∧ crc32 0 data = e.crc := by
  simp only [extractEntry, bind_ok, require_ok, validateEntry_ok, exists_const] at h
  obtain ⟨-, -, -, data', -, hvalid, h⟩ := h
  cases h
  exact hvalid

end

end

section
variable {s t : State} {e : Entry}

theorem exec_zipExtract_error {x : Error} (hm : s.zip.mode = .reader) (he : s.zip.index[s.arg.toNat]? = some e)
    (hx : extractEntry s.zip.img e = .error x) : exec .zipExtract s = .next (report (some x) s) :=
  (complete_entry _ hm he).trans (complete_error_bind hx)

theorem exec_zipExtract_full {data : Bytes} (hm : s.zip.mode = .reader) (he : s.zip.index[s.arg.toNat]? = some e)
    (hx : extractEntry s.zip.img e = .ok data) (hfull : s.params.maxStreamBytes < s.out.length + data.length) :
    exec .zipExtract s = .next (report (some .capacityExceeded) s) :=
  (complete_entry _ hm he).trans <| (complete_ok_bind hx).trans <|
    complete_error_bind (appendOut_error.2 ⟨hfull, rfl⟩)

/-- What an extraction that succeeds appends is verified. -/
theorem exec_zipExtract_verified (h : exec .zipExtract s = .next t) (h0 : errField t.status = 0) :
    ∃ e data, s.zip.index[s.arg.toNat]? = some e ∧ t.out = s.out ++ data ∧ data.length = e.usize.toNat ∧
      crc32 0 data = e.crc ∧ t.zip = s.zip := by
  obtain ⟨u, hu, rfl⟩ := complete_succeeded h h0
  simp only [bind_ok, entryOperand_ok, appendOut_ok] at hu
  obtain ⟨-, -, e, he, data, hdata, v, ⟨-, rfl⟩, n, -, hu⟩ := hu
  cases hu
  obtain ⟨hsize, hcrc⟩ := validateEntry_of_extractEntry hdata
  exact ⟨e, data, he, rfl, hsize, hcrc, rfl⟩

theorem exec_zipExtract_failed (h : exec .zipExtract s = .next t) (h0 : errField t.status ≠ 0) :
    t = { s with status := t.status } := by
  obtain ⟨x, rfl⟩ := complete_failed h h0
  rfl

end

/-- Settles O53: the checks of `extractEntry` in their order, behind those of the mode and the index. -/
theorem zipExtract : Obligations.ZipExtract := by
  refine ⟨by decide, fun s hm => complete_error_bind (requireReader_error hm),
    fun s hm hout => complete_entry_out_of_range _ hm hout, fun s e off start hm he hoff hstart => ?_,
    fun s t => exec_zipExtract_verified, fun s t => exec_zipExtract_failed⟩
  have hfail {x : Error} := exec_zipExtract_error (x := x) hm he
  have hchecks := extractEntry_eq hoff hstart
  refine ⟨fun hpast => hfail ?_, fun hhead => ⟨fun hsig => hfail ?_, fun hsig => ⟨fun hpast => hfail ?_,
    fun hin raw hraw => ?_⟩⟩⟩
  · rw [hchecks, if_neg (Nat.not_le.2 hpast)]
  · rw [hchecks, if_pos hhead, if_neg hsig]
  · rw [hchecks, if_pos hhead, if_pos hsig, if_neg (Nat.not_le.2 hpast)]
  -- the payload is in the image
  rw [if_pos hhead, if_pos hsig, if_pos hin, ← hraw] at hchecks
  have hundecoded {x : Error} (h : decodePayload e.method raw = .error x) : extractEntry s.zip.img e = .error x :=
    hchecks.trans (bind_error.2 (.inl h))
  refine ⟨fun h0 h8 => hfail (hundecoded (decodePayload_unsupported h0 h8)),
    fun h8 => ⟨fun x hx => hfail (hundecoded (decodePayload_fail h8 hx)),
      fun out ph hmore => hfail (hundecoded (decodePayload_more h8 hmore))⟩, fun data hdata => ?_⟩
  -- its data are decoded
  have hdecoded := decodePayload_data hdata
  have hunverified {x : Error} (h : validateEntry e data = .error x) : extractEntry s.zip.img e = .error x :=
    hchecks.trans (bind_error.2 (.inr ⟨data, hdecoded, bind_error.2 (.inl h)⟩))
  refine ⟨fun hsize => hfail (hunverified (validateEntry_size hsize)), fun hsize =>
    ⟨fun hcrc => hfail (hunverified (validateEntry_crc hsize hcrc)), fun hcrc => ?_⟩⟩
  have hx : extractEntry s.zip.img e = .ok data :=
    hchecks.trans (bind_ok.2 ⟨data, hdecoded, bind_ok.2 ⟨(), validateEntry_ok.2 ⟨hsize, hcrc⟩, rfl⟩⟩)
  exact ⟨exec_zipExtract_full hm he hx, fun hroom => execZipExtract_ok hm he hx hroom (hsize ▸ e.usize.isLt)⟩

end Sys2Proof.Machine

/-! The commands that write an archive (spec/46 R481 to R492): the entry a file or a directory adds, and the directory that
closes the image. -/

namespace Sys2Proof.Machine

/-! ## The operands of the adding commands (spec/30 R110, R114; spec/46 R481, R484) -/

theorem decode_zipAddFile (l : BitVec 4) (store : Bool) :
    decode (.cmd (l.setWidth 32 <<< 14 ||| (BitVec.ofBool store).setWidth 32 <<< 21 ||| 0x5A)) =
      .ok (.zipAddFile l store) := by
  have hword : l.setWidth 32 <<< 14 ||| (BitVec.ofBool store).setWidth 32 <<< 21 ||| 0x5A#32 =
      commandWord 0x5A 0 l false 0 store := by
    revert l store
    decide
  exact hword ▸ decode_encode (.zipAddFile l store) rfl

theorem unixModeOperand_error {s : State} (h : s.arg.extractLsb' 16 16 ≠ 0) :
    unixModeOperand s = .error .invalidArgument :=
  bind_error.2 (.inl (require_error.2 ⟨h, rfl⟩))

/-- The Unix mode in the upper half of a word. -/
theorem unixMode_shifted (w : Word) : w.extractLsb' 0 16 ++ 0#16 = w <<< 16 := by
  rw [BitVec.shiftLeft_eq_concat_of_lt (by decide)]
  exact (BitVec.cast_eq rfl _).symm

/-- The names of R481 that are refused as such. -/
def BadName (nm : Bytes) : Prop := nm = [] ∨ nm.head? = some 0x2F ∨ 0x5C ∈ nm

theorem not_badName_iff {nm : Bytes} : ¬ BadName nm ↔ nm ≠ [] ∧ nm.head? ≠ some 0x2F ∧ 0x5C ∉ nm := by
  simp only [BadName, not_or, ne_eq]

theorem directoryName_ne_nil (nm : Bytes) : directoryName nm ≠ [] := by
  rw [directoryName]
  split
  · rename_i h
    rintro rfl
    cases h
  · simp

section
variable {s : State} {nm : Bytes}

theorem addChecks_bad_name (h : BadName nm) : addChecks s nm = .error .invalidArchiveName :=
  bind_error.2 (.inl (bind_error.2 (.inl (require_error.2 ⟨fun hok => not_badName_iff.2 hok h, rfl⟩))))

theorem addChecks_long_name (h : ¬ BadName nm) (hlong : 65535 < nm.length) :
    addChecks s nm = .error .nameTooLong :=
  bind_error.2 (.inl (bind_error.2 (.inr ⟨(), require_ok.2 (not_badName_iff.1 h),
    require_error.2 ⟨Nat.not_le.2 hlong, rfl⟩⟩)))

theorem addChecks_full_index (h : ¬ BadName nm) (hlen : nm.length ≤ 65535) (hfull : 65535 ≤ s.zip.index.length) :
    addChecks s nm = .error .tooManyFiles :=
  bind_error.2 (.inr ⟨(), nameOperand_ok.2 ⟨not_badName_iff.1 h, hlen⟩, require_error.2 ⟨Nat.not_lt.2 hfull, rfl⟩⟩)

end

/-! ## The entry that is added (spec/30 R150; spec/46 R482, R492) -/

/-- An entry with the derived flags is known by its other fields. -/
theorem eq_makeEntry {e : Entry} (h : EntryOk e) :
    e = makeEntry e.name e.csize e.usize e.crc e.method e.dostime e.dosdate e.extAttr e.offset := by
  obtain ⟨-, hdir, hlink⟩ := h
  rw [makeEntry, isDirectory_eq, isSymbolicLink_eq, ← hdir, ← hlink]

/-- The entry that an adding command records, from the operands it is made of. -/
theorem eq_addedEntry {s : State} {e : Entry} {attr : Word} (h : EntryOk e)
    (htime : e.dostime = s.arg2.extractLsb' 0 16) (hdate : e.dosdate = s.arg2.extractLsb' 16 16)
    (hattr : e.extAttr = s.arg <<< 16 ||| attr) :
    e = makeEntry e.name e.csize e.usize e.crc e.method (dosTimeOperand s) (dosDateOperand s)
      ((s.arg.extractLsb' 0 16 ++ 0#16) ||| attr) e.offset := by
  rw [unixMode_shifted, ← hattr, dosTimeOperand, dosDateOperand, ← htime, ← hdate]
  exact eq_makeEntry h

/-- The local header the writer makes of an entry is that of spec/30 R150. -/
theorem localBytes_entry (e : Entry) : localBytes (localRecordOf e) =
    u32le 0x04034B50 ++ u16le (if e.method = 8 then 20 else 10) ++ u16le 0 ++ u16le e.method ++ u16le e.dostime ++
      u16le e.dosdate ++ u32le e.crc ++ u32le e.csize ++ u32le e.usize ++ u16le (BitVec.ofNat 16 e.name.length) ++
      u16le 0 ++ e.name := by
  unfold localBytes localRecordOf localSig len16
  simp only [versionNeeded, List.append_nil, List.length_nil, BitVec.ofNat_eq_ofNat]

theorem length_addedImage (img payload : Bytes) (e : Entry) :
    (img ++ localBytes (localRecordOf e) ++ payload).length = img.length + 30 + e.name.length + payload.length := by
  rw [List.length_append, List.length_append, length_localBytes]
  simp only [localRecordOf, List.length_nil]
  omega

section
variable {s : State} {nm data payload : Bytes} {mode method : Half} {attr : Word}

/-- Behind the checks of the name and the index the entry is added. -/
theorem addNamed_checked (h : ¬ BadName nm) (hlen : nm.length ≤ 65535) (hroom : s.zip.index.length < 65535) :
    addNamed s nm mode attr method data payload = addEntry s nm mode attr method data payload := by
  rw [addNamed, addChecks_ok (u := ()).2 ⟨⟨not_badName_iff.1 h, hlen⟩, hroom⟩]
  rfl

theorem addEntry_too_large
    (h : 0xFFFFFFFF ≤ data.length ∨ 0xFFFFFFFF ≤ payload.length ∨ 0xFFFFFFFF ≤ s.zip.img.length) :
    addEntry s nm mode attr method data payload = .error .sizeTooLarge :=
  bind_error.2 (.inl (require_error.2 ⟨by rw [zipFieldMax]; omega, rfl⟩))

variable (hdata : data.length < 0xFFFFFFFF) (hpayload : payload.length < 0xFFFFFFFF)
  (himg : s.zip.img.length < 0xFFFFFFFF)
include hdata hpayload himg

theorem addEntry_image_full
    (h : s.params.maxStreamBytes < s.zip.img.length + 30 + nm.length + payload.length ∨
      4294967295 < s.zip.img.length + 30 + nm.length + payload.length) :
    addEntry s nm mode attr method data payload = .error .capacityExceeded := by
  refine bind_error.2 (.inr ⟨(), require_ok.2 (by rw [zipFieldMax]; omega),
    bind_error.2 (.inl (checkImage_error.2 ⟨?_, rfl⟩))⟩)
  rw [length_addedImage]
  exact h

theorem addEntry_fits {e : Entry}
    (he : e = makeEntry nm (BitVec.ofNat 32 payload.length) (BitVec.ofNat 32 data.length) (crc32 0 data) method
      (dosTimeOperand s) (dosDateOperand s) ((mode ++ 0#16) ||| attr) (BitVec.ofNat 32 s.zip.img.length))
    (hcap : s.zip.img.length + 30 + nm.length + payload.length ≤ s.params.maxStreamBytes)
    (hspace : s.zip.img.length + 30 + nm.length + payload.length ≤ 4294967295) :
    addEntry s nm mode attr method data payload = .ok { s with
      zip := { s.zip with img := s.zip.img ++ localBytes (localRecordOf e) ++ payload,
                          index := s.zip.index ++ [e] },
      result := BitVec.ofNat 32 payload.length } := by
  have hname : e.name = nm := congrArg Entry.name he
  refine addEntry_ok.2 ⟨by rw [zipFieldMax]; omega, e, he, ?_, rfl⟩
  rw [length_addedImage, hname]
  exact ⟨hcap, hspace⟩

end

/-! ## `ZIP_ADD_FILE` and `ZIP_ADD_DIR` (spec/46 R482, R484) -/

section
variable {s : State} {l : BitVec 4} {store : Bool} (hm : s.zip.mode = .writer)
include hm

theorem exec_zipAddFile_bad_mode (h : s.arg.extractLsb' 16 16 ≠ 0) :
    exec (.zipAddFile l store) s = .next (report (some .invalidArgument) s) :=
  (complete_ok_bind (requireWriter_ok (u := ()).2 hm)).trans (complete_error_bind (unixModeOperand_error h))

theorem exec_zipAddDir_bad_mode (h : s.arg.extractLsb' 16 16 ≠ 0) :
    exec .zipAddDir s = .next (report (some .invalidArgument) s) :=
  (complete_ok_bind (requireWriter_ok (u := ()).2 hm)).trans (complete_error_bind (unixModeOperand_error h))

variable (hmode : s.arg.extractLsb' 16 16 = 0)
include hmode

theorem exec_zipAddFile_bad_level (hl : 9 < l.toNat) :
    exec (.zipAddFile l store) s = .next (report (some .invalidLevel) s) := by
  rw [exec_zipAddFile, complete_ok_bind (requireWriter_ok (u := ()).2 hm),
    complete_ok_bind (unixModeOperand_ok.2 ⟨hmode, rfl⟩), complete_error_bind (levelOperand_error hl)]

/-- Behind the checks of its operands `ZIP_ADD_FILE` adds `IN` under `NAME`. -/
theorem exec_zipAddFile_checked (hl : l.toNat ≤ 9) :
    exec (.zipAddFile l store) s = complete s (addNamed s s.name (s.arg.extractLsb' 0 16) 0
      (if store then 0 else 8) s.inp (if store then s.inp else deflateBody s.params s.inp l.toNat)) := by
  rw [exec_zipAddFile, complete_ok_bind (requireWriter_ok (u := ()).2 hm),
    complete_ok_bind (unixModeOperand_ok.2 ⟨hmode, rfl⟩), complete_ok_bind (levelOperand_ok.2 ⟨hl, rfl⟩)]

/-- Behind the checks of its operands `ZIP_ADD_DIR` adds nothing under `NAME` with its slash. -/
theorem exec_zipAddDir_checked :
    exec .zipAddDir s =
      complete s (addNamed s (directoryName s.name) (s.arg.extractLsb' 0 16) 0x10 0 [] []) := by
  rw [exec_zipAddDir, complete_ok_bind (requireWriter_ok (u := ()).2 hm),
    complete_ok_bind (unixModeOperand_ok.2 ⟨hmode, rfl⟩)]

end

/-- Settles O54: both commands are `addNamed` behind the checks of their operands. -/
theorem zipAdd : Obligations.ZipAdd := by
  refine ⟨decode_zipAddFile, by decide, fun l store s hm => ?_, fun s nm hm hnm => ?_, ?_, ?_⟩
  · -- what `ZIP_ADD_FILE` refuses
    refine ⟨exec_zipAddFile_bad_mode hm, exec_zipAddFile_bad_level hm, fun hmode hl hbad => ?_,
      fun hmode hl hne hhead hslash => ?_⟩ <;> rw [exec_zipAddFile_checked hm hmode hl]
    · exact complete_error_bind (addChecks_bad_name hbad)
    have hok := not_badName_iff.2 ⟨hne, hhead, hslash⟩
    refine ⟨fun hlong => complete_error_bind (addChecks_long_name hok hlong),
      fun hlen hfull => complete_error_bind (addChecks_full_index hok hlen hfull), fun hlen hroom payload hp => ?_⟩
    rw [← hp, addNamed_checked hok hlen hroom]
    exact ⟨fun hlarge => congrArg (complete s) (addEntry_too_large hlarge),
      fun hdata hpayload himg hfull => congrArg (complete s) (addEntry_image_full hdata hpayload himg hfull)⟩
  · -- what `ZIP_ADD_DIR` refuses
    obtain rfl : nm = directoryName s.name := hnm
    refine ⟨exec_zipAddDir_bad_mode hm, fun hmode hbad => ?_, fun hmode hhead hslash => ?_⟩ <;>
      rw [exec_zipAddDir_checked hm hmode]
    · exact complete_error_bind (addChecks_bad_name (Or.inr hbad))
    have hok := not_badName_iff.2 ⟨directoryName_ne_nil s.name, hhead, hslash⟩
    refine ⟨fun hlong => complete_error_bind (addChecks_long_name hok hlong),
      fun hlen hfull => complete_error_bind (addChecks_full_index hok hlen hfull), fun hlen hroom => ?_⟩
    rw [addNamed_checked hok hlen hroom]
    exact ⟨fun hlarge => congrArg (complete s) (addEntry_too_large (.inr (.inr hlarge))),
      fun himg hfull => congrArg (complete s)
        (addEntry_image_full (data := []) (payload := []) (by decide) (by decide) himg hfull)⟩
  · -- what `ZIP_ADD_FILE` adds
    intro l store s payload e hm hmode hl hne hhead hslash hlen hroom hp hdata hpayload himg hcap hspace
      hname hcsize husize hcrc hmethod htime hdate hattr hoff hok
    have he := eq_addedEntry (attr := 0) hok htime hdate (hattr.trans BitVec.or_zero.symm)
    rw [hname, hcsize, husize, hcrc, hmethod, hoff] at he
    have hversion : (if e.method = 8 then 20 else 10 : Half) = if store then 10 else 20 := by
      rw [hmethod]
      cases store <;> rfl
    have hlegal := not_badName_iff.2 ⟨hne, hhead, hslash⟩
    rw [exec_zipAddFile_checked hm hmode hl, ← hp, addNamed_checked hlegal hlen hroom,
      addEntry_fits hdata hpayload himg he hcap hspace, localBytes_entry, hname, hversion]
    simp only [List.append_assoc]
    rfl
  · -- what `ZIP_ADD_DIR` adds
    intro s nm e hm hmode hnm hhead hslash hlen hroom himg hcap hspace
      hname hcsize husize hcrc hmethod htime hdate hattr hoff hok
    obtain rfl : nm = directoryName s.name := hnm
    have he := eq_addedEntry hok htime hdate hattr
    rw [hname, hcsize, husize, hcrc, hmethod, hoff] at he
    have hlegal := not_badName_iff.2 ⟨directoryName_ne_nil s.name, hhead, hslash⟩
    rw [exec_zipAddDir_checked hm hmode, addNamed_checked hlegal hlen hroom,
      addEntry_fits (data := []) (payload := []) (by decide) (by decide) himg he hcap hspace, localBytes_entry, hname,
      hmethod, hcsize, husize, hcrc]
    simp only [List.append_assoc, List.append_nil]
    rfl

/-! ## `ZIP_FINALIZE` and `ZIP_CLOSE` (spec/46 R486, R487, R489) -/

/-- The image `ZIP_FINALIZE` completes: the entries, the central directory and the EOCD. -/
def finalImage (s : State) : Bytes :=
  s.zip.img ++ directoryBytes s.zip.index ++
    eocdBytes (eocdRecordOf s.zip.index.length (directoryBytes s.zip.index).length s.zip.img.length)

/-- The EOCD the writer makes is that of spec/30 R152. -/
theorem eocdBytes_eocdRecordOf (count size offset : Nat) : eocdBytes (eocdRecordOf count size offset) =
    u32le 0x06054B50 ++ u16le 0 ++ u16le 0 ++ u16le (BitVec.ofNat 16 count) ++ u16le (BitVec.ofNat 16 count) ++
      u32le (BitVec.ofNat 32 size) ++ u32le (BitVec.ofNat 32 offset) ++ u16le 0 := by
  unfold eocdBytes eocdRecordOf eocdSig len16
  simp only [List.append_nil, List.length_nil, BitVec.ofNat_eq_ofNat]

section
variable {s t : State}

theorem finalizeArchive_not_writer (hm : s.zip.mode ≠ .writer) : finalizeArchive s = .error .wrongMode :=
  bind_error.2 (.inl (requireWriter_error hm))

variable (hm : s.zip.mode = .writer)
include hm

theorem finalizeArchive_no_version (h : ∃ e ∈ s.zip.index, e.method ≠ 0 ∧ e.method ≠ 8) :
    finalizeArchive s = .error .invalidArgument := by
  obtain ⟨e, he, h0, h8⟩ := h
  exact bind_error.2 (.inr ⟨(), requireWriter_ok.2 hm,
    bind_error.2 (.inl (require_error.2 ⟨fun hall => (hall e he).elim h0 h8, rfl⟩))⟩)

/-- Behind the checks of the mode and the versions: the sizes, the image and `OUT`. -/
theorem finalizeArchive_versions (hv : ∀ e ∈ s.zip.index, e.method = 0 ∨ e.method = 8) :
    finalizeArchive s =
      if s.zip.img.length ≤ zipFieldMax ∧ (directoryBytes s.zip.index).length ≤ zipFieldMax then do
        checkImage s (finalImage s).length
        let t ← appendOut s (finalImage s)
        .ok { t with zip := { s.zip with img := finalImage s, cdOffset := BitVec.ofNat 32 s.zip.img.length,
                                         mode := .closed },
                     result := BitVec.ofNat 32 (finalImage s).length }
      else .error .sizeTooLarge := by
  rw [finalizeArchive, requireWriter_ok (u := ()).2 hm]
  change (require _ _ >>= _) = _
  rw [require_ok (u := ()).2 hv]
  exact require_bind _

theorem finalizeArchive_too_large (hv : ∀ e ∈ s.zip.index, e.method = 0 ∨ e.method = 8)
    (h : 0xFFFFFFFF ≤ s.zip.img.length ∨ 0xFFFFFFFF ≤ (directoryBytes s.zip.index).length) :
    finalizeArchive s = .error .sizeTooLarge := by
  rw [finalizeArchive_versions hm hv, if_neg (by rw [zipFieldMax]; omega)]

/-- An image that is too long for its space, or for `OUT`, whose capacity is the image's as well. -/
theorem finalizeArchive_full (hv : ∀ e ∈ s.zip.index, e.method = 0 ∨ e.method = 8)
    (himg : s.zip.img.length < 0xFFFFFFFF) (hcd : (directoryBytes s.zip.index).length < 0xFFFFFFFF)
    (h : s.params.maxStreamBytes < s.out.length + (finalImage s).length ∨ 4294967295 < (finalImage s).length) :
    finalizeArchive s = .error .capacityExceeded := by
  rw [finalizeArchive_versions hm hv, if_pos (by rw [zipFieldMax]; omega), bind_error]
  by_cases hc : (finalImage s).length ≤ s.params.maxStreamBytes ∧ (finalImage s).length ≤ imageLimit
  · have hspace : (finalImage s).length ≤ 4294967295 := hc.2
    exact .inr ⟨(), checkImage_ok.2 hc, bind_error.2 (.inl (appendOut_error.2 ⟨by omega, rfl⟩))⟩
  · exact .inl (require_error.2 ⟨hc, rfl⟩)

theorem finalizeArchive_fits (hv : ∀ e ∈ s.zip.index, e.method = 0 ∨ e.method = 8)
    (himg : s.zip.img.length < 0xFFFFFFFF) (hcd : (directoryBytes s.zip.index).length < 0xFFFFFFFF)
    (hroom : s.out.length + (finalImage s).length ≤ s.params.maxStreamBytes)
    (hspace : (finalImage s).length ≤ 4294967295) :
    finalizeArchive s = .ok { s with
      zip := ⟨finalImage s, s.zip.index, BitVec.ofNat 32 s.zip.img.length, .closed⟩
      out := s.out ++ finalImage s
      result := BitVec.ofNat 32 (finalImage s).length } :=
  finalizeArchive_ok.2 ⟨hm, hv, by rw [zipFieldMax]; omega, finalImage s, rfl,
    ⟨(Nat.le_add_left _ _).trans hroom, hspace⟩, hroom, rfl⟩

/-- A finalize that fails is rolled back by `ZIP_FINALIZE`, and `ZIP_CLOSE` closes the archive all the same. -/
theorem exec_finalize_close_error {x : Error} (h : finalizeArchive s = .error x) :
    exec .zipFinalize s = .next (report (some x) s) ∧
    exec .zipClose s = .next (report (some x) { s with zip := ⟨[], [], 0, .idle⟩ }) :=
  ⟨congrArg (complete s) h, exec_zipClose_not_finalized hm h⟩

theorem exec_finalize_close_ok (h : finalizeArchive s = .ok t) :
    exec .zipFinalize s = .next (report none t) ∧
    exec .zipClose s = .next (report none { t with zip := ⟨[], [], 0, .idle⟩ }) :=
  ⟨congrArg (complete s) h, exec_zipClose_finalized hm h⟩

end

/-- Settles O55: both commands finalize the archive, with one error for each check that fails. -/
theorem zipFinalizeAndClose : Obligations.ZipFinalizeAndClose := by
  refine ⟨by decide, by decide, fun s hm => ⟨congrArg (complete s) (finalizeArchive_not_writer hm),
      exec_zipClose_not_writer hm⟩,
    fun s hm h => exec_finalize_close_error hm (finalizeArchive_no_version hm h), fun s cd img hm hv hcd himg => ?_⟩
  have hcd' : cd = directoryBytes s.zip.index := hcd.trans (directoryBytes_eq _).symm
  have himg' : img = finalImage s := by
    rw [himg, hcd', finalImage, eocdBytes_eocdRecordOf]
    simp only [List.append_assoc]
  clear hcd himg
  subst hcd' himg'
  exact ⟨fun h => exec_finalize_close_error hm (finalizeArchive_too_large hm hv h), fun hsize hdir =>
    ⟨fun h => exec_finalize_close_error hm (finalizeArchive_full hm hv hsize hdir h), fun hroom hspace =>
      exec_finalize_close_ok hm (finalizeArchive_fits hm hv hsize hdir hroom hspace)⟩⟩

end Sys2Proof.Machine

/-! The archive the writer serialized, parsed (spec/46 R463, R485, R486): record by record the index comes back. -/

namespace Sys2Proof.Machine

/-- An entry is read back from the record the writer makes of it. -/
theorem entryOf_centralRecordOf {e : Entry} (h : EntryOk e) : entryOf (centralRecordOf e) = e := (eq_makeEntry h).symm

theorem wf_centralRecordOf {e : Entry} (h : EntryOk e) : (Instr.zipCentralHeader (centralRecordOf e)).wf = true := by
  obtain ⟨hname, -⟩ := h
  have hfits : fits16 e.name = true := decide_eq_true (Nat.lt_succ_of_le hname)
  change (fits16 e.name && fits16 [] && fits16 []) = true
  rw [hfits]
  rfl

/-- The record loop at a record that the directory holds whole: its entry, then the records behind it. -/
theorem parseRecords_record {r : CentralRecord} (h : (Instr.zipCentralHeader r).wf = true) {stop k : Nat}
    (lead rest : Bytes) (hstop : lead.length + (centralBytes r).length ≤ stop) :
    parseRecords (lead ++ (centralBytes r ++ rest)) stop (k + 1) lead.length =
      (parseRecords (lead ++ (centralBytes r ++ rest)) stop k (lead.length + (centralBytes r).length)).map
        (entryOf r :: ·) := by
  have hread := centralAt_centralBytes rest h
  have hsig : u32At (lead ++ (centralBytes r ++ rest)) lead.length = 0x02014B50 :=
    (u32At_append_right lead _ 0).trans (centralBytes_sig r rest)
  have hl := length_centralBytes r
  simp only [Instr.wf, Bool.and_eq_true] at h
  obtain ⟨⟨hname, hextra⟩, hcomment⟩ := h
  rw [parseRecords_succ (next := lead.length + (centralBytes r).length), if_pos (by omega), if_pos hsig,
    if_pos hstop, centralAt_append_right, hread]
  rw [u16At_append_right, u16At_append_right, u16At_append_right, centralBytes_nameLength, centralBytes_extraLength,
    centralBytes_commentLength, toNat_len16 hname, toNat_len16 hextra, toNat_len16 hcomment]
  omega

/-- The record loop over a written directory gives the index back, entry for entry. -/
theorem parseRecords_directoryBytes {index : List Entry} (h : ∀ e ∈ index, EntryOk e) {stop : Nat}
    (lead rest : Bytes) (hstop : stop = lead.length + (directoryBytes index).length) :
    parseRecords (lead ++ (directoryBytes index ++ rest)) stop index.length lead.length = .ok index := by
  induction index generalizing lead with
  | nil => rfl
  | cons e es ih =>
    obtain ⟨he, hes⟩ := List.forall_mem_cons.1 h
    have hdir : directoryBytes (e :: es) = centralBytes (centralRecordOf e) ++ directoryBytes es := List.flatMap_cons
    rw [hdir, List.length_append] at hstop
    have htail := ih hes (lead ++ centralBytes (centralRecordOf e)) (by rw [List.length_append]; omega)
    rw [List.append_assoc, List.length_append] at htail
    rw [hdir, List.append_assoc, List.length_cons, parseRecords_record (wf_centralRecordOf he) lead _ (by omega), htail,
      entryOf_centralRecordOf he]
    rfl

theorem eocdRecordOf_nTotal {count : Nat} (h : count < 2 ^ 16) (size offset : Nat) :
    (eocdRecordOf count size offset).nTotal.toNat = count :=
  (BitVec.toNat_ofNat ..).trans (Nat.mod_eq_of_lt h)

/-- Settles O56: the EOCD stands last, and it gives the place and the count of the records. -/
theorem writtenArchiveParses : Obligations.WrittenArchiveParses := by
  intro img index hcount hok hlen
  have htotal := eocdRecordOf_nTotal (Nat.lt_succ_of_le hcount) (directoryBytes index).length img.length
  rw [parseArchive_eocdBytes rfl (locateEocd_eocdRecordOf index.length _), if_pos ⟨rfl, rfl, rfl⟩, htotal,
    eocdRecordOf_cdOffset _ (by omega), eocdRecordOf_cdSize _ (by omega),
    if_pos (by simp only [List.length_append]; omega), List.append_assoc, parseRecords_directoryBytes hok img _ rfl]
  rfl

end Sys2Proof.Machine

/-! How a command ends: what it reports and in which state it does so (spec/60 R532, R533), and from it the status
word, the rollback and the end of every instruction (R540, R541). Then the housekeeping commands (R536 to R538). -/

namespace Sys2Proof.Machine

/-! ## The reported fields (spec/30 R117, spec/60 R532) -/

/-- The reserved bits of a status word are 0 (R117). -/
theorem reserved_statusWord (err : BitVec 8) (ph : BitVec 4) (m : BitVec 2) (sticky : Bool) (n : BitVec 3) :
    (statusWord err ph m sticky n).extractLsb' 15 1 = 0 ∧ (statusWord err ph m sticky n).extractLsb' 19 13 = 0 := by
  constructor <;> refine extract_statusWord _ 0 err ph m sticky n fun i hi => ?_
  · obtain rfl : i = 0 := by omega
    rw [statusWord_getLsbD]
    rfl
  · rw [statusWord_getLsbD, if_neg (by omega), if_neg (by omega), if_neg (by omega), if_neg (by omega),
      if_neg (by omega), if_neg (by omega)]
    exact BitVec.getLsbD_zero.symm

theorem stickyField_zero : stickyField 0 = false := by decide

theorem setsSticky_eq (e : Option Error) :
    setsSticky e = (decide (e ≠ none) && decide (e ≠ some .needsMoreInput)) := by
  cases e with
  | none => rfl
  | some e => cases e <;> rfl

/-- A success leaves no error code and keeps the sticky bit (R532). -/
theorem report_none (s : State) :
    report none s = { s with
      status := statusWord 0 (phaseCode s.inf.phase) (modeCode s.zip.mode) (stickyField s.status)
        (BitVec.ofNat 3 s.bp.nbits) } := by
  simp only [report, outcomeCode, setsSticky, Bool.or_false]

/-! ## Effects that leave `STATUS` to the report -/

/-- An outcome whose state, if it is one, still has the status word of `s`. -/
def KeepsStatus (s : State) (r : Except Error State) : Prop := ∀ u, r = .ok u → u.status = s.status

section
variable {s : State}

@[simp] theorem keepsStatus_ok {u : State} : KeepsStatus s (.ok u) ↔ u.status = s.status := by simp [KeepsStatus]

@[simp] theorem keepsStatus_error (e : Error) : KeepsStatus s (.error e) := by simp [KeepsStatus]

@[simp] theorem keepsStatus_bind {α : Type} (r : Except Error α) (f : α → Except Error State) :
    KeepsStatus s (r >>= f) ↔ ∀ a, r = .ok a → KeepsStatus s (f a) := by
  simp only [KeepsStatus, bind_ok]
  exact ⟨fun h a ha u hu => h u ⟨a, ha, hu⟩, fun h u ⟨a, ha, hu⟩ => h a ha u hu⟩

@[simp] theorem keepsStatus_ite {c : Prop} [Decidable c] (r r' : Except Error State) :
    KeepsStatus s (if c then r else r') ↔ if c then KeepsStatus s r else KeepsStatus s r' := by
  split <;> rfl

theorem status_of_appendOut {t : State} {bytes : Bytes} (h : appendOut s bytes = .ok t) : t.status = s.status := by
  obtain ⟨-, rfl⟩ := appendOut_ok.1 h
  rfl

theorem status_of_commitRun {t : State} {out : Bytes} {ph : Phase} (h : commitRun s out ph = .ok t) :
    t.status = s.status := by
  obtain ⟨-, -, rfl⟩ := commitRun_ok.1 h
  rfl

@[simp] theorem keepsStatus_commitWrite (r : Bytes × Pending) : KeepsStatus s (commitWrite s r) := by
  intro u h
  obtain ⟨-, rfl⟩ := commitWrite_ok.1 h
  rfl

@[simp] theorem keepsStatus_writeBits (v n : Nat) : KeepsStatus s (writeBits s v n) := by
  intro u h
  obtain ⟨-, -, -, rfl⟩ := writeBits_ok.1 h
  rfl

@[simp] theorem keepsStatus_addEntry (nm : Bytes) (mode : Half) (attr : Word) (method : Half) (data payload : Bytes) :
    KeepsStatus s (addEntry s nm mode attr method data payload) := by
  intro u h
  obtain ⟨-, e, -, -, rfl⟩ := addEntry_ok.1 h
  rfl

@[simp] theorem keepsStatus_finalizeArchive : KeepsStatus s (finalizeArchive s) := by
  intro u h
  obtain ⟨-, -, -, img, -, -, -, rfl⟩ := finalizeArchive_ok.1 h
  rfl

end

/-! ## The end of a command (spec/60 R532, R533) -/

/-- The commands that clear `STATUS` before they report (R538, spec/70 R570). -/
def clearsStatus (i : Instr) : Bool := i == .statusClear || i == .coreReset

/-- How a command issued in `s` can end: the outcome it reports, and the state it reports it in. The last three are the
exceptions to the rollback. -/
inductive CommandEnd (i : Instr) (s : State) : Option Error → State → Prop
  | success {u : State} (h : u.status = if clearsStatus i then 0 else s.status) : CommandEnd i s none u
  | rollback {e : Error} (hi : clearsStatus i = false) : CommandEnd i s (some e) s
  | moreInput {out : Bytes} {ph : Phase} (hi : i = .inflateRun) :
    CommandEnd i s (some .needsMoreInput) (s.committed out ph)
  | hardError {e : Error} (hi : i = .inflateRun) (he : e ∈ hardErrors) :
    CommandEnd i s (some e) { s with inf := { s.inf with err := some e, phase := .error } }
  | notFinalized {e : Error} (hi : i = .zipClose) (hm : s.zip.mode = .writer) :
    CommandEnd i s (some e) { s with zip := Zip.reset }

section
variable {i : Instr} {s u : State} {e : Option Error}

/-- `STATUS` has its old sticky bit when the outcome is reported, unless the command clears it. -/
theorem CommandEnd.sticky (h : CommandEnd i s e u) :
    stickyField u.status = (stickyField s.status && !clearsStatus i) := by
  cases h with
  | success h =>
    rw [h]
    cases clearsStatus i with
    | true => exact stickyField_zero.trans (Bool.and_false _).symm
    | false => exact (Bool.and_true _).symm
  | rollback hi => rw [hi, Bool.not_false, Bool.and_true]
  | moreInput hi | hardError hi | notFinalized hi =>
    subst hi
    exact (Bool.and_true _).symm

/-- A command that is a chain of checks succeeds, or it is rolled back. -/
theorem complete_end {r : Except Error State} (hi : clearsStatus i = false) (hr : KeepsStatus s r) :
    ∃ e u, complete s r = .next (report e u) ∧ CommandEnd i s e u := by
  cases r with
  | ok u => exact ⟨none, u, rfl, .success (by simpa [hi] using hr)⟩
  | error e => exact ⟨some e, s, rfl, .rollback hi⟩

/-- A run (spec/45 R425) by the outcome of decoding what was fed. -/
theorem execInflateRun_end (s : State) :
    ∃ e u, execInflateRun s = .next (report e u) ∧ CommandEnd .inflateRun s e u := by
  by_cases hph : s.inf.phase = .idle
  · exact ⟨_, s, execInflateRun_idle hph, .rollback rfl⟩
  cases herr : s.inf.err with
  | some e => exact ⟨_, s, execInflateRun_sticky hph herr, .rollback rfl⟩
  | none =>
    cases hrun : inflate s.inf.input s.inf.wrap with
    | done out used =>
      rw [execInflateRun_eq_of_done hph herr hrun]
      refine complete_end rfl ?_
      simp only [keepsStatus_bind, keepsStatus_ok]
      exact fun _ hcommit _ _ _ _ => status_of_commitRun hcommit
    | more out ph =>
      rw [execInflateRun, requireStarted_started hph]
      simp only [herr, hrun]
      cases hcommit : commitRun s out ph with
      | ok t =>
        obtain ⟨-, -, rfl⟩ := commitRun_ok.1 hcommit
        exact ⟨_, s.committed out ph, rfl, .moreInput rfl⟩
      | error e => exact ⟨some e, s, rfl, .rollback rfl⟩
    | fail e => exact ⟨_, _, execInflateRun_fail hph herr hrun, .hardError rfl (inflate_fail hrun)⟩

/-- `ZIP_CLOSE` (spec/46 R489) by the mode, and in a writer by what becomes of the finalize. -/
theorem execZipClose_end (s : State) : ∃ e u, execZipClose s = .next (report e u) ∧ CommandEnd .zipClose s e u := by
  by_cases hm : s.zip.mode = .writer
  · cases hf : finalizeArchive s with
    | ok t => exact ⟨_, _, exec_zipClose_finalized hm hf, .success (keepsStatus_finalizeArchive t hf)⟩
    | error e => exact ⟨_, _, exec_zipClose_not_finalized hm hf, .notFinalized rfl hm⟩
  · exact ⟨_, _, exec_zipClose_not_writer hm, .success rfl⟩

/-- Every command ends in a report: those without a check succeed, the others are chains of checks, but for the two
commands whose failures leave effects. -/
theorem exec_command (hc : isCommand i = true) (s : State) :
    ∃ e u, exec i s = .next (report e u) ∧ CommandEnd i s e u := by
  cases i with
  | nop | coreReset | statusClear | outClear | bpReset | buReset | buAlign | buPosition | buRemaining | adlerSeed
  | adlerUpdate | adlerRead | crcSeed | crcUpdate | crcRead | hufLoadFixed | inflateStart =>
    exact ⟨none, _, rfl, .success rfl⟩
  | inflateRun => exact execInflateRun_end s
  | zipClose => exact execZipClose_end s
  | lzPop =>
    refine complete_end rfl ?_
    split <;> simp
  | deflate | zipEntryName | zipExtract =>
    refine complete_end rfl ?_
    simp only [keepsStatus_bind, keepsStatus_ok]
    intros
    exact status_of_appendOut ‹_›
  | blockStored | blockFixed | blockDynamic | blockReserved | zlibHeader | zipLocalHeader | zipCentralHeader | zipEocd
  | lzTokenLiteral | lzTokenMatch => cases hc
  | _ => exact complete_end rfl (by simp)

end

/-! ## Every instruction ends (spec/60 R540, R541) -/

theorem exec_command_next {i : Instr} (hc : isCommand i = true) (s : State) : ∃ t, exec i s = .next t := by
  obtain ⟨e, u, h, -⟩ := exec_command hc s
  exact ⟨_, h⟩

section
variable (s : State)

theorem andThen_total {o : StepOutcome} {f : State → StepOutcome} (ho : ∃ u, o = .next u)
    (hf : ∀ u, ∃ t, f u = .next t) : ∃ t, andThen o f = .next t := by
  obtain ⟨u, rfl⟩ := ho
  exact hf u

theorem withInput_total (bytes : Bytes) {f : State → StepOutcome} (hf : ∀ u, ∃ t, f u = .next t) :
    ∃ t, withInput s bytes f = .next t := by
  rw [withInput_eq]
  split
  · exact hf _
  · exact ⟨_, rfl⟩

theorem arriveAtDecoder_total (bytes : Bytes) : ∃ t, arriveAtDecoder bytes s = .next t :=
  withInput_total s bytes fun u => andThen_total (exec_command_next (i := .inflateFeed) rfl u)
    (exec_command_next (i := .inflateRun) rfl)

theorem openInput_total (bytes : Bytes) : ∃ t, withInput s bytes execZipOpenRead = .next t :=
  withInput_total s bytes (exec_command_next (i := .zipOpenRead) rfl)

theorem execZipLocalHeader_total (r : LocalRecord) : ∃ t, execZipLocalHeader r s = .next t :=
  withInput_total s _ fun u => andThen_total (exec_command_next (i := .zipOpenRead) rfl u) fun v =>
    exec_command_next (i := .zipExtract) rfl { v with arg := 0 }

end

/-- A wire item is handed to commands, each of which ends (log 7). -/
theorem exec_wireItem_next {i : Instr} (hw : isCommand i = false) (s : State) : ∃ t, exec i s = .next t := by
  cases i with
  | blockStored | blockFixed | blockDynamic | blockReserved | zlibHeader => exact arriveAtDecoder_total s _
  | zipLocalHeader r => exact execZipLocalHeader_total s r
  | zipCentralHeader r => exact openInput_total s (oneEntryImage [] (centralBytes r))
  | zipEocd r => exact openInput_total s (eocdBytes r)
  | lzTokenLiteral | lzTokenMatch => exact ⟨_, returnToken_eq _ s⟩
  | _ => cases hw

/-! ## The statements -/

/-- Settles O6: every command ends in a report, which writes all the fields of `STATUS`. -/
theorem statusAfterCommand : Obligations.StatusAfterCommand := by
  intro i s t hc h
  obtain ⟨e, u, hx, hend⟩ := exec_command hc s
  cases hx.symm.trans h
  have hsticky : (stickyField s.status && i != .statusClear && i != .coreReset) = stickyField u.status := by
    rw [hend.sticky, clearsStatus, Bool.not_or, ← Bool.and_assoc]
    rfl
  refine ⟨e, ?_⟩
  rw [hsticky, ← setsSticky_eq, report_status]
  exact ⟨errField_statusWord .., stickyField_statusWord .., phaseField_statusWord .., modeField_statusWord ..,
    nbitsField_statusWord .., reserved_statusWord ..⟩

/-- Settles O7: the ends of a command with an error are the rollback and the three exceptions. -/
theorem rollback : Obligations.Rollback := by
  intro i s t hc h herr
  obtain ⟨e, u, hx, hend⟩ := exec_command hc s
  cases hx.symm.trans h
  rw [errField_report] at herr ⊢
  cases hend with
  | success => exact absurd rfl herr
  | rollback => exact .inl rfl
  | moreInput hi => exact .inr (.inl ⟨hi, rfl, List.prefix_append _ _, rfl⟩)
  | hardError hi he => exact .inr (.inr (.inl ⟨hi, _, he, rfl, rfl⟩))
  | notFinalized hi hm => exact .inr (.inr (.inr ⟨hi, hm, rfl⟩))

/-- Settles O8: a command ends in a report, and a wire item in that of the last command it is handed to. -/
theorem everyInstructionEnds : Obligations.EveryInstructionEnds := by
  intro i s
  cases hc : isCommand i with
  | true => exact exec_command_next hc s
  | false => exact exec_wireItem_next hc s

/-- The only legal word with opcode 0 is 0 (spec/60 R536). -/
theorem eq_zero_of_legalWord {w : Word} (h : LegalWord w) (h0 : w.extractLsb' 0 8 = 0) : w = 0 := by
  obtain ⟨-, hmask⟩ := h
  rw [h0, and_not_eq_zero_iff, BitVec.or_comm] at hmask
  rw [← hmask]
  exact (and_noField w).trans (congrArg plainWord h0)

/-- Settles O10: none of the three has a check, and a legal word with opcode 0 has no other bit. -/
theorem housekeeping : Obligations.Housekeeping := by
  refine ⟨by decide, by decide, by decide, fun w h0 hne i h => ?_, fun s => ⟨?_, ?_, ?_⟩⟩
  · exact hne (eq_zero_of_legalWord (legalWord_iff.2 ⟨i, h⟩) h0)
  · exact congrArg Host.Outcome.next (report_none s)
  · exact congrArg Host.Outcome.next (report_none { s with out := [] })
  · refine congrArg Host.Outcome.next ((report_none { s with status := 0 }).trans ?_)
    rw [stickyField_zero]

end Sys2Proof.Machine

/-! A step forwards, from the host's next action to the outcome (spec/70 R590, R591, spec/60 R553): the converse of what
`step_next`, `fetch_run` and `fetch_settled` read off an outcome. -/

namespace Sys2Proof.Machine

section
variable {s t : State} {rest : List HostAction}

/-! ## What is fetched -/

/-- The host's next action is a packet: it is put in front of the block once it is taken off the list. -/
theorem fetch_issue {p : Packet} (h : s.host = .issue p :: rest) : fetch s = fetchPacket { s with host := rest } p := by
  rw [fetch, h]

theorem fetch_setIn {bytes : Bytes} (h : s.host = .setIn bytes :: rest) :
    fetch s = replaceOperand { s with host := rest } bytes { s with host := rest, inp := bytes } := by
  rw [fetch, h]

theorem fetch_setName {bytes : Bytes} (h : s.host = .setName bytes :: rest) :
    fetch s = replaceOperand { s with host := rest } bytes { s with host := rest, name := bytes } := by
  rw [fetch, h]

theorem fetch_setArg {w : Word} (h : s.host = .setArg w :: rest) :
    fetch s = .settled (.next { s with host := rest, arg := w }) := by
  rw [fetch, h]

theorem fetch_setArg2 {w : Word} (h : s.host = .setArg2 w :: rest) :
    fetch s = .settled (.next { s with host := rest, arg2 := w }) := by
  rw [fetch, h]

theorem fetch_idle (h : s.host = []) : fetch s = .settled (.next s) := by
  rw [fetch, h]

/-- A legal command word is left in `CMD`, and its instruction is to run. -/
theorem fetchPacket_cmd {w : Word} {i : Instr} (h : decode (.cmd w) = .ok i) :
    fetchPacket s (.cmd w) = .run i { s with cmd := w } := by
  simp only [fetchPacket, h]

theorem fetchPacket_wire {bytes : Bytes} {i : Instr} (h : decode (.wire bytes) = .ok i) :
    fetchPacket s (.wire bytes) = .run i s := by
  simp only [fetchPacket, h]

theorem replaceOperand_fits {bytes : Bytes} (h : bytes.length ≤ s.params.maxStreamBytes) :
    replaceOperand s bytes t = .settled (.next t) :=
  if_pos h

/-! ## What the step makes of it -/

theorem step_of_fetch_run {i : Instr} (h : fetch s = .run i t) : step s = exec i t := by
  rw [step, h]

theorem step_of_fetch_settled {o : StepOutcome} (h : fetch s = .settled o) : step s = o := by
  rw [step, h]

end

/-- Settles O5: each of the host's actions decides what is fetched, and the step runs or answers that. -/
theorem stepRunsInstruction : Obligations.StepRunsInstruction := by
  refine ⟨fun s w i rest hs hd => ?cmd, fun s bytes i rest hs hd => ?wire,
    fun s bytes rest hlen => ⟨fun hs => ?inp, fun hs => ?name⟩,
    fun s w rest => ⟨fun hs => ?arg, fun hs => ?arg2⟩, fun s hs => ?idle⟩
  case cmd => exact step_of_fetch_run ((fetch_issue hs).trans (fetchPacket_cmd hd))
  case wire => exact step_of_fetch_run ((fetch_issue hs).trans (fetchPacket_wire hd))
  case inp => exact step_of_fetch_settled ((fetch_setIn hs).trans (replaceOperand_fits hlen))
  case name => exact step_of_fetch_settled ((fetch_setName hs).trans (replaceOperand_fits hlen))
  case arg => exact step_of_fetch_settled (fetch_setArg hs)
  case arg2 => exact step_of_fetch_settled (fetch_setArg2 hs)
  case idle => exact step_of_fetch_settled (fetch_idle hs)

end Sys2Proof.Machine
